-- ==== Sys2Proof/Word.lean ====
section
/-! DEFINITION. The word types of the V850E2 CPU core (00_scope.md R4, R7): 32-bit words, 16-bit
halfwords, 8-bit bytes, and the 5-bit field that names a general register. -/

namespace Sys2Proof

/-- A 32-bit word: the width of every register and of a data address (R4). -/
abbrev Word := BitVec 32

/-- A 16-bit halfword: the unit an instruction is made of (30_encoding.md R120). -/
abbrev Half := BitVec 16

/-- An 8-bit byte: the smallest addressable unit (20_memory.md R80). -/
abbrev Byte := BitVec 8

/-- A general register number r0 to r31, as an instruction field holds it (30_encoding.md R121). -/
abbrev Reg := BitVec 5

/-- r3, the stack pointer (10_state.md R22). -/
abbrev Reg.sp : Reg := 3#5

/-- r30, the element pointer (10_state.md R22). -/
abbrev Reg.ep : Reg := 30#5

end Sys2Proof
end

