-- ==== Sys2Proof/Machine/Bits.lean ====
section
/-! DEFINITION. Bit-field operations on words: one bit, a set of bits, sign and zero extension
(00_scope.md R9), and the positions of the bits of PSW and DIR (10_state.md R28, R51). -/

namespace Sys2Proof.Machine

/-- `w` with bit `i` replaced by `b`. -/
def putBit (w : Word) (i : Nat) (b : Bool) : Word :=
  if b then w ||| (1#32 <<< i) else w &&& ~~~(1#32 <<< i)

/-- The bits of `new` where `mask` has a 1, the bits of `old` elsewhere. -/
def mergeBits (mask old new : Word) : Word := (old &&& ~~~mask) ||| (new &&& mask)

/-- `sext_N` of R9: the value sign-extended to a word. -/
def sext {w : Nat} (v : BitVec w) : Word := v.signExtend 32

/-- `zext_N` of R9: the value zero-extended to a word. -/
def zext {w : Nat} (v : BitVec w) : Word := v.setWidth 32

/-! ## Bit positions in PSW (10_state.md R28) -/

/-- Z, result zero. -/
abbrev Psw.z : Nat := 0
/-- S, result negative. -/
abbrev Psw.s : Nat := 1
/-- OV, overflow. -/
abbrev Psw.ov : Nat := 2
/-- CY, carry or borrow. -/
abbrev Psw.cy : Nat := 3
/-- SAT, saturation detected. -/
abbrev Psw.sat : Nat := 4
/-- ID, maskable interrupts disabled. -/
abbrev Psw.id : Nat := 5
/-- EP, exception processing. -/
abbrev Psw.ep : Nat := 6
/-- NP, NMI processing. -/
abbrev Psw.np : Nat := 7
/-- SB, what SS becomes on an interrupt. -/
abbrev Psw.sb : Nat := 10
/-- SS, single-step. -/
abbrev Psw.ss : Nat := 11

/-- The bits PSW and its saved images have; the others are fixed to 0 (R28, R36). -/
abbrev Psw.mask : Word := 0x00000CFF#32

/-! ## Bit positions in DIR (10_state.md R51) -/

/-- DM, debug mode. -/
abbrev Dir.dm : Nat := 0
/-- AT, an alignment error exception was detected. -/
abbrev Dir.alignErr : Nat := 1
/-- MT, a misaligned access exception was detected. -/
abbrev Dir.mt : Nat := 2
/-- BT0, a channel 0 break occurred. -/
abbrev Dir.bt0 : Nat := 4
/-- BT1, a channel 1 break occurred. -/
abbrev Dir.bt1 : Nat := 5
/-- INI, debug function reset. -/
abbrev Dir.ini : Nat := 6
/-- EXT, extended debug function valid. -/
abbrev Dir.ext : Nat := 7
/-- SSE, PSW.SS may be set. -/
abbrev Dir.sse : Nat := 8
/-- AEE, alignment error exception enabled. -/
abbrev Dir.aee : Nat := 9
/-- MAE, misaligned access exception enabled. -/
abbrev Dir.mae : Nat := 10
/-- CS0, channel 0 or 1 selected. -/
abbrev Dir.cs0 : Nat := 12
/-- RE0, range break mode of channels 0 and 1. -/
abbrev Dir.re0 : Nat := 13
/-- SQ0, sequential break mode of channels 0 and 1. -/
abbrev Dir.sq0 : Nat := 14
/-- STT, a debug trap was executed. -/
abbrev Dir.stt : Nat := 16
/-- BT2, a channel 2 break occurred. -/
abbrev Dir.bt2 : Nat := 20
/-- BT3, a channel 3 break occurred. -/
abbrev Dir.bt3 : Nat := 21
/-- CSL, channels 0 and 1 or channels 2 and 3 selected. -/
abbrev Dir.csl : Nat := 22
/-- CS1, channel 2 or 3 selected. -/
abbrev Dir.cs1 : Nat := 28
/-- RE1, range break mode of channels 2 and 3. -/
abbrev Dir.re1 : Nat := 29
/-- SQ1, sequential break mode of channels 2 and 3. -/
abbrev Dir.sq1 : Nat := 30

end Sys2Proof.Machine
end

