-- ==== Sys2Proof/Config.lean ====
section
/-! DEFINITION. What an implementation or a platform fixes (00_scope.md R6) and the free values:
opaque constants for what the spec leaves undefined. Nothing in Lean can evaluate a free value or
prove what it is. The parameters of R6 are data (Platform), held in State and changed by no step,
so that every claim covers each of their settings. -/

namespace Sys2Proof.Config

/-! ## Parameters (R6) -/

/-- The two readings of CY for the bit search instructions (45_data_manipulation.md R300). -/
inductive SchCyMode where
  | found
  | foundAtLastPosition
deriving DecidableEq, Repr

/-- What stands at an address (20_memory.md R82): an address in no region holds nothing (R111). -/
inductive RegionKind where
  | ram
  | rom
  | device
deriving DecidableEq, Repr

/-- One region of the platform's memory map: `size` bytes from `base`. -/
structure Region where
  base : Nat
  size : Nat
  kind : RegionKind
deriving DecidableEq, Repr

/-- The parameters of R6, fixed for a run. -/
structure Platform where
  /-- MISALIGN_ENABLED, the level of the IFIMAEN pin (20_memory.md R89). -/
  misalignEnabled : Bool
  /-- SCH_CY_MODE (45_data_manipulation.md R300). -/
  schCyMode : SchCyMode
  /-- HALT_WAKE_IGNORES_ID (60_exceptions.md R450). -/
  haltWakeIgnoresId : Bool
  /-- BREAKPOINTS_MODELLED (60_exceptions.md R460). -/
  breakpointsModelled : Bool
  /-- The memory map (20_memory.md R82), the first region that holds an address decides. -/
  memoryMap : List Region
deriving DecidableEq, Repr

/-- The setting the reset state carries. DESIGN CHOICE, unsafe for a claim that rests on it: log
entries 1 and 2. -/
def Platform.standard : Platform where
  misalignEnabled := false
  schCyMode := .found
  haltWakeIgnoresId := false
  breakpointsModelled := true
  memoryMap := [{ base := 0, size := 2 ^ 32, kind := .ram }]

/-! ## Free values

The first argument of each is the state's tick, so that two steps draw independently. -/

/-- Quotient of a division by zero (46_divide.md R311). -/
opaque divZeroQuotient : Nat → Word

/-- Remainder of a division by zero (46_divide.md R311). -/
opaque divZeroRemainder : Nat → Word

/-- S after a division by zero (46_divide.md R311). -/
opaque divZeroS : Nat → Bool

/-- Z after a division by zero (46_divide.md R311). -/
opaque divZeroZ : Nat → Bool

/-- Low word MAC and MACU write when reg3 is odd (41_multiply_mac.md R210). -/
opaque macOddLow : Nat → Word

/-- High word MAC and MACU write when reg3 is odd (41_multiply_mac.md R210). -/
opaque macOddHigh : Nat → Word

/-- The bits of a DIR read that are undefined in the current mode (10_state.md R50). -/
opaque dirUndefined : Nat → Word

/-- Which of the four listed FB values a fetch break records, by channel (60_exceptions.md R464). -/
opaque fetchBreakFb : Nat → Nat → Fin 4

/-- What the data comparators see on bus lanes that carry no data of the access, by the place of the
event in its instruction, 0 for the fetch (60_exceptions.md R465). -/
opaque idleLanes : Nat → Nat → Word

/-- The byte a data read finds at a device address (20_memory.md R97). -/
opaque deviceByte : Nat → Nat → Byte

/-- The byte an instruction fetch finds at a device address (20_memory.md R97). -/
opaque deviceFetchByte : Nat → Nat → Byte

/-- Which acceptable request is taken at the boundary before a step: the index in the list of them, none
when the index is past its end (60_exceptions.md R411). -/
opaque arbiter : Nat → Nat

end Sys2Proof.Config
end

