-- ==== Sys2Proof/Machine/State.lean ====
section
/-! DEFINITION. The state of the V850E2 CPU core as plain data (10_state.md), why a step can stop,
and the state after reset (10_state.md R60, 70_reset_and_hazards.md R471). -/

namespace Sys2Proof.Machine

/-- The size of a data access (20_memory.md R95). -/
inductive AccessSize where
  | byte
  | half
  | word
deriving DecidableEq, Repr

/-- One write to device locations, as the environment sees it (20_memory.md R97). -/
structure DeviceWrite where
  addr : Word
  size : AccessSize
  value : Word
deriving DecidableEq, Repr

/-- The five registers of one breakpoint channel (10_state.md R54, R56, R57). -/
structure BreakChannel where
  /-- Breakpoint control, regID 22. -/
  bpc : Word
  /-- Breakpoint address setting, regID 24. -/
  bpav : Word
  /-- Breakpoint address mask, regID 25. -/
  bpam : Word
  /-- Breakpoint data setting, regID 26. -/
  bpdv : Word
  /-- Breakpoint data mask, regID 27. -/
  bpdm : Word
deriving DecidableEq, Repr

/-- The machine. -/
structure State where
  /-- r0 to r31; the cell of r0 is never read (R20, R21). -/
  gpr : Vector Word 32
  /-- The program counter (R25). -/
  pc : Word
  /-- Program status word, regID 5 (R28). -/
  psw : Word
  /-- Interrupt status-saving PC, regID 0 (R36). -/
  eipc : Word
  /-- Interrupt status-saving PSW, regID 1 (R36). -/
  eipsw : Word
  /-- NMI status-saving PC, regID 2 (R37). -/
  fepc : Word
  /-- NMI status-saving PSW, regID 3 (R37). -/
  fepsw : Word
  /-- Exception cause, regID 4: FECC in bits 31:16, EICC in bits 15:0 (R40). -/
  ecr : Word
  /-- CALLT status-saving PC, regID 16 (R41). -/
  ctpc : Word
  /-- CALLT status-saving PSW, regID 17 (R41). -/
  ctpsw : Word
  /-- Exception and debug trap status-saving PC, regID 18 (R42). -/
  dbpc : Word
  /-- Exception and debug trap status-saving PSW, regID 19 (R42). -/
  dbpsw : Word
  /-- CALLT base pointer, regID 20 (R43). -/
  ctbp : Word
  /-- Debug interface register, regID 21 (R51). -/
  dir : Word
  /-- Program ID, regID 23 (R55). -/
  asid : Word
  /-- Breakpoint channels 0 to 3 (R54, R56, R57). -/
  channels : Vector BreakChannel 4
  /-- HALT mode (R75 (a)). -/
  halted : Bool
  /-- Sequential-break progress of channels 0 and 1 (R75 (d)). -/
  seq0 : Bool
  /-- Sequential-break progress of channels 2 and 3 (R75 (d)). -/
  seq1 : Bool
  /-- A single-step break is due at this boundary (60_exceptions.md R429). -/
  stepDue : Bool
  /-- No instruction has run since reset (70_reset_and_hazards.md R472). -/
  afterReset : Bool
  /-- A pending NMI0 request (R75 (b), 60_exceptions.md R410). -/
  nmi0 : Bool
  /-- A pending NMI1 request (R75 (b), 60_exceptions.md R410). -/
  nmi1 : Bool
  /-- A pending NMI2 request (R75 (b), 60_exceptions.md R410). -/
  nmi2 : Bool
  /-- The maskable request presented, with its exception code (60_exceptions.md R410). -/
  intReq : Option (BitVec 16)
  /-- The parameters of 00_scope.md R6. -/
  platform : Config.Platform
  /-- Memory: (address, byte) pairs in the canonical form of Machine/Memory.lean (20_memory.md R80). -/
  mem : List Host.Cell
  /-- The model's own: the writes to device locations so far, oldest first (20_memory.md R97). -/
  deviceOut : List DeviceWrite
  /-- The model's own: a count of steps, the argument of every free value (log entry 8). -/
  tick : Nat
  /-- The model's own: which acceptable request the next boundary takes, a free value every step draws
  anew (60_exceptions.md R411, log entry 17). -/
  choice : Nat
deriving DecidableEq, Repr

/-- Why the machine stops with a fault. Every one is safe: a claim cannot rest on what comes after. -/
inductive Fault where
  /-- An undefined instruction code is executed; raised by the step (30_encoding.md R146, log entry
  21). Safe. -/
  | undefinedInstruction
  /-- LDSR or STSR with a reserved number, LDSR to ECR, or LDSR to BPCn with a must-be-zero bit set;
  raised by LDSR and STSR (10_state.md R34, 49_special_debug.md R365, R366, log entry 22). Safe. -/
  | prohibitedSysreg
  /-- MUL or MULU with the prohibited register combination; raised by them (41_multiply_mac.md R201,
  R203, log entry 23). Safe. -/
  | prohibitedOperands
  /-- A breakpoint channel with BE = 1, FE = 1 and RE or WE = 1 would be evaluated; raised by the
  step (60_exceptions.md R460, log entry 24). Safe. -/
  | prohibitedBreakSetting
  /-- An access or a fetch outside the platform's memory map (20_memory.md R111, log entry 5). Safe. -/
  | busError
  /-- A store to a ROM region of the platform's memory map; raised by stores (20_memory.md R82, log
  entry 6). Safe. -/
  | readOnlyStore
deriving DecidableEq, Repr

/-- Why the machine refuses an instruction. -/
inductive Refusal where
  /-- The instruction has no meaning yet; raised by exec's arm alone. Safe. -/
  | notModelled (mnemonic : String)
deriving DecidableEq, Repr

/-- A breakpoint channel after reset (R54, R60): TE, BE, FE, WE, RE and FB are 0 as the spec says;
the undefined fields are 0 by DESIGN CHOICE, unsafe (log entry 4). -/
def BreakChannel.reset : BreakChannel where
  bpc := 0
  bpav := 0
  bpam := 0
  bpdv := 0
  bpdm := 0

/-- The machine right after reset (10_state.md R60, 70_reset_and_hazards.md R471, R472). PC, PSW,
ECR, DIR and the hidden state are the spec's; a register whose reset value is undefined holds 0 by
DESIGN CHOICE, unsafe (log entry 4); memory lists nothing (log entry 3). -/
def State.reset : State where
  gpr := Vector.replicate 32 0
  pc := 0x00000000
  psw := 0x00000020
  eipc := 0
  eipsw := 0
  fepc := 0
  fepsw := 0
  ecr := 0x00000000
  ctpc := 0
  ctpsw := 0
  dbpc := 0
  dbpsw := 0
  ctbp := 0
  dir := 0x00000040
  asid := 0
  channels := Vector.replicate 4 BreakChannel.reset
  halted := false
  seq0 := false
  seq1 := false
  stepDue := false
  afterReset := true
  nmi0 := false
  nmi1 := false
  nmi2 := false
  intReq := none
  platform := Config.Platform.standard
  mem := []
  deviceOut := []
  tick := 0
  choice := 0

end Sys2Proof.Machine
end

