-- ==== Sys2Proof/Machine/Memory.lean ====
section
/-! DEFINITION. Memory as a list of (address, byte) pairs in one canonical form: addresses strictly
rising below 2^32, and no entry equal to what an unlisted address reads as (20_memory.md R80, R83). -/

namespace Sys2Proof.Machine

/-- What a byte of memory that nothing has written reads as. DESIGN CHOICE, unsafe: the spec states
no memory contents at reset (20_memory.md R83, log entry 3). -/
abbrev Memory.unwritten : Byte := 0#8

/-- The byte at an address. -/
def Memory.read : List Host.Cell → Nat → Byte
  | [], _ => Memory.unwritten
  | (k, v) :: m, a => if k = a then v else Memory.read m a

/-- The list with the entry for `a` put in its place. -/
def Memory.insert (a : Nat) (b : Byte) : List Host.Cell → List Host.Cell
  | [] => [(a, b)]
  | (k, v) :: m =>
    if k < a then (k, v) :: Memory.insert a b m
    else if k = a then (a, b) :: m
    else (a, b) :: (k, v) :: m

/-- Stores one byte, keeping the canonical form: the value an unlisted address reads as removes the
entry. -/
def Memory.write (m : List Host.Cell) (a : Nat) (b : Byte) : List Host.Cell :=
  if b = Memory.unwritten then m.filter (fun cell => cell.1 != a) else Memory.insert a b m

/-- Addresses strictly rising, from `least` on and below 2^32, no entry a default byte. -/
def Memory.wfFrom (least : Nat) : List Host.Cell → Bool
  | [] => true
  | (k, v) :: m =>
    decide (least ≤ k) && decide (k < 2 ^ 32) && decide (v ≠ Memory.unwritten)
      && Memory.wfFrom (k + 1) m

/-- The canonical form. -/
def Memory.wf (m : List Host.Cell) : Bool := Memory.wfFrom 0 m

/-- The kind of the first region that holds an address, none where the map holds nothing
(20_memory.md R82, R111). -/
def regionKind (map : List Config.Region) (a : Nat) : Option Config.RegionKind :=
  match map with
  | [] => none
  | r :: rs => if r.base ≤ a ∧ a < r.base + r.size then some r.kind else regionKind rs a

end Sys2Proof.Machine
end

