-- ==== Sys2Proof/Machine/Ops.lean ====
section
/-! DEFINITION. The named operations over registers, PC, PSW and memory, the one operation that
takes an exception (60_exceptions.md section 4) and the one that returns (section 5). -/

namespace Sys2Proof.Machine

/-- What a step answers. -/
abbrev Result := Host.Outcome State Fault Refusal

/-! ## General registers and PC -/

/-- `GR[r]`: r0 reads 0 (10_state.md R21). -/
def State.reg (s : State) (r : Reg) : Word :=
  if r = 0#5 then 0#32 else s.gpr[r.toNat]'r.isLt

/-- `GR[r] <- v`: a write to r0 is discarded (10_state.md R21). -/
def State.setReg (s : State) (r : Reg) (v : Word) : State :=
  if r = 0#5 then s else { s with gpr := s.gpr.set r.toNat v r.isLt }

/-- The reduction of every value assigned to PC: bits 31:29 and bit 0 are 0 (10_state.md R25). -/
def reducePc (v : Word) : Word := v &&& 0x1FFFFFFE#32

/-- `PC <- v` (10_state.md R25). -/
def State.setPc (s : State) (v : Word) : State := { s with pc := reducePc v }

/-- The address `n` bytes after the instruction at PC, modulo 2^29 (10_state.md R26, R27). -/
def State.pcAfter (s : State) (n : Nat) : Word := reducePc (s.pc + BitVec.ofNat 32 n)

/-- `PC <- pc + length`: the end of an instruction that does not transfer control (R26). -/
def State.advance (s : State) (n : Nat) : State := { s with pc := s.pcAfter n }

/-! ## PSW and DIR -/

/-- User mode, DIR.DM = 0 (60_exceptions.md R405). -/
def State.userMode (s : State) : Bool := !s.dir.getLsbD Dir.dm

/-- What a whole word written to PSW leaves there: reserved bits stay 0 (10_state.md R28), SS stays
0 while DIR.SSE = 0 (R53 (d)). -/
def legalPsw (dir v : Word) : Word :=
  putBit (v &&& Psw.mask) Psw.ss (v.getLsbD Psw.ss && dir.getLsbD Dir.sse)

/-- `PSW <- v` for a write of the whole register (LDSR, and the restores of a return). -/
def State.setPsw (s : State) (v : Word) : State := { s with psw := legalPsw s.dir v }

/-! ## Data memory (20_memory.md R87 to R97, R111) -/

/-- The number of bytes of an access. -/
def AccessSize.bytes : AccessSize → Nat
  | .byte => 1
  | .half => 2
  | .word => 4

/-- The alignment step of R90. -/
def alignAddr (misalignEnabled : Bool) (size : AccessSize) (a : Word) : Word :=
  if misalignEnabled then a
  else
    match size with
    | .byte => a
    | .half => a &&& 0xFFFFFFFE#32
    | .word => a &&& 0xFFFFFFFC#32

/-- A stack address: bits 1 and 0 are always masked (R91). -/
def stackAddr (sp : Word) : Word := sp &&& 0xFFFFFFFC#32

/-- A misaligned address (R89). -/
def misaligned (size : AccessSize) (a : Word) : Bool :=
  match size with
  | .byte => false
  | .half => a.getLsbD 0
  | .word => a.getLsbD 0 || a.getLsbD 1

/-- The addresses of the bytes of an access, modulo 2^32 (R87). -/
def byteAddrs (a : Word) (size : AccessSize) : List Word :=
  (List.range size.bytes).map (fun k => a + BitVec.ofNat 32 k)

/-- What stands at an address (R82). -/
def State.kindAt (s : State) (a : Word) : Option Config.RegionKind :=
  regionKind s.platform.memoryMap a.toNat

/-- Every byte of the access is in the memory map (R111). -/
def State.mapped (s : State) (a : Word) (size : AccessSize) : Bool :=
  (byteAddrs a size).all (fun x => (s.kindAt x).isSome)

/-- No byte of the access is in ROM (R82). -/
def State.storable (s : State) (a : Word) (size : AccessSize) : Bool :=
  (byteAddrs a size).all (fun x => s.kindAt x != some .rom)

/-- Some byte of the access is a device location (R97). -/
def State.touchesDevice (s : State) (a : Word) (size : AccessSize) : Bool :=
  (byteAddrs a size).any (fun x => s.kindAt x == some .device)

/-- The byte a data read finds: an environment input at a device location (R97). -/
def State.byteAt (s : State) (a : Word) : Byte :=
  if s.kindAt a = some .device then Config.deviceByte s.tick a.toNat
  else Memory.read s.mem a.toNat

/-- The value of the bytes at `a`, little endian, zero-extended to a word (R85, R87). -/
def State.valueAt (s : State) (a : Word) (size : AccessSize) : Word :=
  match size with
  | .byte => zext (s.byteAt a)
  | .half => zext (s.byteAt (a + 1) ++ s.byteAt a)
  | .word => s.byteAt (a + 3) ++ s.byteAt (a + 2) ++ s.byteAt (a + 1) ++ s.byteAt a

/-- An access at exactly `a`; outside the map it is the model fault BusError (R111). -/
def State.readAt (s : State) (a : Word) (size : AccessSize) : Except Fault Word :=
  if s.mapped a size then .ok (s.valueAt a size) else .error .busError

/-- The low bytes of `v`, least significant first (R87). -/
def bytesOf (size : AccessSize) (v : Word) : List Byte :=
  (List.range size.bytes).map (fun k => v.extractLsb' (8 * k) 8)

/-- Memory after the bytes are stored from `a` on; a device location keeps no byte (R97). -/
def State.storeBytes (s : State) (m : List Host.Cell) (a : Word) : List Byte → List Host.Cell
  | [] => m
  | b :: bs =>
    s.storeBytes (if s.kindAt a = some .device then m else Memory.write m a.toNat b) (a + 1) bs

/-- The state after a store at exactly `a`: memory, and the environment's record of a write to a
device location (R87, R97). That an access with any device byte is one record of the whole access is a
DESIGN CHOICE, unsafe (log entry 50). -/
def State.stored (s : State) (a : Word) (size : AccessSize) (v : Word) : State :=
  { s with
    mem := s.storeBytes s.mem a (bytesOf size v)
    deviceOut :=
      if s.touchesDevice a size then
        s.deviceOut ++ [{ addr := a, size := size, value := v &&& (BitVec.ofNat 32 (256 ^ size.bytes - 1)) }]
      else s.deviceOut }

/-- A store at exactly `a`. Outside the map it is BusError (R111), in ROM readOnlyStore (log entry
6); then no byte is written. -/
def State.writeAt (s : State) (a : Word) (size : AccessSize) (v : Word) : Except Fault State :=
  if s.mapped a size then
    if s.storable a size then .ok (s.stored a size v) else .error .readOnlyStore
  else .error .busError

/-- `MemRead(a, n)` of 00_scope.md R9, after the alignment step. -/
def State.memRead (s : State) (a : Word) (size : AccessSize) : Except Fault Word :=
  s.readAt (alignAddr s.platform.misalignEnabled size a) size

/-- `MemWrite(a, n, v)` of 00_scope.md R9, after the alignment step. -/
def State.memWrite (s : State) (a : Word) (size : AccessSize) (v : Word) : Except Fault State :=
  s.writeAt (alignAddr s.platform.misalignEnabled size a) size v

/-! ## Taking an exception (60_exceptions.md section 4) -/

/-- The saving register pairs (10_state.md R36, R37, R41, R42). -/
inductive SaveBank where
  | ei
  | fe
  | ct
  | db
deriving DecidableEq, Repr

/-- Saves a PC and the current PSW into a pair; the fixed-0 bits of the registers stay 0 (R36, R38). -/
def State.save (s : State) (bank : SaveBank) (pc : Word) : State :=
  let pc' := pc &&& 0x1FFFFFFF#32
  let psw' := s.psw &&& Psw.mask
  match bank with
  | .ei => { s with eipc := pc', eipsw := psw' }
  | .fe => { s with fepc := pc', fepsw := psw' }
  | .ct => { s with ctpc := pc', ctpsw := psw' }
  | .db => { s with dbpc := pc', dbpsw := psw' }

/-- What an entry sequence does: which pair saves which PC, the code it puts in its half of ECR, the
PSW bits it sets and clears, whether SS takes SB, whether debug mode is entered, whether HALT mode
ends, and the handler address. -/
structure Entry where
  bank : SaveBank
  returnPc : Word
  code : Option (BitVec 16)
  setBits : Word
  clearBits : Word
  transferSb : Bool
  toDebug : Bool
  wake : Bool
  handler : Word
deriving DecidableEq, Repr

/-- ECR with the code in EICC or, for the NMI pair, in FECC; the other half stays (10_state.md R40). -/
def ecrWith (ecr : Word) (bank : SaveBank) (code : Option (BitVec 16)) : Word :=
  match code with
  | none => ecr
  | some k =>
    match bank with
    | .fe => k ++ ecr.extractLsb' 0 16
    | _ => ecr.extractLsb' 16 16 ++ k

/-- PSW after an entry sequence; the SB to SS transfer is subject to DIR.SSE (10_state.md R53 (d)). -/
def enteredPsw (psw dir : Word) (e : Entry) : Word :=
  let p := (psw ||| e.setBits) &&& ~~~e.clearBits
  if e.transferSb then putBit p Psw.ss (p.getLsbD Psw.sb && dir.getLsbD Dir.sse) else p

/-- Taking an exception: the one operation every entry sequence is (60_exceptions.md R420 to R428). -/
def State.enter (s : State) (e : Entry) : State :=
  { s.save e.bank e.returnPc with
    ecr := ecrWith s.ecr e.bank e.code
    psw := enteredPsw s.psw s.dir e
    dir := if e.toDebug then putBit s.dir Dir.dm true else s.dir
    halted := s.halted && !e.wake
    pc := reducePc e.handler }

/-- PSW.ID. -/
abbrev Psw.idBit : Word := 0x20#32
/-- PSW.EP. -/
abbrev Psw.epBit : Word := 0x40#32
/-- PSW.NP. -/
abbrev Psw.npBit : Word := 0x80#32

/-- Software exception entry (60_exceptions.md R424, 49_special_debug.md R370). -/
def trapEntry (returnPc : Word) (vector : BitVec 5) : Entry where
  bank := .ei
  returnPc := returnPc
  code := some (0x0040#16 + vector.setWidth 16)
  setBits := Psw.epBit ||| Psw.idBit
  clearBits := 0
  transferSb := false
  toDebug := false
  wake := false
  handler := if vector.getLsbD 4 then 0x00000050#32 else 0x00000040#32

/-- Maskable interrupt entry (60_exceptions.md R420). -/
def intEntry (returnPc : Word) (code : BitVec 16) : Entry where
  bank := .ei
  returnPc := returnPc
  code := some code
  setBits := Psw.idBit
  clearBits := Psw.epBit
  transferSb := true
  toDebug := false
  wake := true
  handler := zext code

/-- The three NMI inputs (60_exceptions.md R410). -/
inductive NmiLine where
  | nmi0
  | nmi1
  | nmi2
deriving DecidableEq, Repr

/-- The exception code of an NMI input, also the low half of its handler address (R400). -/
def NmiLine.code : NmiLine → BitVec 16
  | .nmi0 => 0x0010#16
  | .nmi1 => 0x0020#16
  | .nmi2 => 0x0030#16

/-- NMI entry (60_exceptions.md R422). -/
def nmiEntry (returnPc : Word) (line : NmiLine) : Entry where
  bank := .fe
  returnPc := returnPc
  code := some line.code
  setBits := Psw.npBit ||| Psw.idBit
  clearBits := Psw.epBit
  transferSb := true
  toDebug := false
  wake := true
  handler := zext line.code

/-- Entry to debug mode: exception trap, debug trap and, with `wake`, debug break
(60_exceptions.md R426, R427, R428). ECR is not written. -/
def debugEntry (returnPc : Word) (wake : Bool) : Entry where
  bank := .db
  returnPc := returnPc
  code := none
  setBits := Psw.npBit ||| Psw.epBit ||| Psw.idBit
  clearBits := 0
  transferSb := false
  toDebug := true
  wake := wake
  handler := 0x00000060#32

/-- The exception trap (ILGOP): the code is 4 bytes long (60_exceptions.md R426). -/
def State.exceptionTrap (s : State) : State := s.enter (debugEntry (s.pcAfter 4) false)

/-- A debug break with the DBPC of its cause (60_exceptions.md R428). -/
def State.debugBreak (s : State) (dbpc : Word) : State := s.enter (debugEntry dbpc true)

/-- The misaligned access exception: the instruction does nothing else (60_exceptions.md R463). -/
def State.misalignBreak (s : State) : State :=
  let t := s.debugBreak s.pc
  { t with dir := putBit t.dir Dir.mt true }

/-- The alignment error exception: the instruction does nothing else (60_exceptions.md R463). -/
def State.alignErrorBreak (s : State) : State :=
  let t := s.debugBreak s.pc
  { t with dir := putBit t.dir Dir.alignErr true }

/-- A load or store at `a` raises the misaligned access exception (60_exceptions.md R463). -/
def State.misalignDetected (s : State) (a : Word) (size : AccessSize) : Bool :=
  s.userMode && s.dir.getLsbD Dir.mae && misaligned size a

/-- PREPARE or DISPOSE raises the alignment error exception (60_exceptions.md R463). -/
def State.alignErrorDetected (s : State) : Bool :=
  s.userMode && s.dir.getLsbD Dir.aee && misaligned .word (s.reg Reg.sp)

/-! ## Returning (60_exceptions.md section 5) -/

/-- The PC a pair holds. -/
def State.savedPc (s : State) : SaveBank → Word
  | .ei => s.eipc
  | .fe => s.fepc
  | .ct => s.ctpc
  | .db => s.dbpc

/-- The PSW a pair holds. -/
def State.savedPsw (s : State) : SaveBank → Word
  | .ei => s.eipsw
  | .fe => s.fepsw
  | .ct => s.ctpsw
  | .db => s.dbpsw

/-- Returning: PC and the whole PSW from a pair; bit 0 of the saved PC is ignored (10_state.md R39),
SS is gated by DIR.SSE (R53 (d)). -/
def State.returnFrom (s : State) (bank : SaveBank) : State :=
  { s with pc := reducePc (s.savedPc bank), psw := legalPsw s.dir (s.savedPsw bank) }

/-! ## Outcomes -/

/-- A result from an operation that may fault. -/
def ofExcept : Except Fault State → Result
  | .ok s => .next s
  | .error f => .fault f

end Sys2Proof.Machine
end

