-- ==== Sys2Proof/Syntax.lean ====
section
/-! DEFINITION. The instructions of the V850E2 CPU core, one constructor per row of
spec/opcode_table.json, operands in the manual's order (30_encoding.md R155). A displacement or
immediate is held as the assembly operand; bits the encoding does not store are WellFormed's
business. -/

namespace Sys2Proof

/-- The sixteen condition codes of Table 5-4 (10_state.md R30, 30_encoding.md R156). -/
inductive Cond where
  | v    -- 0000
  | c    -- 0001, also L
  | z    -- 0010, also E
  | nh   -- 0011
  | n    -- 0100
  | r    -- 0101, always
  | lt   -- 0110
  | le   -- 0111
  | nv   -- 1000
  | nc   -- 1001, also NL
  | nz   -- 1010, also NE
  | h    -- 1011
  | p    -- 1100
  | sa   -- 1101
  | ge   -- 1110
  | gt   -- 1111
deriving DecidableEq, Repr

/-- The twelve register-list bits of PREPARE and DISPOSE: bits 11 down to 1 are the list word's
bits 31 down to 21 (r24 r25 r26 r27 r20 r21 r22 r23 r28 r29 r31), bit 0 is its bit 0 (r30)
(30_encoding.md R137). -/
abbrev List12 := BitVec 12

/-- One constructor per row of spec/opcode_table.json, in the table's order. -/
inductive Instr where
  -- Format I
  | nop
  | movReg (reg1 reg2 : Reg)
  | notReg (reg1 reg2 : Reg)
  | divhReg (reg1 reg2 : Reg)
  | switch (reg1 : Reg)
  | dbtrap
  | jmpReg (reg1 : Reg)
  | satsubr (reg1 reg2 : Reg)
  | satsubReg (reg1 reg2 : Reg)
  | sataddReg (reg1 reg2 : Reg)
  | mulhReg (reg1 reg2 : Reg)
  | zxb (reg1 : Reg)
  | sxb (reg1 : Reg)
  | zxh (reg1 : Reg)
  | sxh (reg1 : Reg)
  | orReg (reg1 reg2 : Reg)
  | xorReg (reg1 reg2 : Reg)
  | andReg (reg1 reg2 : Reg)
  | tst (reg1 reg2 : Reg)
  | subr (reg1 reg2 : Reg)
  | sub (reg1 reg2 : Reg)
  | addReg (reg1 reg2 : Reg)
  | cmpReg (reg1 reg2 : Reg)
  -- Format II
  | movImm5 (imm5 : BitVec 5) (reg2 : Reg)
  | sataddImm5 (imm5 : BitVec 5) (reg2 : Reg)
  | addImm5 (imm5 : BitVec 5) (reg2 : Reg)
  | cmpImm5 (imm5 : BitVec 5) (reg2 : Reg)
  | callt (imm6 : BitVec 6)
  | shrImm5 (imm5 : BitVec 5) (reg2 : Reg)
  | sarImm5 (imm5 : BitVec 5) (reg2 : Reg)
  | shlImm5 (imm5 : BitVec 5) (reg2 : Reg)
  | mulhImm5 (imm5 : BitVec 5) (reg2 : Reg)
  -- Format III
  | bcond (cond : Cond) (disp9 : BitVec 9)
  -- Format IV
  | sldbu (disp4 : BitVec 4) (reg2 : Reg)
  | sldhu (disp5 : BitVec 5) (reg2 : Reg)
  | sldb (disp7 : BitVec 7) (reg2 : Reg)
  | sstb (reg2 : Reg) (disp7 : BitVec 7)
  | sldh (disp8 : BitVec 8) (reg2 : Reg)
  | ssth (reg2 : Reg) (disp8 : BitVec 8)
  | sldw (disp8 : BitVec 8) (reg2 : Reg)
  | sstw (reg2 : Reg) (disp8 : BitVec 8)
  -- Format V
  | jarl22 (disp22 : BitVec 22) (reg2 : Reg)
  | jr22 (disp22 : BitVec 22)
  -- Format VI
  | addi (imm16 : BitVec 16) (reg1 reg2 : Reg)
  | movea (imm16 : BitVec 16) (reg1 reg2 : Reg)
  | movImm32 (imm32 : BitVec 32) (reg1 : Reg)
  | movhi (imm16 : BitVec 16) (reg1 reg2 : Reg)
  | satsubi (imm16 : BitVec 16) (reg1 reg2 : Reg)
  | ori (imm16 : BitVec 16) (reg1 reg2 : Reg)
  | xori (imm16 : BitVec 16) (reg1 reg2 : Reg)
  | andi (imm16 : BitVec 16) (reg1 reg2 : Reg)
  | mulhi (imm16 : BitVec 16) (reg1 reg2 : Reg)
  | jmpDisp32 (disp32 : BitVec 32) (reg1 : Reg)
  | jr32 (disp32 : BitVec 32)
  | jarl32 (disp32 : BitVec 32) (reg1 : Reg)
  -- Format VII
  | ldb (disp16 : BitVec 16) (reg1 reg2 : Reg)
  | ldh (disp16 : BitVec 16) (reg1 reg2 : Reg)
  | ldw (disp16 : BitVec 16) (reg1 reg2 : Reg)
  | stb (reg2 : Reg) (disp16 : BitVec 16) (reg1 : Reg)
  | sth (reg2 : Reg) (disp16 : BitVec 16) (reg1 : Reg)
  | stw (reg2 : Reg) (disp16 : BitVec 16) (reg1 : Reg)
  | ldbu (disp16 : BitVec 16) (reg1 reg2 : Reg)
  | ldhu (disp16 : BitVec 16) (reg1 reg2 : Reg)
  -- Format VIII
  | set1Imm (bit3 : BitVec 3) (disp16 : BitVec 16) (reg1 : Reg)
  | not1Imm (bit3 : BitVec 3) (disp16 : BitVec 16) (reg1 : Reg)
  | clr1Imm (bit3 : BitVec 3) (disp16 : BitVec 16) (reg1 : Reg)
  | tst1Imm (bit3 : BitVec 3) (disp16 : BitVec 16) (reg1 : Reg)
  -- Format IX
  | setf (cond : Cond) (reg2 : Reg)
  | ldsr (reg2 : Reg) (regID : BitVec 5)
  | stsr (regID : BitVec 5) (reg2 : Reg)
  | shrReg (reg1 reg2 : Reg)
  | sarReg (reg1 reg2 : Reg)
  | shlReg (reg1 reg2 : Reg)
  | set1Reg (reg2 reg1 : Reg)
  | not1Reg (reg2 reg1 : Reg)
  | clr1Reg (reg2 reg1 : Reg)
  | tst1Reg (reg2 reg1 : Reg)
  | sasf (cond : Cond) (reg2 : Reg)
  | sch0r (reg2 reg3 : Reg)
  | sch1r (reg2 reg3 : Reg)
  | sch0l (reg2 reg3 : Reg)
  | sch1l (reg2 reg3 : Reg)
  -- Format X
  | trap (vector : BitVec 5)
  | halt
  | reti
  | ctret
  | dbret
  | di
  | ei
  -- Format XI
  | shr3 (reg1 reg2 reg3 : Reg)
  | sar3 (reg1 reg2 reg3 : Reg)
  | shl3 (reg1 reg2 reg3 : Reg)
  | mul (reg1 reg2 reg3 : Reg)
  | mulu (reg1 reg2 reg3 : Reg)
  | divh3 (reg1 reg2 reg3 : Reg)
  | divhu (reg1 reg2 reg3 : Reg)
  | div (reg1 reg2 reg3 : Reg)
  | divu (reg1 reg2 reg3 : Reg)
  | cmov (cond : Cond) (reg1 reg2 reg3 : Reg)
  | sbf (cond : Cond) (reg1 reg2 reg3 : Reg)
  | satsub3 (reg1 reg2 reg3 : Reg)
  | adf (cond : Cond) (reg1 reg2 reg3 : Reg)
  | satadd3 (reg1 reg2 reg3 : Reg)
  | mac (reg1 reg2 reg3 reg4 : Reg)
  | macu (reg1 reg2 reg3 reg4 : Reg)
  -- Format XII
  | mulImm9 (imm9 : BitVec 9) (reg2 reg3 : Reg)
  | muluImm9 (imm9 : BitVec 9) (reg2 reg3 : Reg)
  | cmovImm5 (cond : Cond) (imm5 : BitVec 5) (reg2 reg3 : Reg)
  | bsw (reg2 reg3 : Reg)
  | bsh (reg2 reg3 : Reg)
  | hsw (reg2 reg3 : Reg)
  | hsh (reg2 reg3 : Reg)
  -- Format XIII
  | dispose (imm5 : BitVec 5) (list12 : List12)
  | disposeJmp (imm5 : BitVec 5) (list12 : List12) (reg1 : Reg)
  | prepare (list12 : List12) (imm5 : BitVec 5)
  | prepareSp (list12 : List12) (imm5 : BitVec 5)
  | prepareImm16 (list12 : List12) (imm5 : BitVec 5) (imm16 : BitVec 16)
  | prepareImm16Hi (list12 : List12) (imm5 : BitVec 5) (imm16 : BitVec 16)
  | prepareImm32 (list12 : List12) (imm5 : BitVec 5) (imm32 : BitVec 32)
deriving DecidableEq, Repr

end Sys2Proof
end

