-- ==== Sys2Proof/Machine/Flags.lean ====
section
/-! DEFINITION. Conditions and flag computations (10_state.md R30, R31; 42_arithmetic.md R215;
43_saturate.md R240, R241; 44_logical.md R255; 45_data_manipulation.md R270 to R300). -/

namespace Sys2Proof.Machine

/-- The flags CY, OV, S, Z in PSW replaced; SAT and every other bit stay. -/
def putFlags (psw : Word) (cy ov sg z : Bool) : Word :=
  putBit (putBit (putBit (putBit psw Psw.cy cy) Psw.ov ov) Psw.s sg) Psw.z z

/-- The flags OV, S, Z in PSW replaced; CY, SAT and every other bit stay. -/
def putFlagsNoCy (psw : Word) (ov sg z : Bool) : Word :=
  putBit (putBit (putBit psw Psw.ov ov) Psw.s sg) Psw.z z

/-- PSW with CY, OV and the S and Z of a result. -/
def State.withFlags (s : State) (cy ov : Bool) (r : Word) : State :=
  { s with psw := putFlags s.psw cy ov r.msb (r == 0#32) }

/-- PSW with OV and the S and Z of a result, CY unchanged (R255, 46_divide.md R310). -/
def State.withFlagsNoCy (s : State) (ov : Bool) (r : Word) : State :=
  { s with psw := putFlagsNoCy s.psw ov r.msb (r == 0#32) }

/-- PSW with Z replaced (48_bit_manipulation.md R345). -/
def State.withZ (s : State) (z : Bool) : State := { s with psw := putBit s.psw Psw.z z }

/-! ## Conditions -/

/-- `cond(cccc)` of Table 5-4 on a PSW (10_state.md R30). -/
def condHolds (psw : Word) : Cond → Bool
  | .v => psw.getLsbD Psw.ov
  | .nv => !psw.getLsbD Psw.ov
  | .c => psw.getLsbD Psw.cy
  | .nc => !psw.getLsbD Psw.cy
  | .z => psw.getLsbD Psw.z
  | .nz => !psw.getLsbD Psw.z
  | .nh => psw.getLsbD Psw.cy || psw.getLsbD Psw.z
  | .h => !(psw.getLsbD Psw.cy || psw.getLsbD Psw.z)
  | .n => psw.getLsbD Psw.s
  | .p => !psw.getLsbD Psw.s
  | .r => true
  | .sa => psw.getLsbD Psw.sat
  | .lt => psw.getLsbD Psw.s ^^ psw.getLsbD Psw.ov
  | .ge => !(psw.getLsbD Psw.s ^^ psw.getLsbD Psw.ov)
  | .le => (psw.getLsbD Psw.s ^^ psw.getLsbD Psw.ov) || psw.getLsbD Psw.z
  | .gt => !((psw.getLsbD Psw.s ^^ psw.getLsbD Psw.ov) || psw.getLsbD Psw.z)

/-- `cond(cccc)` on the PSW as it stands. -/
def State.cond (s : State) (cc : Cond) : Bool := condHolds s.psw cc

/-! ## Addition and subtraction (42_arithmetic.md R215) -/

/-- The result, carry or borrow, and overflow of an addition or subtraction. -/
structure Sum where
  value : Word
  cy : Bool
  ov : Bool
deriving DecidableEq, Repr

/-- A signed number that needs more than 32 bits. -/
def overflows (n : Int) : Bool := decide (n < -2 ^ 31) || decide (2 ^ 31 ≤ n)

/-- AddFlags(a, b, c) (R215). -/
def addFlags (a b : Word) (c : Bool) : Sum where
  value := a + b + BitVec.ofNat 32 c.toNat
  cy := decide (2 ^ 32 ≤ a.toNat + b.toNat + c.toNat)
  ov := overflows (a.toInt + b.toInt + c.toNat)

/-- SubFlags(a, b, c), a minus b (R215). -/
def subFlags (a b : Word) (c : Bool) : Sum where
  value := a - b - BitVec.ofNat 32 c.toNat
  cy := decide (a.toNat < b.toNat + c.toNat)
  ov := overflows (a.toInt - b.toInt - c.toNat)

/-- The flags of an addition, subtraction or comparison (R215). -/
def State.withSum (s : State) (r : Sum) : State := s.withFlags r.cy r.ov r.value

/-! ## Saturation (43_saturate.md R240, R241) -/

/-- `saturated(n)` (R240). -/
def saturated (n : Int) : Word :=
  if 2 ^ 31 ≤ n then 0x7FFFFFFF#32
  else if n < -2 ^ 31 then 0x80000000#32
  else BitVec.ofInt 32 n

/-- The flags of a saturated instruction: CY and OV of the unsaturated operation `r`, S and Z of the
saturated result, SAT set when OV is set and unchanged otherwise (R241). -/
def State.withSaturation (s : State) (r : Sum) (res : Word) : State :=
  let t := s.withFlags r.cy r.ov res
  if r.ov then { t with psw := putBit t.psw Psw.sat true } else t

/-! ## Shifts (45_data_manipulation.md R280) -/

/-- A shift result and the last bit shifted out, 0 when the count is 0. -/
structure Shifted where
  value : Word
  cy : Bool
deriving DecidableEq, Repr

/-- Arithmetic right shift by a count of 0 to 31. -/
def shiftSar (x : Word) (n : Nat) : Shifted where
  value := x.sshiftRight n
  cy := decide (0 < n) && x.getLsbD (n - 1)

/-- Logical right shift by a count of 0 to 31. -/
def shiftShr (x : Word) (n : Nat) : Shifted where
  value := x >>> n
  cy := decide (0 < n) && x.getLsbD (n - 1)

/-- Logical left shift by a count of 0 to 31. -/
def shiftShl (x : Word) (n : Nat) : Shifted where
  value := x <<< n
  cy := decide (0 < n) && x.getLsbD (32 - n)

/-! ## Swaps (45_data_manipulation.md R271 to R274) -/

/-- Byte `k` of a word, byte 0 the lowest. -/
def byteOf (x : Word) (k : Nat) : Byte := x.extractLsb' (8 * k) 8

/-- Halfword `k` of a word, halfword 0 the lowest. -/
def halfOf (x : Word) (k : Nat) : Half := x.extractLsb' (16 * k) 16

/-- BSH: the bytes of each halfword swapped (R271). -/
def swapBytesHalf (x : Word) : Word := byteOf x 2 ++ byteOf x 3 ++ byteOf x 0 ++ byteOf x 1

/-- BSW: the four bytes reversed (R272). -/
def swapBytesWord (x : Word) : Word := byteOf x 0 ++ byteOf x 1 ++ byteOf x 2 ++ byteOf x 3

/-- HSW: the halfwords swapped (R274). -/
def swapHalves (x : Word) : Word := halfOf x 0 ++ halfOf x 1

/-- PSW after a swap: OV is 0, S the top bit, CY and Z the zero tests of the instruction (R270). -/
def State.withSwap (s : State) (cy z : Bool) (r : Word) : State :=
  { s with psw := putFlags s.psw cy false r.msb z }

/-! ## Bit search (45_data_manipulation.md R300) -/

/-- Which of `fuel` bits examined in order, the `k`-th first, is the first to match; 0 if none. -/
def firstMatch (hit : Nat → Bool) : Nat → Nat → Nat
  | 0, _ => 0
  | fuel + 1, k => if hit k then k else firstMatch hit fuel (k + 1)

/-- The `k`-th bit examined from the left is bit `32 - k`. -/
def searchLeft (x : Word) (b : Bool) : Nat := firstMatch (fun k => x.getLsbD (32 - k) == b) 32 1

/-- The `k`-th bit examined from the right is bit `k - 1`. -/
def searchRight (x : Word) (b : Bool) : Nat := firstMatch (fun k => x.getLsbD (k - 1) == b) 32 1

/-- CY of a bit search whose result is `k` (R300, SCH_CY_MODE). -/
def searchCy (mode : Config.SchCyMode) (k : Nat) : Bool :=
  match mode with
  | .found => k != 0
  | .foundAtLastPosition => k == 32

/-- PSW after a bit search: OV and S are 0, Z says that nothing was found (R300). -/
def State.withSearch (s : State) (k : Nat) : State :=
  { s with psw := putFlags s.psw (searchCy s.platform.schCyMode k) false false (k == 0) }

end Sys2Proof.Machine
end

