-- ==== Sys2Proof/Machine/Operands.lean ====
section
/-! DEFINITION. Operand forms: effective addresses, immediates, shift counts, bit numbers, register
lists (30_encoding.md R137, R138; 40_load_store.md R170; 48_bit_manipulation.md R345). -/

namespace Sys2Proof.Machine

/-- `disp16[reg1]`: based addressing type 1 (40_load_store.md R170). -/
def State.dispAddr (s : State) (reg1 : Reg) (disp16 : BitVec 16) : Word := s.reg reg1 + sext disp16

/-- `disp[ep]`: based addressing type 2, the displacement zero-extended (40_load_store.md R170). -/
def State.epAddr {w : Nat} (s : State) (disp : BitVec w) : Word := s.reg Reg.ep + zext disp

/-- A signed imm5 (30_encoding.md R138). -/
def immSigned5 (imm5 : BitVec 5) : Word := sext imm5

/-- `imm16 || 0000H` (30_encoding.md R138). -/
def immHigh (imm16 : BitVec 16) : Word := imm16 ++ 0#16

/-- The frame size of PREPARE and DISPOSE: imm5 zero-extended and shifted left by 2
(30_encoding.md R138, 90_conflicts.md C2). -/
def frameBytes (imm5 : BitVec 5) : Word := zext imm5 <<< 2

/-- The count of a register shift: the low five bits of reg1 (45_data_manipulation.md R280). -/
def State.shiftCount (s : State) (reg1 : Reg) : Nat := (s.reg reg1).toNat % 32

/-- The bit number of form (2) of the bit manipulation instructions: the low three bits of reg2
(48_bit_manipulation.md R345). -/
def State.bitNumber (s : State) (reg2 : Reg) : Nat := (s.reg reg2).toNat % 8

/-- The low halfword of a register, as MULH and DIVH read it (41_multiply_mac.md R205). -/
def State.lowHalf (s : State) (r : Reg) : BitVec 16 := (s.reg r).extractLsb' 0 16

/-- The twelve registers of a register list in ascending order, each with its place in List12
(30_encoding.md R137). -/
def listPlaces : List (Reg × Nat) :=
  [(20#5, 7), (21#5, 6), (22#5, 5), (23#5, 4), (24#5, 11), (25#5, 10), (26#5, 9), (27#5, 8),
   (28#5, 3), (29#5, 2), (30#5, 0), (31#5, 1)]

/-- The registers a list selects, r20 first (30_encoding.md R137, 49_special_debug.md R375). -/
def listRegs (list12 : List12) : List Reg :=
  (listPlaces.filter (fun p => list12.getLsbD p.2)).map Prod.fst

end Sys2Proof.Machine
end

