-- ==== Sys2Proof/Machine/BitManip.lean ====
section
/-! DEFINITION. Bit manipulation instructions (48_bit_manipulation.md). The byte is read, Z takes the
complement of the old bit, and SET1, CLR1 and NOT1 always write the byte back (R345). -/

namespace Sys2Proof.Machine

/-- What a bit manipulation instruction does with its bit. -/
inductive BitOp where
  | set
  | clear
  | invert
  | test
deriving DecidableEq, Repr

/-- The byte (in a word) that a writing bit instruction stores for the byte `b` it read (R345). -/
def bitResult (op : BitOp) (b : Word) (n : Nat) : Word :=
  match op with
  | .set => b ||| (1#32 <<< n)
  | .clear => b &&& ~~~(1#32 <<< n)
  | .invert => b ^^^ (1#32 <<< n)
  | .test => b

/-- The common shape of R345 on bit `n` of the byte at `a`. -/
def State.bitManip (s : State) (op : BitOp) (a : Word) (n : Nat) : Result :=
  match s.memRead a .byte with
  | .error f => .fault f
  | .ok b =>
    let t := s.withZ (!b.getLsbD n)
    match op with
    | .test => .next (t.advance 4)
    | _ =>
      match t.memWrite a .byte (bitResult op b n) with
      | .ok u => .next (u.advance 4)
      | .error f => .fault f

/-- SET1 bit#3, disp16[reg1] (R346). -/
def execSet1Imm (bit3 : BitVec 3) (disp16 : BitVec 16) (reg1 : Reg) (s : State) : Result :=
  s.bitManip .set (s.dispAddr reg1 disp16) bit3.toNat

/-- SET1 reg2, [reg1] (R347). -/
def execSet1Reg (reg2 reg1 : Reg) (s : State) : Result :=
  s.bitManip .set (s.reg reg1) (s.bitNumber reg2)

/-- CLR1 bit#3, disp16[reg1] (R348). -/
def execClr1Imm (bit3 : BitVec 3) (disp16 : BitVec 16) (reg1 : Reg) (s : State) : Result :=
  s.bitManip .clear (s.dispAddr reg1 disp16) bit3.toNat

/-- CLR1 reg2, [reg1] (R349). -/
def execClr1Reg (reg2 reg1 : Reg) (s : State) : Result :=
  s.bitManip .clear (s.reg reg1) (s.bitNumber reg2)

/-- NOT1 bit#3, disp16[reg1] (R350). -/
def execNot1Imm (bit3 : BitVec 3) (disp16 : BitVec 16) (reg1 : Reg) (s : State) : Result :=
  s.bitManip .invert (s.dispAddr reg1 disp16) bit3.toNat

/-- NOT1 reg2, [reg1] (R351). -/
def execNot1Reg (reg2 reg1 : Reg) (s : State) : Result :=
  s.bitManip .invert (s.reg reg1) (s.bitNumber reg2)

/-- TST1 bit#3, disp16[reg1] (R352). -/
def execTst1Imm (bit3 : BitVec 3) (disp16 : BitVec 16) (reg1 : Reg) (s : State) : Result :=
  s.bitManip .test (s.dispAddr reg1 disp16) bit3.toNat

/-- TST1 reg2, [reg1] (R353). -/
def execTst1Reg (reg2 reg1 : Reg) (s : State) : Result :=
  s.bitManip .test (s.reg reg1) (s.bitNumber reg2)

end Sys2Proof.Machine
end

