-- ==== Sys2Proof/Machine/Breakpoints.lean ====
section
/-! DEFINITION. The breakpoint channels (60_exceptions.md R460 to R465): which bus events a channel
answers to, the pair modes, and the debug break that follows. -/

namespace Sys2Proof.Machine

/-- What a channel can watch: an instruction fetch, a data read, a data write. -/
inductive BusKind where
  | fetch
  | read
  | write
deriving DecidableEq, Repr

/-- One event on the bus. `lanes` marks the bits of `data` that carry data of the access, `index`
its place in the instruction: 0 for the fetch, 1 and up for the data accesses in their order. -/
structure BusEvent where
  kind : BusKind
  addr : Word
  size : AccessSize
  data : Word
  lanes : Word
  index : Nat
deriving DecidableEq, Repr

/-- The bus lanes of right-aligned data (R465). -/
def dataLanes : AccessSize → Word
  | .byte => 0x000000FF#32
  | .half => 0x0000FFFF#32
  | .word => 0xFFFFFFFF#32

/-! ## One channel (R54, R460) -/

/-- RE. -/
abbrev Bpc.re : Nat := 0
/-- WE. -/
abbrev Bpc.we : Nat := 1
/-- FE. -/
abbrev Bpc.fe : Nat := 2
/-- BE. -/
abbrev Bpc.be : Nat := 3
/-- MD. -/
abbrev Bpc.md : Nat := 7
/-- VA. -/
abbrev Bpc.va : Nat := 8
/-- VD. -/
abbrev Bpc.vd : Nat := 9
/-- IE. -/
abbrev Bpc.ie : Nat := 15

/-- The event type BPCn selects. -/
def kindSelected (ch : BreakChannel) (k : BusKind) : Bool :=
  match k with
  | .fetch => ch.bpc.getLsbD Bpc.fe && !ch.bpc.getLsbD Bpc.re && !ch.bpc.getLsbD Bpc.we
  | .read => ch.bpc.getLsbD Bpc.re && !ch.bpc.getLsbD Bpc.fe
  | .write => ch.bpc.getLsbD Bpc.we && !ch.bpc.getLsbD Bpc.fe

/-- addr_ok: bits 28:0 compared, BPAMn masks, VA inverts (R460). -/
def addrMatches (ch : BreakChannel) (x : Word) : Bool :=
  ((x ^^^ ch.bpav) &&& ~~~ch.bpam &&& 0x1FFFFFFF#32 == 0#32) ^^ ch.bpc.getLsbD Bpc.va

/-- data_ok: MD ignores the data, BPDMn masks, VD inverts (R460). -/
def dataMatches (ch : BreakChannel) (d : Word) : Bool :=
  ch.bpc.getLsbD Bpc.md
    || (((d ^^^ ch.bpdv) &&& ~~~ch.bpdm == 0#32) ^^ ch.bpc.getLsbD Bpc.vd)

/-- type_ok: the TY field against the access size (R460). -/
def typeMatches (ch : BreakChannel) (k : BusKind) (size : AccessSize) : Bool :=
  k == .fetch ||
    match (ch.bpc.extractLsb' 10 2).toNat, size with
    | 0, _ => true
    | 1, .byte => true
    | 2, .half => true
    | 3, .word => true
    | _, _ => false

/-- asid_ok (R460, R55). -/
def asidMatches (ch : BreakChannel) (asid : Word) : Bool :=
  !ch.bpc.getLsbD Bpc.ie || ch.bpc.extractLsb' 16 8 == asid.extractLsb' 0 8

/-- What the data comparators see: the lanes without data of the access are free (R465, log entry 26).
Each event of an instruction, the fetch included, draws its own bits and all channels see the same bits:
DESIGN CHOICE, unsafe as to the channels (log entry 58). -/
def State.busData (s : State) (e : BusEvent) : Word :=
  (e.data &&& e.lanes) ||| (Config.idleLanes s.tick e.index &&& ~~~e.lanes)

/-- event_n of R460. -/
def State.channelEvent (s : State) (ch : BreakChannel) (e : BusEvent) : Bool :=
  kindSelected ch e.kind && addrMatches ch e.addr && typeMatches ch e.kind e.size
    && asidMatches ch s.asid && dataMatches ch (s.busData e)

/-! ## Pairs (R462) -/

/-- What one bus event does in a pair: a break of the first and of the second channel, and the
sequential progress after it. -/
structure PairOutcome where
  first : Bool
  second : Bool
  seq : Bool
deriving DecidableEq, Repr

/-- The pair modes of R462 for the events `evA`, `evB` and the BE bits of the two channels (log entry
25). Three points are DESIGN CHOICES, unsafe. In sequential mode an event of the second channel with
BE = 0 keeps the progress (log entry 51), and one event of both channels that breaks leaves the
progress set (log entry 52). With SQ and RE both set, where nothing breaks, an event of either channel
leaves the progress as it was (log entry 57). -/
def pairOutcome (sq re seq evA evB beA beB : Bool) : PairOutcome :=
  match sq, re with
  | false, false => { first := evA && beA, second := evB && beB, seq := false }
  | true, false =>
    let fire := evB && beB && seq
    { first := false, second := fire, seq := evA || (seq && !fire) }
  | false, true => { first := evA && evB && beA, second := evA && evB && beB, seq := false }
  | true, true => { first := false, second := false, seq := seq }

/-- The progress of the comparators through the events of one instruction: sequential progress of the
two pairs, and the channels that broke. -/
structure Watch where
  seq0 : Bool
  seq1 : Bool
  hit0 : Bool
  hit1 : Bool
  hit2 : Bool
  hit3 : Bool
deriving DecidableEq, Repr

/-- Some channel broke. -/
def Watch.hit (w : Watch) : Bool := w.hit0 || w.hit1 || w.hit2 || w.hit3

/-- The comparators before the first event. -/
def State.watchStart (s : State) : Watch where
  seq0 := s.seq0
  seq1 := s.seq1
  hit0 := false
  hit1 := false
  hit2 := false
  hit3 := false

/-- The comparators work in user mode, when the parameter says so (R430, R460). -/
def State.breakpointsActive (s : State) : Bool :=
  s.userMode && s.platform.breakpointsModelled

/-- One event seen by the four channels; channels 2 and 3 take part only while DIR.EXT = 1 (R460). -/
def State.observe (s : State) (w : Watch) (e : BusEvent) : Watch :=
  let ev := fun (n : Fin 4) => s.channelEvent s.channels[n.val] e
  let be := fun (n : Fin 4) => (s.channels[n.val]).bpc.getLsbD Bpc.be
  let p := pairOutcome (s.dir.getLsbD Dir.sq0) (s.dir.getLsbD Dir.re0) w.seq0 (ev 0) (ev 1) (be 0)
    (be 1)
  let q := pairOutcome (s.dir.getLsbD Dir.sq1) (s.dir.getLsbD Dir.re1) w.seq1 (ev 2) (ev 3) (be 2)
    (be 3)
  if s.breakpointsActive then
    if s.dir.getLsbD Dir.ext then
      { seq0 := p.seq, seq1 := q.seq, hit0 := w.hit0 || p.first, hit1 := w.hit1 || p.second
        hit2 := w.hit2 || q.first, hit3 := w.hit3 || q.second }
    else { w with seq0 := p.seq, hit0 := w.hit0 || p.first, hit1 := w.hit1 || p.second }
  else w

/-- The events of an instruction in their order. -/
def State.watch (s : State) (es : List BusEvent) : Watch := es.foldl s.observe s.watchStart

/-- A channel with BE = 1, FE = 1 and RE or WE = 1 (R460). -/
def prohibitedChannel (ch : BreakChannel) : Bool :=
  ch.bpc.getLsbD Bpc.be && ch.bpc.getLsbD Bpc.fe
    && (ch.bpc.getLsbD Bpc.re || ch.bpc.getLsbD Bpc.we)

/-- A channel in a prohibited setting would be evaluated: channels 0 and 1 always, 2 and 3 while they take
part, whatever the pair mode (R460, log entry 24). -/
def State.prohibitedSetting (s : State) : Bool :=
  s.breakpointsActive &&
    (prohibitedChannel s.channels[0] || prohibitedChannel s.channels[1]
      || (s.dir.getLsbD Dir.ext
        && (prohibitedChannel s.channels[2] || prohibitedChannel s.channels[3])))

/-! ## The break -/

/-- The sequential progress of the comparators kept in the state. -/
def State.keepProgress (s : State) (w : Watch) : State := { s with seq0 := w.seq0, seq1 := w.seq1 }

/-- DIR with the BT bits of the channels that broke; they do not operate while INI = 1 (R464, 10_state.md
R53 (a)). -/
def markBreaks (dir : Word) (w : Watch) : Word :=
  if dir.getLsbD Dir.ini then dir
  else
    dir ||| ((if w.hit0 then 0x00000010#32 else 0#32) ||| (if w.hit1 then 0x00000020#32 else 0#32)
      ||| (if w.hit2 then 0x00100000#32 else 0#32) ||| (if w.hit3 then 0x00200000#32 else 0#32))

/-- The debug break of the channels that broke (R428, R464). -/
def State.channelBreak (s : State) (w : Watch) (dbpc : Word) : State :=
  let t := (s.keepProgress w).debugBreak dbpc
  { t with dir := markBreaks t.dir w }

/-- The four values of FB a fetch break may record (10_state.md R54). -/
def fbValue (k : Fin 4) : Word :=
  match k with
  | 0 => 0x00000000#32
  | 1 => 0x02000000#32
  | 2 => 0x04000000#32
  | 3 => 0x01000000#32

/-- A channel with its FB field written (R464). -/
def BreakChannel.withFb (ch : BreakChannel) (k : Fin 4) : BreakChannel :=
  { ch with bpc := mergeBits 0x07000000#32 ch.bpc (fbValue k) }

/-- The FB fields of the channels that broke; which listed value is free (R464, log entry 28). -/
def State.recordFb (s : State) (w : Watch) : State :=
  let upd := fun (n : Fin 4) (hit : Bool) =>
    if hit then (s.channels[n.val]).withFb (Config.fetchBreakFb s.tick n.val) else s.channels[n.val]
  { s with channels := #v[upd 0 w.hit0, upd 1 w.hit1, upd 2 w.hit2, upd 3 w.hit3] }

/-- A break before execution: DBPC is the PC, the instruction does not run (R460). -/
def State.fetchBreak (s : State) (w : Watch) : State := (s.recordFb w).channelBreak w s.pc

/-- The comparators applied after an instruction to its data accesses: the break is at the boundary,
with DBPC the PC there (R460, log entry 27). -/
def State.afterAccesses (s : State) (es : List BusEvent) : State :=
  let w := s.watch es
  if w.hit then s.channelBreak w s.pc else s.keepProgress w

end Sys2Proof.Machine
end

