-- ==== Sys2Proof/Machine/Sysreg.lean ====
section
/-! DEFINITION. The system registers as LDSR writes and STSR reads them (10_state.md sections 4 to 7,
49_special_debug.md R365, R366). -/

namespace Sys2Proof.Machine

/-- The system registers of R34. -/
inductive SysReg where
  | eipc
  | eipsw
  | fepc
  | fepsw
  | ecr
  | psw
  | ctpc
  | ctpsw
  | dbpc
  | dbpsw
  | ctbp
  | dir
  | bpc
  | asid
  | bpav
  | bpam
  | bpdv
  | bpdm
deriving DecidableEq, Repr

/-- The register a regID names; none for the reserved numbers 6 to 15 and 28 to 31 (R34). -/
def SysReg.ofId (regID : BitVec 5) : Option SysReg :=
  match regID.toNat with
  | 0 => some .eipc
  | 1 => some .eipsw
  | 2 => some .fepc
  | 3 => some .fepsw
  | 4 => some .ecr
  | 5 => some .psw
  | 16 => some .ctpc
  | 17 => some .ctpsw
  | 18 => some .dbpc
  | 19 => some .dbpsw
  | 20 => some .ctbp
  | 21 => some .dir
  | 22 => some .bpc
  | 23 => some .asid
  | 24 => some .bpav
  | 25 => some .bpam
  | 26 => some .bpdv
  | 27 => some .bpdm
  | _ => none

/-- The channel that regID 22 and 24 to 27 reach (R52, Table 2-5). -/
def channelOf (dir : Word) : Fin 4 :=
  if dir.getLsbD Dir.csl then
    if dir.getLsbD Dir.cs1 then 3 else 2
  else
    if dir.getLsbD Dir.cs0 then 1 else 0

/-- The selected channel's registers. -/
def State.channel (s : State) : BreakChannel := s.channels[(channelOf s.dir).val]

/-- The selected channel's registers replaced. -/
def State.setChannel (s : State) (ch : BreakChannel) : State :=
  { s with channels := s.channels.set (channelOf s.dir).val ch }

/-! ## DIR (R50 to R53) -/

/-- The DIR bits whose read value is defined in user mode: CSL, bit 3 and DM (R50). -/
def dirKnownUser : Word := 0x00400009#32

/-- The DIR bits whose read value is undefined in debug mode: 31, 27 to 23, 19 to 17, 15 (R50). -/
def dirUnknownDebug : Word := 0x8F8E8000#32

/-- What a read of DIR answers; the undefined bits are free (R50, log entry 11). -/
def State.readDir (s : State) : Word :=
  mergeBits (if s.userMode then ~~~dirKnownUser else dirUnknownDebug) s.dir
    (Config.dirUndefined s.tick)

/-- DIR after an LDSR in debug mode (R365): the plain bits, the bits that INI disables, the bits a 1
does not set, and the group that writing INI = 1 clears. -/
def debugWriteDir (old v : Word) : Word :=
  let plain := mergeBits 0x004007C0#32 old v
  let gated := if old.getLsbD Dir.ini then plain else mergeBits 0x70007000#32 plain v
  let sticky := gated &&& (v ||| ~~~0x00310036#32)
  if v.getLsbD Dir.ini then sticky &&& ~~~0x70307030#32 else sticky

/-- `SR[21] <- v` (R365). In user mode only CSL changes. In debug mode a cleared SSE clears PSW.SS
(R53 (d)), and a pair whose SQ is 0 loses its sequential progress (60_exceptions.md R462). -/
def State.writeDir (s : State) (v : Word) : State :=
  if s.userMode then { s with dir := mergeBits 0x00400000#32 s.dir v }
  else
    let d := debugWriteDir s.dir v
    { s with
      dir := d
      psw := if d.getLsbD Dir.sse then s.psw else putBit s.psw Psw.ss false
      seq0 := s.seq0 && d.getLsbD Dir.sq0
      seq1 := s.seq1 && d.getLsbD Dir.sq1 }

/-! ## BPC (R54) -/

/-- The must-be-zero bits of BPCn: 31 to 27, 14 to 12, 6 and 5. -/
def bpcMustBeZero : Word := 0xF8007060#32

/-- BPCn after an LDSR: FB bits can only be cleared (R365). -/
def writtenBpc (old v : Word) : Word :=
  (old &&& v &&& 0x07000000#32) ||| (v &&& 0x00FF8F9F#32)

/-! ## Reading and writing -/

/-- `SR[r]` as STSR reads it (R366). -/
def State.readSysreg (s : State) : SysReg → Word
  | .eipc => s.eipc
  | .eipsw => s.eipsw
  | .fepc => s.fepc
  | .fepsw => s.fepsw
  | .ecr => s.ecr
  | .psw => s.psw
  | .ctpc => s.ctpc
  | .ctpsw => s.ctpsw
  | .dbpc => s.dbpc
  | .dbpsw => s.dbpsw
  | .ctbp => s.ctbp
  | .dir => s.readDir
  | .bpc => s.channel.bpc
  | .asid => s.asid
  | .bpav => s.channel.bpav
  | .bpam => s.channel.bpam
  | .bpdv => s.channel.bpdv
  | .bpdm => s.channel.bpdm

/-- What LDSR keeps of a PC image: bits 31 to 29 are fixed to 0, bit 0 is held (R36, R39). -/
def pcImage (v : Word) : Word := v &&& 0x1FFFFFFF#32

/-- What LDSR keeps of a PSW image: bits 31 to 12, 9 and 8 are fixed to 0 (R36). -/
def pswImage (v : Word) : Word := v &&& Psw.mask

/-- `SR[r] <- v` as LDSR writes it (R365). -/
def State.writeSysreg (s : State) (r : SysReg) (v : Word) : Except Fault State :=
  match r with
  | .eipc => .ok { s with eipc := pcImage v }
  | .eipsw => .ok { s with eipsw := pswImage v }
  | .fepc => .ok { s with fepc := pcImage v }
  | .fepsw => .ok { s with fepsw := pswImage v }
  | .ecr => .error .prohibitedSysreg
  | .psw => .ok (s.setPsw v)
  | .ctpc => .ok { s with ctpc := pcImage v }
  | .ctpsw => .ok { s with ctpsw := pswImage v }
  | .dbpc => .ok { s with dbpc := pcImage v }
  | .dbpsw => .ok { s with dbpsw := pswImage v }
  | .ctbp => .ok { s with ctbp := v &&& 0x1FFFFFFE#32 }
  | .dir => .ok (s.writeDir v)
  | .bpc =>
    if v &&& bpcMustBeZero = 0#32 then
      .ok (s.setChannel { s.channel with bpc := writtenBpc s.channel.bpc v })
    else .error .prohibitedSysreg
  | .asid => .ok { s with asid := v &&& 0x000000FF#32 }
  | .bpav => .ok (s.setChannel { s.channel with bpav := v &&& 0x1FFFFFFF#32 })
  | .bpam => .ok (s.setChannel { s.channel with bpam := v &&& 0x1FFFFFFF#32 })
  | .bpdv => .ok (s.setChannel { s.channel with bpdv := v })
  | .bpdm => .ok (s.setChannel { s.channel with bpdm := v })

end Sys2Proof.Machine
end

