-- ==== Sys2Proof/Machine/Special.lean ====
section
/-! DEFINITION. Special instructions and debug function instructions (49_special_debug.md), but for
PREPARE and DISPOSE. -/

namespace Sys2Proof.Machine

/-! ## Table call and table jump -/

/-- The table entry CALLT reads: `CTBP + zext(imm6 << 1)` (R360). -/
def State.calltAddr (s : State) (imm6 : BitVec 6) : Word := s.ctbp + (zext imm6 <<< 1)

/-- CALLT imm6 (R360). -/
def execCallt (imm6 : BitVec 6) (s : State) : Result :=
  match s.memRead (s.calltAddr imm6) .half with
  | .ok h => .next ((s.save .ct (s.pcAfter 2)).setPc (s.ctbp + h))
  | .error f => .fault f

/-- CTRET (R361). -/
def execCtret (s : State) : Result := .next (s.returnFrom .ct)

/-- The table after SWITCH: `pc + 2`, modulo 2^32 (R369). -/
def State.switchBase (s : State) : Word := s.pc + 2#32

/-- The table entry SWITCH reads (R369). -/
def State.switchAddr (s : State) (reg1 : Reg) : Word := s.switchBase + (s.reg reg1 <<< 1)

/-- SWITCH reg1 (R369). -/
def execSwitch (reg1 : Reg) (s : State) : Result :=
  match s.memRead (s.switchAddr reg1) .half with
  | .ok h => .next (s.setPc (s.switchBase + (sext (h.extractLsb' 0 16) <<< 1)))
  | .error f => .fault f

/-! ## Interrupt control, system registers, NOP, HALT -/

/-- DI (R362). -/
def execDi (s : State) : Result :=
  .next ({ s with psw := putBit s.psw Psw.id true }.advance 4)

/-- EI (R363). -/
def execEi (s : State) : Result :=
  .next ({ s with psw := putBit s.psw Psw.id false }.advance 4)

/-- HALT (R364). -/
def execHalt (s : State) : Result := .next { s.advance 4 with halted := true }

/-- LDSR reg2, regID (R365). -/
def execLdsr (reg2 : Reg) (regID : BitVec 5) (s : State) : Result :=
  match SysReg.ofId regID with
  | none => .fault .prohibitedSysreg
  | some r =>
    match s.writeSysreg r (s.reg reg2) with
    | .ok t => .next (t.advance 4)
    | .error f => .fault f

/-- STSR regID, reg2 (R366). -/
def execStsr (regID : BitVec 5) (reg2 : Reg) (s : State) : Result :=
  match SysReg.ofId regID with
  | none => .fault .prohibitedSysreg
  | some r => .next ((s.setReg reg2 (s.readSysreg r)).advance 4)

/-- NOP (R367). -/
def execNop (s : State) : Result := .next (s.advance 2)

/-! ## Software exception and returns -/

/-- TRAP vector (R370): the entry sequence of 60_exceptions.md R424. -/
def execTrap (vector : BitVec 5) (s : State) : Result :=
  .next (s.enter (trapEntry (s.pcAfter 4) vector))

/-- Which pair RETI restores (R368). -/
def retiBank (psw : Word) : SaveBank :=
  if psw.getLsbD Psw.ep then .ei else if psw.getLsbD Psw.np then .fe else .ei

/-- RETI (R368). -/
def execReti (s : State) : Result := .next (s.returnFrom (retiBank s.psw))

/-! ## Debug function instructions -/

/-- DBTRAP (R386): STT is set while DIR.EXT = 1. -/
def execDbtrap (s : State) : Result :=
  let t := s.enter (debugEntry (s.pcAfter 2) false)
  .next (if s.dir.getLsbD Dir.ext then { t with dir := putBit t.dir Dir.stt true } else t)

/-- DBRET (R385). -/
def execDbret (s : State) : Result :=
  let t := s.returnFrom .db
  .next { t with dir := putBit t.dir Dir.dm false }

end Sys2Proof.Machine
end

