-- ==== Sys2Proof/Machine/Stack.lean ====
section
/-! DEFINITION. PREPARE and DISPOSE (49_special_debug.md R375 to R381). Every stack access masks the
low two bits of its address; sp keeps its own (20_memory.md R91). With DIR.AEE set in user mode a
misaligned sp is a debug break and nothing else (60_exceptions.md R463). -/

namespace Sys2Proof.Machine

/-- The stores of PREPARE, one word per register, sp going down by 4 each time (R375). -/
def State.pushRegs (s : State) : List Reg → Except Fault State
  | [] => .ok s
  | r :: rs =>
    match s.writeAt (stackAddr (s.reg Reg.sp - 4#32)) .word (s.reg r) with
    | .ok t => (t.setReg Reg.sp (s.reg Reg.sp - 4#32)).pushRegs rs
    | .error f => .error f

/-- The loads of DISPOSE, one word per register, sp going up by 4 each time (R379). -/
def State.popRegs (s : State) : List Reg → Except Fault State
  | [] => .ok s
  | r :: rs =>
    match s.readAt (stackAddr (s.reg Reg.sp)) .word with
    | .ok v => ((s.setReg r v).setReg Reg.sp (s.reg Reg.sp + 4#32)).popRegs rs
    | .error f => .error f

/-- The stores and the sp updates of PREPARE (R375). -/
def State.pushFrame (s : State) (list12 : List12) (imm5 : BitVec 5) : Except Fault State :=
  match s.pushRegs (listRegs list12) with
  | .ok t => .ok (t.setReg Reg.sp (t.reg Reg.sp - frameBytes imm5))
  | .error f => .error f

/-- The sp update and the loads of DISPOSE, r31 first (R379). -/
def State.popFrame (s : State) (imm5 : BitVec 5) (list12 : List12) : Except Fault State :=
  (s.setReg Reg.sp (s.reg Reg.sp + frameBytes imm5)).popRegs (listRegs list12).reverse

/-- PREPARE with the end its form asks for (R375, R376). -/
def State.prepareWith (s : State) (list12 : List12) (imm5 : BitVec 5) (finish : State → State) :
    Result :=
  if s.alignErrorDetected then .next s.alignErrorBreak
  else
    match s.pushFrame list12 imm5 with
    | .ok t => .next (finish t)
    | .error f => .fault f

/-- DISPOSE with the end its form asks for (R379, R380). -/
def State.disposeWith (s : State) (imm5 : BitVec 5) (list12 : List12) (finish : State → State) :
    Result :=
  if s.alignErrorDetected then .next s.alignErrorBreak
  else
    match s.popFrame imm5 list12 with
    | .ok t => .next (finish t)
    | .error f => .fault f

/-- PREPARE list12, imm5 (R375). -/
def execPrepare (list12 : List12) (imm5 : BitVec 5) (s : State) : Result :=
  s.prepareWith list12 imm5 (fun t => t.advance 4)

/-- PREPARE list12, imm5, sp (R376, ff = 00): ep gets the new sp. -/
def execPrepareSp (list12 : List12) (imm5 : BitVec 5) (s : State) : Result :=
  s.prepareWith list12 imm5 (fun t => (t.setReg Reg.ep (t.reg Reg.sp)).advance 4)

/-- PREPARE list12, imm5, imm16 sign-extended (R376, ff = 01). -/
def execPrepareImm16 (list12 : List12) (imm5 : BitVec 5) (imm16 : BitVec 16) (s : State) : Result :=
  s.prepareWith list12 imm5 (fun t => (t.setReg Reg.ep (sext imm16)).advance 6)

/-- PREPARE list12, imm5, imm16 shifted left by 16 (R376, ff = 10). -/
def execPrepareImm16Hi (list12 : List12) (imm5 : BitVec 5) (imm16 : BitVec 16) (s : State) :
    Result :=
  s.prepareWith list12 imm5 (fun t => (t.setReg Reg.ep (immHigh imm16)).advance 6)

/-- PREPARE list12, imm5, imm32 (R376, ff = 11). -/
def execPrepareImm32 (list12 : List12) (imm5 : BitVec 5) (imm32 : BitVec 32) (s : State) : Result :=
  s.prepareWith list12 imm5 (fun t => (t.setReg Reg.ep imm32).advance 8)

/-- DISPOSE imm5, list12 (R379). -/
def execDispose (imm5 : BitVec 5) (list12 : List12) (s : State) : Result :=
  s.disposeWith imm5 list12 (fun t => t.advance 4)

/-- DISPOSE imm5, list12, [reg1] (R380): the jump uses reg1 after the loads. -/
def execDisposeJmp (imm5 : BitVec 5) (list12 : List12) (reg1 : Reg) (s : State) : Result :=
  s.disposeWith imm5 list12 (fun t => t.setPc (t.reg reg1))

end Sys2Proof.Machine
end

