-- ==== Sys2Proof/Machine/Accesses.lean ====
section
/-! DEFINITION. The data accesses of each instruction as the breakpoint comparators see them, in the
order of its rule, from the state before it (20_memory.md R95, R100; 60_exceptions.md R460, R465).
The address compared is the one given to MemRead or MemWrite, before the alignment step (log entry
29). -/

namespace Sys2Proof.Machine

/-- A data read with its value right-aligned (R465). -/
def State.readEvent (s : State) (a : Word) (size : AccessSize) (index : Nat) : BusEvent where
  kind := .read
  addr := a
  size := size
  data := s.valueAt (alignAddr s.platform.misalignEnabled size a) size
  lanes := dataLanes size
  index := index

/-- A data write with its value right-aligned (R465). -/
def writeEvent (a : Word) (size : AccessSize) (v : Word) (index : Nat) : BusEvent where
  kind := .write
  addr := a
  size := size
  data := v
  lanes := dataLanes size
  index := index

/-- The access of a load; none when the misaligned access exception is raised instead. -/
def State.loadEvents (s : State) (a : Word) (size : AccessSize) : List BusEvent :=
  if s.misalignDetected a size then [] else [s.readEvent a size 1]

/-- The access of a store; none when the misaligned access exception is raised instead. -/
def State.storeEvents (s : State) (a : Word) (size : AccessSize) (reg2 : Reg) : List BusEvent :=
  if s.misalignDetected a size then [] else [writeEvent a size (s.reg reg2) 1]

/-- The byte lane of a bit manipulation access: `8 * (a AND 3)` (R465). -/
def bitLane (a : Word) : Nat := 8 * (a.toNat % 4)

/-- One byte access of a bit manipulation instruction, its byte in its lane (R465). -/
def bitEvent (kind : BusKind) (a : Word) (b : Word) (index : Nat) : BusEvent where
  kind := kind
  addr := a
  size := .byte
  data := b <<< bitLane a
  lanes := dataLanes .byte <<< bitLane a
  index := index

/-- The accesses of a bit manipulation instruction (48_bit_manipulation.md R345). -/
def State.bitEvents (s : State) (op : BitOp) (a : Word) (n : Nat) : List BusEvent :=
  let b := s.valueAt a .byte
  match op with
  | .test => [bitEvent .read a b 1]
  | _ => [bitEvent .read a b 1, bitEvent .write a (bitResult op b n) 2]

/-- The stores of PREPARE from the stack pointer `sp` on, the next one the `index`-th. -/
def State.pushEventsFrom (s : State) (sp : Word) (index : Nat) : List Reg → List BusEvent
  | [] => []
  | r :: rs =>
    writeEvent (stackAddr (sp - 4#32)) .word (s.reg r) index
      :: s.pushEventsFrom (sp - 4#32) (index + 1) rs

/-- The stores of PREPARE. -/
def State.pushEvents (s : State) (list12 : List12) : List BusEvent :=
  if s.alignErrorDetected then []
  else s.pushEventsFrom (s.reg Reg.sp) 1 (listRegs list12)

/-- The loads of DISPOSE from the stack pointer `sp` on, the next one the `index`-th. -/
def State.popEventsFrom (s : State) (sp : Word) (index : Nat) : List Reg → List BusEvent
  | [] => []
  | _ :: rs =>
    s.readEvent (stackAddr sp) .word index :: s.popEventsFrom (sp + 4#32) (index + 1) rs

/-- The loads of DISPOSE. -/
def State.popEvents (s : State) (imm5 : BitVec 5) (list12 : List12) : List BusEvent :=
  if s.alignErrorDetected then []
  else s.popEventsFrom (s.reg Reg.sp + frameBytes imm5) 1 (listRegs list12).reverse

/-- The data accesses of an instruction run in `s` (20_memory.md R95). -/
def State.accesses (s : State) (i : Instr) : List BusEvent :=
  match i with
  | .switch reg1 => [s.readEvent (s.switchAddr reg1) .half 1]
  | .callt imm6 => [s.readEvent (s.calltAddr imm6) .half 1]
  | .sldbu disp _ => s.loadEvents (s.epAddr disp) .byte
  | .sldhu disp _ => s.loadEvents (s.epAddr disp) .half
  | .sldb disp _ => s.loadEvents (s.epAddr disp) .byte
  | .sstb reg2 disp => s.storeEvents (s.epAddr disp) .byte reg2
  | .sldh disp _ => s.loadEvents (s.epAddr disp) .half
  | .ssth reg2 disp => s.storeEvents (s.epAddr disp) .half reg2
  | .sldw disp _ => s.loadEvents (s.epAddr disp) .word
  | .sstw reg2 disp => s.storeEvents (s.epAddr disp) .word reg2
  | .ldb disp16 reg1 _ => s.loadEvents (s.dispAddr reg1 disp16) .byte
  | .ldh disp16 reg1 _ => s.loadEvents (s.dispAddr reg1 disp16) .half
  | .ldw disp16 reg1 _ => s.loadEvents (s.dispAddr reg1 disp16) .word
  | .stb reg2 disp16 reg1 => s.storeEvents (s.dispAddr reg1 disp16) .byte reg2
  | .sth reg2 disp16 reg1 => s.storeEvents (s.dispAddr reg1 disp16) .half reg2
  | .stw reg2 disp16 reg1 => s.storeEvents (s.dispAddr reg1 disp16) .word reg2
  | .ldbu disp16 reg1 _ => s.loadEvents (s.dispAddr reg1 disp16) .byte
  | .ldhu disp16 reg1 _ => s.loadEvents (s.dispAddr reg1 disp16) .half
  | .set1Imm bit3 disp16 reg1 => s.bitEvents .set (s.dispAddr reg1 disp16) bit3.toNat
  | .not1Imm bit3 disp16 reg1 => s.bitEvents .invert (s.dispAddr reg1 disp16) bit3.toNat
  | .clr1Imm bit3 disp16 reg1 => s.bitEvents .clear (s.dispAddr reg1 disp16) bit3.toNat
  | .tst1Imm bit3 disp16 reg1 => s.bitEvents .test (s.dispAddr reg1 disp16) bit3.toNat
  | .set1Reg reg2 reg1 => s.bitEvents .set (s.reg reg1) (s.bitNumber reg2)
  | .not1Reg reg2 reg1 => s.bitEvents .invert (s.reg reg1) (s.bitNumber reg2)
  | .clr1Reg reg2 reg1 => s.bitEvents .clear (s.reg reg1) (s.bitNumber reg2)
  | .tst1Reg reg2 reg1 => s.bitEvents .test (s.reg reg1) (s.bitNumber reg2)
  | .dispose imm5 list12 => s.popEvents imm5 list12
  | .disposeJmp imm5 list12 _ => s.popEvents imm5 list12
  | .prepare list12 _ => s.pushEvents list12
  | .prepareSp list12 _ => s.pushEvents list12
  | .prepareImm16 list12 _ _ => s.pushEvents list12
  | .prepareImm16Hi list12 _ _ => s.pushEvents list12
  | .prepareImm32 list12 _ _ => s.pushEvents list12
  | .nop | .movReg _ _ | .notReg _ _ | .divhReg _ _ | .dbtrap | .jmpReg _ | .satsubr _ _
  | .satsubReg _ _ | .sataddReg _ _ | .mulhReg _ _ | .zxb _ | .sxb _ | .zxh _ | .sxh _
  | .orReg _ _ | .xorReg _ _ | .andReg _ _ | .tst _ _ | .subr _ _ | .sub _ _ | .addReg _ _
  | .cmpReg _ _ | .movImm5 _ _ | .sataddImm5 _ _ | .addImm5 _ _ | .cmpImm5 _ _ | .shrImm5 _ _
  | .sarImm5 _ _ | .shlImm5 _ _ | .mulhImm5 _ _ | .bcond _ _ | .jarl22 _ _ | .jr22 _
  | .addi _ _ _ | .movea _ _ _ | .movImm32 _ _ | .movhi _ _ _ | .satsubi _ _ _ | .ori _ _ _
  | .xori _ _ _ | .andi _ _ _ | .mulhi _ _ _ | .jmpDisp32 _ _ | .jr32 _ | .jarl32 _ _ | .setf _ _
  | .ldsr _ _ | .stsr _ _ | .shrReg _ _ | .sarReg _ _ | .shlReg _ _ | .sasf _ _ | .sch0r _ _
  | .sch1r _ _ | .sch0l _ _ | .sch1l _ _ | .trap _ | .halt | .reti | .ctret | .dbret | .di | .ei
  | .shr3 _ _ _ | .sar3 _ _ _ | .shl3 _ _ _ | .mul _ _ _ | .mulu _ _ _ | .divh3 _ _ _
  | .divhu _ _ _ | .div _ _ _ | .divu _ _ _ | .cmov _ _ _ _ | .sbf _ _ _ _ | .satsub3 _ _ _
  | .adf _ _ _ _ | .satadd3 _ _ _ | .mac _ _ _ _ | .macu _ _ _ _ | .mulImm9 _ _ _
  | .muluImm9 _ _ _ | .cmovImm5 _ _ _ _ | .bsw _ _ | .bsh _ _ | .hsw _ _ | .hsh _ _ => []

end Sys2Proof.Machine
end

