-- ==== Sys2Proof/Machine/Boundary.lean ====
section
/-! DEFINITION. Interrupt requests at an instruction boundary and HALT mode (60_exceptions.md R410 to
R413, R420 to R423, R450). -/

namespace Sys2Proof.Machine

/-- A request the CPU may accept. -/
inductive Request where
  | nmi (line : NmiLine)
  | int (code : BitVec 16)
deriving DecidableEq, Repr

/-- The maskable request, if one is presented. -/
def State.intList (s : State) : List Request :=
  match s.intReq with
  | some k => [.int k]
  | none => []

/-- The requests R411 allows at this boundary: NMI2 always, NMI0 and NMI1 while NP = 0, the maskable
one while NP = 0 and ID = 0; none before the first instruction after reset has run
(70_reset_and_hazards.md R472). -/
def State.acceptable (s : State) : List Request :=
  if s.afterReset then []
  else
    (if s.nmi2 then [.nmi .nmi2] else [])
      ++ (if s.psw.getLsbD Psw.np then []
          else
            (if s.nmi0 then [.nmi .nmi0] else []) ++ (if s.nmi1 then [.nmi .nmi1] else [])
              ++ (if s.psw.getLsbD Psw.id then [] else s.intList))

/-- The request accepted at this boundary, if any: acceptance is permitted, never compelled, and the
choice is free (R411, log entry 17). -/
def State.chosen (s : State) : Option Request :=
  match s.acceptable with
  | [] => none
  | r :: rs => (r :: rs)[s.choice]?

/-- The state with a request taken out of the pending set. -/
def State.removeRequest (s : State) : Request → State
  | .nmi .nmi0 => { s with nmi0 := false }
  | .nmi .nmi1 => { s with nmi1 := false }
  | .nmi .nmi2 => { s with nmi2 := false }
  | .int _ => { s with intReq := none }

/-- The entry sequence of a request at this boundary: the return PC is the PC (R420, R422). -/
def State.requestEntry (s : State) : Request → Entry
  | .nmi line => nmiEntry s.pc line
  | .int code => intEntry s.pc code

/-- Accepting a request (R420, R422). -/
def State.accept (s : State) (r : Request) : State :=
  (s.removeRequest r).enter (s.requestEntry r)

/-- A request that PSW blocks is present: a maskable one while ID = 1 or NP = 1, NMI0 or NMI1 while
NP = 1 (R450). -/
def State.blockedRequest (s : State) : Bool :=
  (s.intReq.isSome && (s.psw.getLsbD Psw.id || s.psw.getLsbD Psw.np))
    || ((s.nmi0 || s.nmi1) && s.psw.getLsbD Psw.np)

/-- A boundary in HALT mode at which nothing is accepted (R450). -/
def State.wait (s : State) : State :=
  { s with halted := !(s.platform.haltWakeIgnoresId && s.blockedRequest) }

end Sys2Proof.Machine
end

