-- ==== Sys2Proof/Machine/Arith.lean ====
section
/-! DEFINITION. Arithmetic, conditional arithmetic and move instructions (42_arithmetic.md). -/

namespace Sys2Proof.Machine

/-- The common end of an instruction that puts a sum in a register and its flags in PSW (R215). -/
def State.storeSum (s : State) (dst : Reg) (r : Sum) (len : Nat) : State :=
  ((s.withSum r).setReg dst r.value).advance len

/-- The common end of an instruction that puts a value in a register and writes no flag. -/
def State.storeValue (s : State) (dst : Reg) (v : Word) (len : Nat) : State :=
  (s.setReg dst v).advance len

/-- ADD reg1, reg2 (R216). -/
def execAddReg (reg1 reg2 : Reg) (s : State) : Result :=
  .next (s.storeSum reg2 (addFlags (s.reg reg2) (s.reg reg1) false) 2)

/-- ADD imm5, reg2 (R217). -/
def execAddImm5 (imm5 : BitVec 5) (reg2 : Reg) (s : State) : Result :=
  .next (s.storeSum reg2 (addFlags (s.reg reg2) (immSigned5 imm5) false) 2)

/-- ADDI imm16, reg1, reg2 (R218). -/
def execAddi (imm16 : BitVec 16) (reg1 reg2 : Reg) (s : State) : Result :=
  .next (s.storeSum reg2 (addFlags (s.reg reg1) (sext imm16) false) 4)

/-- ADF cccc, reg1, reg2, reg3 (R219): the condition is tested on the PSW before the instruction. -/
def execAdf (cond : Cond) (reg1 reg2 reg3 : Reg) (s : State) : Result :=
  .next (s.storeSum reg3 (addFlags (s.reg reg1) (s.reg reg2) (s.cond cond)) 4)

/-- SUB reg1, reg2 (R220). -/
def execSub (reg1 reg2 : Reg) (s : State) : Result :=
  .next (s.storeSum reg2 (subFlags (s.reg reg2) (s.reg reg1) false) 2)

/-- SUBR reg1, reg2 (R221). -/
def execSubr (reg1 reg2 : Reg) (s : State) : Result :=
  .next (s.storeSum reg2 (subFlags (s.reg reg1) (s.reg reg2) false) 2)

/-- SBF cccc, reg1, reg2, reg3 (R222): the condition is tested on the PSW before the instruction. -/
def execSbf (cond : Cond) (reg1 reg2 reg3 : Reg) (s : State) : Result :=
  .next (s.storeSum reg3 (subFlags (s.reg reg2) (s.reg reg1) (s.cond cond)) 4)

/-- CMP reg1, reg2 (R223). -/
def execCmpReg (reg1 reg2 : Reg) (s : State) : Result :=
  .next ((s.withSum (subFlags (s.reg reg2) (s.reg reg1) false)).advance 2)

/-- CMP imm5, reg2 (R224). -/
def execCmpImm5 (imm5 : BitVec 5) (reg2 : Reg) (s : State) : Result :=
  .next ((s.withSum (subFlags (s.reg reg2) (immSigned5 imm5) false)).advance 2)

/-- MOV reg1, reg2 (R225). -/
def execMovReg (reg1 reg2 : Reg) (s : State) : Result :=
  .next (s.storeValue reg2 (s.reg reg1) 2)

/-- MOV imm5, reg2 (R226). -/
def execMovImm5 (imm5 : BitVec 5) (reg2 : Reg) (s : State) : Result :=
  .next (s.storeValue reg2 (immSigned5 imm5) 2)

/-- MOV imm32, reg1 (R227). -/
def execMovImm32 (imm32 : BitVec 32) (reg1 : Reg) (s : State) : Result :=
  .next (s.storeValue reg1 imm32 6)

/-- MOVEA imm16, reg1, reg2 (R228). -/
def execMovea (imm16 : BitVec 16) (reg1 reg2 : Reg) (s : State) : Result :=
  .next (s.storeValue reg2 (s.reg reg1 + sext imm16) 4)

/-- MOVHI imm16, reg1, reg2 (R229). -/
def execMovhi (imm16 : BitVec 16) (reg1 reg2 : Reg) (s : State) : Result :=
  .next (s.storeValue reg2 (s.reg reg1 + immHigh imm16) 4)

end Sys2Proof.Machine
end

