-- ==== Sys2Proof/Machine/Branch.lean ====
section
/-! DEFINITION. Branch instructions (47_branch.md). Every target is reduced as the PC is (R325), and
no flag changes. -/

namespace Sys2Proof.Machine

/-- Bcond disp9 (R326). -/
def execBcond (cond : Cond) (disp9 : BitVec 9) (s : State) : Result :=
  .next (if s.cond cond then s.setPc (s.pc + sext disp9) else s.advance 2)

/-- JARL disp22, reg2 (R327). -/
def execJarl22 (disp22 : BitVec 22) (reg2 : Reg) (s : State) : Result :=
  .next ((s.setReg reg2 (s.pcAfter 4)).setPc (s.pc + sext disp22))

/-- JARL disp32, reg1 (R328). -/
def execJarl32 (disp32 : BitVec 32) (reg1 : Reg) (s : State) : Result :=
  .next ((s.setReg reg1 (s.pcAfter 6)).setPc (s.pc + disp32))

/-- JMP [reg1] (R329). -/
def execJmpReg (reg1 : Reg) (s : State) : Result := .next (s.setPc (s.reg reg1))

/-- JMP disp32[reg1] (R330). -/
def execJmpDisp32 (disp32 : BitVec 32) (reg1 : Reg) (s : State) : Result :=
  .next (s.setPc (s.reg reg1 + disp32))

/-- JR disp22 (R331). -/
def execJr22 (disp22 : BitVec 22) (s : State) : Result := .next (s.setPc (s.pc + sext disp22))

/-- JR disp32 (R332). -/
def execJr32 (disp32 : BitVec 32) (s : State) : Result := .next (s.setPc (s.pc + disp32))

end Sys2Proof.Machine
end

