-- ==== Sys2Proof/Machine/Data.lean ====
section
/-! DEFINITION. Data manipulation and bit search instructions (45_data_manipulation.md). -/

namespace Sys2Proof.Machine

/-! ## Swaps (R270) -/

/-- The common end of a swap: result, zero tests of the instruction, OV = 0, S (R270). -/
def State.storeSwap (s : State) (dst : Reg) (cy z : Bool) (r : Word) : State :=
  ((s.withSwap cy z r).setReg dst r).advance 4

/-- BSH reg2, reg3 (R271): the zero tests look at the low halfword of the result. -/
def execBsh (reg2 reg3 : Reg) (s : State) : Result :=
  let r := swapBytesHalf (s.reg reg2)
  .next (s.storeSwap reg3 (byteOf r 1 == 0#8 || byteOf r 0 == 0#8) (halfOf r 0 == 0#16) r)

/-- BSW reg2, reg3 (R272). -/
def execBsw (reg2 reg3 : Reg) (s : State) : Result :=
  let r := swapBytesWord (s.reg reg2)
  .next (s.storeSwap reg3
    (byteOf r 3 == 0#8 || byteOf r 2 == 0#8 || byteOf r 1 == 0#8 || byteOf r 0 == 0#8)
    (r == 0#32) r)

/-- HSH reg2, reg3 (R273): a copy, CY and Z both test the low halfword. -/
def execHsh (reg2 reg3 : Reg) (s : State) : Result :=
  let r := s.reg reg2
  .next (s.storeSwap reg3 (halfOf r 0 == 0#16) (halfOf r 0 == 0#16) r)

/-- HSW reg2, reg3 (R274). -/
def execHsw (reg2 reg3 : Reg) (s : State) : Result :=
  let r := swapHalves (s.reg reg2)
  .next (s.storeSwap reg3 (halfOf r 1 == 0#16 || halfOf r 0 == 0#16) (r == 0#32) r)

/-! ## Conditional data (R275 to R278) -/

/-- The common end of a data instruction that writes no flag. -/
def State.storeData (s : State) (dst : Reg) (v : Word) (len : Nat) : State :=
  (s.setReg dst v).advance len

/-- CMOV cccc, reg1, reg2, reg3 (R275). -/
def execCmov (cond : Cond) (reg1 reg2 reg3 : Reg) (s : State) : Result :=
  .next (s.storeData reg3 (if s.cond cond then s.reg reg1 else s.reg reg2) 4)

/-- CMOV cccc, imm5, reg2, reg3 (R276). -/
def execCmovImm5 (cond : Cond) (imm5 : BitVec 5) (reg2 reg3 : Reg) (s : State) : Result :=
  .next (s.storeData reg3 (if s.cond cond then immSigned5 imm5 else s.reg reg2) 4)

/-- SASF cccc, reg2 (R277). -/
def execSasf (cond : Cond) (reg2 : Reg) (s : State) : Result :=
  .next (s.storeData reg2 ((s.reg reg2 <<< 1) ||| (if s.cond cond then 1#32 else 0#32)) 4)

/-- SETF cccc, reg2 (R278). -/
def execSetf (cond : Cond) (reg2 : Reg) (s : State) : Result :=
  .next (s.storeData reg2 (if s.cond cond then 1#32 else 0#32) 4)

/-! ## Shifts (R280) -/

/-- The common end of a shift: the result in a register, CY the last bit shifted out, OV = 0. -/
def State.storeShift (s : State) (dst : Reg) (r : Shifted) (len : Nat) : State :=
  ((s.withFlags r.cy false r.value).setReg dst r.value).advance len

/-- SAR reg1, reg2 (R281). -/
def execSarReg (reg1 reg2 : Reg) (s : State) : Result :=
  .next (s.storeShift reg2 (shiftSar (s.reg reg2) (s.shiftCount reg1)) 4)

/-- SAR imm5, reg2 (R282). -/
def execSarImm5 (imm5 : BitVec 5) (reg2 : Reg) (s : State) : Result :=
  .next (s.storeShift reg2 (shiftSar (s.reg reg2) imm5.toNat) 2)

/-- SAR reg1, reg2, reg3 (R283). -/
def execSar3 (reg1 reg2 reg3 : Reg) (s : State) : Result :=
  .next (s.storeShift reg3 (shiftSar (s.reg reg2) (s.shiftCount reg1)) 4)

/-- SHL reg1, reg2 (R284). -/
def execShlReg (reg1 reg2 : Reg) (s : State) : Result :=
  .next (s.storeShift reg2 (shiftShl (s.reg reg2) (s.shiftCount reg1)) 4)

/-- SHL imm5, reg2 (R285). -/
def execShlImm5 (imm5 : BitVec 5) (reg2 : Reg) (s : State) : Result :=
  .next (s.storeShift reg2 (shiftShl (s.reg reg2) imm5.toNat) 2)

/-- SHL reg1, reg2, reg3 (R286). -/
def execShl3 (reg1 reg2 reg3 : Reg) (s : State) : Result :=
  .next (s.storeShift reg3 (shiftShl (s.reg reg2) (s.shiftCount reg1)) 4)

/-- SHR reg1, reg2 (R287). -/
def execShrReg (reg1 reg2 : Reg) (s : State) : Result :=
  .next (s.storeShift reg2 (shiftShr (s.reg reg2) (s.shiftCount reg1)) 4)

/-- SHR imm5, reg2 (R288). -/
def execShrImm5 (imm5 : BitVec 5) (reg2 : Reg) (s : State) : Result :=
  .next (s.storeShift reg2 (shiftShr (s.reg reg2) imm5.toNat) 2)

/-- SHR reg1, reg2, reg3 (R289). -/
def execShr3 (reg1 reg2 reg3 : Reg) (s : State) : Result :=
  .next (s.storeShift reg3 (shiftShr (s.reg reg2) (s.shiftCount reg1)) 4)

/-! ## Extensions (R290 to R294) -/

/-- SXB reg1 (R290). -/
def execSxb (reg1 : Reg) (s : State) : Result :=
  .next (s.storeData reg1 (sext (byteOf (s.reg reg1) 0)) 2)

/-- SXH reg1 (R291). -/
def execSxh (reg1 : Reg) (s : State) : Result :=
  .next (s.storeData reg1 (sext (halfOf (s.reg reg1) 0)) 2)

/-- ZXB reg1 (R292). -/
def execZxb (reg1 : Reg) (s : State) : Result :=
  .next (s.storeData reg1 (zext (byteOf (s.reg reg1) 0)) 2)

/-- ZXH reg1 (R293). -/
def execZxh (reg1 : Reg) (s : State) : Result :=
  .next (s.storeData reg1 (zext (halfOf (s.reg reg1) 0)) 2)

/-! ## Bit search (R300) -/

/-- The common end of a bit search whose result is `k`, 0 when nothing was found. -/
def State.storeSearch (s : State) (dst : Reg) (k : Nat) : State :=
  ((s.withSearch k).setReg dst (BitVec.ofNat 32 k)).advance 4

/-- SCH0L reg2, reg3 (R301). -/
def execSch0l (reg2 reg3 : Reg) (s : State) : Result :=
  .next (s.storeSearch reg3 (searchLeft (s.reg reg2) false))

/-- SCH0R reg2, reg3 (R302). -/
def execSch0r (reg2 reg3 : Reg) (s : State) : Result :=
  .next (s.storeSearch reg3 (searchRight (s.reg reg2) false))

/-- SCH1L reg2, reg3 (R303). -/
def execSch1l (reg2 reg3 : Reg) (s : State) : Result :=
  .next (s.storeSearch reg3 (searchLeft (s.reg reg2) true))

/-- SCH1R reg2, reg3 (R304). -/
def execSch1r (reg2 reg3 : Reg) (s : State) : Result :=
  .next (s.storeSearch reg3 (searchRight (s.reg reg2) true))

end Sys2Proof.Machine
end

