-- ==== Sys2Proof/Machine/Divide.lean ====
section
/-! DEFINITION. Divide instructions (46_divide.md). -/

namespace Sys2Proof.Machine

/-- What a division gives: quotient, remainder, and the flags OV, S and Z. -/
structure Quotient where
  quot : Word
  rem : Word
  ov : Bool
  sg : Bool
  z : Bool
deriving DecidableEq, Repr

/-- A quotient with the S and Z it sets itself (R310). -/
def quotientOf (q rem : Word) (ov : Bool) : Quotient where
  quot := q
  rem := rem
  ov := ov
  sg := q.msb
  z := q == 0#32

/-- Division by zero: OV is 1, the quotient, the remainder, S and Z are free values (R311; log
entry 9). -/
def divideByZero (tick : Nat) : Quotient where
  quot := Config.divZeroQuotient tick
  rem := Config.divZeroRemainder tick
  ov := true
  sg := Config.divZeroS tick
  z := Config.divZeroZ tick

/-- Signed division. PRESUMED: the quotient is truncated toward zero and the remainder has the sign
of the dividend (R310, log entry 12). 80000000H by -1 overflows with remainder 0 (R312, log entry
13). -/
def divideSigned (tick : Nat) (a b : Word) : Quotient :=
  if b = 0#32 then divideByZero tick
  else if a = 0x80000000#32 ∧ b = 0xFFFFFFFF#32 then quotientOf 0x80000000#32 0#32 true
  else quotientOf (BitVec.ofInt 32 (a.toInt.tdiv b.toInt)) (BitVec.ofInt 32 (a.toInt.tmod b.toInt))
    false

/-- Unsigned division (R317, R318). -/
def divideUnsigned (tick : Nat) (a b : Word) : Quotient :=
  if b = 0#32 then divideByZero tick
  else quotientOf (BitVec.ofNat 32 (a.toNat / b.toNat)) (BitVec.ofNat 32 (a.toNat % b.toNat)) false

/-- The flags of a division: CY and SAT stay (R310). -/
def State.withQuotient (s : State) (r : Quotient) : State :=
  { s with psw := putFlagsNoCy s.psw r.ov r.sg r.z }

/-- The common end of a 3-operand division: the quotient in reg2, then the remainder in reg3
(R310). -/
def State.storeDivision (s : State) (reg2 reg3 : Reg) (r : Quotient) : State :=
  (((s.withQuotient r).setReg reg2 r.quot).setReg reg3 r.rem).advance 4

/-- DIV reg1, reg2, reg3 (R314). -/
def execDiv (reg1 reg2 reg3 : Reg) (s : State) : Result :=
  .next (s.storeDivision reg2 reg3 (divideSigned s.tick (s.reg reg2) (s.reg reg1)))

/-- DIVH reg1, reg2 (R315): the remainder is not stored. -/
def execDivhReg (reg1 reg2 : Reg) (s : State) : Result :=
  let r := divideSigned s.tick (s.reg reg2) (sext (s.lowHalf reg1))
  .next (((s.withQuotient r).setReg reg2 r.quot).advance 2)

/-- DIVH reg1, reg2, reg3 (R316). -/
def execDivh3 (reg1 reg2 reg3 : Reg) (s : State) : Result :=
  .next (s.storeDivision reg2 reg3 (divideSigned s.tick (s.reg reg2) (sext (s.lowHalf reg1))))

/-- DIVHU reg1, reg2, reg3 (R317). -/
def execDivhu (reg1 reg2 reg3 : Reg) (s : State) : Result :=
  .next (s.storeDivision reg2 reg3 (divideUnsigned s.tick (s.reg reg2) (zext (s.lowHalf reg1))))

/-- DIVU reg1, reg2, reg3 (R318). -/
def execDivu (reg1 reg2 reg3 : Reg) (s : State) : Result :=
  .next (s.storeDivision reg2 reg3 (divideUnsigned s.tick (s.reg reg2) (s.reg reg1)))

end Sys2Proof.Machine
end

