-- ==== Sys2Proof/Machine/LoadStore.lean ====
section
/-! DEFINITION. Load and store instructions (40_load_store.md). A misaligned address with DIR.MAE
set in user mode is a debug break and nothing else (60_exceptions.md R463); otherwise the alignment
step is part of memRead and memWrite (20_memory.md R90). -/

namespace Sys2Proof.Machine

/-- The sign extension of a loaded value of the given size (R175, R177). -/
def signedLoad : AccessSize → Word → Word
  | .byte, v => sext (v.extractLsb' 0 8)
  | .half, v => sext (v.extractLsb' 0 16)
  | .word, v => v

/-- The zero extension of a loaded value of the given size (R176, R178). -/
def unsignedLoad : AccessSize → Word → Word
  | .byte, v => zext (v.extractLsb' 0 8)
  | .half, v => zext (v.extractLsb' 0 16)
  | .word, v => v

/-- A load: the value read at `a`, extended, into reg2; r0 drops it (R173). -/
def State.load (s : State) (a : Word) (size : AccessSize) (ext : Word → Word) (reg2 : Reg)
    (len : Nat) : Result :=
  if s.misalignDetected a size then .next s.misalignBreak
  else
    match s.memRead a size with
    | .ok v => .next ((s.setReg reg2 (ext v)).advance len)
    | .error f => .fault f

/-- A store of the low bytes of reg2 at `a` (R185 to R190). -/
def State.store (s : State) (a : Word) (size : AccessSize) (reg2 : Reg) (len : Nat) : Result :=
  if s.misalignDetected a size then .next s.misalignBreak
  else
    match s.memWrite a size (s.reg reg2) with
    | .ok t => .next (t.advance len)
    | .error f => .fault f

/-- LD.B disp16[reg1], reg2 (R175). -/
def execLdb (disp16 : BitVec 16) (reg1 reg2 : Reg) (s : State) : Result :=
  s.load (s.dispAddr reg1 disp16) .byte (signedLoad .byte) reg2 4

/-- LD.BU disp16[reg1], reg2 (R176). -/
def execLdbu (disp16 : BitVec 16) (reg1 reg2 : Reg) (s : State) : Result :=
  s.load (s.dispAddr reg1 disp16) .byte (unsignedLoad .byte) reg2 4

/-- LD.H disp16[reg1], reg2 (R177). -/
def execLdh (disp16 : BitVec 16) (reg1 reg2 : Reg) (s : State) : Result :=
  s.load (s.dispAddr reg1 disp16) .half (signedLoad .half) reg2 4

/-- LD.HU disp16[reg1], reg2 (R178). -/
def execLdhu (disp16 : BitVec 16) (reg1 reg2 : Reg) (s : State) : Result :=
  s.load (s.dispAddr reg1 disp16) .half (unsignedLoad .half) reg2 4

/-- LD.W disp16[reg1], reg2 (R179). -/
def execLdw (disp16 : BitVec 16) (reg1 reg2 : Reg) (s : State) : Result :=
  s.load (s.dispAddr reg1 disp16) .word (signedLoad .word) reg2 4

/-- SLD.B disp7[ep], reg2 (R180). -/
def execSldb (disp7 : BitVec 7) (reg2 : Reg) (s : State) : Result :=
  s.load (s.epAddr disp7) .byte (signedLoad .byte) reg2 2

/-- SLD.BU disp4[ep], reg2 (R181). -/
def execSldbu (disp4 : BitVec 4) (reg2 : Reg) (s : State) : Result :=
  s.load (s.epAddr disp4) .byte (unsignedLoad .byte) reg2 2

/-- SLD.H disp8[ep], reg2 (R182). -/
def execSldh (disp8 : BitVec 8) (reg2 : Reg) (s : State) : Result :=
  s.load (s.epAddr disp8) .half (signedLoad .half) reg2 2

/-- SLD.HU disp5[ep], reg2 (R183). -/
def execSldhu (disp5 : BitVec 5) (reg2 : Reg) (s : State) : Result :=
  s.load (s.epAddr disp5) .half (unsignedLoad .half) reg2 2

/-- SLD.W disp8[ep], reg2 (R184). -/
def execSldw (disp8 : BitVec 8) (reg2 : Reg) (s : State) : Result :=
  s.load (s.epAddr disp8) .word (signedLoad .word) reg2 2

/-- ST.B reg2, disp16[reg1] (R185). -/
def execStb (reg2 : Reg) (disp16 : BitVec 16) (reg1 : Reg) (s : State) : Result :=
  s.store (s.dispAddr reg1 disp16) .byte reg2 4

/-- ST.H reg2, disp16[reg1] (R186). -/
def execSth (reg2 : Reg) (disp16 : BitVec 16) (reg1 : Reg) (s : State) : Result :=
  s.store (s.dispAddr reg1 disp16) .half reg2 4

/-- ST.W reg2, disp16[reg1] (R187). -/
def execStw (reg2 : Reg) (disp16 : BitVec 16) (reg1 : Reg) (s : State) : Result :=
  s.store (s.dispAddr reg1 disp16) .word reg2 4

/-- SST.B reg2, disp7[ep] (R188). -/
def execSstb (reg2 : Reg) (disp7 : BitVec 7) (s : State) : Result :=
  s.store (s.epAddr disp7) .byte reg2 2

/-- SST.H reg2, disp8[ep] (R189). -/
def execSsth (reg2 : Reg) (disp8 : BitVec 8) (s : State) : Result :=
  s.store (s.epAddr disp8) .half reg2 2

/-- SST.W reg2, disp8[ep] (R190). -/
def execSstw (reg2 : Reg) (disp8 : BitVec 8) (s : State) : Result :=
  s.store (s.epAddr disp8) .word reg2 2

end Sys2Proof.Machine
end

