-- ==== Sys2Proof/Machine/Logic.lean ====
section
/-! DEFINITION. Logical operation instructions (44_logical.md). -/

namespace Sys2Proof.Machine

/-- The common end of a logical instruction: the result in a register, the flags of R255. -/
def State.storeLogic (s : State) (dst : Reg) (r : Word) (len : Nat) : State :=
  ((s.withFlagsNoCy false r).setReg dst r).advance len

/-- AND reg1, reg2 (R256). -/
def execAndReg (reg1 reg2 : Reg) (s : State) : Result :=
  .next (s.storeLogic reg2 (s.reg reg2 &&& s.reg reg1) 2)

/-- ANDI imm16, reg1, reg2 (R257). -/
def execAndi (imm16 : BitVec 16) (reg1 reg2 : Reg) (s : State) : Result :=
  .next (s.storeLogic reg2 (s.reg reg1 &&& zext imm16) 4)

/-- NOT reg1, reg2 (R258). -/
def execNotReg (reg1 reg2 : Reg) (s : State) : Result :=
  .next (s.storeLogic reg2 (~~~(s.reg reg1)) 2)

/-- OR reg1, reg2 (R259). -/
def execOrReg (reg1 reg2 : Reg) (s : State) : Result :=
  .next (s.storeLogic reg2 (s.reg reg2 ||| s.reg reg1) 2)

/-- ORI imm16, reg1, reg2 (R260). -/
def execOri (imm16 : BitVec 16) (reg1 reg2 : Reg) (s : State) : Result :=
  .next (s.storeLogic reg2 (s.reg reg1 ||| zext imm16) 4)

/-- TST reg1, reg2 (R261). -/
def execTst (reg1 reg2 : Reg) (s : State) : Result :=
  .next ((s.withFlagsNoCy false (s.reg reg2 &&& s.reg reg1)).advance 2)

/-- XOR reg1, reg2 (R262). -/
def execXorReg (reg1 reg2 : Reg) (s : State) : Result :=
  .next (s.storeLogic reg2 (s.reg reg2 ^^^ s.reg reg1) 2)

/-- XORI imm16, reg1, reg2 (R263). -/
def execXori (imm16 : BitVec 16) (reg1 reg2 : Reg) (s : State) : Result :=
  .next (s.storeLogic reg2 (s.reg reg1 ^^^ zext imm16) 4)

end Sys2Proof.Machine
end

