-- ==== Sys2Proof/Machine/Multiply.lean ====
section
/-! DEFINITION. Multiply and multiply-accumulate instructions (41_multiply_mac.md). No flag is
written (R200). -/

namespace Sys2Proof.Machine

/-- The exact product as a 64-bit pattern, both factors signed. -/
def mulSigned (a b : Word) : BitVec 64 := BitVec.ofInt 64 (a.toInt * b.toInt)

/-- The exact product as a 64-bit pattern, both factors unsigned. -/
def mulUnsigned (a b : Word) : BitVec 64 := BitVec.ofNat 64 (a.toNat * b.toNat)

/-- The exact product of two signed halfwords. -/
def mulHalf (a b : BitVec 16) : Word := BitVec.ofInt 32 (a.toInt * b.toInt)

/-- Bits 31:0 of a 64-bit pattern. -/
def lowWord (p : BitVec 64) : Word := p.extractLsb' 0 32

/-- Bits 63:32 of a 64-bit pattern. -/
def highWord (p : BitVec 64) : Word := p.extractLsb' 32 32

/-- A product into two registers, the one of the high word written last (R201). -/
def State.storePair (s : State) (low high : Reg) (p : BitVec 64) : State :=
  ((s.setReg low (lowWord p)).setReg high (highWord p)).advance 4

/-- The register combination whose operation is not guaranteed (R201 (d), R203). -/
def prohibitedMul (reg1 reg2 reg3 : Reg) : Bool :=
  reg1 == reg3 && reg1 != reg2 && reg1 != 0#5 && reg3 != 0#5

/-- MUL reg1, reg2, reg3 (R201). -/
def execMul (reg1 reg2 reg3 : Reg) (s : State) : Result :=
  if prohibitedMul reg1 reg2 reg3 then .fault .prohibitedOperands
  else .next (s.storePair reg2 reg3 (mulSigned (s.reg reg2) (s.reg reg1)))

/-- MUL imm9, reg2, reg3 (R202). -/
def execMulImm9 (imm9 : BitVec 9) (reg2 reg3 : Reg) (s : State) : Result :=
  .next (s.storePair reg2 reg3 (mulSigned (s.reg reg2) (sext imm9)))

/-- MULU reg1, reg2, reg3 (R203). -/
def execMulu (reg1 reg2 reg3 : Reg) (s : State) : Result :=
  if prohibitedMul reg1 reg2 reg3 then .fault .prohibitedOperands
  else .next (s.storePair reg2 reg3 (mulUnsigned (s.reg reg2) (s.reg reg1)))

/-- MULU imm9, reg2, reg3 (R204). -/
def execMuluImm9 (imm9 : BitVec 9) (reg2 reg3 : Reg) (s : State) : Result :=
  .next (s.storePair reg2 reg3 (mulUnsigned (s.reg reg2) (zext imm9)))

/-- MULH reg1, reg2 (R205). -/
def execMulhReg (reg1 reg2 : Reg) (s : State) : Result :=
  .next ((s.setReg reg2 (mulHalf (s.lowHalf reg2) (s.lowHalf reg1))).advance 2)

/-- MULH imm5, reg2 (R206). -/
def execMulhImm5 (imm5 : BitVec 5) (reg2 : Reg) (s : State) : Result :=
  .next ((s.setReg reg2 (mulHalf (s.lowHalf reg2) (imm5.signExtend 16))).advance 2)

/-- MULHI imm16, reg1, reg2 (R207). -/
def execMulhi (imm16 : BitVec 16) (reg1 reg2 : Reg) (s : State) : Result :=
  .next ((s.setReg reg2 (mulHalf (s.lowHalf reg1) imm16)).advance 4)

/-- The 64-bit addend of MAC and MACU: `reg3 + 1` the high word (R210). -/
def State.accumulator (s : State) (reg3 : Reg) : BitVec 64 := s.reg (reg3 + 1) ++ s.reg reg3

/-- What MAC and MACU write for the product `p`: the sum modulo 2^64, and for an odd reg3 two free
words (R210; log entry 10). -/
def State.macResult (s : State) (p : BitVec 64) (reg3 : Reg) : BitVec 64 :=
  if reg3.getLsbD 0 then Config.macOddHigh s.tick ++ Config.macOddLow s.tick
  else p + s.accumulator reg3

/-- MAC reg1, reg2, reg3, reg4 (R210). -/
def execMac (reg1 reg2 reg3 reg4 : Reg) (s : State) : Result :=
  .next (s.storePair reg4 (reg4 + 1)
    (s.macResult (mulSigned (s.reg reg2) (s.reg reg1)) reg3))

/-- MACU reg1, reg2, reg3, reg4 (R211). -/
def execMacu (reg1 reg2 reg3 reg4 : Reg) (s : State) : Result :=
  .next (s.storePair reg4 (reg4 + 1)
    (s.macResult (mulUnsigned (s.reg reg2) (s.reg reg1)) reg3))

end Sys2Proof.Machine
end

