-- ==== Sys2Proof/Machine/Saturate.lean ====
section
/-! DEFINITION. Saturated operation instructions (43_saturate.md). -/

namespace Sys2Proof.Machine

/-- `GR[dst] <- saturated(a + b)` with the flags of R241. -/
def State.saturatedAdd (s : State) (a b : Word) (dst : Reg) (len : Nat) : State :=
  let res := saturated (a.toInt + b.toInt)
  ((s.withSaturation (addFlags a b false) res).setReg dst res).advance len

/-- `GR[dst] <- saturated(a - b)` with the flags of R241. -/
def State.saturatedSub (s : State) (a b : Word) (dst : Reg) (len : Nat) : State :=
  let res := saturated (a.toInt - b.toInt)
  ((s.withSaturation (subFlags a b false) res).setReg dst res).advance len

/-- SATADD reg1, reg2 (R242). -/
def execSataddReg (reg1 reg2 : Reg) (s : State) : Result :=
  .next (s.saturatedAdd (s.reg reg2) (s.reg reg1) reg2 2)

/-- SATADD imm5, reg2 (R243). -/
def execSataddImm5 (imm5 : BitVec 5) (reg2 : Reg) (s : State) : Result :=
  .next (s.saturatedAdd (s.reg reg2) (immSigned5 imm5) reg2 2)

/-- SATADD reg1, reg2, reg3 (R244). -/
def execSatadd3 (reg1 reg2 reg3 : Reg) (s : State) : Result :=
  .next (s.saturatedAdd (s.reg reg2) (s.reg reg1) reg3 4)

/-- SATSUB reg1, reg2 (R245). -/
def execSatsubReg (reg1 reg2 : Reg) (s : State) : Result :=
  .next (s.saturatedSub (s.reg reg2) (s.reg reg1) reg2 2)

/-- SATSUB reg1, reg2, reg3 (R246). -/
def execSatsub3 (reg1 reg2 reg3 : Reg) (s : State) : Result :=
  .next (s.saturatedSub (s.reg reg2) (s.reg reg1) reg3 4)

/-- SATSUBI imm16, reg1, reg2 (R247). -/
def execSatsubi (imm16 : BitVec 16) (reg1 reg2 : Reg) (s : State) : Result :=
  .next (s.saturatedSub (s.reg reg1) (sext imm16) reg2 4)

/-- SATSUBR reg1, reg2 (R248). -/
def execSatsubr (reg1 reg2 : Reg) (s : State) : Result :=
  .next (s.saturatedSub (s.reg reg1) (s.reg reg2) reg2 2)

end Sys2Proof.Machine
end

