-- ==== Sys2Proof/Machine/Dispatch.lean ====
section
/-! DEFINITION. The dispatch: one arm per instruction, each one call of its meaning. -/

namespace Sys2Proof.Machine

def exec (i : Instr) (s : State) : Host.Outcome State Fault Refusal :=
  match i with
  | .nop => Sys2Proof.Machine.execNop s
  | .movReg reg1 reg2 => Sys2Proof.Machine.execMovReg reg1 reg2 s
  | .notReg reg1 reg2 => Sys2Proof.Machine.execNotReg reg1 reg2 s
  | .divhReg reg1 reg2 => Sys2Proof.Machine.execDivhReg reg1 reg2 s
  | .switch reg1 => Sys2Proof.Machine.execSwitch reg1 s
  | .dbtrap => Sys2Proof.Machine.execDbtrap s
  | .jmpReg reg1 => Sys2Proof.Machine.execJmpReg reg1 s
  | .satsubr reg1 reg2 => Sys2Proof.Machine.execSatsubr reg1 reg2 s
  | .satsubReg reg1 reg2 => Sys2Proof.Machine.execSatsubReg reg1 reg2 s
  | .sataddReg reg1 reg2 => Sys2Proof.Machine.execSataddReg reg1 reg2 s
  | .mulhReg reg1 reg2 => Sys2Proof.Machine.execMulhReg reg1 reg2 s
  | .zxb reg1 => Sys2Proof.Machine.execZxb reg1 s
  | .sxb reg1 => Sys2Proof.Machine.execSxb reg1 s
  | .zxh reg1 => Sys2Proof.Machine.execZxh reg1 s
  | .sxh reg1 => Sys2Proof.Machine.execSxh reg1 s
  | .orReg reg1 reg2 => Sys2Proof.Machine.execOrReg reg1 reg2 s
  | .xorReg reg1 reg2 => Sys2Proof.Machine.execXorReg reg1 reg2 s
  | .andReg reg1 reg2 => Sys2Proof.Machine.execAndReg reg1 reg2 s
  | .tst reg1 reg2 => Sys2Proof.Machine.execTst reg1 reg2 s
  | .subr reg1 reg2 => Sys2Proof.Machine.execSubr reg1 reg2 s
  | .sub reg1 reg2 => Sys2Proof.Machine.execSub reg1 reg2 s
  | .addReg reg1 reg2 => Sys2Proof.Machine.execAddReg reg1 reg2 s
  | .cmpReg reg1 reg2 => Sys2Proof.Machine.execCmpReg reg1 reg2 s
  | .movImm5 imm5 reg2 => Sys2Proof.Machine.execMovImm5 imm5 reg2 s
  | .sataddImm5 imm5 reg2 => Sys2Proof.Machine.execSataddImm5 imm5 reg2 s
  | .addImm5 imm5 reg2 => Sys2Proof.Machine.execAddImm5 imm5 reg2 s
  | .cmpImm5 imm5 reg2 => Sys2Proof.Machine.execCmpImm5 imm5 reg2 s
  | .callt imm6 => Sys2Proof.Machine.execCallt imm6 s
  | .shrImm5 imm5 reg2 => Sys2Proof.Machine.execShrImm5 imm5 reg2 s
  | .sarImm5 imm5 reg2 => Sys2Proof.Machine.execSarImm5 imm5 reg2 s
  | .shlImm5 imm5 reg2 => Sys2Proof.Machine.execShlImm5 imm5 reg2 s
  | .mulhImm5 imm5 reg2 => Sys2Proof.Machine.execMulhImm5 imm5 reg2 s
  | .bcond cond disp9 => Sys2Proof.Machine.execBcond cond disp9 s
  | .sldbu disp4 reg2 => Sys2Proof.Machine.execSldbu disp4 reg2 s
  | .sldhu disp5 reg2 => Sys2Proof.Machine.execSldhu disp5 reg2 s
  | .sldb disp7 reg2 => Sys2Proof.Machine.execSldb disp7 reg2 s
  | .sstb reg2 disp7 => Sys2Proof.Machine.execSstb reg2 disp7 s
  | .sldh disp8 reg2 => Sys2Proof.Machine.execSldh disp8 reg2 s
  | .ssth reg2 disp8 => Sys2Proof.Machine.execSsth reg2 disp8 s
  | .sldw disp8 reg2 => Sys2Proof.Machine.execSldw disp8 reg2 s
  | .sstw reg2 disp8 => Sys2Proof.Machine.execSstw reg2 disp8 s
  | .jarl22 disp22 reg2 => Sys2Proof.Machine.execJarl22 disp22 reg2 s
  | .jr22 disp22 => Sys2Proof.Machine.execJr22 disp22 s
  | .addi imm16 reg1 reg2 => Sys2Proof.Machine.execAddi imm16 reg1 reg2 s
  | .movea imm16 reg1 reg2 => Sys2Proof.Machine.execMovea imm16 reg1 reg2 s
  | .movImm32 imm32 reg1 => Sys2Proof.Machine.execMovImm32 imm32 reg1 s
  | .movhi imm16 reg1 reg2 => Sys2Proof.Machine.execMovhi imm16 reg1 reg2 s
  | .satsubi imm16 reg1 reg2 => Sys2Proof.Machine.execSatsubi imm16 reg1 reg2 s
  | .ori imm16 reg1 reg2 => Sys2Proof.Machine.execOri imm16 reg1 reg2 s
  | .xori imm16 reg1 reg2 => Sys2Proof.Machine.execXori imm16 reg1 reg2 s
  | .andi imm16 reg1 reg2 => Sys2Proof.Machine.execAndi imm16 reg1 reg2 s
  | .mulhi imm16 reg1 reg2 => Sys2Proof.Machine.execMulhi imm16 reg1 reg2 s
  | .jmpDisp32 disp32 reg1 => Sys2Proof.Machine.execJmpDisp32 disp32 reg1 s
  | .jr32 disp32 => Sys2Proof.Machine.execJr32 disp32 s
  | .jarl32 disp32 reg1 => Sys2Proof.Machine.execJarl32 disp32 reg1 s
  | .ldb disp16 reg1 reg2 => Sys2Proof.Machine.execLdb disp16 reg1 reg2 s
  | .ldh disp16 reg1 reg2 => Sys2Proof.Machine.execLdh disp16 reg1 reg2 s
  | .ldw disp16 reg1 reg2 => Sys2Proof.Machine.execLdw disp16 reg1 reg2 s
  | .stb reg2 disp16 reg1 => Sys2Proof.Machine.execStb reg2 disp16 reg1 s
  | .sth reg2 disp16 reg1 => Sys2Proof.Machine.execSth reg2 disp16 reg1 s
  | .stw reg2 disp16 reg1 => Sys2Proof.Machine.execStw reg2 disp16 reg1 s
  | .ldbu disp16 reg1 reg2 => Sys2Proof.Machine.execLdbu disp16 reg1 reg2 s
  | .ldhu disp16 reg1 reg2 => Sys2Proof.Machine.execLdhu disp16 reg1 reg2 s
  | .set1Imm bit3 disp16 reg1 => Sys2Proof.Machine.execSet1Imm bit3 disp16 reg1 s
  | .not1Imm bit3 disp16 reg1 => Sys2Proof.Machine.execNot1Imm bit3 disp16 reg1 s
  | .clr1Imm bit3 disp16 reg1 => Sys2Proof.Machine.execClr1Imm bit3 disp16 reg1 s
  | .tst1Imm bit3 disp16 reg1 => Sys2Proof.Machine.execTst1Imm bit3 disp16 reg1 s
  | .setf cond reg2 => Sys2Proof.Machine.execSetf cond reg2 s
  | .ldsr reg2 regID => Sys2Proof.Machine.execLdsr reg2 regID s
  | .stsr regID reg2 => Sys2Proof.Machine.execStsr regID reg2 s
  | .shrReg reg1 reg2 => Sys2Proof.Machine.execShrReg reg1 reg2 s
  | .sarReg reg1 reg2 => Sys2Proof.Machine.execSarReg reg1 reg2 s
  | .shlReg reg1 reg2 => Sys2Proof.Machine.execShlReg reg1 reg2 s
  | .set1Reg reg2 reg1 => Sys2Proof.Machine.execSet1Reg reg2 reg1 s
  | .not1Reg reg2 reg1 => Sys2Proof.Machine.execNot1Reg reg2 reg1 s
  | .clr1Reg reg2 reg1 => Sys2Proof.Machine.execClr1Reg reg2 reg1 s
  | .tst1Reg reg2 reg1 => Sys2Proof.Machine.execTst1Reg reg2 reg1 s
  | .sasf cond reg2 => Sys2Proof.Machine.execSasf cond reg2 s
  | .sch0r reg2 reg3 => Sys2Proof.Machine.execSch0r reg2 reg3 s
  | .sch1r reg2 reg3 => Sys2Proof.Machine.execSch1r reg2 reg3 s
  | .sch0l reg2 reg3 => Sys2Proof.Machine.execSch0l reg2 reg3 s
  | .sch1l reg2 reg3 => Sys2Proof.Machine.execSch1l reg2 reg3 s
  | .trap vector => Sys2Proof.Machine.execTrap vector s
  | .halt => Sys2Proof.Machine.execHalt s
  | .reti => Sys2Proof.Machine.execReti s
  | .ctret => Sys2Proof.Machine.execCtret s
  | .dbret => Sys2Proof.Machine.execDbret s
  | .di => Sys2Proof.Machine.execDi s
  | .ei => Sys2Proof.Machine.execEi s
  | .shr3 reg1 reg2 reg3 => Sys2Proof.Machine.execShr3 reg1 reg2 reg3 s
  | .sar3 reg1 reg2 reg3 => Sys2Proof.Machine.execSar3 reg1 reg2 reg3 s
  | .shl3 reg1 reg2 reg3 => Sys2Proof.Machine.execShl3 reg1 reg2 reg3 s
  | .mul reg1 reg2 reg3 => Sys2Proof.Machine.execMul reg1 reg2 reg3 s
  | .mulu reg1 reg2 reg3 => Sys2Proof.Machine.execMulu reg1 reg2 reg3 s
  | .divh3 reg1 reg2 reg3 => Sys2Proof.Machine.execDivh3 reg1 reg2 reg3 s
  | .divhu reg1 reg2 reg3 => Sys2Proof.Machine.execDivhu reg1 reg2 reg3 s
  | .div reg1 reg2 reg3 => Sys2Proof.Machine.execDiv reg1 reg2 reg3 s
  | .divu reg1 reg2 reg3 => Sys2Proof.Machine.execDivu reg1 reg2 reg3 s
  | .cmov cond reg1 reg2 reg3 => Sys2Proof.Machine.execCmov cond reg1 reg2 reg3 s
  | .sbf cond reg1 reg2 reg3 => Sys2Proof.Machine.execSbf cond reg1 reg2 reg3 s
  | .satsub3 reg1 reg2 reg3 => Sys2Proof.Machine.execSatsub3 reg1 reg2 reg3 s
  | .adf cond reg1 reg2 reg3 => Sys2Proof.Machine.execAdf cond reg1 reg2 reg3 s
  | .satadd3 reg1 reg2 reg3 => Sys2Proof.Machine.execSatadd3 reg1 reg2 reg3 s
  | .mac reg1 reg2 reg3 reg4 => Sys2Proof.Machine.execMac reg1 reg2 reg3 reg4 s
  | .macu reg1 reg2 reg3 reg4 => Sys2Proof.Machine.execMacu reg1 reg2 reg3 reg4 s
  | .mulImm9 imm9 reg2 reg3 => Sys2Proof.Machine.execMulImm9 imm9 reg2 reg3 s
  | .muluImm9 imm9 reg2 reg3 => Sys2Proof.Machine.execMuluImm9 imm9 reg2 reg3 s
  | .cmovImm5 cond imm5 reg2 reg3 => Sys2Proof.Machine.execCmovImm5 cond imm5 reg2 reg3 s
  | .bsw reg2 reg3 => Sys2Proof.Machine.execBsw reg2 reg3 s
  | .bsh reg2 reg3 => Sys2Proof.Machine.execBsh reg2 reg3 s
  | .hsw reg2 reg3 => Sys2Proof.Machine.execHsw reg2 reg3 s
  | .hsh reg2 reg3 => Sys2Proof.Machine.execHsh reg2 reg3 s
  | .dispose imm5 list12 => Sys2Proof.Machine.execDispose imm5 list12 s
  | .disposeJmp imm5 list12 reg1 => Sys2Proof.Machine.execDisposeJmp imm5 list12 reg1 s
  | .prepare list12 imm5 => Sys2Proof.Machine.execPrepare list12 imm5 s
  | .prepareSp list12 imm5 => Sys2Proof.Machine.execPrepareSp list12 imm5 s
  | .prepareImm16 list12 imm5 imm16 => Sys2Proof.Machine.execPrepareImm16 list12 imm5 imm16 s
  | .prepareImm16Hi list12 imm5 imm16 => Sys2Proof.Machine.execPrepareImm16Hi list12 imm5 imm16 s
  | .prepareImm32 list12 imm5 imm32 => Sys2Proof.Machine.execPrepareImm32 list12 imm5 imm32 s

end Sys2Proof.Machine
end

