-- ==== Sys2Proof/WellFormed.lean ====
section
/-! DEFINITION. WellFormed: which operands the encodings of 30_encoding.md admit. Every check is a
constraint of spec/opcode_table.json or a bit the encoding does not store. -/

namespace Sys2Proof

/-- Bit 0 of a displacement is not encoded and is 0 (30_encoding.md R126 to R130, R138). -/
def evenDisp {w : Nat} (d : BitVec w) : Bool := !d.getLsbD 0

/-- Bits 1 and 0 of SLD.W's and SST.W's disp8 are not encoded and are 0 (30_encoding.md R127). -/
def wordDisp {w : Nat} (d : BitVec w) : Bool := !d.getLsbD 0 && !d.getLsbD 1

/-- A register field whose value 0 makes the word another instruction (30_encoding.md R150). -/
def notR0 (r : Reg) : Bool := r != 0#5

/-- The operands an encoding exists for. A constructor that is always encodable answers true. -/
def WellFormed : Instr → Bool
  | .nop => true
  | .movReg r1 r2 => !(r1 == 0#5 && r2 == 0#5)
  | .notReg _ _ => true
  | .divhReg r1 r2 => notR0 r1 && notR0 r2
  | .switch r1 => notR0 r1
  | .dbtrap => true
  | .jmpReg _ => true
  | .satsubr _ r2 => notR0 r2
  | .satsubReg _ r2 => notR0 r2
  | .sataddReg _ r2 => notR0 r2
  | .mulhReg _ r2 => notR0 r2
  | .zxb _ => true
  | .sxb _ => true
  | .zxh _ => true
  | .sxh _ => true
  | .orReg _ _ => true
  | .xorReg _ _ => true
  | .andReg _ _ => true
  | .tst _ _ => true
  | .subr _ _ => true
  | .sub _ _ => true
  | .addReg _ _ => true
  | .cmpReg _ _ => true
  | .movImm5 _ r2 => notR0 r2
  | .sataddImm5 _ r2 => notR0 r2
  | .addImm5 _ _ => true
  | .cmpImm5 _ _ => true
  | .callt _ => true
  | .shrImm5 _ _ => true
  | .sarImm5 _ _ => true
  | .shlImm5 _ _ => true
  | .mulhImm5 _ r2 => notR0 r2
  | .bcond _ d => evenDisp d
  | .sldbu _ r2 => notR0 r2
  | .sldhu d r2 => evenDisp d && notR0 r2
  | .sldb _ _ => true
  | .sstb _ _ => true
  | .sldh d _ => evenDisp d
  | .ssth _ d => evenDisp d
  | .sldw d _ => wordDisp d
  | .sstw _ d => wordDisp d
  | .jarl22 d r2 => evenDisp d && notR0 r2
  | .jr22 d => evenDisp d
  | .addi _ _ _ => true
  | .movea _ _ r2 => notR0 r2
  | .movImm32 _ _ => true
  | .movhi _ _ r2 => notR0 r2
  | .satsubi _ _ r2 => notR0 r2
  | .ori _ _ _ => true
  | .xori _ _ _ => true
  | .andi _ _ _ => true
  | .mulhi _ _ r2 => notR0 r2
  | .jmpDisp32 d _ => evenDisp d
  | .jr32 d => evenDisp d
  | .jarl32 d r1 => evenDisp d && notR0 r1
  | .ldb _ _ _ => true
  | .ldh d _ _ => evenDisp d
  | .ldw d _ _ => evenDisp d
  | .stb _ _ _ => true
  | .sth _ d _ => evenDisp d
  | .stw _ d _ => evenDisp d
  | .ldbu _ _ r2 => notR0 r2
  | .ldhu d _ r2 => evenDisp d && notR0 r2
  | .set1Imm _ _ _ => true
  | .not1Imm _ _ _ => true
  | .clr1Imm _ _ _ => true
  | .tst1Imm _ _ _ => true
  | .setf _ _ => true
  | .ldsr _ _ => true
  | .stsr _ _ => true
  | .shrReg _ _ => true
  | .sarReg _ _ => true
  | .shlReg _ _ => true
  | .set1Reg _ _ => true
  | .not1Reg _ _ => true
  | .clr1Reg _ _ => true
  | .tst1Reg _ _ => true
  | .sasf _ _ => true
  | .sch0r _ _ => true
  | .sch1r _ _ => true
  | .sch0l _ _ => true
  | .sch1l _ _ => true
  | .trap _ => true
  | .halt => true
  | .reti => true
  | .ctret => true
  | .dbret => true
  | .di => true
  | .ei => true
  | .shr3 _ _ _ => true
  | .sar3 _ _ _ => true
  | .shl3 _ _ _ => true
  | .mul _ _ _ => true
  | .mulu _ _ _ => true
  | .divh3 _ _ _ => true
  | .divhu _ _ _ => true
  | .div _ _ _ => true
  | .divu _ _ _ => true
  | .cmov _ _ _ _ => true
  | .sbf cc _ _ _ => decide (cc ≠ .sa)
  | .satsub3 _ _ _ => true
  | .adf cc _ _ _ => decide (cc ≠ .sa)
  | .satadd3 _ _ _ => true
  | .mac _ _ _ r4 => evenDisp r4
  | .macu _ _ _ r4 => evenDisp r4
  | .mulImm9 _ _ _ => true
  | .muluImm9 _ _ _ => true
  | .cmovImm5 _ _ _ _ => true
  | .bsw _ _ => true
  | .bsh _ _ => true
  | .hsw _ _ => true
  | .hsh _ _ => true
  | .dispose _ _ => true
  | .disposeJmp _ _ r1 => notR0 r1
  | .prepare _ _ => true
  | .prepareSp _ _ => true
  | .prepareImm16 _ _ _ => true
  | .prepareImm16Hi _ _ _ => true
  | .prepareImm32 _ _ _ => true

end Sys2Proof
end

