-- ==== Sys2Proof/Decode.lean ====
section
/-! DEFINITION. Decoding and encoding (30_encoding.md). Every halfword is read as three fields:
bits 15:11, bits 10:5 and bits 4:0 (R121), of the first halfword reg2, the 6-bit opcode and reg1,
of the second reg3, the sub-opcode and the last five bits. The decoder is total: a word that is no
instruction is refused as the illegal code of R145, as an undefined code (R146), or as cut short. -/

namespace Sys2Proof

/-- Why a sequence of halfwords is no instruction. -/
inductive DecodeError where
  /-- The illegal instruction code of R145, which raises the exception trap. -/
  | illegalCode
  /-- A word that matches no row and is not illegal (R146). -/
  | undefinedCode
  /-- The sequence ends before the instruction does. -/
  | truncated
deriving DecidableEq, Repr

/-! ## Fields of a halfword -/

/-- Bits 15:11 of a halfword: reg2 of the first, reg3 of the second (R121). -/
def hi5 (h : Half) : BitVec 5 := h.extractLsb' 11 5

/-- Bits 10:5 of a halfword: the opcode of the first, the sub-opcode of the second (R121). -/
def mid6 (h : Half) : BitVec 6 := h.extractLsb' 5 6

/-- Bits 4:0 of a halfword (R121). -/
def lo5 (h : Half) : BitVec 5 := h.extractLsb' 0 5

/-- The halfword with the three fields given, the highest first. -/
def joinFields (a : BitVec 5) (b : BitVec 6) (d : BitVec 5) : Half := a ++ b ++ d

/-- A displacement halfword without its bit 0, which is a sub-opcode bit (R130). -/
def dropBit0 (h : Half) : Half := h &&& 0xFFFE#16

/-- The 4-bit code of a condition (Table 5-4, 10_state.md R30). -/
def Cond.code : Cond → BitVec 4
  | .v => 0 | .c => 1 | .z => 2 | .nh => 3 | .n => 4 | .r => 5 | .lt => 6 | .le => 7
  | .nv => 8 | .nc => 9 | .nz => 10 | .h => 11 | .p => 12 | .sa => 13 | .ge => 14 | .gt => 15

/-- The condition a 4-bit code names (Table 5-4). -/
def Cond.ofCode (k : BitVec 4) : Cond :=
  match k.toNat with
  | 0 => .v | 1 => .c | 2 => .z | 3 => .nh | 4 => .n | 5 => .r | 6 => .lt | 7 => .le
  | 8 => .nv | 9 => .nc | 10 => .nz | 11 => .h | 12 => .p | 13 => .sa | 14 => .ge | _ => .gt

/-! ## Lengths -/

/-- The length in bytes of an instruction (R26, Table 5-6). -/
def Instr.length : Instr → Nat
  | .nop | .movReg _ _ | .notReg _ _ | .divhReg _ _ | .switch _ | .dbtrap | .jmpReg _ => 2
  | .satsubr _ _ | .satsubReg _ _ | .sataddReg _ _ | .mulhReg _ _ => 2
  | .zxb _ | .sxb _ | .zxh _ | .sxh _ => 2
  | .orReg _ _ | .xorReg _ _ | .andReg _ _ | .tst _ _ => 2
  | .subr _ _ | .sub _ _ | .addReg _ _ | .cmpReg _ _ => 2
  | .movImm5 _ _ | .sataddImm5 _ _ | .addImm5 _ _ | .cmpImm5 _ _ | .callt _ => 2
  | .shrImm5 _ _ | .sarImm5 _ _ | .shlImm5 _ _ | .mulhImm5 _ _ | .bcond _ _ => 2
  | .sldbu _ _ | .sldhu _ _ | .sldb _ _ | .sstb _ _ => 2
  | .sldh _ _ | .ssth _ _ | .sldw _ _ | .sstw _ _ => 2
  | .jarl22 _ _ | .jr22 _ => 4
  | .addi _ _ _ | .movea _ _ _ | .movhi _ _ _ | .satsubi _ _ _ => 4
  | .ori _ _ _ | .xori _ _ _ | .andi _ _ _ | .mulhi _ _ _ => 4
  | .movImm32 _ _ | .jmpDisp32 _ _ | .jr32 _ | .jarl32 _ _ => 6
  | .ldb _ _ _ | .ldh _ _ _ | .ldw _ _ _ | .stb _ _ _ | .sth _ _ _ | .stw _ _ _ => 4
  | .ldbu _ _ _ | .ldhu _ _ _ => 4
  | .set1Imm _ _ _ | .not1Imm _ _ _ | .clr1Imm _ _ _ | .tst1Imm _ _ _ => 4
  | .setf _ _ | .ldsr _ _ | .stsr _ _ | .shrReg _ _ | .sarReg _ _ | .shlReg _ _ => 4
  | .set1Reg _ _ | .not1Reg _ _ | .clr1Reg _ _ | .tst1Reg _ _ | .sasf _ _ => 4
  | .sch0r _ _ | .sch1r _ _ | .sch0l _ _ | .sch1l _ _ => 4
  | .trap _ | .halt | .reti | .ctret | .dbret | .di | .ei => 4
  | .shr3 _ _ _ | .sar3 _ _ _ | .shl3 _ _ _ | .mul _ _ _ | .mulu _ _ _ => 4
  | .divh3 _ _ _ | .divhu _ _ _ | .div _ _ _ | .divu _ _ _ => 4
  | .cmov _ _ _ _ | .sbf _ _ _ _ | .satsub3 _ _ _ | .adf _ _ _ _ | .satadd3 _ _ _ => 4
  | .mac _ _ _ _ | .macu _ _ _ _ | .mulImm9 _ _ _ | .muluImm9 _ _ _ | .cmovImm5 _ _ _ _ => 4
  | .bsw _ _ | .bsh _ _ | .hsw _ _ | .hsh _ _ => 4
  | .dispose _ _ | .disposeJmp _ _ _ | .prepare _ _ | .prepareSp _ _ => 4
  | .prepareImm16 _ _ _ | .prepareImm16Hi _ _ _ => 6
  | .prepareImm32 _ _ _ => 8

/-- Whether the first halfword alone is the whole instruction code (the 2-byte cases of R122). -/
def oneHalfword (h0 : Half) : Bool :=
  (mid6 h0).toNat ≤ 0b010110
    || ((mid6 h0).toNat == 0b010111 && hi5 h0 != 0#5)
    || (6 ≤ ((mid6 h0).extractLsb' 2 4).toNat && ((mid6 h0).extractLsb' 2 4).toNat ≤ 11)

/-- The length in bytes of the instruction code that starts with these two halfwords (R122). The
second is looked at only where the first does not decide. -/
def codeLength (h0 h1 : Half) : Nat :=
  if oneHalfword h0 then 2
  else if hi5 h0 != 0#5 then 4
  else if mid6 h0 == 0b010111#6 || mid6 h0 == 0b110001#6 || mid6 h0 == 0b110111#6 then 6
  else if (mid6 h0).extractLsb' 1 5 == 0b11110#5 && h1.extractLsb' 0 3 == 0b011#3 then
    match (h1.extractLsb' 3 2).toNat with
    | 0 => 4
    | 3 => 8
    | _ => 6
  else 4

/-! ## Decoding -/

/-- What a decoder answers: an instruction and the halfwords after it, or why there is none. -/
abbrev Decoded := Except DecodeError (Instr × List Half)

/-- The instruction a second halfword completes, if there is a second halfword. -/
def withSecond (t : List Half) (f : Half → Except DecodeError Instr) : Decoded :=
  match t with
  | [] => .error .truncated
  | h1 :: t1 =>
    match f h1 with
    | .ok i => .ok (i, t1)
    | .error e => .error e

/-- The instruction a second and a third halfword complete: `f` gets the 32-bit value with the
second halfword low and the third high (R129). `ok` judges the second halfword. -/
def withThird (t : List Half) (ok : Half → Bool) (f : BitVec 32 → Instr) : Decoded :=
  match t with
  | [] => .error .truncated
  | h1 :: t1 =>
    if ok h1 then
      match t1 with
      | [] => .error .truncated
      | h2 :: t2 => .ok (f (h2 ++ h1), t2)
    else .error .undefinedCode

/-- Bit 16 of a 48-bit branch is a fixed 0 (R129, 47_branch.md R333). -/
def bit0Clear (h : Half) : Bool := !h.getLsbD 0

/-- Expansion 1 (R141): first halfword op6 = 111111, with `r2` and `r1` its other fields. -/
def decodeExpansion (r2 r1 : BitVec 5) (h1 : Half) : Except DecodeError Instr :=
  let w := hi5 h1
  let sub := mid6 h1
  let l := lo5 h1
  if l.getLsbD 0 then
    if r2 = 0#5 then .error .undefinedCode else .ok (.ldhu (dropBit0 h1) r1 r2)
  else if sub.getLsbD 5 then .error .illegalCode
  else if sub.extractLsb' 1 5 = 0b01001#5 then
    let imm9 : BitVec 9 := sub.extractLsb' 0 1 ++ l.extractLsb' 2 3 ++ r1
    if l.getLsbD 1 then .ok (.muluImm9 imm9 r2 w) else .ok (.mulImm9 imm9 r2 w)
  else
    match sub.toNat with
    | 0 => if w = 0#5 ∧ l = 0#5 ∧ r1.getLsbD 4 = false
        then .ok (.setf (Cond.ofCode (r1.extractLsb' 0 4)) r2) else .error .undefinedCode
    | 1 => if w = 0#5 ∧ l = 0#5 then .ok (.ldsr r1 r2) else .error .undefinedCode
    | 2 => if w = 0#5 ∧ l = 0#5 then .ok (.stsr r1 r2) else .error .undefinedCode
    | 4 => if l = 2#5 then .ok (.shr3 r1 r2 w)
        else if w = 0#5 ∧ l = 0#5 then .ok (.shrReg r1 r2) else .error .undefinedCode
    | 5 => if l = 2#5 then .ok (.sar3 r1 r2 w)
        else if w = 0#5 ∧ l = 0#5 then .ok (.sarReg r1 r2) else .error .undefinedCode
    | 6 => if l = 2#5 then .ok (.shl3 r1 r2 w)
        else if w = 0#5 ∧ l = 0#5 then .ok (.shlReg r1 r2) else .error .undefinedCode
    | 7 => if w = 0#5 then
          match l.toNat with
          | 0 => .ok (.set1Reg r2 r1)
          | 2 => .ok (.not1Reg r2 r1)
          | 4 => .ok (.clr1Reg r2 r1)
          | 6 => .ok (.tst1Reg r2 r1)
          | _ => .error .undefinedCode
        else .error .undefinedCode
    | 8 => if r2 = 0#5 ∧ w = 0#5 ∧ l = 0#5 then .ok (.trap r1) else .error .undefinedCode
    | 9 => if r2 = 0#5 ∧ r1 = 0#5 ∧ w = 0#5 ∧ l = 0#5 then .ok .halt
        else .error .undefinedCode
    | 10 => if r2 = 0#5 ∧ r1 = 0#5 ∧ w = 0#5 then
          match l.toNat with
          | 0 => .ok .reti
          | 4 => .ok .ctret
          | 6 => .ok .dbret
          | _ => .error .undefinedCode
        else .error .undefinedCode
    | 11 => if r1 = 0#5 ∧ w = 0#5 ∧ l = 0#5 then
          if r2 = 0#5 then .ok .di
          else if r2 = 16#5 then .ok .ei
          else .error .undefinedCode
        else .error .undefinedCode
    | 16 => if w = 0#5 ∧ l = 0#5 ∧ r1.getLsbD 4 = false
        then .ok (.sasf (Cond.ofCode (r1.extractLsb' 0 4)) r2) else .error .undefinedCode
    | 17 => if l = 0#5 then .ok (.mul r1 r2 w)
        else if l = 2#5 then .ok (.mulu r1 r2 w) else .error .undefinedCode
    | 20 => if l = 0#5 then .ok (.divh3 r1 r2 w)
        else if l = 2#5 then .ok (.divhu r1 r2 w) else .error .undefinedCode
    | 22 => if l = 0#5 then .ok (.div r1 r2 w)
        else if l = 2#5 then .ok (.divu r1 r2 w) else .error .undefinedCode
    | 24 => .ok (.cmovImm5 (Cond.ofCode (l.extractLsb' 1 4)) r1 r2 w)
    | 25 => .ok (.cmov (Cond.ofCode (l.extractLsb' 1 4)) r1 r2 w)
    | 26 => if r1 = 0#5 then
          match l.toNat with
          | 0 => .ok (.bsw r2 w)
          | 2 => .ok (.bsh r2 w)
          | 4 => .ok (.hsw r2 w)
          | 6 => .ok (.hsh r2 w)
          | _ => .error .undefinedCode
        else .error .undefinedCode
    | 27 => if r1 = 0#5 then
          match l.toNat with
          | 0 => .ok (.sch0r r2 w)
          | 2 => .ok (.sch1r r2 w)
          | 4 => .ok (.sch0l r2 w)
          | 6 => .ok (.sch1l r2 w)
          | _ => .error .undefinedCode
        else .error .undefinedCode
    | 28 => if l = 26#5 then .ok (.satsub3 r1 r2 w)
        else .ok (.sbf (Cond.ofCode (l.extractLsb' 1 4)) r1 r2 w)
    | 29 => if l = 26#5 then .ok (.satadd3 r1 r2 w)
        else .ok (.adf (Cond.ofCode (l.extractLsb' 1 4)) r1 r2 w)
    | 30 => .ok (.mac r1 r2 w l)
    | 31 => .ok (.macu r1 r2 w l)
    | _ => .error .undefinedCode

/-- The imm5 of PREPARE and DISPOSE: bits 5:1 of the first halfword (R136). -/
def stackImm5 (m : BitVec 6) (r1 : BitVec 5) : BitVec 5 := m.extractLsb' 0 1 ++ r1.extractLsb' 1 4

/-- The register list of PREPARE and DISPOSE: bits 31:21 of the instruction, then bit 0 (R137). -/
def stackList (r1 : BitVec 5) (h1 : Half) : List12 := h1.extractLsb' 5 11 ++ r1.extractLsb' 0 1

/-- PREPARE in its five forms, told apart by bits 20:16 (R136). -/
def decodePrepare (m : BitVec 6) (r1 : BitVec 5) (t : List Half) : Decoded :=
  match t with
  | [] => .error .truncated
  | h1 :: t1 =>
    let imm5 := stackImm5 m r1
    let list := stackList r1 h1
    match (lo5 h1).toNat with
    | 1 => .ok (.prepare list imm5, t1)
    | 3 => .ok (.prepareSp list imm5, t1)
    | 11 =>
      match t1 with
      | [] => .error .truncated
      | h2 :: t2 => .ok (.prepareImm16 list imm5 h2, t2)
    | 19 =>
      match t1 with
      | [] => .error .truncated
      | h2 :: t2 => .ok (.prepareImm16Hi list imm5 h2, t2)
    | 27 =>
      match t1 with
      | h2 :: h3 :: t3 => .ok (.prepareImm32 list imm5 (h3 ++ h2), t3)
      | _ => .error .truncated
    | _ => .error .undefinedCode

/-- op6 = 11110x: JARL and JR with disp22 (bit 16 = 0), LD.BU and PREPARE (bit 16 = 1)
(R128, R130, R136, R140). -/
def decodeFormatV (r2 : BitVec 5) (m : BitVec 6) (r1 : BitVec 5) (t : List Half) : Decoded :=
  match t with
  | [] => .error .truncated
  | h1 :: t1 =>
    if h1.getLsbD 0 then
      if r2 = 0#5 then decodePrepare m r1 t
      else .ok (.ldbu (h1.extractLsb' 1 15 ++ m.extractLsb' 0 1) r1 r2, t1)
    else
      let disp22 : BitVec 22 := m.extractLsb' 0 1 ++ r1 ++ h1
      if r2 = 0#5 then .ok (.jr22 disp22, t1) else .ok (.jarl22 disp22 r2, t1)

/-- DISPOSE in its two forms, told apart by bits 20:16 (R136). -/
def decodeDispose (m : BitVec 6) (r1 : BitVec 5) (h1 : Half) : Except DecodeError Instr :=
  if lo5 h1 = 0#5 then .ok (.dispose (stackImm5 m r1) (stackList r1 h1))
  else .ok (.disposeJmp (stackImm5 m r1) (stackList r1 h1) (lo5 h1))

/-- The bit manipulation instructions of Format VIII (R131): bits 15:14 select, 13:11 are bit#3. -/
def decodeBitOp (r2 r1 : BitVec 5) (h1 : Half) : Except DecodeError Instr :=
  let b := r2.extractLsb' 0 3
  match (r2.extractLsb' 3 2).toNat with
  | 0 => .ok (.set1Imm b h1 r1)
  | 1 => .ok (.not1Imm b h1 r1)
  | 2 => .ok (.clr1Imm b h1 r1)
  | _ => .ok (.tst1Imm b h1 r1)

/-- The rows selected by the whole 6-bit opcode (R140). -/
def decodeByOpcode (r2 : BitVec 5) (m : BitVec 6) (r1 : BitVec 5) (t : List Half) : Decoded :=
  match m.toNat with
  | 0 => if r1 = 0#5 ∧ r2 = 0#5 then .ok (.nop, t) else .ok (.movReg r1 r2, t)
  | 1 => .ok (.notReg r1 r2, t)
  | 2 => if r1 = 0#5 then (if r2 = 31#5 then .ok (.dbtrap, t) else .error .undefinedCode)
      else if r2 = 0#5 then .ok (.switch r1, t) else .ok (.divhReg r1 r2, t)
  | 3 => if r2 = 0#5 then .ok (.jmpReg r1, t)
      else if r1.getLsbD 4 then .ok (.sldhu (r1.extractLsb' 0 4 ++ 0#1) r2, t)
      else .ok (.sldbu (r1.extractLsb' 0 4) r2, t)
  | 4 => if r2 = 0#5 then .ok (.zxb r1, t) else .ok (.satsubr r1 r2, t)
  | 5 => if r2 = 0#5 then .ok (.sxb r1, t) else .ok (.satsubReg r1 r2, t)
  | 6 => if r2 = 0#5 then .ok (.zxh r1, t) else .ok (.sataddReg r1 r2, t)
  | 7 => if r2 = 0#5 then .ok (.sxh r1, t) else .ok (.mulhReg r1 r2, t)
  | 8 => .ok (.orReg r1 r2, t)
  | 9 => .ok (.xorReg r1 r2, t)
  | 10 => .ok (.andReg r1 r2, t)
  | 11 => .ok (.tst r1 r2, t)
  | 12 => .ok (.subr r1 r2, t)
  | 13 => .ok (.sub r1 r2, t)
  | 14 => .ok (.addReg r1 r2, t)
  | 15 => .ok (.cmpReg r1 r2, t)
  | 16 => .ok (.movImm5 r1 r2, t)
  | 17 => .ok (.sataddImm5 r1 r2, t)
  | 18 => .ok (.addImm5 r1 r2, t)
  | 19 => .ok (.cmpImm5 r1 r2, t)
  | 20 => .ok (.shrImm5 r1 r2, t)
  | 21 => .ok (.sarImm5 r1 r2, t)
  | 22 => .ok (.shlImm5 r1 r2, t)
  | 23 => if r2 = 0#5 then
        if r1 = 0#5 then withThird t bit0Clear .jr32
        else withThird t bit0Clear (fun d => .jarl32 d r1)
      else .ok (.mulhImm5 r1 r2, t)
  | 48 => withSecond t (fun h1 => .ok (.addi h1 r1 r2))
  | 49 => if r2 = 0#5 then withThird t (fun _ => true) (fun v => .movImm32 v r1)
      else withSecond t (fun h1 => .ok (.movea h1 r1 r2))
  | 50 => withSecond t (fun h1 => .ok (.movhi h1 r1 r2))
  | 51 => withSecond t (fun h1 => .ok (.satsubi h1 r1 r2))
  | 52 => withSecond t (fun h1 => .ok (.ori h1 r1 r2))
  | 53 => withSecond t (fun h1 => .ok (.xori h1 r1 r2))
  | 54 => withSecond t (fun h1 => .ok (.andi h1 r1 r2))
  | 55 => if r2 = 0#5 then withThird t bit0Clear (fun d => .jmpDisp32 d r1)
      else withSecond t (fun h1 => .ok (.mulhi h1 r1 r2))
  | 56 => withSecond t (fun h1 => .ok (.ldb h1 r1 r2))
  | 57 => withSecond t (fun h1 => if h1.getLsbD 0
      then .ok (.ldw (dropBit0 h1) r1 r2) else .ok (.ldh h1 r1 r2))
  | 58 => withSecond t (fun h1 => .ok (.stb r2 h1 r1))
  | 59 => withSecond t (fun h1 => if h1.getLsbD 0
      then .ok (.stw r2 (dropBit0 h1) r1) else .ok (.sth r2 h1 r1))
  | 62 => withSecond t (decodeBitOp r2 r1)
  | 63 => withSecond t (decodeExpansion r2 r1)
  | _ => .error .undefinedCode

/-- Formats III and IV by bits 10:7, `none` for every other word (R126, R127, R140). -/
def decodeShort (r2 : BitVec 5) (m : BitVec 6) (r1 : BitVec 5) : Option Instr :=
  let d7 : BitVec 7 := m.extractLsb' 0 2 ++ r1
  match (m.extractLsb' 2 4).toNat with
  | 6 => some (.sldb d7 r2)
  | 7 => some (.sstb r2 d7)
  | 8 => some (.sldh (d7 ++ 0#1) r2)
  | 9 => some (.ssth r2 (d7 ++ 0#1))
  | 10 =>
    if r1.getLsbD 0 then some (.sstw r2 (d7.extractLsb' 1 6 ++ 0#2))
    else some (.sldw (d7.extractLsb' 1 6 ++ 0#2) r2)
  | 11 => some (.bcond (Cond.ofCode (r1.extractLsb' 0 4)) (r2 ++ d7.extractLsb' 4 3 ++ 0#1))
  | _ => none

/-- The instruction at the head of a sequence of halfwords and the halfwords after it (R123). -/
def decode : List Half → Decoded
  | [] => .error .truncated
  | h0 :: t =>
    let r2 := hi5 h0
    let m := mid6 h0
    let r1 := lo5 h0
    match decodeShort r2 m r1 with
    | some i => .ok (i, t)
    | none =>
      if m.extractLsb' 1 5 = 0b11110#5 then decodeFormatV r2 m r1 t
      else if r2 = 0#5 ∧ m.extractLsb' 1 5 = 0b11001#5 then withSecond t (decodeDispose m r1)
      else if r2 = 0#5 ∧ m.extractLsb' 1 5 = 0b01000#5 then
        .ok (.callt (m.extractLsb' 0 1 ++ r1), t)
      else decodeByOpcode r2 m r1 t

/-- Pairs bytes into halfwords, the lower address low (R85, R88 of 20_memory.md). -/
def halfwords : List Byte → List Half
  | b0 :: b1 :: bs => (b1 ++ b0) :: halfwords bs
  | _ => []

/-- The instruction at the head of a sequence of bytes, lowest address first. -/
def decodeBytes (bs : List Byte) : Except DecodeError Instr :=
  match decode (halfwords bs) with
  | .ok (i, _) => .ok i
  | .error e => .error e

/-! ## Encoding -/

/-- First halfword with the 4-bit opcode of Formats III and IV over a 7-bit field (R127). -/
def encodeShort (r2 : BitVec 5) (op4 : BitVec 4) (d7 : BitVec 7) : Half :=
  joinFields r2 (op4 ++ d7.extractLsb' 5 2) (d7.extractLsb' 0 5)

/-- First halfword of op6 = 11110x: Format V, LD.BU and PREPARE (R128, R130, R136). -/
def encodeOp5 (r2 : BitVec 5) (op5 : BitVec 5) (x6 : BitVec 6) : Half :=
  joinFields r2 (op5 ++ x6.extractLsb' 5 1) (x6.extractLsb' 0 5)

/-- Expansion 1: op6 = 111111 and a second halfword of three fields (R134). -/
def encodeExt (r2 r1 w : BitVec 5) (sub : BitVec 6) (l : BitVec 5) : List Half :=
  [joinFields r2 63#6 r1, joinFields w sub l]

/-- First halfword of PREPARE and DISPOSE (R136). -/
def encodeStack (op5 : BitVec 5) (imm5 : BitVec 5) (list : List12) : Half :=
  encodeOp5 0#5 op5 (imm5 ++ list.extractLsb' 0 1)

/-- Second halfword of PREPARE and DISPOSE: list bits 31:21, then bits 20:16 (R136). -/
def encodeStackList (list : List12) (l : BitVec 5) : Half := list.extractLsb' 1 11 ++ l

/-- The halfwords of an instruction, first halfword first, from the patterns of R124 to R136. -/
def encode : Instr → List Half
  | .nop => [0x0000#16]
  | .movReg r1 r2 => [joinFields r2 0#6 r1]
  | .notReg r1 r2 => [joinFields r2 1#6 r1]
  | .divhReg r1 r2 => [joinFields r2 2#6 r1]
  | .switch r1 => [joinFields 0#5 2#6 r1]
  | .dbtrap => [0xF840#16]
  | .jmpReg r1 => [joinFields 0#5 3#6 r1]
  | .satsubr r1 r2 => [joinFields r2 4#6 r1]
  | .satsubReg r1 r2 => [joinFields r2 5#6 r1]
  | .sataddReg r1 r2 => [joinFields r2 6#6 r1]
  | .mulhReg r1 r2 => [joinFields r2 7#6 r1]
  | .zxb r1 => [joinFields 0#5 4#6 r1]
  | .sxb r1 => [joinFields 0#5 5#6 r1]
  | .zxh r1 => [joinFields 0#5 6#6 r1]
  | .sxh r1 => [joinFields 0#5 7#6 r1]
  | .orReg r1 r2 => [joinFields r2 8#6 r1]
  | .xorReg r1 r2 => [joinFields r2 9#6 r1]
  | .andReg r1 r2 => [joinFields r2 10#6 r1]
  | .tst r1 r2 => [joinFields r2 11#6 r1]
  | .subr r1 r2 => [joinFields r2 12#6 r1]
  | .sub r1 r2 => [joinFields r2 13#6 r1]
  | .addReg r1 r2 => [joinFields r2 14#6 r1]
  | .cmpReg r1 r2 => [joinFields r2 15#6 r1]
  | .movImm5 imm r2 => [joinFields r2 16#6 imm]
  | .sataddImm5 imm r2 => [joinFields r2 17#6 imm]
  | .addImm5 imm r2 => [joinFields r2 18#6 imm]
  | .cmpImm5 imm r2 => [joinFields r2 19#6 imm]
  | .callt imm6 => [encodeOp5 0#5 0b01000#5 imm6]
  | .shrImm5 imm r2 => [joinFields r2 20#6 imm]
  | .sarImm5 imm r2 => [joinFields r2 21#6 imm]
  | .shlImm5 imm r2 => [joinFields r2 22#6 imm]
  | .mulhImm5 imm r2 => [joinFields r2 23#6 imm]
  | .bcond cc d => [encodeShort (d.extractLsb' 4 5) 11#4 (d.extractLsb' 1 3 ++ cc.code)]
  | .sldbu d r2 => [joinFields r2 3#6 (0#1 ++ d)]
  | .sldhu d r2 => [joinFields r2 3#6 (1#1 ++ d.extractLsb' 1 4)]
  | .sldb d r2 => [encodeShort r2 6#4 d]
  | .sstb r2 d => [encodeShort r2 7#4 d]
  | .sldh d r2 => [encodeShort r2 8#4 (d.extractLsb' 1 7)]
  | .ssth r2 d => [encodeShort r2 9#4 (d.extractLsb' 1 7)]
  | .sldw d r2 => [encodeShort r2 10#4 (d.extractLsb' 2 6 ++ 0#1)]
  | .sstw r2 d => [encodeShort r2 10#4 (d.extractLsb' 2 6 ++ 1#1)]
  | .jarl22 d r2 => [encodeOp5 r2 0b11110#5 (d.extractLsb' 16 6), d.extractLsb' 0 16]
  | .jr22 d => [encodeOp5 0#5 0b11110#5 (d.extractLsb' 16 6), d.extractLsb' 0 16]
  | .addi imm r1 r2 => [joinFields r2 48#6 r1, imm]
  | .movea imm r1 r2 => [joinFields r2 49#6 r1, imm]
  | .movImm32 imm r1 => [joinFields 0#5 49#6 r1, imm.extractLsb' 0 16, imm.extractLsb' 16 16]
  | .movhi imm r1 r2 => [joinFields r2 50#6 r1, imm]
  | .satsubi imm r1 r2 => [joinFields r2 51#6 r1, imm]
  | .ori imm r1 r2 => [joinFields r2 52#6 r1, imm]
  | .xori imm r1 r2 => [joinFields r2 53#6 r1, imm]
  | .andi imm r1 r2 => [joinFields r2 54#6 r1, imm]
  | .mulhi imm r1 r2 => [joinFields r2 55#6 r1, imm]
  | .jmpDisp32 d r1 => [joinFields 0#5 55#6 r1, d.extractLsb' 0 16, d.extractLsb' 16 16]
  | .jr32 d => [joinFields 0#5 23#6 0#5, d.extractLsb' 0 16, d.extractLsb' 16 16]
  | .jarl32 d r1 => [joinFields 0#5 23#6 r1, d.extractLsb' 0 16, d.extractLsb' 16 16]
  | .ldb d r1 r2 => [joinFields r2 56#6 r1, d]
  | .ldh d r1 r2 => [joinFields r2 57#6 r1, d]
  | .ldw d r1 r2 => [joinFields r2 57#6 r1, d ||| 1#16]
  | .stb r2 d r1 => [joinFields r2 58#6 r1, d]
  | .sth r2 d r1 => [joinFields r2 59#6 r1, d]
  | .stw r2 d r1 => [joinFields r2 59#6 r1, d ||| 1#16]
  | .ldbu d r1 r2 => [encodeOp5 r2 0b11110#5 (d.extractLsb' 0 1 ++ r1), d ||| 1#16]
  | .ldhu d r1 r2 => [joinFields r2 63#6 r1, d ||| 1#16]
  | .set1Imm b d r1 => [joinFields (0b00#2 ++ b) 62#6 r1, d]
  | .not1Imm b d r1 => [joinFields (0b01#2 ++ b) 62#6 r1, d]
  | .clr1Imm b d r1 => [joinFields (0b10#2 ++ b) 62#6 r1, d]
  | .tst1Imm b d r1 => [joinFields (0b11#2 ++ b) 62#6 r1, d]
  | .setf cc r2 => encodeExt r2 (0#1 ++ cc.code) 0#5 0#6 0#5
  | .ldsr r2 regID => encodeExt regID r2 0#5 1#6 0#5
  | .stsr regID r2 => encodeExt r2 regID 0#5 2#6 0#5
  | .shrReg r1 r2 => encodeExt r2 r1 0#5 4#6 0#5
  | .sarReg r1 r2 => encodeExt r2 r1 0#5 5#6 0#5
  | .shlReg r1 r2 => encodeExt r2 r1 0#5 6#6 0#5
  | .set1Reg r2 r1 => encodeExt r2 r1 0#5 7#6 0#5
  | .not1Reg r2 r1 => encodeExt r2 r1 0#5 7#6 2#5
  | .clr1Reg r2 r1 => encodeExt r2 r1 0#5 7#6 4#5
  | .tst1Reg r2 r1 => encodeExt r2 r1 0#5 7#6 6#5
  | .sasf cc r2 => encodeExt r2 (0#1 ++ cc.code) 0#5 16#6 0#5
  | .sch0r r2 r3 => encodeExt r2 0#5 r3 27#6 0#5
  | .sch1r r2 r3 => encodeExt r2 0#5 r3 27#6 2#5
  | .sch0l r2 r3 => encodeExt r2 0#5 r3 27#6 4#5
  | .sch1l r2 r3 => encodeExt r2 0#5 r3 27#6 6#5
  | .trap v => encodeExt 0#5 v 0#5 8#6 0#5
  | .halt => encodeExt 0#5 0#5 0#5 9#6 0#5
  | .reti => encodeExt 0#5 0#5 0#5 10#6 0#5
  | .ctret => encodeExt 0#5 0#5 0#5 10#6 4#5
  | .dbret => encodeExt 0#5 0#5 0#5 10#6 6#5
  | .di => encodeExt 0#5 0#5 0#5 11#6 0#5
  | .ei => encodeExt 16#5 0#5 0#5 11#6 0#5
  | .shr3 r1 r2 r3 => encodeExt r2 r1 r3 4#6 2#5
  | .sar3 r1 r2 r3 => encodeExt r2 r1 r3 5#6 2#5
  | .shl3 r1 r2 r3 => encodeExt r2 r1 r3 6#6 2#5
  | .mul r1 r2 r3 => encodeExt r2 r1 r3 17#6 0#5
  | .mulu r1 r2 r3 => encodeExt r2 r1 r3 17#6 2#5
  | .divh3 r1 r2 r3 => encodeExt r2 r1 r3 20#6 0#5
  | .divhu r1 r2 r3 => encodeExt r2 r1 r3 20#6 2#5
  | .div r1 r2 r3 => encodeExt r2 r1 r3 22#6 0#5
  | .divu r1 r2 r3 => encodeExt r2 r1 r3 22#6 2#5
  | .cmov cc r1 r2 r3 => encodeExt r2 r1 r3 25#6 (cc.code ++ 0#1)
  | .sbf cc r1 r2 r3 => encodeExt r2 r1 r3 28#6 (cc.code ++ 0#1)
  | .satsub3 r1 r2 r3 => encodeExt r2 r1 r3 28#6 26#5
  | .adf cc r1 r2 r3 => encodeExt r2 r1 r3 29#6 (cc.code ++ 0#1)
  | .satadd3 r1 r2 r3 => encodeExt r2 r1 r3 29#6 26#5
  | .mac r1 r2 r3 r4 => encodeExt r2 r1 r3 30#6 r4
  | .macu r1 r2 r3 r4 => encodeExt r2 r1 r3 31#6 r4
  | .mulImm9 imm r2 r3 =>
    encodeExt r2 (imm.extractLsb' 0 5) r3 (0b01001#5 ++ imm.extractLsb' 8 1)
      (imm.extractLsb' 5 3 ++ 0b00#2)
  | .muluImm9 imm r2 r3 =>
    encodeExt r2 (imm.extractLsb' 0 5) r3 (0b01001#5 ++ imm.extractLsb' 8 1)
      (imm.extractLsb' 5 3 ++ 0b10#2)
  | .cmovImm5 cc imm r2 r3 => encodeExt r2 imm r3 24#6 (cc.code ++ 0#1)
  | .bsw r2 r3 => encodeExt r2 0#5 r3 26#6 0#5
  | .bsh r2 r3 => encodeExt r2 0#5 r3 26#6 2#5
  | .hsw r2 r3 => encodeExt r2 0#5 r3 26#6 4#5
  | .hsh r2 r3 => encodeExt r2 0#5 r3 26#6 6#5
  | .dispose imm list => [encodeStack 0b11001#5 imm list, encodeStackList list 0#5]
  | .disposeJmp imm list r1 => [encodeStack 0b11001#5 imm list, encodeStackList list r1]
  | .prepare list imm => [encodeStack 0b11110#5 imm list, encodeStackList list 0b00001#5]
  | .prepareSp list imm => [encodeStack 0b11110#5 imm list, encodeStackList list 0b00011#5]
  | .prepareImm16 list imm v =>
    [encodeStack 0b11110#5 imm list, encodeStackList list 0b01011#5, v]
  | .prepareImm16Hi list imm v =>
    [encodeStack 0b11110#5 imm list, encodeStackList list 0b10011#5, v]
  | .prepareImm32 list imm v =>
    [encodeStack 0b11110#5 imm list, encodeStackList list 0b11011#5, v.extractLsb' 0 16,
      v.extractLsb' 16 16]

/-- The two bytes of a halfword, the lower address first (20_memory.md R88). -/
def halfBytes (h : Half) : List Byte := [h.extractLsb' 0 8, h.extractLsb' 8 8]

/-- The bytes of an instruction in memory order. -/
def encodeBytes (i : Instr) : List Byte := (encode i).flatMap halfBytes

/-! ## The host's view of the opcode table -/

/-- The low `8 * n` bits of `w` as bytes, least significant first. -/
def bytesOfNat : Nat → Nat → List Byte
  | 0, _ => []
  | n + 1, w => BitVec.ofNat 8 w :: bytesOfNat n (w / 256)

/-- The eight bytes of the longest instruction whose low `nbits` bits are `w` and whose other bits
are 0, in memory order (00_scope.md R8, 20_memory.md R88). -/
def tableBytes (nbits w : Nat) : List Byte := bytesOfNat 8 (w % 2 ^ nbits)

/-- The instruction the decoder reads from an instruction whose bits are `w`, numbered as
spec/opcode_table.json numbers them. -/
def decodeTableWord (nbits w : Nat) : Option Instr :=
  match decodeBytes (tableBytes nbits w) with
  | .ok i => some i
  | .error _ => none

end Sys2Proof
end

