-- ==== Sys2Proof/Machine/Fetch.lean ====
section
/-! DEFINITION. Fetching an instruction's halfwords at the PC (20_memory.md R88, R110, R111): only
those its length rule calls for (30_encoding.md R122), at addresses modulo 2^29 (20_memory.md R81). -/

namespace Sys2Proof.Machine

/-- The byte an instruction fetch finds: an environment input at a device location (20_memory.md
R97). -/
def State.fetchByte (s : State) (a : Word) : Byte :=
  if s.kindAt a = some .device then Config.deviceFetchByte s.tick a.toNat
  else Memory.read s.mem a.toNat

/-- The address of the `k`-th byte from the PC on: halfword addresses are modulo 2^29. -/
def State.codeAddr (s : State) (k : Nat) : Word :=
  s.pcAfter (2 * (k / 2)) + BitVec.ofNat 32 (k % 2)

/-- The state with code bytes stored where the fetch finds them, the first one the `k`-th from the PC
on. -/
def State.placeCode (s : State) (k : Nat) : List Byte → State
  | [] => s
  | b :: bs =>
    State.placeCode { s with mem := Memory.write s.mem (s.codeAddr k).toNat b } (k + 1) bs

/-- The `k`-th halfword from the PC on, little endian (R88); outside the map it is BusError (R111). -/
def State.fetchHalf (s : State) (k : Nat) : Except Fault Half :=
  let a := s.pcAfter (2 * k)
  if s.mapped a .half then .ok (s.fetchByte (a + 1) ++ s.fetchByte a) else .error .busError

/-- `n` halfwords from the `k`-th on. -/
def State.fetchHalves (s : State) (k : Nat) : Nat → Except Fault (List Half)
  | 0 => .ok []
  | n + 1 =>
    match s.fetchHalf k with
    | .error f => .error f
    | .ok h =>
      match s.fetchHalves (k + 1) n with
      | .error f => .error f
      | .ok hs => .ok (h :: hs)

/-- The halfwords of the instruction code at the PC. -/
def State.fetch (s : State) : Except Fault (List Half) :=
  match s.fetchHalf 0 with
  | .error f => .error f
  | .ok h0 =>
    if oneHalfword h0 then .ok [h0]
    else
      match s.fetchHalf 1 with
      | .error f => .error f
      | .ok h1 =>
        match s.fetchHalves 2 (codeLength h0 h1 / 2 - 2) with
        | .error f => .error f
        | .ok hs => .ok (h0 :: h1 :: hs)

/-- The fetch of an instruction code as the comparators see it: a 16-bit code at the LSB, a 32-bit
code in little endian form (60_exceptions.md R460); of a longer code the data are free (log entry
26). -/
def State.fetchEvent (s : State) (code : List Half) : BusEvent where
  kind := .fetch
  addr := s.pc
  size := .half
  data :=
    match code with
    | [h0] => zext h0
    | [h0, h1] => h1 ++ h0
    | _ => 0#32
  lanes :=
    match code with
    | [_] => 0x0000FFFF#32
    | [_, _] => 0xFFFFFFFF#32
    | _ => 0#32
  index := 0

end Sys2Proof.Machine
end

