-- ==== Sys2Proof/Machine/Cycle.lean ====
section
/-! DEFINITION. What one step does: the boundary (60_exceptions.md R411), then the order of events
of one instruction (R415, log entry 59). -/

namespace Sys2Proof.Machine

/-- The count of steps goes up, so that every free value of the next step is another one, and the next
boundary's choice among the acceptable requests is drawn (60_exceptions.md R411). -/
def State.nextTick (s : State) : State :=
  { s with tick := s.tick + 1, choice := Config.arbiter (s.tick + 1) }

/-- An instruction that starts now is single-stepped: SS = 1 in user mode (R429). -/
def State.stepArmed (s : State) : Bool := s.psw.getLsbD Psw.ss && s.userMode

/-- The end of an instruction that started in `s`: the single-step break comes due if it was armed and
the machine is still in user mode (R429), and an instruction has run since reset
(70_reset_and_hazards.md R472). -/
def State.finishInstruction (s t : State) : State :=
  { t with stepDue := s.stepArmed && t.userMode, afterReset := false }

/-- Runs a decoded instruction: its rule, then the access-related breakpoints on its accesses, then
the single-step arming (R415 (4) to (7)). -/
def State.runDecoded (s : State) (i : Instr) : Result :=
  match exec i s with
  | .next t => .next (s.finishInstruction (t.afterAccesses (s.accesses i)))
  | .fault f => .fault f
  | .refused r => .refused r

/-- Runs the instruction code fetched at the PC: the execution-related breakpoints first, then the
instruction, the exception trap of an illegal code, or the fault of an undefined one (R415 (2), (3)). -/
def State.runCode (s : State) (code : List Half) : Result :=
  if s.prohibitedSetting then .fault .prohibitedBreakSetting
  else
    let w := s.watch [s.fetchEvent code]
    if w.hit then .next (s.fetchBreak w)
    else
      let t := s.keepProgress w
      match decode code with
      | .ok (i, _) => t.runDecoded i
      | .error .illegalCode => .next (t.finishInstruction t.exceptionTrap)
      | .error _ => .fault .undefinedInstruction

/-- Fetches and runs the instruction at the PC. A fetch outside the map is busError before any
execution-related breakpoint is looked at: DESIGN CHOICE, the order is open (log entry 53). -/
def State.runInstruction (s : State) : Result :=
  match s.fetch with
  | .ok code => s.runCode code
  | .error f => .fault f

/-- The single-step break, at the boundary after the stepped instruction: DBPC is the PC (R429). -/
def State.singleStepBreak (s : State) : State := { s.debugBreak s.pc with stepDue := false }

/-- One step without the count: a single-step break that is due, else an accepted request, else the
wait of HALT mode, else the instruction at the PC (R411, R450). -/
def State.boundary (s : State) : Result :=
  if s.stepDue then .next s.singleStepBreak
  else
    match s.chosen with
    | some r => .next (s.accept r)
    | none => if s.halted then .next s.wait else s.runInstruction

/-- One step. -/
def State.stepOnce (s : State) : Result :=
  match s.boundary with
  | .next t => .next t.nextTick
  | .fault f => .fault f
  | .refused r => .refused r

end Sys2Proof.Machine
end

