-- ==== Sys2Proof/Machine/Step.lean ====
section
/-! DEFINITION. The step of the machine, and the state with an instruction placed where the step
fetches next. -/

namespace Sys2Proof.Machine

/-- One step of the machine (60_exceptions.md R411, R415). -/
def step (s : State) : Host.Outcome State Fault Refusal := s.stepOnce

/-- `s` with the instruction whose bits are `w` stored where the step fetches (log entry 36), and with
nothing else due at the boundary: not halted, no single-step break due, no pending request. -/
def State.withFetchWord (s : State) (nbits w : Nat) : State :=
  let t := s.placeCode 0 (tableBytes nbits w)
  { t with
    halted := false
    stepDue := false
    nmi0 := false
    nmi1 := false
    nmi2 := false
    intReq := none }

end Sys2Proof.Machine
end

