-- ==== Sys2Proof/Machine/Environment.lean ====
section
/-! DEFINITION. The environment's moves, which may happen at any boundary and are no part of step: a
request, a reset (60_exceptions.md R410; 70_reset_and_hazards.md R470, R471). -/

namespace Sys2Proof.Machine

/-- A request on an NMI line (R410). -/
def State.requestNmi (s : State) : NmiLine → State
  | .nmi0 => { s with nmi0 := true }
  | .nmi1 => { s with nmi1 := true }
  | .nmi2 => { s with nmi2 := true }

/-- The maskable request the interrupt controller presents, with its exception code (R410, R421). -/
def State.presentInt (s : State) (code : BitVec 16) : State := { s with intReq := some code }

/-- The system reset at a boundary (R470, R471): memory, the platform's parameters and the model's own
fields stay, everything else is as after reset; the pending set is emptied (R472). -/
def State.systemReset (s : State) : State :=
  { State.reset with
    platform := s.platform
    mem := s.mem
    deviceOut := s.deviceOut
    tick := s.tick
    choice := s.choice }

/-- What the environment can do between two steps. -/
inductive EnvEvent where
  | requestNmi (line : NmiLine)
  | presentInt (code : BitVec 16)
  | systemReset
deriving DecidableEq, Repr

/-- The state after an environment event. -/
def State.environment (s : State) : EnvEvent → State
  | .requestNmi line => s.requestNmi line
  | .presentInt code => s.presentInt code
  | .systemReset => s.systemReset

end Sys2Proof.Machine
end

