-- ==== Sys2Proof/Safety.lean ====
section
/-! DEFINITION. The words the claims use: runs, the invariant of the machine, and what it means that
an instruction completes and changes nothing else. -/

namespace Sys2Proof.Safety

open Sys2Proof.Machine

/-! ## Runs -/

/-- The state after `n` steps, or the first fault or refusal. -/
def run : Nat → State → Result
  | 0, s => .next s
  | n + 1, s =>
    match step s with
    | .next t => run n t
    | .fault f => .fault f
    | .refused r => .refused r

/-- No fault and no refusal within `n` steps. -/
def SafeFor (n : Nat) (s : State) : Prop := ∃ t, run n s = .next t

/-! ## The invariant -/

/-- No bit of `w` outside `mask`. -/
abbrev Within (mask w : Word) : Prop := w &&& ~~~mask = 0#32

/-- The bits DIR has (10_state.md R51). -/
def dirBits : Word := 0x707177F7#32

/-- The bits of DIR that stay 0 while INI = 1 (10_state.md R53 (a)). -/
def dirGroup : Word := 0x70307030#32

/-- The bits BPCn has (10_state.md R54). -/
def bpcBits : Word := 0x07FF8F9F#32

/-- One breakpoint channel keeps its fixed bits 0 and one of the listed FB values (R54, R56). -/
structure ChannelInv (ch : BreakChannel) : Prop where
  bpc : Within bpcBits ch.bpc
  fb : ch.bpc.extractLsb' 24 3 ∈ [0b000#3, 0b010#3, 0b100#3, 0b001#3]
  bpav : Within 0x1FFFFFFF#32 ch.bpav
  bpam : Within 0x1FFFFFFF#32 ch.bpam

/-- What every step keeps: the canonical form of memory, every fixed bit of every register, and the
interlocks of DIR. -/
structure Inv (s : State) : Prop where
  /-- Memory is in its canonical form. -/
  mem : Memory.wf s.mem = true
  /-- PC bits 31 to 29 and bit 0 are 0 (10_state.md R25). -/
  pc : Within 0x1FFFFFFE#32 s.pc
  /-- The cell of r0 is never written (10_state.md R21). -/
  zero : s.gpr[0] = 0#32
  /-- Reserved bits of PSW and of the saved PSWs (R28, R36, R37, R41, R42). -/
  psw : Within Psw.mask s.psw
  eipsw : Within Psw.mask s.eipsw
  fepsw : Within Psw.mask s.fepsw
  ctpsw : Within Psw.mask s.ctpsw
  dbpsw : Within Psw.mask s.dbpsw
  /-- Bits 31 to 29 of the saved PCs (R36, R37, R41, R42). -/
  eipc : Within 0x1FFFFFFF#32 s.eipc
  fepc : Within 0x1FFFFFFF#32 s.fepc
  ctpc : Within 0x1FFFFFFF#32 s.ctpc
  dbpc : Within 0x1FFFFFFF#32 s.dbpc
  /-- CTBP and ASID (R43, R55). -/
  ctbp : Within 0x1FFFFFFE#32 s.ctbp
  asid : Within 0x000000FF#32 s.asid
  /-- DIR has its named bits only (R51). -/
  dir : Within dirBits s.dir
  /-- SS is 0 while SSE = 0 (R53 (d), log entry 55). -/
  sse : s.dir.getLsbD Dir.sse = false → s.psw.getLsbD Psw.ss = false
  /-- The INI group is 0 while INI = 1 (R53 (a)). -/
  ini : s.dir.getLsbD Dir.ini = true → s.dir &&& dirGroup = 0#32
  /-- No sequential progress outside sequential mode (60_exceptions.md R462, decision D24, log entry
  56). -/
  seq0 : s.seq0 = true → s.dir.getLsbD Dir.sq0 = true
  seq1 : s.seq1 = true → s.dir.getLsbD Dir.sq1 = true
  /-- A single-step break comes due in user mode only (60_exceptions.md R429, R430, decision D12, log
  entry 19). -/
  stepDue : s.stepDue = true → s.userMode = true
  /-- The breakpoint channels. -/
  channels : ∀ n : Fin 4, ChannelInv s.channels[n.val]

/-! ## Frames -/

/-- From `s` to `t` nothing changes but the general registers `dsts`, the PSW bits `flags`, the PC, the
bytes of memory at `bytes`, and, where one of these is a device location, the record of device
writes. -/
structure Frame (s t : State) (dsts : List Reg) (flags : List Nat) (bytes : List Word) : Prop where
  regs : ∀ r, r ∉ dsts → t.reg r = s.reg r
  psw : ∀ k, k ∉ flags → t.psw.getLsbD k = s.psw.getLsbD k
  memory : ∀ a : Nat, a ∉ bytes.map BitVec.toNat → Memory.read t.mem a = Memory.read s.mem a
  output : (∀ a ∈ bytes, s.kindAt a ≠ some .device) → t.deviceOut = s.deviceOut
  others :
    t = { s with gpr := t.gpr, psw := t.psw, pc := t.pc, mem := t.mem, deviceOut := t.deviceOut }

/-- `i` completes in `s`: exec answers a next state whose PC is `pc`, with `results` in the named
registers (r0 still reading 0), `flags` in the named PSW bits, and nothing else changed. -/
def Completes (s : State) (i : Instr) (pc : Word) (results : List (Reg × Word))
    (flags : List (Nat × Bool)) : Prop :=
  ∃ t, exec i s = .next t
    ∧ (∀ p ∈ results, t.reg p.1 = if p.1 = 0#5 then 0#32 else p.2)
    ∧ (∀ p ∈ flags, t.psw.getLsbD p.1 = p.2)
    ∧ t.pc = pc
    ∧ Frame s t (results.map Prod.fst) (flags.map Prod.fst) []

/-- `i` completes in `s` and goes on to the next instruction (10_state.md R26). -/
def Runs (s : State) (i : Instr) (results : List (Reg × Word)) (flags : List (Nat × Bool)) : Prop :=
  Completes s i (s.pcAfter i.length) results flags

/-- The flags CY, OV, S and Z of an operation whose result is `r` (42_arithmetic.md R215). -/
def flagsOf (cy ov : Prop) [Decidable cy] [Decidable ov] (r : Word) : List (Nat × Bool) :=
  [(Psw.cy, decide cy), (Psw.ov, decide ov), (Psw.s, r.getLsbD 31), (Psw.z, decide (r = 0#32))]

/-- The flags OV, S and Z of an operation that keeps CY (44_logical.md R255, 46_divide.md R310). -/
def flagsNoCy (ov : Bool) (r : Word) : List (Nat × Bool) :=
  [(Psw.ov, ov), (Psw.s, r.getLsbD 31), (Psw.z, decide (r = 0#32))]

/-- An integer that is no 32-bit two's complement number. -/
abbrev OutOfRange (n : Int) : Prop := ¬(-2147483648 ≤ n ∧ n ≤ 2147483647)

/-- `i` puts `a + b + c` in `dsts` with the flags of AddFlags (42_arithmetic.md R215). -/
def Adds (s : State) (i : Instr) (dst : Reg) (a b : Word) (c : Nat) : Prop :=
  Runs s i [(dst, a + b + BitVec.ofNat 32 c)]
    (flagsOf (4294967296 ≤ a.toNat + b.toNat + c) (OutOfRange (a.toInt + b.toInt + c))
      (a + b + BitVec.ofNat 32 c))

/-- `i` puts `a - b - c` in `dsts` with the flags of SubFlags (42_arithmetic.md R215); CMP names no
register. -/
def Subtracts (s : State) (i : Instr) (dsts : List Reg) (a b : Word) (c : Nat) : Prop :=
  Runs s i (dsts.map (fun d => (d, a - b - BitVec.ofNat 32 c)))
    (flagsOf (a.toNat < b.toNat + c) (OutOfRange (a.toInt - b.toInt - c))
      (a - b - BitVec.ofNat 32 c))

/-- The nearest 32-bit two's complement number to `n`, as a pattern (43_saturate.md R240). -/
def clamp (n : Int) : Word := BitVec.ofInt 32 (max (-2147483648) (min n 2147483647))

/-- `i` puts the saturation of `n` in `dst`; CY is `cy`, and SAT is set, never cleared, when `n` is out of
range (43_saturate.md R241). -/
def Saturates (s : State) (i : Instr) (dst : Reg) (n : Int) (cy : Prop) [Decidable cy] : Prop :=
  Runs s i [(dst, clamp n)]
    ((Psw.sat, s.psw.getLsbD Psw.sat || decide (OutOfRange n)) :: flagsOf cy (OutOfRange n) (clamp n))

/-- A 64-bit product or sum in a register pair, the high word written last (41_multiply_mac.md
R201). -/
def pair (low high : Reg) (p : BitVec 64) : List (Reg × Word) :=
  if low = high then [(high, p.extractLsb' 32 32)]
  else [(low, p.extractLsb' 0 32), (high, p.extractLsb' 32 32)]

/-- Quotient and remainder in their registers, the remainder written last (46_divide.md R310). -/
def quotRem (reg2 reg3 : Reg) (q rem : Word) : List (Reg × Word) :=
  if reg2 = reg3 then [(reg3, rem)] else [(reg2, q), (reg3, rem)]

/-! ## Memory -/

/-- Bit `k` of the value a load of `n` bytes at `a` puts in its register: little endian, then sign or
zero extension (20_memory.md R87). -/
def loadBit (s : State) (a : Word) (n : Nat) (signed : Bool) (k : Nat) : Bool :=
  if k < 8 * n then (s.byteAt (a + BitVec.ofNat 32 (k / 8))).getLsbD (k % 8)
  else signed && (s.byteAt (a + BitVec.ofNat 32 (n - 1))).getLsbD 7

/-- `i` reads `n` bytes at `a` into `reg2`, extended as `signed` says. -/
def Loads (s : State) (i : Instr) (reg2 : Reg) (a : Word) (n : Nat) (signed : Bool) : Prop :=
  ∃ v : Word, (∀ k < 32, v.getLsbD k = loadBit s a n signed k) ∧ Runs s i [(reg2, v)] []

/-- The bytes `vs`, given with their addresses, stand in memory (but for device locations, which keep
none). -/
def Holds (t : State) (vs : List (Word × Byte)) : Prop :=
  ∀ p ∈ vs, t.kindAt p.1 ≠ some .device → Memory.read t.mem p.1.toNat = p.2

/-- The bytes of a value stored at `a`, least significant first (20_memory.md R87). -/
def bytesAt (a : Word) (size : AccessSize) (v : Word) : List (Word × Byte) :=
  (List.range size.bytes).map (fun k => (a + BitVec.ofNat 32 k, v.extractLsb' (8 * k) 8))

/-- `i` stores `v` at `a`: the bytes of the access stand there, and where a device location is among them
the write is recorded. -/
def Stores (s : State) (i : Instr) (a : Word) (size : AccessSize) (v : Word)
    (flags : List (Nat × Bool)) : Prop :=
  ∃ t, exec i s = .next t
    ∧ Holds t (bytesAt a size v)
    ∧ (∀ p ∈ flags, t.psw.getLsbD p.1 = p.2)
    ∧ t.pc = s.pcAfter i.length
    ∧ (s.touchesDevice a size = true →
        t.deviceOut = s.deviceOut ++ [{ addr := a, size := size, value := v &&& dataLanes size }])
    ∧ Frame s t [] (flags.map Prod.fst) ((bytesAt a size v).map Prod.fst)

/-- The load or store at `a` can be made: the address is in the map. -/
abbrev Readable (s : State) (a : Word) (size : AccessSize) : Prop := s.mapped a size = true

/-- A store at `a` can be made: the address is in the map and not in ROM. -/
abbrev Writable (s : State) (a : Word) (size : AccessSize) : Prop :=
  s.mapped a size = true ∧ s.storable a size = true

/-- The address of an access after the alignment step (20_memory.md R90). -/
abbrev aligned (s : State) (size : AccessSize) (a : Word) : Word :=
  alignAddr s.platform.misalignEnabled size a

/-! ## Stack frames (49_special_debug.md R375, R379) -/

/-- The address PREPARE stores its `k`-th register at. -/
def saveSlot (s : State) (k : Nat) : Word :=
  stackAddr (s.reg Reg.sp - BitVec.ofNat 32 (4 * (k + 1)))

/-- What PREPARE stores, byte by byte: the `k`-th register of the list at the `k`-th address. -/
def savedBytes (s : State) (list12 : List12) : List (Word × Byte) :=
  (listRegs list12).zipIdx.flatMap (fun p => bytesAt (saveSlot s p.2) .word (s.reg p.1))

/-- The writes of PREPARE that the environment sees, in their order: one word for each slot with a device
byte (20_memory.md R97, log entry 50). -/
def savedWrites (s : State) (list12 : List12) : List DeviceWrite :=
  ((listRegs list12).zipIdx.filter (fun p => s.touchesDevice (saveSlot s p.2) .word)).map
    (fun p => { addr := saveSlot s p.2, size := .word, value := s.reg p.1 })

/-- `i` stores the registers of `list12`, records the slots that are device locations, leaves `sp` in r3
and `eps` in the named registers, and changes nothing else. -/
def Prepares (s : State) (i : Instr) (list12 : List12) (eps : List (Reg × Word)) (sp : Word) :
    Prop :=
  ∃ t, exec i s = .next t
    ∧ Holds t (savedBytes s list12)
    ∧ t.reg Reg.sp = sp
    ∧ (∀ p ∈ eps, t.reg p.1 = p.2)
    ∧ t.pc = s.pcAfter i.length
    ∧ t.deviceOut = s.deviceOut ++ savedWrites s list12
    ∧ Frame s t (Reg.sp :: eps.map Prod.fst) [] ((savedBytes s list12).map Prod.fst)

/-- The word at `a`, little endian. -/
def wordAt (s : State) (a : Word) : Word :=
  s.byteAt (a + 3#32) ++ s.byteAt (a + 2#32) ++ s.byteAt (a + 1#32) ++ s.byteAt a

/-- The address DISPOSE loads its `k`-th register from. -/
def loadSlot (s : State) (imm5 : BitVec 5) (k : Nat) : Word :=
  stackAddr (s.reg Reg.sp + BitVec.ofNat 32 (4 * imm5.toNat + 4 * k))

/-- What DISPOSE leaves in the registers of its list, the highest register first, and in sp. -/
def loadedRegs (s : State) (imm5 : BitVec 5) (list12 : List12) : List (Reg × Word) :=
  (Reg.sp, s.reg Reg.sp + BitVec.ofNat 32 (4 * imm5.toNat + 4 * (listRegs list12).length))
    :: (listRegs list12).reverse.zipIdx.map (fun p => (p.1, wordAt s (loadSlot s imm5 p.2)))

/-! ## Results given bit by bit -/

/-- `i` puts the word with the bits `bit` in `dst`, `out` in CY, 0 in OV, and the S and Z of the result
(45_data_manipulation.md R280). -/
def Shifts (s : State) (i : Instr) (dst : Reg) (bit : Nat → Bool) (out : Bool) : Prop :=
  ∃ r : Word, (∀ k < 32, r.getLsbD k = bit k)
    ∧ Runs s i [(dst, r)]
        [(Psw.cy, out), (Psw.ov, false), (Psw.s, r.getLsbD 31), (Psw.z, decide (r = 0#32))]

/-- `k` is the first of 1 to 32 with `hit k`, or 0 when there is none. -/
def FirstHit (hit : Nat → Bool) (k : Nat) : Prop :=
  (k = 0 ∧ ∀ j, 1 ≤ j → j ≤ 32 → hit j = false)
    ∨ (1 ≤ k ∧ k ≤ 32 ∧ hit k = true ∧ ∀ j, 1 ≤ j → j < k → hit j = false)

/-- `i` puts the position of the first hit in `dst`, with the flags of 45_data_manipulation.md R300. -/
def Searches (s : State) (i : Instr) (dst : Reg) (hit : Nat → Bool) : Prop :=
  ∃ k, FirstHit hit k
    ∧ Runs s i [(dst, BitVec.ofNat 32 k)]
        [(Psw.cy, match s.platform.schCyMode with
            | .found => decide (k ≠ 0)
            | .foundAtLastPosition => decide (k = 32)),
         (Psw.ov, false), (Psw.s, false), (Psw.z, decide (k = 0))]

/-- Quotient and remainder of a signed division truncated toward zero (46_divide.md R310). -/
def TruncatedDivision (a b q rem : Word) : Prop :=
  a.toInt = q.toInt * b.toInt + rem.toInt ∧ rem.toInt.natAbs < b.toInt.natAbs
    ∧ (rem = 0#32 ∨ rem.msb = a.msb)

/-- `i` divides `a` by `b` as signed numbers, and leaves `results` of the quotient and the remainder. -/
def DividesSigned (s : State) (i : Instr) (a b : Word) (results : Word → Word → List (Reg × Word)) :
    Prop :=
  if a = 0x80000000#32 ∧ b = 0xFFFFFFFF#32 then
    Runs s i (results 0x80000000#32 0#32) (flagsNoCy true 0x80000000#32)
  else ∃ q rem, TruncatedDivision a b q rem ∧ Runs s i (results q rem) (flagsNoCy false q)

/-- `i` divides `a` by `b` as unsigned numbers. -/
def DividesUnsigned (s : State) (i : Instr) (a b : Word) (results : Word → Word → List (Reg × Word)) :
    Prop :=
  ∃ q rem : Word, a.toNat = q.toNat * b.toNat + rem.toNat ∧ rem.toNat < b.toNat
    ∧ Runs s i (results q rem) (flagsNoCy false q)

/-- `i` divides by zero: OV is 1, some quotient, remainder, S and Z result. -/
def DividesByZero (s : State) (i : Instr) (results : Word → Word → List (Reg × Word)) : Prop :=
  ∃ (q rem : Word) (sg z : Bool),
    Runs s i (results q rem) [(Psw.ov, true), (Psw.s, sg), (Psw.z, z)]

/-! ## Entries and returns -/

/-- `t` is `s` after an entry to debug mode that saved `dbpc` and the PSW: NP, EP and ID are set, DM is
set with the DIR bits of `marks`, the PC is 00000060H, and nothing else changed but the HALT mode bit
(60_exceptions.md R426 to R428). -/
structure DebugEntered (s t : State) (dbpc : Word) (marks : List Nat) : Prop where
  dbpc : t.dbpc = dbpc
  dbpsw : t.dbpsw = s.psw &&& Psw.mask
  set : ∀ k ∈ [Psw.np, Psw.ep, Psw.id], t.psw.getLsbD k = true
  psw : ∀ k, k ∉ [Psw.np, Psw.ep, Psw.id] → t.psw.getLsbD k = s.psw.getLsbD k
  marked : ∀ k ∈ Dir.dm :: marks, t.dir.getLsbD k = true
  dir : ∀ k, k ∉ Dir.dm :: marks → t.dir.getLsbD k = s.dir.getLsbD k
  pc : t.pc = 0x00000060#32
  others :
    t = { s with
      dbpc := t.dbpc, dbpsw := t.dbpsw, psw := t.psw, dir := t.dir, pc := t.pc
      halted := t.halted }

/-! ## Breakpoint channels (60_exceptions.md R460 to R464) -/

/-- DIR.SQ of the pair of channel `n` (10_state.md R51). -/
def sqBit (n : Fin 4) : Nat := if n.val < 2 then Dir.sq0 else Dir.sq1

/-- DIR.RE of the pair of channel `n` (10_state.md R51). -/
def reBit (n : Fin 4) : Nat := if n.val < 2 then Dir.re0 else Dir.re1

/-- DIR.BT of channel `n` (10_state.md R51). -/
def btBit : Fin 4 → Nat
  | 0 => Dir.bt0
  | 1 => Dir.bt1
  | 2 => Dir.bt2
  | 3 => Dir.bt3

/-- The other channel of the pair (R462). -/
def partner : Fin 4 → Fin 4
  | 0 => 1
  | 1 => 0
  | 2 => 3
  | 3 => 2

/-- The sequential progress of the pair of channel `n` (10_state.md R75 (d)). -/
def progressOf (s : State) (n : Fin 4) : Bool := if n.val < 2 then s.seq0 else s.seq1

/-- Channel `n` broke. -/
def hitOf (w : Watch) : Fin 4 → Bool
  | 0 => w.hit0
  | 1 => w.hit1
  | 2 => w.hit2
  | 3 => w.hit3

/-- Channel `n` is at work: user mode, breakpoints modelled, and DIR.EXT for channels 2 and 3 (R430,
R460). -/
def TakesPart (s : State) (n : Fin 4) : Prop :=
  s.userMode = true ∧ s.platform.breakpointsModelled = true
    ∧ (2 ≤ n.val → s.dir.getLsbD Dir.ext = true)

/-- Bus event `e` is an event of channel `n` (R460). -/
def EventOf (s : State) (e : BusEvent) (n : Fin 4) : Prop :=
  s.channelEvent s.channels[n.val] e = true

/-- Bus event `e` makes channel `n` break: its own event with BE set and, in sequential mode, only the
second channel and only with the progress set, in range mode only with an event of the other channel,
with both mode bits set never (R460, R462). -/
def BreaksOn (s : State) (e : BusEvent) (n : Fin 4) : Prop :=
  TakesPart s n ∧ EventOf s e n ∧ s.channels[n.val].bpc.getLsbD Bpc.be = true
    ∧ (s.dir.getLsbD (sqBit n) = true →
        s.dir.getLsbD (reBit n) = false ∧ n.val % 2 = 1 ∧ progressOf s n = true)
    ∧ (s.dir.getLsbD (reBit n) = true → EventOf s e (partner n))

/-- The progress that `e` leaves in `t` of the pair whose second channel is `n`: set by an event of the
first channel, cleared by a break, and no progress outside sequential mode (R462; where an event breaks
and sets it at once, and where BE is 0, log entries 51 and 52; that it stays as it was with SQ and RE
both set, log entry 57). -/
def ProgressLeft (s t : State) (e : BusEvent) (n : Fin 4) : Prop :=
  (TakesPart s n → s.dir.getLsbD (sqBit n) = true → s.dir.getLsbD (reBit n) = false →
      (progressOf t n = true
        ↔ EventOf s e (partner n) ∨ progressOf s n = true ∧ ¬BreaksOn s e n))
    ∧ (TakesPart s n → s.dir.getLsbD (sqBit n) = false → progressOf t n = false)
    ∧ (TakesPart s n → s.dir.getLsbD (sqBit n) = true → s.dir.getLsbD (reBit n) = true →
        progressOf t n = progressOf s n)
    ∧ (¬TakesPart s n → progressOf t n = progressOf s n)

/-- `t` is `s` after the debug break of the channels that broke in `w`: the entry of R428 with DBPC the
PC, HALT mode ended, BTn set for each channel that broke while INI is 0 (R464), the progress of `w`
kept; the channels and the model's own step fields are for the claim to say. -/
structure BrokeInto (s t : State) (w : Watch) : Prop where
  dbpc : t.dbpc = s.pc &&& 0x1FFFFFFF#32
  dbpsw : t.dbpsw = s.psw &&& Psw.mask
  set : ∀ k ∈ [Psw.np, Psw.ep, Psw.id], t.psw.getLsbD k = true
  psw : ∀ k, k ∉ [Psw.np, Psw.ep, Psw.id] → t.psw.getLsbD k = s.psw.getLsbD k
  dir : ∀ k, t.dir.getLsbD k = true ↔ k = Dir.dm ∨ s.dir.getLsbD k = true
    ∨ (s.dir.getLsbD Dir.ini = false ∧ ∃ n, k = btBit n ∧ hitOf w n = true)
  pc : t.pc = 0x00000060#32
  halted : t.halted = false
  progress : t.seq0 = w.seq0 ∧ t.seq1 = w.seq1
  others :
    t = { s with
      dbpc := t.dbpc, dbpsw := t.dbpsw, psw := t.psw, dir := t.dir, pc := t.pc, halted := t.halted
      seq0 := t.seq0, seq1 := t.seq1, channels := t.channels
      stepDue := t.stepDue, afterReset := t.afterReset, tick := t.tick, choice := t.choice }

/-- `w` is what a write or restore of the whole PSW with `v` leaves there: reserved bits are 0, SS is 0
while DIR.SSE is 0 (10_state.md R28, R53 (d)). -/
def PswLoaded (dir v w : Word) : Prop :=
  ∀ k, w.getLsbD k
    = (v.getLsbD k && Psw.mask.getLsbD k && (k != Psw.ss || dir.getLsbD Dir.sse))

/-- `i` returns in `s` through a saved PC and a saved PSW and changes nothing else. -/
def ReturnsTo (s : State) (i : Instr) (pc psw : Word) : Prop :=
  ∃ t, exec i s = .next t ∧ t.pc = pc &&& 0x1FFFFFFE#32 ∧ PswLoaded s.dir psw t.psw
    ∧ t = { s with pc := t.pc, psw := t.psw }

/-! ## Instructions that store -/

/-- The instructions that write data memory (20_memory.md R95). -/
def writesMemory : Instr → Bool
  | .stb _ _ _ | .sth _ _ _ | .stw _ _ _ | .sstb _ _ | .ssth _ _ | .sstw _ _ => true
  | .set1Imm _ _ _ | .clr1Imm _ _ _ | .not1Imm _ _ _ => true
  | .set1Reg _ _ | .clr1Reg _ _ | .not1Reg _ _ => true
  | .prepare _ _ | .prepareSp _ _ | .prepareImm16 _ _ _ | .prepareImm16Hi _ _ _ => true
  | .prepareImm32 _ _ _ => true
  | _ => false

/-- The instructions that can clear PSW.SAT: LDSR to PSW and the restores (10_state.md R29). -/
def clearsSat : Instr → Bool
  | .ldsr _ regID => regID == 5#5
  | .reti | .ctret | .dbret => true
  | _ => false

/-! ## Steps -/

/-- An instruction lies in memory at the PC: its bytes, in RAM or ROM. -/
def CodeAt (s : State) (i : Instr) : Prop :=
  ∀ k < (encodeBytes i).length,
    (s.kindAt (s.codeAddr k) = some .ram ∨ s.kindAt (s.codeAddr k) = some .rom)
      ∧ Memory.read s.mem (s.codeAddr k).toNat = (encodeBytes i).getD k 0#8

/-- Nothing is due at the boundary but the instruction at the PC: no single-step break, no accepted
request, no HALT mode. -/
def Ready (s : State) : Prop := s.stepDue = false ∧ s.chosen = none ∧ s.halted = false

/-- The code at the PC is fetched and no execution-related breakpoint stops it. -/
def Fetched (s : State) (code : List Half) : Prop :=
  s.fetch = .ok code ∧ s.prohibitedSetting = false ∧ (s.watch [s.fetchEvent code]).hit = false

/-- `s` with the sequential progress its fetch leaves (60_exceptions.md R462). -/
def afterFetch (s : State) (code : List Half) : State :=
  s.keepProgress (s.watch [s.fetchEvent code])

end Sys2Proof.Safety
end

