-- ==== Sys2Proof/Certificates/Slice0/Obligations.lean ====
section
/-! DEFINITION. The statements for the provers, in the order of OBLIGATIONS.json. -/

open Sys2Proof Sys2Proof.Machine Sys2Proof.Safety

/-! ## Encoding -/

/-- Decoding what encode writes for a well-formed instruction gives it back, whatever follows
(30_encoding.md R124 to R137). -/
def Obligations.DecodeOfEncode : Prop :=
  ∀ i, WellFormed i = true → ∀ rest : List Half, decode (encode i ++ rest) = .ok (i, rest)

/-- A code that decodes is the encoding of what it decodes to, and that is well-formed: no bit of a code
is ignored (30_encoding.md R121, R146). -/
def Obligations.EncodeOfDecode : Prop :=
  ∀ (code rest : List Half) (i : Instr), decode code = .ok (i, rest) →
    WellFormed i = true ∧ code = encode i ++ rest

/-- The length rule, which sees the first two halfwords only, finds the length of every instruction
(30_encoding.md R122). -/
def Obligations.CodeLengthOfEncode : Prop :=
  ∀ i, WellFormed i = true → 2 * (encode i).length = i.length
    ∧ codeLength ((encode i).getD 0 0#16) ((encode i).getD 1 0#16) = i.length

/-- The codes the decoder answers illegal are those with bits 10 to 5 all 1, bit 16 = 0 and bit 26 = 1
(30_encoding.md R145). -/
def Obligations.IllegalCodeIff : Prop :=
  ∀ code : List Half, decode code = .error .illegalCode ↔
    ∃ h0 h1 rest, code = h0 :: h1 :: rest ∧ (h1 ++ h0) &&& 0x040107E0#32 = 0x040007E0#32

/-- Words written out from the spec's encodings decode to what they stand for (30_encoding.md R124 to
R137; a sanity check). -/
def Obligations.DecodedWords : Prop :=
  decodeTableWord 16 0b0001000111000001 = some (.addReg 1#5 2#5)
    ∧ decodeTableWord 16 0b0001001001011111 = some (.addImm5 31#5 2#5)
    ∧ decodeTableWord 16 0b0000010111001010 = some (.bcond .nz 8#9)
    ∧ decodeTableWord 16 0b0010110100000101 = some (.sstw 5#5 8#8)
    ∧ decodeTableWord 32 0b00000000000001010001011100100001 = some (.ldw 4#16 1#5 2#5)
    ∧ decodeTableWord 32 0b00011010001000000001011111100001 = some (.mul 1#5 2#5 3#5)
    ∧ decodeTableWord 32 0b00000000001000000010111111100001 = some (.ldsr 1#5 5#5)
    ∧ decodeTableWord 32 0b00000000011000010000011110000100 = some (.prepare 0b000000000110#12 2#5)
    ∧ decodeTableWord 48 0b000100100011010001010110011110000000001011111111
        = some (.jarl32 0x12345678#32 31#5)

/-! ## The machine as a whole -/

/-- A step at a state with nothing else due runs the instruction its code decodes to: exec of it, then
the access-related breakpoints, the single-step arming and the count of steps (60_exceptions.md R411,
R415). The model's choices in it: the order, which R415 marks as derived (log entry 59), access breaks
right after the instruction (decision D24, log entry 27), the single-step arming (D12, log entry 19), the
count of steps and the draw of the next choice (log entries 8 and 17). -/
def Obligations.StepRunsDecoded : Prop :=
  ∀ (s : State) (code rest : List Half) (i : Instr), Ready s → Fetched s code →
    decode code = .ok (i, rest) →
    step s =
      match exec i (afterFetch s code) with
      | .next t =>
        .next ((afterFetch s code).finishInstruction
          (t.afterAccesses ((afterFetch s code).accesses i))).nextTick
      | .fault f => .fault f
      | .refused r => .refused r

/-- Where an instruction's bytes lie in memory at the PC, the fetch gives its code (20_memory.md R88,
R110). The model's choices in it: the code wraps modulo 2^29 and only its own halfwords are read (log
entry 34); the memory is the one stores write (decision D15, log entry 32). -/
def Obligations.FetchOfPlacedCode : Prop :=
  ∀ (s : State) (i : Instr), WellFormed i = true → CodeAt s i → s.fetch = .ok (encode i)

/-- Every step keeps the invariant. The model's choices in it: no sequential progress outside sequential
mode (decision D24 of 60_exceptions.md R462, which says that it is not stated; log entry 56), a
single-step break is due in user mode only (decision D12 of R429 and R430, log entry 19), SS is 0 while
SSE is 0 on every way of writing it (derived in 10_state.md R53, log entry 55). -/
def Obligations.StepKeepsInv : Prop :=
  ∀ s t : State, Inv s → step s = .next t → Inv t

/-- The state after reset has the invariant, with the model's choices that StepKeepsInv names; of the
registers whose reset value is undefined it concerns the value the model chose (log entry 4). -/
def Obligations.ResetHasInv : Prop := Inv State.reset

/-- What the environment does between steps keeps the invariant, with the model's choices that
StepKeepsInv names. -/
def Obligations.EnvironmentKeepsInv : Prop :=
  ∀ (s : State) (e : EnvEvent), Inv s → Inv (s.environment e)

/-- What reset gives the registers the spec gives a value, from any state, and that memory stays
(10_state.md R60, 70_reset_and_hazards.md R471, R472). The registers whose reset value is undefined
are not mentioned. The model's choices in it are decision D31: that memory stays and the pending set is
emptied (log entry 37), and that nothing can be accepted at the boundary after reset (log entry 18). -/
def Obligations.ResetValues : Prop :=
  ∀ s : State,
    let t := s.environment .systemReset
    t.pc = 0x00000000#32 ∧ t.psw = 0x00000020#32 ∧ t.ecr = 0x00000000#32 ∧ t.dir = 0x00000040#32
      ∧ t.reg 0#5 = 0#32 ∧ t.halted = false ∧ t.seq0 = false ∧ t.seq1 = false
      ∧ (∀ n : Fin 4, t.channels[n.val].bpc &&& 0xFF00707F#32 = 0#32)
      ∧ t.nmi0 = false ∧ t.nmi1 = false ∧ t.nmi2 = false ∧ t.intReq = none
      ∧ (∀ a, Memory.read t.mem a = Memory.read s.mem a)
      ∧ State.reset.pc = 0x00000000#32 ∧ State.reset.psw = 0x00000020#32
      ∧ State.reset.ecr = 0x00000000#32 ∧ State.reset.dir = 0x00000040#32
      ∧ t.chosen = none

/-- No step changes a parameter of the platform, and every step counts itself (00_scope.md R6; the
count is the model's own, log entry 8). -/
def Obligations.PlatformFixed : Prop :=
  ∀ s t : State, step s = .next t → t.platform = s.platform ∧ t.tick = s.tick + 1

/-- Every shift from user mode to debug mode goes to the handler at 00000060H with NP, EP and ID set
(60_exceptions.md R405). -/
def Obligations.DebugModeEntry : Prop :=
  ∀ s t : State, step s = .next t → s.userMode = true → t.userMode = false →
    t.pc = 0x00000060#32 ∧ t.psw.getLsbD Psw.np = true ∧ t.psw.getLsbD Psw.ep = true
      ∧ t.psw.getLsbD Psw.id = true

/-- The only step that leaves debug mode runs a DBRET (60_exceptions.md R405, R441). -/
def Obligations.DebugModeExit : Prop :=
  ∀ s t : State, step s = .next t → s.userMode = false → t.userMode = true →
    ∃ code rest, s.fetch = .ok code ∧ decode code = .ok (.dbret, rest)

/-- SAT is cumulative: an instruction other than LDSR to PSW, RETI, CTRET and DBRET does not clear it
(10_state.md R29). -/
def Obligations.SatCumulative : Prop :=
  ∀ (i : Instr) (s t : State), exec i s = .next t → clearsSat i = false →
    s.psw.getLsbD Psw.sat = true → t.psw.getLsbD Psw.sat = true

/-- TRAP is the only instruction that writes ECR; what it writes is EICC (10_state.md R40). -/
def Obligations.EcrWriters : Prop :=
  ∀ (i : Instr) (s t : State), exec i s = .next t → (∀ v, i ≠ .trap v) → t.ecr = s.ecr

/-- Every instruction but the stores, SET1, CLR1, NOT1 and PREPARE leaves memory and the devices alone
(20_memory.md R95). -/
def Obligations.MemoryWriters : Prop :=
  ∀ (i : Instr) (s t : State), exec i s = .next t → writesMemory i = false →
    (∀ a, Memory.read t.mem a = Memory.read s.mem a) ∧ t.deviceOut = s.deviceOut

/-! ## Arithmetic, moves, saturation, logic -/

/-- ADD, ADDI and ADF complete with the sum and the flags of AddFlags, and nothing else changes
(42_arithmetic.md R215 to R219). That ADF tests the PSW before it is decision D22, log entry 41. -/
def Obligations.AdditionResult : Prop :=
  ∀ s : State,
    (∀ reg1 reg2, Adds s (.addReg reg1 reg2) reg2 (s.reg reg2) (s.reg reg1) 0)
      ∧ (∀ imm5 reg2, Adds s (.addImm5 imm5 reg2) reg2 (s.reg reg2) (imm5.signExtend 32) 0)
      ∧ (∀ imm16 reg1 reg2,
          Adds s (.addi imm16 reg1 reg2) reg2 (s.reg reg1) (imm16.signExtend 32) 0)
      ∧ (∀ cond reg1 reg2 reg3,
          Adds s (.adf cond reg1 reg2 reg3) reg3 (s.reg reg1) (s.reg reg2) (s.cond cond).toNat)

/-- SUB, SUBR, SBF and CMP complete with the difference and the flags of SubFlags; CMP writes no
register (42_arithmetic.md R215, R220 to R224). That SBF tests the PSW before it is decision D22, log
entry 41. -/
def Obligations.SubtractionResult : Prop :=
  ∀ s : State,
    (∀ reg1 reg2, Subtracts s (.sub reg1 reg2) [reg2] (s.reg reg2) (s.reg reg1) 0)
      ∧ (∀ reg1 reg2, Subtracts s (.subr reg1 reg2) [reg2] (s.reg reg1) (s.reg reg2) 0)
      ∧ (∀ cond reg1 reg2 reg3,
          Subtracts s (.sbf cond reg1 reg2 reg3) [reg3] (s.reg reg2) (s.reg reg1)
            (s.cond cond).toNat)
      ∧ (∀ reg1 reg2, Subtracts s (.cmpReg reg1 reg2) [] (s.reg reg2) (s.reg reg1) 0)
      ∧ (∀ imm5 reg2, Subtracts s (.cmpImm5 imm5 reg2) [] (s.reg reg2) (imm5.signExtend 32) 0)

/-- The moves complete with their value and change no flag (42_arithmetic.md R225 to R229). -/
def Obligations.MoveResult : Prop :=
  ∀ s : State,
    (∀ reg1 reg2, Runs s (.movReg reg1 reg2) [(reg2, s.reg reg1)] [])
      ∧ (∀ imm5 reg2, Runs s (.movImm5 imm5 reg2) [(reg2, imm5.signExtend 32)] [])
      ∧ (∀ imm32 reg1, Runs s (.movImm32 imm32 reg1) [(reg1, imm32)] [])
      ∧ (∀ imm16 reg1 reg2,
          Runs s (.movea imm16 reg1 reg2) [(reg2, s.reg reg1 + imm16.signExtend 32)] [])
      ∧ (∀ imm16 reg1 reg2,
          Runs s (.movhi imm16 reg1 reg2) [(reg2, s.reg reg1 + (imm16 ++ 0#16))] [])

/-- The saturated instructions complete with the clamped exact result; SAT is set, never cleared, on an
overflow (43_saturate.md R240 to R248). -/
def Obligations.SaturatedResult : Prop :=
  ∀ s : State,
    (∀ reg1 reg2, Saturates s (.sataddReg reg1 reg2) reg2 ((s.reg reg2).toInt + (s.reg reg1).toInt)
        (4294967296 ≤ (s.reg reg2).toNat + (s.reg reg1).toNat))
      ∧ (∀ imm5 reg2, Saturates s (.sataddImm5 imm5 reg2) reg2 ((s.reg reg2).toInt + imm5.toInt)
          (4294967296 ≤ (s.reg reg2).toNat + (imm5.signExtend 32).toNat))
      ∧ (∀ reg1 reg2 reg3,
          Saturates s (.satadd3 reg1 reg2 reg3) reg3 ((s.reg reg2).toInt + (s.reg reg1).toInt)
            (4294967296 ≤ (s.reg reg2).toNat + (s.reg reg1).toNat))
      ∧ (∀ reg1 reg2,
          Saturates s (.satsubReg reg1 reg2) reg2 ((s.reg reg2).toInt - (s.reg reg1).toInt)
            ((s.reg reg2).toNat < (s.reg reg1).toNat))
      ∧ (∀ reg1 reg2 reg3,
          Saturates s (.satsub3 reg1 reg2 reg3) reg3 ((s.reg reg2).toInt - (s.reg reg1).toInt)
            ((s.reg reg2).toNat < (s.reg reg1).toNat))
      ∧ (∀ imm16 reg1 reg2,
          Saturates s (.satsubi imm16 reg1 reg2) reg2 ((s.reg reg1).toInt - imm16.toInt)
            ((s.reg reg1).toNat < (imm16.signExtend 32).toNat))
      ∧ (∀ reg1 reg2,
          Saturates s (.satsubr reg1 reg2) reg2 ((s.reg reg1).toInt - (s.reg reg2).toInt)
            ((s.reg reg1).toNat < (s.reg reg2).toNat))

/-- The logical instructions complete with their result, OV = 0, S and Z of it, CY and SAT kept; TST
writes no register (44_logical.md R255 to R263). -/
def Obligations.LogicalResult : Prop :=
  ∀ s : State,
    (∀ reg1 reg2, Runs s (.andReg reg1 reg2) [(reg2, s.reg reg2 &&& s.reg reg1)]
        (flagsNoCy false (s.reg reg2 &&& s.reg reg1)))
      ∧ (∀ reg1 reg2, Runs s (.orReg reg1 reg2) [(reg2, s.reg reg2 ||| s.reg reg1)]
          (flagsNoCy false (s.reg reg2 ||| s.reg reg1)))
      ∧ (∀ reg1 reg2, Runs s (.xorReg reg1 reg2) [(reg2, s.reg reg2 ^^^ s.reg reg1)]
          (flagsNoCy false (s.reg reg2 ^^^ s.reg reg1)))
      ∧ (∀ reg1 reg2, Runs s (.notReg reg1 reg2) [(reg2, ~~~(s.reg reg1))]
          (flagsNoCy false (~~~(s.reg reg1))))
      ∧ (∀ reg1 reg2, Runs s (.tst reg1 reg2) [] (flagsNoCy false (s.reg reg2 &&& s.reg reg1)))
      ∧ (∀ imm16 reg1 reg2,
          Runs s (.andi imm16 reg1 reg2) [(reg2, s.reg reg1 &&& imm16.setWidth 32)]
            (flagsNoCy false (s.reg reg1 &&& imm16.setWidth 32)))
      ∧ (∀ imm16 reg1 reg2,
          Runs s (.ori imm16 reg1 reg2) [(reg2, s.reg reg1 ||| imm16.setWidth 32)]
            (flagsNoCy false (s.reg reg1 ||| imm16.setWidth 32)))
      ∧ (∀ imm16 reg1 reg2,
          Runs s (.xori imm16 reg1 reg2) [(reg2, s.reg reg1 ^^^ imm16.setWidth 32)]
            (flagsNoCy false (s.reg reg1 ^^^ imm16.setWidth 32)))

/-! ## Data manipulation and search -/

/-- BSH, BSW, HSH and HSW complete with the swapped word and the zero tests of each in CY and Z
(45_data_manipulation.md R270 to R274). -/
def Obligations.SwapResult : Prop :=
  ∀ (s : State) (reg2 reg3 : Reg),
    let x := s.reg reg2
    let bsh := x.extractLsb' 16 8 ++ x.extractLsb' 24 8 ++ x.extractLsb' 0 8 ++ x.extractLsb' 8 8
    let bsw := x.extractLsb' 0 8 ++ x.extractLsb' 8 8 ++ x.extractLsb' 16 8 ++ x.extractLsb' 24 8
    let hsw := x.extractLsb' 0 16 ++ x.extractLsb' 16 16
    Runs s (.bsh reg2 reg3) [(reg3, bsh)]
        [(Psw.cy, decide (bsh.extractLsb' 8 8 = 0#8 ∨ bsh.extractLsb' 0 8 = 0#8)),
         (Psw.ov, false), (Psw.s, bsh.getLsbD 31), (Psw.z, decide (bsh.extractLsb' 0 16 = 0#16))]
      ∧ Runs s (.bsw reg2 reg3) [(reg3, bsw)]
        [(Psw.cy, decide (bsw.extractLsb' 24 8 = 0#8 ∨ bsw.extractLsb' 16 8 = 0#8
            ∨ bsw.extractLsb' 8 8 = 0#8 ∨ bsw.extractLsb' 0 8 = 0#8)),
         (Psw.ov, false), (Psw.s, bsw.getLsbD 31), (Psw.z, decide (bsw = 0#32))]
      ∧ Runs s (.hsh reg2 reg3) [(reg3, x)]
        [(Psw.cy, decide (x.extractLsb' 0 16 = 0#16)),
         (Psw.ov, false), (Psw.s, x.getLsbD 31), (Psw.z, decide (x.extractLsb' 0 16 = 0#16))]
      ∧ Runs s (.hsw reg2 reg3) [(reg3, hsw)]
        [(Psw.cy, decide (hsw.extractLsb' 16 16 = 0#16 ∨ hsw.extractLsb' 0 16 = 0#16)),
         (Psw.ov, false), (Psw.s, hsw.getLsbD 31), (Psw.z, decide (hsw = 0#32))]

/-- The sixteen conditions of Table 5-4 (10_state.md R30). -/
def Obligations.ConditionTable : Prop :=
  ∀ psw : Word,
    let ov := psw.getLsbD 2
    let cy := psw.getLsbD 3
    let z := psw.getLsbD 0
    let sg := psw.getLsbD 1
    condHolds psw (Cond.ofCode 0b0000#4) = ov ∧ condHolds psw (Cond.ofCode 0b1000#4) = !ov
      ∧ condHolds psw (Cond.ofCode 0b0001#4) = cy ∧ condHolds psw (Cond.ofCode 0b1001#4) = !cy
      ∧ condHolds psw (Cond.ofCode 0b0010#4) = z ∧ condHolds psw (Cond.ofCode 0b1010#4) = !z
      ∧ condHolds psw (Cond.ofCode 0b0011#4) = (cy || z)
      ∧ condHolds psw (Cond.ofCode 0b1011#4) = !(cy || z)
      ∧ condHolds psw (Cond.ofCode 0b0100#4) = sg ∧ condHolds psw (Cond.ofCode 0b1100#4) = !sg
      ∧ condHolds psw (Cond.ofCode 0b0101#4) = true
      ∧ condHolds psw (Cond.ofCode 0b1101#4) = psw.getLsbD 4
      ∧ condHolds psw (Cond.ofCode 0b0110#4) = (sg != ov)
      ∧ condHolds psw (Cond.ofCode 0b1110#4) = !(sg != ov)
      ∧ condHolds psw (Cond.ofCode 0b0111#4) = ((sg != ov) || z)
      ∧ condHolds psw (Cond.ofCode 0b1111#4) = !((sg != ov) || z)

/-- CMOV, SASF and SETF complete with the value the condition selects and change no flag
(45_data_manipulation.md R275 to R278). -/
def Obligations.ConditionalResult : Prop :=
  ∀ (s : State) (cond : Cond),
    let one := if condHolds s.psw cond = true then 1#32 else 0#32
    (∀ reg1 reg2 reg3, Runs s (.cmov cond reg1 reg2 reg3)
        [(reg3, if condHolds s.psw cond = true then s.reg reg1 else s.reg reg2)] [])
      ∧ (∀ imm5 reg2 reg3, Runs s (.cmovImm5 cond imm5 reg2 reg3)
          [(reg3, if condHolds s.psw cond = true then imm5.signExtend 32 else s.reg reg2)] [])
      ∧ (∀ reg2, Runs s (.sasf cond reg2) [(reg2, s.reg reg2 + s.reg reg2 + one)] [])
      ∧ (∀ reg2, Runs s (.setf cond reg2) [(reg2, one)] [])

/-- The nine shift forms complete with every bit of the result where R280 puts it, CY the last bit
shifted out, 0 for a count of 0 (45_data_manipulation.md R280 to R289). -/
def Obligations.ShiftResult : Prop :=
  ∀ s : State,
    let sar := fun (x : Word) (n k : Nat) => if k + n < 32 then x.getLsbD (k + n) else x.getLsbD 31
    let shr := fun (x : Word) (n k : Nat) => x.getLsbD (k + n)
    let shl := fun (x : Word) (n k : Nat) => decide (n ≤ k) && x.getLsbD (k - n)
    let outR := fun (x : Word) (n : Nat) => decide (0 < n) && x.getLsbD (n - 1)
    let outL := fun (x : Word) (n : Nat) => decide (0 < n) && x.getLsbD (32 - n)
    let count := fun (r : Reg) => (s.reg r).toNat % 32
    (∀ reg1 reg2, Shifts s (.sarReg reg1 reg2) reg2 (sar (s.reg reg2) (count reg1))
        (outR (s.reg reg2) (count reg1)))
      ∧ (∀ imm5 reg2, Shifts s (.sarImm5 imm5 reg2) reg2 (sar (s.reg reg2) imm5.toNat)
          (outR (s.reg reg2) imm5.toNat))
      ∧ (∀ reg1 reg2 reg3, Shifts s (.sar3 reg1 reg2 reg3) reg3 (sar (s.reg reg2) (count reg1))
          (outR (s.reg reg2) (count reg1)))
      ∧ (∀ reg1 reg2, Shifts s (.shrReg reg1 reg2) reg2 (shr (s.reg reg2) (count reg1))
          (outR (s.reg reg2) (count reg1)))
      ∧ (∀ imm5 reg2, Shifts s (.shrImm5 imm5 reg2) reg2 (shr (s.reg reg2) imm5.toNat)
          (outR (s.reg reg2) imm5.toNat))
      ∧ (∀ reg1 reg2 reg3, Shifts s (.shr3 reg1 reg2 reg3) reg3 (shr (s.reg reg2) (count reg1))
          (outR (s.reg reg2) (count reg1)))
      ∧ (∀ reg1 reg2, Shifts s (.shlReg reg1 reg2) reg2 (shl (s.reg reg2) (count reg1))
          (outL (s.reg reg2) (count reg1)))
      ∧ (∀ imm5 reg2, Shifts s (.shlImm5 imm5 reg2) reg2 (shl (s.reg reg2) imm5.toNat)
          (outL (s.reg reg2) imm5.toNat))
      ∧ (∀ reg1 reg2 reg3, Shifts s (.shl3 reg1 reg2 reg3) reg3 (shl (s.reg reg2) (count reg1))
          (outL (s.reg reg2) (count reg1)))

/-- SXB, SXH, ZXB and ZXH complete with the extended low part of reg1 and change no flag
(45_data_manipulation.md R290 to R294). -/
def Obligations.ExtensionResult : Prop :=
  ∀ (s : State) (reg1 : Reg),
    Runs s (.sxb reg1) [(reg1, ((s.reg reg1).setWidth 8).signExtend 32)] []
      ∧ Runs s (.sxh reg1) [(reg1, ((s.reg reg1).setWidth 16).signExtend 32)] []
      ∧ Runs s (.zxb reg1) [(reg1, s.reg reg1 &&& 0x000000FF#32)] []
      ∧ Runs s (.zxh reg1) [(reg1, s.reg reg1 &&& 0x0000FFFF#32)] []

/-- The bit searches complete with the position of the first bit that matches, 0 if none, and the flags
of R300 in both settings of SCH_CY_MODE (45_data_manipulation.md R300 to R304). -/
def Obligations.SearchResult : Prop :=
  ∀ (s : State) (reg2 reg3 : Reg),
    Searches s (.sch0l reg2 reg3) reg3 (fun k => !(s.reg reg2).getLsbD (32 - k))
      ∧ Searches s (.sch0r reg2 reg3) reg3 (fun k => !(s.reg reg2).getLsbD (k - 1))
      ∧ Searches s (.sch1l reg2 reg3) reg3 (fun k => (s.reg reg2).getLsbD (32 - k))
      ∧ Searches s (.sch1r reg2 reg3) reg3 (fun k => (s.reg reg2).getLsbD (k - 1))

/-! ## Multiplication and division -/

/-- MUL and MULU complete with the exact 64-bit product in two registers, the high word last, no flag
changed, in every register combination that is not prohibited (41_multiply_mac.md R200 to R204). -/
def Obligations.ProductResult : Prop :=
  ∀ (s : State) (reg2 reg3 : Reg),
    (∀ reg1, ¬(reg1 = reg3 ∧ reg1 ≠ reg2 ∧ reg1 ≠ 0#5 ∧ reg3 ≠ 0#5) →
        ∃ p : BitVec 64, p.toInt = (s.reg reg2).toInt * (s.reg reg1).toInt
          ∧ Runs s (.mul reg1 reg2 reg3) (pair reg2 reg3 p) [])
      ∧ (∀ reg1, ¬(reg1 = reg3 ∧ reg1 ≠ reg2 ∧ reg1 ≠ 0#5 ∧ reg3 ≠ 0#5) →
        ∃ p : BitVec 64, p.toNat = (s.reg reg2).toNat * (s.reg reg1).toNat
          ∧ Runs s (.mulu reg1 reg2 reg3) (pair reg2 reg3 p) [])
      ∧ (∀ imm9 : BitVec 9, ∃ p : BitVec 64, p.toInt = (s.reg reg2).toInt * imm9.toInt
          ∧ Runs s (.mulImm9 imm9 reg2 reg3) (pair reg2 reg3 p) [])
      ∧ (∀ imm9 : BitVec 9, ∃ p : BitVec 64, p.toNat = (s.reg reg2).toNat * imm9.toNat
          ∧ Runs s (.muluImm9 imm9 reg2 reg3) (pair reg2 reg3 p) [])

/-- MULH and MULHI complete with the exact product of two signed halfwords and change no flag
(41_multiply_mac.md R200, R205 to R207). -/
def Obligations.HalfwordProduct : Prop :=
  ∀ (s : State) (reg2 : Reg),
    (∀ reg1, ∃ v : Word,
        v.toInt = ((s.reg reg2).setWidth 16).toInt * ((s.reg reg1).setWidth 16).toInt
          ∧ Runs s (.mulhReg reg1 reg2) [(reg2, v)] [])
      ∧ (∀ imm5 : BitVec 5, ∃ v : Word, v.toInt = ((s.reg reg2).setWidth 16).toInt * imm5.toInt
          ∧ Runs s (.mulhImm5 imm5 reg2) [(reg2, v)] [])
      ∧ (∀ (imm16 : BitVec 16) (reg1 : Reg), ∃ v : Word,
          v.toInt = ((s.reg reg1).setWidth 16).toInt * imm16.toInt
            ∧ Runs s (.mulhi imm16 reg1 reg2) [(reg2, v)] [])

/-- MAC and MACU with an even reg3 complete with product plus accumulator modulo 2^64 in the pair of
reg4; with an odd reg3 they complete with some two words there (the spec leaves them undefined, log
entry 10) (41_multiply_mac.md R200, R210, R211). -/
def Obligations.MultiplyAccumulate : Prop :=
  ∀ (s : State) (reg1 reg2 reg3 reg4 : Reg),
    let acc : Int := ((s.reg (reg3 + 1) ++ s.reg reg3).toNat : Int)
    (∃ r : BitVec 64,
        (reg3.getLsbD 0 = false → (r.toNat : Int)
            = ((s.reg reg2).toInt * (s.reg reg1).toInt + acc) % 18446744073709551616)
          ∧ Runs s (.mac reg1 reg2 reg3 reg4) (pair reg4 (reg4 + 1) r) [])
      ∧ (∃ r : BitVec 64,
        (reg3.getLsbD 0 = false → (r.toNat : Int)
            = (((s.reg reg2).toNat * (s.reg reg1).toNat : Nat) + acc) % 18446744073709551616)
          ∧ Runs s (.macu reg1 reg2 reg3 reg4) (pair reg4 (reg4 + 1) r) [])

/-- DIV and both forms of DIVH complete, for a divisor that is not 0, with the quotient truncated toward
zero and the remainder of the dividend's sign (log entry 12), and for 80000000H by -1 with OV = 1,
quotient 80000000H and remainder 0 (log entry 13) (46_divide.md R310, R312, R314 to R316). -/
def Obligations.SignedDivision : Prop :=
  ∀ (s : State) (reg1 reg2 reg3 : Reg),
    let a := s.reg reg2
    let b := s.reg reg1
    let h := ((s.reg reg1).setWidth 16).signExtend 32
    (b ≠ 0#32 → DividesSigned s (.div reg1 reg2 reg3) a b (quotRem reg2 reg3))
      ∧ (h ≠ 0#32 → DividesSigned s (.divh3 reg1 reg2 reg3) a h (quotRem reg2 reg3))
      ∧ (h ≠ 0#32 → DividesSigned s (.divhReg reg1 reg2) a h (fun q _ => [(reg2, q)]))

/-- DIVU and DIVHU complete, for a divisor that is not 0, with the unsigned quotient and remainder
(46_divide.md R310, R317, R318). -/
def Obligations.UnsignedDivision : Prop :=
  ∀ (s : State) (reg1 reg2 reg3 : Reg),
    let a := s.reg reg2
    let b := s.reg reg1
    let h := ((s.reg reg1).setWidth 16).setWidth 32
    (b ≠ 0#32 → DividesUnsigned s (.divu reg1 reg2 reg3) a b (quotRem reg2 reg3))
      ∧ (h ≠ 0#32 → DividesUnsigned s (.divhu reg1 reg2 reg3) a h (quotRem reg2 reg3))

/-- A division by zero completes: OV is 1, CY and SAT stay, the quotient, the remainder, S and Z are
some values (46_divide.md R311; log entry 9). -/
def Obligations.DivisionByZero : Prop :=
  ∀ (s : State) (reg1 reg2 reg3 : Reg),
    let h := (s.reg reg1).setWidth 16
    (s.reg reg1 = 0#32 → DividesByZero s (.div reg1 reg2 reg3) (quotRem reg2 reg3))
      ∧ (s.reg reg1 = 0#32 → DividesByZero s (.divu reg1 reg2 reg3) (quotRem reg2 reg3))
      ∧ (h = 0#16 → DividesByZero s (.divh3 reg1 reg2 reg3) (quotRem reg2 reg3))
      ∧ (h = 0#16 → DividesByZero s (.divhu reg1 reg2 reg3) (quotRem reg2 reg3))
      ∧ (h = 0#16 → DividesByZero s (.divhReg reg1 reg2) (fun q _ => [(reg2, q)]))

/-! ## Branches -/

/-- The branches complete at their target, with bits 31 to 29 and bit 0 dropped; JARL also saves the
address of the next instruction; no flag changes (47_branch.md R325 to R332). That the link is modulo
2^29 is decision D5, log entry 30. -/
def Obligations.BranchTarget : Prop :=
  ∀ s : State,
    let target := fun (v : Word) => v &&& 0x1FFFFFFE#32
    (∀ cond disp9, Completes s (.bcond cond disp9)
        (if condHolds s.psw cond = true then target (s.pc + disp9.signExtend 32)
          else target (s.pc + 2#32)) [] [])
      ∧ (∀ disp22 reg2, Completes s (.jarl22 disp22 reg2) (target (s.pc + disp22.signExtend 32))
          [(reg2, target (s.pc + 4#32))] [])
      ∧ (∀ disp32 reg1, Completes s (.jarl32 disp32 reg1) (target (s.pc + disp32))
          [(reg1, target (s.pc + 6#32))] [])
      ∧ (∀ reg1, Completes s (.jmpReg reg1) (target (s.reg reg1)) [] [])
      ∧ (∀ disp32 reg1, Completes s (.jmpDisp32 disp32 reg1) (target (s.reg reg1 + disp32)) [] [])
      ∧ (∀ disp22, Completes s (.jr22 disp22) (target (s.pc + disp22.signExtend 32)) [] [])
      ∧ (∀ disp32, Completes s (.jr32 disp32) (target (s.pc + disp32)) [] [])

/-! ## Loads, stores, bit manipulation -/

/-- The ten loads complete, where no misaligned access exception is due and the address is in the map,
with the little endian value at the aligned address, extended (40_load_store.md R170, R173, R175 to
R184; 20_memory.md R87, R90). -/
def Obligations.LoadResult : Prop :=
  ∀ (s : State) (reg1 reg2 : Reg),
    (∀ disp, Readable s (s.dispAddr reg1 disp) .byte →
        Loads s (.ldb disp reg1 reg2) reg2 (s.dispAddr reg1 disp) 1 true
          ∧ Loads s (.ldbu disp reg1 reg2) reg2 (s.dispAddr reg1 disp) 1 false)
      ∧ (∀ disp, s.misalignDetected (s.dispAddr reg1 disp) .half = false →
          Readable s (aligned s .half (s.dispAddr reg1 disp)) .half →
          Loads s (.ldh disp reg1 reg2) reg2 (aligned s .half (s.dispAddr reg1 disp)) 2 true
            ∧ Loads s (.ldhu disp reg1 reg2) reg2 (aligned s .half (s.dispAddr reg1 disp)) 2 false)
      ∧ (∀ disp, s.misalignDetected (s.dispAddr reg1 disp) .word = false →
          Readable s (aligned s .word (s.dispAddr reg1 disp)) .word →
          Loads s (.ldw disp reg1 reg2) reg2 (aligned s .word (s.dispAddr reg1 disp)) 4 false)
      ∧ (∀ disp, Readable s (s.epAddr disp) .byte →
          Loads s (.sldb disp reg2) reg2 (s.epAddr disp) 1 true)
      ∧ (∀ disp, Readable s (s.epAddr disp) .byte →
          Loads s (.sldbu disp reg2) reg2 (s.epAddr disp) 1 false)
      ∧ (∀ disp, s.misalignDetected (s.epAddr disp) .half = false →
          Readable s (aligned s .half (s.epAddr disp)) .half →
          Loads s (.sldh disp reg2) reg2 (aligned s .half (s.epAddr disp)) 2 true)
      ∧ (∀ disp, s.misalignDetected (s.epAddr disp) .half = false →
          Readable s (aligned s .half (s.epAddr disp)) .half →
          Loads s (.sldhu disp reg2) reg2 (aligned s .half (s.epAddr disp)) 2 false)
      ∧ (∀ disp, s.misalignDetected (s.epAddr disp) .word = false →
          Readable s (aligned s .word (s.epAddr disp)) .word →
          Loads s (.sldw disp reg2) reg2 (aligned s .word (s.epAddr disp)) 4 false)

/-- The six stores complete, where no misaligned access exception is due and the address can be
written, with the low bytes of reg2 at the aligned address and nothing else changed (40_load_store.md
R170, R185 to R190; 20_memory.md R87, R90, R95). That a write with a device byte is one record of the
whole access is the model's choice, log entry 50. -/
def Obligations.StoreResult : Prop :=
  ∀ (s : State) (reg1 reg2 : Reg),
    (∀ disp, Writable s (s.dispAddr reg1 disp) .byte →
        Stores s (.stb reg2 disp reg1) (s.dispAddr reg1 disp) .byte (s.reg reg2) [])
      ∧ (∀ disp, s.misalignDetected (s.dispAddr reg1 disp) .half = false →
          Writable s (aligned s .half (s.dispAddr reg1 disp)) .half →
          Stores s (.sth reg2 disp reg1) (aligned s .half (s.dispAddr reg1 disp)) .half
            (s.reg reg2) [])
      ∧ (∀ disp, s.misalignDetected (s.dispAddr reg1 disp) .word = false →
          Writable s (aligned s .word (s.dispAddr reg1 disp)) .word →
          Stores s (.stw reg2 disp reg1) (aligned s .word (s.dispAddr reg1 disp)) .word
            (s.reg reg2) [])
      ∧ (∀ disp, Writable s (s.epAddr disp) .byte →
          Stores s (.sstb reg2 disp) (s.epAddr disp) .byte (s.reg reg2) [])
      ∧ (∀ disp, s.misalignDetected (s.epAddr disp) .half = false →
          Writable s (aligned s .half (s.epAddr disp)) .half →
          Stores s (.ssth reg2 disp) (aligned s .half (s.epAddr disp)) .half (s.reg reg2) [])
      ∧ (∀ disp, s.misalignDetected (s.epAddr disp) .word = false →
          Writable s (aligned s .word (s.epAddr disp)) .word →
          Stores s (.sstw reg2 disp) (aligned s .word (s.epAddr disp)) .word (s.reg reg2) [])

/-- The misaligned access exception and the alignment error exception: in user mode with the enable set,
the instruction only enters debug mode, DBPC its own address, and the machine is not halted
(60_exceptions.md R428, R463; that the instruction does nothing else is decision D30, log entry 40, that
ECR stays is D13, log entry 38). -/
def Obligations.AlignmentBreaks : Prop :=
  ∀ s : State, s.userMode = true →
    (s.dir.getLsbD Dir.mae = true → ∀ (i : Instr) (a : Word),
      ((∃ d r1 r2, i ∈ [Instr.ldh d r1 r2, .ldhu d r1 r2, .sth r2 d r1] ∧ a = s.dispAddr r1 d)
          ∨ (∃ d r2, i ∈ [Instr.sldh d r2, .ssth r2 d] ∧ a = s.epAddr d)
          ∨ (∃ d r2, i = .sldhu d r2 ∧ a = s.epAddr d)) ∧ a.getLsbD 0 = true
        ∨ ((∃ d r1 r2, i ∈ [Instr.ldw d r1 r2, .stw r2 d r1] ∧ a = s.dispAddr r1 d)
          ∨ (∃ d r2, i ∈ [Instr.sldw d r2, .sstw r2 d] ∧ a = s.epAddr d)) ∧ a.toNat % 4 ≠ 0 →
      ∃ t, exec i s = .next t ∧ t.halted = false
        ∧ DebugEntered s t (s.pc &&& 0x1FFFFFFF#32) [Dir.mt])
    ∧ (s.dir.getLsbD Dir.aee = true → (s.reg Reg.sp).toNat % 4 ≠ 0 → ∀ (i : Instr) l n r v w,
      i ∈ [Instr.prepare l n, .prepareSp l n, .prepareImm16 l n v, .prepareImm16Hi l n v,
          .prepareImm32 l n w, .dispose n l, .disposeJmp n l r] →
      ∃ t, exec i s = .next t ∧ t.halted = false
        ∧ DebugEntered s t (s.pc &&& 0x1FFFFFFF#32) [Dir.alignErr])

/-- SET1, CLR1, NOT1 and TST1 in both forms complete: Z is the complement of the old bit, the byte
written back has that bit set, cleared or inverted and its other bits as read; TST1 writes nothing
(48_bit_manipulation.md R345 to R354). -/
def Obligations.BitManipulation : Prop :=
  ∀ s : State,
    let writes := fun (i : Instr) (a : Word) (n : Nat) (bit : Bool → Bool) =>
      Writable s a .byte → ∃ v : Word,
        (∀ k < 8, v.getLsbD k = if k = n then bit ((s.byteAt a).getLsbD n)
          else (s.byteAt a).getLsbD k)
        ∧ Stores s i a .byte v [(Psw.z, !(s.byteAt a).getLsbD n)]
    let tests := fun (i : Instr) (a : Word) (n : Nat) =>
      Readable s a .byte → Runs s i [] [(Psw.z, !(s.byteAt a).getLsbD n)]
    (∀ (bit3 : BitVec 3) disp reg1,
        writes (.set1Imm bit3 disp reg1) (s.dispAddr reg1 disp) bit3.toNat (fun _ => true)
          ∧ writes (.clr1Imm bit3 disp reg1) (s.dispAddr reg1 disp) bit3.toNat (fun _ => false)
          ∧ writes (.not1Imm bit3 disp reg1) (s.dispAddr reg1 disp) bit3.toNat (fun b => !b)
          ∧ tests (.tst1Imm bit3 disp reg1) (s.dispAddr reg1 disp) bit3.toNat)
      ∧ (∀ reg2 reg1,
        writes (.set1Reg reg2 reg1) (s.reg reg1) ((s.reg reg2).toNat % 8) (fun _ => true)
          ∧ writes (.clr1Reg reg2 reg1) (s.reg reg1) ((s.reg reg2).toNat % 8) (fun _ => false)
          ∧ writes (.not1Reg reg2 reg1) (s.reg reg1) ((s.reg reg2).toNat % 8) (fun b => !b)
          ∧ tests (.tst1Reg reg2 reg1) (s.reg reg1) ((s.reg reg2).toNat % 8))

/-! ## Stack frames -/

/-- PREPARE in its five forms completes, where no alignment error is due and every slot can be written:
the registers of the list stand below the old sp in ascending order, sp has gone down by 4 for each
and by 4 times imm5, ep holds what the form says (49_special_debug.md R375, R376; 20_memory.md R91).
That each slot with a device byte is one record of a word is the model's choice, log entry 50. -/
def Obligations.PrepareResult : Prop :=
  ∀ (s : State) (list12 : List12) (imm5 : BitVec 5), s.alignErrorDetected = false →
    (∀ k < (listRegs list12).length, Writable s (saveSlot s k) .word) →
    let sp := s.reg Reg.sp - BitVec.ofNat 32 (4 * (listRegs list12).length + 4 * imm5.toNat)
    Prepares s (.prepare list12 imm5) list12 [] sp
      ∧ Prepares s (.prepareSp list12 imm5) list12 [(Reg.ep, sp)] sp
      ∧ (∀ imm16, Prepares s (.prepareImm16 list12 imm5 imm16) list12
          [(Reg.ep, imm16.signExtend 32)] sp)
      ∧ (∀ imm16, Prepares s (.prepareImm16Hi list12 imm5 imm16) list12
          [(Reg.ep, imm16 ++ 0#16)] sp)
      ∧ (∀ imm32, Prepares s (.prepareImm32 list12 imm5 imm32) list12 [(Reg.ep, imm32)] sp)

/-- DISPOSE in both forms completes, where no alignment error is due and every slot can be read: the
registers of the list hold the words above sp, r31 first, sp has gone up past them, and form (2)
jumps to reg1 as the loads left it (49_special_debug.md R379, R380; 20_memory.md R91). -/
def Obligations.DisposeResult : Prop :=
  ∀ (s : State) (imm5 : BitVec 5) (list12 : List12), s.alignErrorDetected = false →
    (∀ k < (listRegs list12).length, Readable s (loadSlot s imm5 k) .word) →
    Runs s (.dispose imm5 list12) (loadedRegs s imm5 list12) []
      ∧ (∀ reg1, ∃ v : Word,
          (∀ p ∈ loadedRegs s imm5 list12, p.1 = reg1 → v = p.2)
          ∧ (reg1 ∉ (loadedRegs s imm5 list12).map Prod.fst → v = s.reg reg1)
          ∧ Completes s (.disposeJmp imm5 list12 reg1) (v &&& 0x1FFFFFFE#32)
              (loadedRegs s imm5 list12) [])

/-! ## Table jumps, returns, interrupt control -/

/-- CALLT and SWITCH complete where their table entry is in the map: CALLT saves the next address and
the PSW and goes to CTBP plus the unsigned entry, SWITCH goes to the table plus twice the signed entry
(49_special_debug.md R360, R369). The model's choices in it: CTPC modulo 2^29 (decision D5, log entry
30), the table of SWITCH at a 32-bit data address (log entry 45), both table reads under the alignment
step (derived in 20_memory.md R91 (b), log entry 54). -/
def Obligations.TableJumps : Prop :=
  ∀ s : State,
    let entry := fun (a : Word) => s.byteAt (aligned s .half a + 1#32) ++ s.byteAt (aligned s .half a)
    (∀ imm6 : BitVec 6,
        let a := s.ctbp + BitVec.ofNat 32 (2 * imm6.toNat)
        Readable s (aligned s .half a) .half →
        ∃ t, exec (.callt imm6) s = .next t
          ∧ t.ctpc = (s.pc + 2#32) &&& 0x1FFFFFFE#32
          ∧ t.ctpsw = s.psw &&& Psw.mask
          ∧ t.pc = (s.ctbp + (entry a).setWidth 32) &&& 0x1FFFFFFE#32
          ∧ t = { s with ctpc := t.ctpc, ctpsw := t.ctpsw, pc := t.pc })
      ∧ (∀ reg1,
        let a := s.pc + 2#32 + (s.reg reg1 + s.reg reg1)
        Readable s (aligned s .half a) .half →
        Completes s (.switch reg1)
          ((s.pc + 2#32 + ((entry a).signExtend 32 + (entry a).signExtend 32)) &&& 0x1FFFFFFE#32)
          [] [])

/-- RETI, CTRET and DBRET complete: PC and PSW come from the pair the PSW or the instruction selects,
bit 0 and SS as R39 and R53 (d) say; DBRET also clears DIR.DM (49_special_debug.md R361, R368, R385;
60_exceptions.md R440 to R442). The model's choices in it: DBRET acts alike in user mode (decision D20,
log entry 47), bit 0 of DBPC is a storage bit that a return drops (D26, log entry 31), SS is gated by
SSE on a return too (derived in 10_state.md R53, log entry 55). -/
def Obligations.ReturnResult : Prop :=
  ∀ s : State,
    (s.psw.getLsbD Psw.ep = true → ReturnsTo s .reti s.eipc s.eipsw)
      ∧ (s.psw.getLsbD Psw.ep = false → s.psw.getLsbD Psw.np = true →
          ReturnsTo s .reti s.fepc s.fepsw)
      ∧ (s.psw.getLsbD Psw.ep = false → s.psw.getLsbD Psw.np = false →
          ReturnsTo s .reti s.eipc s.eipsw)
      ∧ ReturnsTo s .ctret s.ctpc s.ctpsw
      ∧ (∃ t, exec .dbret s = .next t ∧ t.pc = s.dbpc &&& 0x1FFFFFFE#32
          ∧ PswLoaded s.dir s.dbpsw t.psw ∧ t.userMode = true
          ∧ (∀ k, k ≠ Dir.dm → t.dir.getLsbD k = s.dir.getLsbD k)
          ∧ t = { s with pc := t.pc, psw := t.psw, dir := t.dir })

/-- NOP changes only the PC, DI and EI only PSW.ID, HALT only enters HALT mode (49_special_debug.md
R362 to R364, R367). -/
def Obligations.InterruptControl : Prop :=
  ∀ s : State,
    Runs s .nop [] []
      ∧ Runs s .di [] [(Psw.id, true)]
      ∧ Runs s .ei [] [(Psw.id, false)]
      ∧ (∃ t, exec .halt s = .next t ∧ t.halted = true ∧ t.pc = (s.pc + 4#32) &&& 0x1FFFFFFE#32
          ∧ t = { s with halted := t.halted, pc := t.pc })

/-! ## System registers -/

/-- The channel that regID 22 and 24 to 27 reach, by CSL, CS1 and CS0 (10_state.md R52). -/
def Obligations.ChannelSelection : Prop :=
  ∀ dir : Word,
    (dir.getLsbD 22 = false → dir.getLsbD 12 = false → channelOf dir = 0)
      ∧ (dir.getLsbD 22 = false → dir.getLsbD 12 = true → channelOf dir = 1)
      ∧ (dir.getLsbD 22 = true → dir.getLsbD 28 = false → channelOf dir = 2)
      ∧ (dir.getLsbD 22 = true → dir.getLsbD 28 = true → channelOf dir = 3)

/-- LDSR to every register but DIR completes with the value its rule keeps, and nothing else changes
(49_special_debug.md R365). The model's choices in it: the debug and breakpoint registers are written in
user mode as in debug mode (decision D21, log entry 48), bit 0 of a saved PC is held (D26, log entry
31), a write to BPCn is in force at once (log entry 44). -/
def Obligations.LdsrResult : Prop :=
  ∀ (s : State) (reg2 : Reg),
    let v := s.reg reg2
    let u : State := { s with pc := (s.pc + 4#32) &&& 0x1FFFFFFE#32 }
    let n := channelOf s.dir
    let ch := s.channels[n.val]
    let put := fun (ch' : BreakChannel) => { u with channels := s.channels.set n.val ch' }
    exec (.ldsr reg2 0#5) s = .next { u with eipc := v &&& 0x1FFFFFFF#32 }
      ∧ exec (.ldsr reg2 1#5) s = .next { u with eipsw := v &&& 0x00000CFF#32 }
      ∧ exec (.ldsr reg2 2#5) s = .next { u with fepc := v &&& 0x1FFFFFFF#32 }
      ∧ exec (.ldsr reg2 3#5) s = .next { u with fepsw := v &&& 0x00000CFF#32 }
      ∧ (∃ w, PswLoaded s.dir v w ∧ exec (.ldsr reg2 5#5) s = .next { u with psw := w })
      ∧ exec (.ldsr reg2 16#5) s = .next { u with ctpc := v &&& 0x1FFFFFFF#32 }
      ∧ exec (.ldsr reg2 17#5) s = .next { u with ctpsw := v &&& 0x00000CFF#32 }
      ∧ exec (.ldsr reg2 18#5) s = .next { u with dbpc := v &&& 0x1FFFFFFF#32 }
      ∧ exec (.ldsr reg2 19#5) s = .next { u with dbpsw := v &&& 0x00000CFF#32 }
      ∧ exec (.ldsr reg2 20#5) s = .next { u with ctbp := v &&& 0x1FFFFFFE#32 }
      ∧ (v &&& 0xF8007060#32 = 0#32 → ∃ w,
          (∀ k, w.getLsbD k = (v.getLsbD k && (!(24 ≤ k && k ≤ 26) || ch.bpc.getLsbD k)))
            ∧ exec (.ldsr reg2 22#5) s = .next (put { ch with bpc := w }))
      ∧ exec (.ldsr reg2 23#5) s = .next { u with asid := v &&& 0x000000FF#32 }
      ∧ exec (.ldsr reg2 24#5) s = .next (put { ch with bpav := v &&& 0x1FFFFFFF#32 })
      ∧ exec (.ldsr reg2 25#5) s = .next (put { ch with bpam := v &&& 0x1FFFFFFF#32 })
      ∧ exec (.ldsr reg2 26#5) s = .next (put { ch with bpdv := v })
      ∧ exec (.ldsr reg2 27#5) s = .next (put { ch with bpdm := v })

/-- LDSR to DIR completes: in user mode only CSL takes its bit; in debug mode each bit follows its rule,
SS is lost with SSE, and sequential progress with SQ (49_special_debug.md R365; 10_state.md R50, R53;
that the gate is the old INI is derived, log entry 43). The loss of SS with SSE is marked derived in R365
(log entry 55), the loss of sequential progress with SQ is decision D24 of 60_exceptions.md R462 (log
entry 56). -/
def Obligations.LdsrDir : Prop :=
  ∀ (s : State) (reg2 : Reg),
    let v := s.reg reg2
    ∃ t, exec (.ldsr reg2 21#5) s = .next t
      ∧ t.pc = (s.pc + 4#32) &&& 0x1FFFFFFE#32
      ∧ t = { s with dir := t.dir, psw := t.psw, seq0 := t.seq0, seq1 := t.seq1, pc := t.pc }
      ∧ (s.userMode = true →
          t.dir.getLsbD 22 = v.getLsbD 22
            ∧ (∀ k, k ≠ 22 → t.dir.getLsbD k = s.dir.getLsbD k)
            ∧ t.psw = s.psw ∧ t.seq0 = s.seq0 ∧ t.seq1 = s.seq1)
      ∧ (s.userMode = false →
          (∀ k ∈ [6, 7, 8, 9, 10, 22], t.dir.getLsbD k = v.getLsbD k)
            ∧ (∀ k ∈ [12, 13, 14, 28, 29, 30], t.dir.getLsbD k
                = (!v.getLsbD 6 && if s.dir.getLsbD 6 = true then s.dir.getLsbD k else v.getLsbD k))
            ∧ (∀ k ∈ [4, 5, 20, 21],
                t.dir.getLsbD k = (!v.getLsbD 6 && s.dir.getLsbD k && v.getLsbD k))
            ∧ (∀ k ∈ [1, 2, 16], t.dir.getLsbD k = (s.dir.getLsbD k && v.getLsbD k))
            ∧ (∀ k ∈ [0, 3, 11, 15, 17, 18, 19, 23, 24, 25, 26, 27, 31],
                t.dir.getLsbD k = s.dir.getLsbD k)
            ∧ (∀ k, k ≠ 11 → t.psw.getLsbD k = s.psw.getLsbD k)
            ∧ t.psw.getLsbD 11 = (s.psw.getLsbD 11 && v.getLsbD 8)
            ∧ t.seq0 = (s.seq0 && t.dir.getLsbD 14) ∧ t.seq1 = (s.seq1 && t.dir.getLsbD 30))

/-- STSR completes for every readable register with its value; of DIR only the bits defined in the
current mode are stated (49_special_debug.md R366; 10_state.md R50; log entry 11). That the debug
registers are read in user mode too is decision D21, log entry 48; that bit 0 of a saved PC reads back is
D26, log entry 31. -/
def Obligations.StsrResult : Prop :=
  ∀ (s : State) (reg2 : Reg),
    let ch := s.channels[(channelOf s.dir).val]
    (∀ p ∈ [(0#5, s.eipc), (1#5, s.eipsw), (2#5, s.fepc), (3#5, s.fepsw), (4#5, s.ecr),
        (5#5, s.psw), (16#5, s.ctpc), (17#5, s.ctpsw), (18#5, s.dbpc), (19#5, s.dbpsw),
        (20#5, s.ctbp), (22#5, ch.bpc), (23#5, s.asid), (24#5, ch.bpav), (25#5, ch.bpam),
        (26#5, ch.bpdv), (27#5, ch.bpdm)],
        Runs s (.stsr p.1 reg2) [(reg2, p.2)] [])
      ∧ (∃ v : Word,
          (∀ k, (if s.userMode = true then k ∈ [0, 3, 22]
              else k ∉ [15, 17, 18, 19, 23, 24, 25, 26, 27, 31]) →
            v.getLsbD k = s.dir.getLsbD k)
          ∧ Runs s (.stsr 21#5 reg2) [(reg2, v)] [])

/-- The uses the manual prohibits stop with a model fault: reserved register numbers, LDSR to ECR, a
must-be-zero bit of BPCn, the register combination of MUL and MULU, and the next instruction while a
channel that takes part has BE, FE and one of RE and WE set, whatever its pair mode (10_state.md R34;
49_special_debug.md R365, R366; 41_multiply_mac.md R201, R203; 60_exceptions.md R460). The faults are
the model's, not the manual's: decision D7 for the system registers (log entry 22), D18 for MUL and MULU
(log entry 23), log entry 24 for the breakpoint setting. -/
def Obligations.ProhibitedUses : Prop :=
  ∀ s : State,
    (∀ (reg2 : Reg) (regID : BitVec 5),
        (6 ≤ regID.toNat ∧ regID.toNat ≤ 15) ∨ 28 ≤ regID.toNat →
        exec (.ldsr reg2 regID) s = .fault .prohibitedSysreg
          ∧ exec (.stsr regID reg2) s = .fault .prohibitedSysreg)
      ∧ (∀ reg2, exec (.ldsr reg2 4#5) s = .fault .prohibitedSysreg)
      ∧ (∀ reg2, s.reg reg2 &&& 0xF8007060#32 ≠ 0#32 →
          exec (.ldsr reg2 22#5) s = .fault .prohibitedSysreg)
      ∧ (∀ reg1 reg2 : Reg, reg1 ≠ reg2 → reg1 ≠ 0#5 →
          exec (.mul reg1 reg2 reg1) s = .fault .prohibitedOperands
            ∧ exec (.mulu reg1 reg2 reg1) s = .fault .prohibitedOperands)
      ∧ (∀ (code : List Half) (n : Fin 4), Ready s → s.fetch = .ok code → TakesPart s n →
          s.channels[n.val].bpc.getLsbD Bpc.be = true → s.channels[n.val].bpc.getLsbD Bpc.fe = true →
          s.channels[n.val].bpc.getLsbD Bpc.re = true ∨ s.channels[n.val].bpc.getLsbD Bpc.we = true →
          step s = .fault .prohibitedBreakSetting)

/-! ## Exceptions -/

/-- TRAP completes with its entry sequence: return PC and PSW in EIPC and EIPSW, 0040H plus the vector
in EICC, EP and ID set, PC at the handler of its half (49_special_debug.md R370; 60_exceptions.md
R424). That EIPC is modulo 2^29 is decision D5, log entry 30. -/
def Obligations.TrapEntry : Prop :=
  ∀ (s : State) (vector : BitVec 5),
    ∃ t, exec (.trap vector) s = .next t
      ∧ t.eipc = (s.pc + 4#32) &&& 0x1FFFFFFE#32
      ∧ t.eipsw = s.psw &&& Psw.mask
      ∧ (t.ecr.setWidth 16).toNat = 0x40 + vector.toNat
      ∧ t.ecr.extractLsb' 16 16 = s.ecr.extractLsb' 16 16
      ∧ (∀ k, t.psw.getLsbD k = (k == Psw.ep || k == Psw.id || s.psw.getLsbD k))
      ∧ t.pc = (if vector.toNat ≤ 0x0F then 0x00000040#32 else 0x00000050#32)
      ∧ t = { s with eipc := t.eipc, eipsw := t.eipsw, ecr := t.ecr, psw := t.psw, pc := t.pc }

/-- DBTRAP completes with the entry to debug mode, DBPC the next address; STT is set while DIR.EXT = 1
(49_special_debug.md R386; 60_exceptions.md R427). The model's choices in it: DBPC modulo 2^29 (decision
D5, log entry 30), ECR unchanged (D13, log entry 38), STT only with EXT (D29, log entry 39), the same
entry in both modes (D20, log entry 47). -/
def Obligations.DebugTrapEntry : Prop :=
  ∀ s : State, ∃ t, exec .dbtrap s = .next t ∧ t.halted = s.halted
    ∧ DebugEntered s t ((s.pc + 2#32) &&& 0x1FFFFFFE#32)
        (if s.dir.getLsbD Dir.ext = true then [Dir.stt] else [])

/-- A step on the illegal code takes the exception trap with DBPC four bytes on; a step on an undefined
code is the fault of that name (30_encoding.md R145, R146; 60_exceptions.md R426). The model's choices
in it: that fault (decision D6, log entry 21), the trap in both modes (D20, log entry 47), ECR unchanged
(D13, log entry 38), DBPC modulo 2^29 (D5, log entry 30). -/
def Obligations.CodesWithoutInstruction : Prop :=
  ∀ (s : State) (code : List Half), Ready s → Fetched s code →
    (decode code = .error .illegalCode →
        ∃ t, step s = .next t ∧ t.halted = false
          ∧ DebugEntered
              { afterFetch s code with
                tick := s.tick + 1, choice := t.choice, afterReset := false, stepDue := false }
              t ((s.pc + 4#32) &&& 0x1FFFFFFE#32) [])
      ∧ (decode code = .error .undefinedCode → step s = .fault .undefinedInstruction)

/-- A step that accepts the maskable interrupt takes the entry sequence of R420 and changes nothing
else. -/
def Obligations.InterruptEntry : Prop :=
  ∀ (s : State) (code : BitVec 16), s.stepDue = false → s.chosen = some (.int code) →
    ∃ t, step s = .next t
      ∧ t.eipc = s.pc &&& 0x1FFFFFFF#32
      ∧ t.eipsw = s.psw &&& Psw.mask
      ∧ t.ecr = s.ecr.extractLsb' 16 16 ++ code
      ∧ t.psw.getLsbD Psw.id = true ∧ t.psw.getLsbD Psw.ep = false
      ∧ t.psw.getLsbD Psw.ss = (s.psw.getLsbD Psw.sb && s.dir.getLsbD Dir.sse)
      ∧ (∀ k, k ∉ [Psw.id, Psw.ep, Psw.ss] → t.psw.getLsbD k = s.psw.getLsbD k)
      ∧ t.pc = code.setWidth 32 &&& 0x1FFFFFFE#32
      ∧ t.halted = false ∧ t.intReq = none
      ∧ t = { s with
          eipc := t.eipc, eipsw := t.eipsw, ecr := t.ecr, psw := t.psw, pc := t.pc
          halted := t.halted, intReq := t.intReq, tick := s.tick + 1, choice := t.choice }

/-- A step that accepts an NMI takes the entry sequence of R422 and changes nothing else. -/
def Obligations.NmiEntry : Prop :=
  ∀ (s : State) (line : NmiLine), s.stepDue = false → s.chosen = some (.nmi line) →
    let code : BitVec 16 := match line with
      | .nmi0 => 0x0010#16
      | .nmi1 => 0x0020#16
      | .nmi2 => 0x0030#16
    ∃ t, step s = .next t
      ∧ t.fepc = s.pc &&& 0x1FFFFFFF#32
      ∧ t.fepsw = s.psw &&& Psw.mask
      ∧ t.ecr = code ++ s.ecr.extractLsb' 0 16
      ∧ t.psw.getLsbD Psw.np = true ∧ t.psw.getLsbD Psw.id = true ∧ t.psw.getLsbD Psw.ep = false
      ∧ t.psw.getLsbD Psw.ss = (s.psw.getLsbD Psw.sb && s.dir.getLsbD Dir.sse)
      ∧ (∀ k, k ∉ [Psw.np, Psw.id, Psw.ep, Psw.ss] → t.psw.getLsbD k = s.psw.getLsbD k)
      ∧ t.pc = code.setWidth 32
      ∧ t.halted = false
      ∧ t.nmi0 = (s.nmi0 && line != .nmi0) ∧ t.nmi1 = (s.nmi1 && line != .nmi1)
      ∧ t.nmi2 = (s.nmi2 && line != .nmi2)
      ∧ t = { s with
          fepc := t.fepc, fepsw := t.fepsw, ecr := t.ecr, psw := t.psw, pc := t.pc
          halted := t.halted, nmi0 := t.nmi0, nmi1 := t.nmi1, nmi2 := t.nmi2, tick := s.tick + 1
          choice := t.choice }

/-- What a boundary may accept: the maskable request only while NP = 0 and ID = 0, NMI0 and NMI1 only
while NP = 0, NMI2 always, nothing before the first instruction after reset; and what is chosen is
one of these (60_exceptions.md R411 to R413, 70_reset_and_hazards.md R472). The model's choices in it:
nothing is acceptable before the first instruction after reset (decision D31, log entry 18), which
request is taken is free (D10, log entry 17). -/
def Obligations.AcceptableRequests : Prop :=
  ∀ s : State,
    (∀ r, s.chosen = some r → r ∈ s.acceptable)
      ∧ (∀ code, Request.int code ∈ s.acceptable ↔ s.afterReset = false ∧ s.intReq = some code
          ∧ s.psw.getLsbD Psw.np = false ∧ s.psw.getLsbD Psw.id = false)
      ∧ (Request.nmi .nmi0 ∈ s.acceptable ↔
          s.afterReset = false ∧ s.nmi0 = true ∧ s.psw.getLsbD Psw.np = false)
      ∧ (Request.nmi .nmi1 ∈ s.acceptable ↔
          s.afterReset = false ∧ s.nmi1 = true ∧ s.psw.getLsbD Psw.np = false)
      ∧ (Request.nmi .nmi2 ∈ s.acceptable ↔ s.afterReset = false ∧ s.nmi2 = true)

/-- A halted machine that accepts nothing executes nothing: only the HALT bit can change, and only where
HALT_WAKE_IGNORES_ID holds and a request that PSW blocks is there (60_exceptions.md R450). The model's
choices in it: one step for each boundary while halted (log entry 20), the wake rule and its step of its
own (decision D14, log entry 15). -/
def Obligations.HaltWaits : Prop :=
  ∀ s : State, s.stepDue = false → s.chosen = none → s.halted = true →
    ∃ t, step s = .next t
      ∧ (t.halted = false ↔ s.platform.haltWakeIgnoresId = true
          ∧ (s.intReq ≠ none ∧ (s.psw.getLsbD Psw.id = true ∨ s.psw.getLsbD Psw.np = true)
            ∨ (s.nmi0 = true ∨ s.nmi1 = true) ∧ s.psw.getLsbD Psw.np = true))
      ∧ t = { s with halted := t.halted, tick := s.tick + 1, choice := t.choice }

/-- Single-step: a break that is due is taken first, with DBPC the PC; a step that runs an instruction
leaves one due exactly if SS was 1 and the machine was and is in user mode (60_exceptions.md R429). The
whole scheme of when the break comes due and is taken is decision D12, log entry 19; that the break
leaves ECR is D13, log entry 38. -/
def Obligations.SingleStep : Prop :=
  (∀ s : State, s.stepDue = true →
      ∃ t, step s = .next t ∧ t.halted = false
        ∧ DebugEntered { s with stepDue := false, tick := s.tick + 1, choice := t.choice } t
          (s.pc &&& 0x1FFFFFFF#32) [])
    ∧ (∀ s t : State, Ready s → step s = .next t →
        (t.stepDue = true ↔
          s.psw.getLsbD Psw.ss = true ∧ s.userMode = true ∧ t.userMode = true))

/-- A breakpoint of any channel on a designated execution address (Table 9-1: FE, MD and BE set, nothing
masked), outside the sequential and range modes, breaks before the instruction at that address runs, and
its BT is set unless INI is; channels 2 and 3 need DIR.EXT (60_exceptions.md R460, R461, R464; decision
D29, log entry 39; that it precedes the illegal and undefined codes is the derived order of R415, log
entry 59). -/
def Obligations.ExecutionBreak : Prop :=
  ∀ (s : State) (code : List Half) (n : Fin 4), Ready s → s.fetch = .ok code →
    s.prohibitedSetting = false → TakesPart s n →
    s.dir.getLsbD (sqBit n) = false → s.dir.getLsbD (reBit n) = false →
    s.channels[n.val].bpc &&& 0x0000818F#32 = 0x0000008C#32 →
    s.channels[n.val].bpam = 0#32 → s.channels[n.val].bpav = s.pc →
    ∃ t, step s = .next t
      ∧ t.dbpc = s.pc &&& 0x1FFFFFFF#32 ∧ t.dbpsw = s.psw &&& Psw.mask
      ∧ t.pc = 0x00000060#32 ∧ t.userMode = false ∧ t.halted = false
      ∧ (s.dir.getLsbD Dir.ini = false → t.dir.getLsbD (btBit n) = true)
      ∧ (∀ r, t.reg r = s.reg r) ∧ (∀ a, Memory.read t.mem a = Memory.read s.mem a)

/-- A data access that a channel with BE set answers to, outside the sequential and range modes, breaks
after its instruction: the instruction's effect is complete, DBPC is the PC it left, BT of the channel is
set unless INI is; channels 2 and 3 need DIR.EXT (60_exceptions.md R460, R464). The moment of the break
is decision D24, log entry 27, the EXT gate decision D29, log entry 39. That no single-step break is due
then is decision D12 of R429 and R430 (log entry 19) and the order that R415 marks as derived (log entry
59). -/
def Obligations.AccessBreak : Prop :=
  ∀ (s t : State) (i : Instr) (e : BusEvent) (n : Fin 4), exec i s = .next t → e ∈ s.accesses i →
    TakesPart t n → t.dir.getLsbD (sqBit n) = false → t.dir.getLsbD (reBit n) = false →
    t.channels[n.val].bpc.getLsbD Bpc.be = true → EventOf t e n →
    ∃ u, s.runDecoded i = .next u
      ∧ u.dbpc = t.pc &&& 0x1FFFFFFF#32 ∧ u.dbpsw = t.psw &&& Psw.mask
      ∧ u.pc = 0x00000060#32 ∧ u.userMode = false ∧ u.halted = false ∧ u.stepDue = false
      ∧ (t.dir.getLsbD Dir.ini = false → u.dir.getLsbD (btBit n) = true)
      ∧ (∀ r, u.reg r = t.reg r) ∧ (∀ a, Memory.read u.mem a = Memory.read t.mem a)

/-- Which channels break, in all modes. Over the events of one instruction, in their order: one more event
makes exactly the channels of BreaksOn break and leaves the progress of ProgressLeft. A step whose fetch
hits breaks before the instruction, with a listed FB in the channels that broke; an instruction whose
accesses hit breaks after it; without a hit neither breaks (60_exceptions.md R460, R462, R464). The
model's choices in it: the moment of an access break and when progress is cleared are decision D24 (log
entries 27 and 56), the EXT gate is D29 (log entry 39), BE in the pair modes log entry 25, an event of the second
channel with BE = 0 log entry 51, one event of both channels log entry 52, the progress with SQ and RE
both set log entry 57; no single-step break due after an access break is D12 of R429 and R430 (log entry
19) and the derived order of R415 (log entry 59), as is a fetch break before the code is looked at; that
an instruction, not a fetch break, ends the time after reset in which nothing is accepted is D31 (log
entry 18); that a break leaves ECR is D13 (log entry 38). -/
def Obligations.BreakModes : Prop :=
  (∀ (s : State) (n : Fin 4), hitOf (s.watch []) n = false
      ∧ progressOf (s.keepProgress (s.watch [])) n = progressOf s n)
    ∧ (∀ (s : State) (es : List BusEvent) (e : BusEvent),
      let before := s.keepProgress (s.watch es)
      let after := s.keepProgress (s.watch (es ++ [e]))
      (∀ n, hitOf (s.watch (es ++ [e])) n = true ↔ hitOf (s.watch es) n = true ∨ BreaksOn before e n)
        ∧ ProgressLeft before after e 1 ∧ ProgressLeft before after e 3)
    ∧ (∀ (s : State) (code : List Half), Ready s → s.fetch = .ok code → s.prohibitedSetting = false →
      let w := s.watch [s.fetchEvent code]
      ((∃ n, hitOf w n = true) → ∃ t, step s = .next t ∧ BrokeInto s t w
          ∧ t.stepDue = false ∧ t.afterReset = s.afterReset ∧ t.tick = s.tick + 1
          ∧ ∀ n : Fin 4,
            (hitOf w n = false → t.channels[n.val] = s.channels[n.val])
            ∧ (hitOf w n = true →
              t.channels[n.val].bpc.extractLsb' 24 3 ∈ [0b000#3, 0b010#3, 0b100#3, 0b001#3]
              ∧ (∀ k, ¬(24 ≤ k ∧ k ≤ 26) →
                  t.channels[n.val].bpc.getLsbD k = s.channels[n.val].bpc.getLsbD k)
              ∧ t.channels[n.val] = { s.channels[n.val] with bpc := t.channels[n.val].bpc }))
        ∧ ((∀ n, hitOf w n = false) → Fetched s code))
    ∧ (∀ (s t : State) (i : Instr), exec i s = .next t →
      let w := t.watch (s.accesses i)
      ∃ u, s.runDecoded i = .next u ∧ u.afterReset = false
        ∧ ((∃ n, hitOf w n = true) → BrokeInto t u w ∧ u.stepDue = false ∧ u.channels = t.channels
          ∧ u.tick = t.tick ∧ u.choice = t.choice)
        ∧ ((∀ n, hitOf w n = false) →
          u = { t with seq0 := w.seq0, seq1 := w.seq1, stepDue := u.stepDue, afterReset := false }))
end

