-- ==== Sys2Proof/Laws/Memory.lean ====
section
/-! SUPPORT. Memory: a read after a write, and that every operation keeps the canonical form
(20_memory.md R80, R87). -/

namespace Sys2Proof.Machine

theorem Memory.read_insert (m : List Host.Cell) (a : Nat) (b : Byte) (x : Nat) :
    Memory.read (Memory.insert a b m) x = if x = a then b else Memory.read m x := by
  induction m with
  | nil =>
    by_cases h : a = x
    · subst h; simp [Memory.insert, Memory.read]
    · have : ¬x = a := fun e => h e.symm
      simp [Memory.insert, Memory.read, h, this]
  | cons cell m ih =>
    obtain ⟨k, v⟩ := cell
    unfold Memory.insert
    by_cases hlt : k < a
    · simp only [hlt, if_true, Memory.read, ih]
      by_cases hx : x = a
      · have : k ≠ x := by omega
        simp [hx, show k ≠ a by omega]
      · by_cases hk : k = x <;> simp [hx, hk]
    · by_cases heq : k = a
      · subst heq
        simp only [lt_irrefl, if_false, if_true, Memory.read]
        by_cases hx : x = k
        · simp [hx]
        · simp [hx, show ¬k = x from fun e => hx e.symm]
      · simp only [hlt, heq, if_false, Memory.read]
        by_cases hx : x = a
        · simp [hx]
        · simp [hx, show ¬a = x from fun e => hx e.symm]

theorem Memory.read_filter (m : List Host.Cell) (a x : Nat) :
    Memory.read (m.filter (fun cell => cell.1 != a)) x
      = if x = a then Memory.unwritten else Memory.read m x := by
  induction m with
  | nil => simp [Memory.read]
  | cons cell m ih =>
    obtain ⟨k, v⟩ := cell
    by_cases hk : k = a
    · subst hk
      simp only [List.filter_cons, bne_self_eq_false, Bool.false_eq_true, if_false, ih, Memory.read]
      by_cases hx : x = k
      · simp [hx]
      · simp [hx, show ¬k = x from fun e => hx e.symm]
    · have : (k != a) = true := by simpa using hk
      simp only [List.filter_cons, this, if_true, Memory.read, ih]
      by_cases hx : x = a
      · simp [hx, hk]
      · by_cases hkx : k = x <;> simp [hx, hkx]

/-- A byte reads what was written to it, every other byte what it was. -/
theorem Memory.read_write (m : List Host.Cell) (a : Nat) (b : Byte) (x : Nat) :
    Memory.read (Memory.write m a b) x = if x = a then b else Memory.read m x := by
  unfold Memory.write
  by_cases hb : b = Memory.unwritten
  · simp only [hb, if_true, Memory.read_filter]
  · simp only [hb, if_false, Memory.read_insert m a b x]

theorem Memory.wfFrom_mono (m : List Host.Cell) (lo lo' : Nat) (h : lo' ≤ lo)
    (hm : Memory.wfFrom lo m = true) : Memory.wfFrom lo' m = true := by
  cases m with
  | nil => rfl
  | cons cell m =>
    obtain ⟨k, v⟩ := cell
    simp only [Memory.wfFrom, Bool.and_eq_true, decide_eq_true_eq] at hm ⊢
    exact ⟨⟨⟨by omega, hm.1.1.2⟩, hm.1.2⟩, hm.2⟩

theorem Memory.wfFrom_filter (m : List Host.Cell) (lo a : Nat) (hm : Memory.wfFrom lo m = true) :
    Memory.wfFrom lo (m.filter (fun cell => cell.1 != a)) = true := by
  induction m generalizing lo with
  | nil => rfl
  | cons cell m ih =>
    obtain ⟨k, v⟩ := cell
    simp only [Memory.wfFrom, Bool.and_eq_true, decide_eq_true_eq] at hm
    obtain ⟨⟨⟨h1, h2⟩, h3⟩, h4⟩ := hm
    by_cases hk : (k != a) = true
    · simp only [List.filter_cons, hk, if_true, Memory.wfFrom, Bool.and_eq_true, decide_eq_true_eq]
      exact ⟨⟨⟨h1, h2⟩, h3⟩, ih _ h4⟩
    · simp only [List.filter_cons, hk, Bool.false_eq_true, if_false]
      exact Memory.wfFrom_mono _ _ _ (by omega) (ih _ h4)

theorem Memory.wfFrom_insert (m : List Host.Cell) (lo a : Nat) (b : Byte)
    (hm : Memory.wfFrom lo m = true) (hlo : lo ≤ a) (ha : a < 2 ^ 32) (hb : b ≠ Memory.unwritten) :
    Memory.wfFrom lo (Memory.insert a b m) = true := by
  induction m generalizing lo with
  | nil => simp only [Memory.insert, Memory.wfFrom, hlo, ha, hb, decide_true, ne_eq,
      not_false_eq_true, Bool.and_self]
  | cons cell m ih =>
    obtain ⟨k, v⟩ := cell
    have hm' := hm
    simp only [Memory.wfFrom, Bool.and_eq_true, decide_eq_true_eq] at hm
    obtain ⟨⟨⟨h1, h2⟩, h3⟩, h4⟩ := hm
    unfold Memory.insert
    by_cases hlt : k < a
    · simp only [hlt, if_true, Memory.wfFrom, Bool.and_eq_true, decide_eq_true_eq]
      exact ⟨⟨⟨h1, h2⟩, h3⟩, ih _ h4 (by omega)⟩
    · by_cases heq : k = a
      · subst heq
        simp only [lt_irrefl, if_false, if_true, Memory.wfFrom, Bool.and_eq_true,
          decide_eq_true_eq]
        exact ⟨⟨⟨hlo, ha⟩, hb⟩, h4⟩
      · simp only [hlt, heq, if_false, Memory.wfFrom, Bool.and_eq_true, decide_eq_true_eq]
        exact ⟨⟨⟨hlo, ha⟩, hb⟩, ⟨⟨⟨by omega, h2⟩, h3⟩, h4⟩⟩

/-- A write keeps the canonical form. -/
theorem Memory.wf_write (m : List Host.Cell) (a : Nat) (b : Byte) (hm : Memory.wf m = true)
    (ha : a < 2 ^ 32) : Memory.wf (Memory.write m a b) = true := by
  unfold Memory.write Memory.wf at *
  by_cases hb : b = Memory.unwritten
  · simp only [hb, if_true]; exact Memory.wfFrom_filter _ _ _ hm
  · simp only [hb, if_false]; exact Memory.wfFrom_insert _ _ _ _ hm (by omega) ha hb

end Sys2Proof.Machine
end

