-- ==== Sys2Proof/Laws/Bits.lean ====
section
/-! SUPPORT. What the bit-field operations leave in each bit. -/

namespace Sys2Proof.Machine

theorem one_shiftLeft_getLsbD (i k : Nat) (hi : i < 32) :
    (1#32 <<< i).getLsbD k = decide (k = i) := by
  rw [BitVec.getLsbD_shiftLeft, BitVec.getLsbD_one]
  by_cases h : k = i
  · subst h; simp [hi]
  · by_cases h2 : k < i
    · simp [h2, h]
    · have : k - i ≠ 0 := by omega
      simp [h, this]

/-- `putBit` replaces one bit. -/
theorem putBit_getLsbD (w : Word) (i : Nat) (b : Bool) (k : Nat) (hi : i < 32) :
    (putBit w i b).getLsbD k = if k = i then b else w.getLsbD k := by
  unfold putBit
  by_cases h : k = i
  · subst h
    cases b <;> simp [hi]
  · cases b
    · simp only [Bool.false_eq_true, if_false, BitVec.getLsbD_and, BitVec.getLsbD_not,
        one_shiftLeft_getLsbD _ _ hi, h, decide_false, Bool.not_false, Bool.and_true]
      by_cases hk : k < 32
      · simp [hk]
      · simp [hk, BitVec.getLsbD_of_ge _ _ (by omega : 32 ≤ k)]
    · simp [one_shiftLeft_getLsbD _ _ hi, h]

/-- `mergeBits` takes a bit from `new` where the mask has a 1, from `old` elsewhere. -/
theorem mergeBits_getLsbD (mask old new : Word) (k : Nat) :
    (mergeBits mask old new).getLsbD k
      = if mask.getLsbD k = true then new.getLsbD k else old.getLsbD k := by
  unfold mergeBits
  by_cases hk : k < 32
  · simp only [BitVec.getLsbD_or, BitVec.getLsbD_and, BitVec.getLsbD_not, hk, decide_true,
      Bool.true_and]
    cases mask.getLsbD k <;> simp
  · simp [BitVec.getLsbD_of_ge _ _ (by omega : 32 ≤ k)]

/-- The four flags as `putFlags` leaves them. -/
theorem putFlags_getLsbD (w : Word) (cy ov sg z : Bool) (k : Nat) :
    (putFlags w cy ov sg z).getLsbD k =
      if k = Psw.z then z else if k = Psw.s then sg else if k = Psw.ov then ov
      else if k = Psw.cy then cy else w.getLsbD k := by
  simp only [putFlags, putBit_getLsbD _ _ _ _ (show Psw.z < 32 by decide),
    putBit_getLsbD _ _ _ _ (show Psw.s < 32 by decide),
    putBit_getLsbD _ _ _ _ (show Psw.ov < 32 by decide),
    putBit_getLsbD _ _ _ _ (show Psw.cy < 32 by decide)]

/-- The three flags as `putFlagsNoCy` leaves them. -/
theorem putFlagsNoCy_getLsbD (w : Word) (ov sg z : Bool) (k : Nat) :
    (putFlagsNoCy w ov sg z).getLsbD k =
      if k = Psw.z then z else if k = Psw.s then sg else if k = Psw.ov then ov
      else w.getLsbD k := by
  simp only [putFlagsNoCy, putBit_getLsbD _ _ _ _ (show Psw.z < 32 by decide),
    putBit_getLsbD _ _ _ _ (show Psw.s < 32 by decide),
    putBit_getLsbD _ _ _ _ (show Psw.ov < 32 by decide)]

/-- A whole write of PSW (10_state.md R28, R53 (d)). -/
theorem legalPsw_getLsbD (dir v : Word) (k : Nat) :
    (legalPsw dir v).getLsbD k
      = (v.getLsbD k && Psw.mask.getLsbD k && (k != Psw.ss || dir.getLsbD Dir.sse)) := by
  unfold legalPsw
  rw [putBit_getLsbD _ _ _ _ (by decide)]
  by_cases h : k = Psw.ss
  · subst h
    have : Psw.mask.getLsbD Psw.ss = true := by decide
    simp [this]
  · simp [h]

/-- Two words with the same bits are equal. -/
theorem word_ext {x y : Word} (h : ∀ k < 32, x.getLsbD k = y.getLsbD k) : x = y :=
  BitVec.eq_of_getLsbD_eq (fun i hi => h i hi)

/-- Reducing twice is reducing once. -/
@[simp] theorem reducePc_reducePc (v : Word) : reducePc (reducePc v) = reducePc v := by
  unfold reducePc; rw [BitVec.and_assoc, BitVec.and_self]

/-- A reduced PC fits a saved PC. -/
@[simp] theorem reducePc_saved (v : Word) : reducePc v &&& 0x1FFFFFFF#32 = reducePc v := by
  unfold reducePc; rw [BitVec.and_assoc]; rfl

end Sys2Proof.Machine
end

