-- ==== Sys2Proof/Laws/State.lean ====
section
/-! SUPPORT. What each named update of the state leaves in each field, so that no later proof unfolds a
record update. -/

namespace Sys2Proof.Machine

/-! ## setPc -/

@[simp] theorem State.setPc_gpr (s : State) (v : Word) : (s.setPc v).gpr = s.gpr := rfl
@[simp] theorem State.setPc_pc (s : State) (v : Word) :
    (s.setPc v).pc = reducePc v := rfl
@[simp] theorem State.setPc_psw (s : State) (v : Word) : (s.setPc v).psw = s.psw := rfl
@[simp] theorem State.setPc_eipc (s : State) (v : Word) : (s.setPc v).eipc = s.eipc := rfl
@[simp] theorem State.setPc_eipsw (s : State) (v : Word) : (s.setPc v).eipsw = s.eipsw := rfl
@[simp] theorem State.setPc_fepc (s : State) (v : Word) : (s.setPc v).fepc = s.fepc := rfl
@[simp] theorem State.setPc_fepsw (s : State) (v : Word) : (s.setPc v).fepsw = s.fepsw := rfl
@[simp] theorem State.setPc_ecr (s : State) (v : Word) : (s.setPc v).ecr = s.ecr := rfl
@[simp] theorem State.setPc_ctpc (s : State) (v : Word) : (s.setPc v).ctpc = s.ctpc := rfl
@[simp] theorem State.setPc_ctpsw (s : State) (v : Word) : (s.setPc v).ctpsw = s.ctpsw := rfl
@[simp] theorem State.setPc_dbpc (s : State) (v : Word) : (s.setPc v).dbpc = s.dbpc := rfl
@[simp] theorem State.setPc_dbpsw (s : State) (v : Word) : (s.setPc v).dbpsw = s.dbpsw := rfl
@[simp] theorem State.setPc_ctbp (s : State) (v : Word) : (s.setPc v).ctbp = s.ctbp := rfl
@[simp] theorem State.setPc_dir (s : State) (v : Word) : (s.setPc v).dir = s.dir := rfl
@[simp] theorem State.setPc_asid (s : State) (v : Word) : (s.setPc v).asid = s.asid := rfl
@[simp] theorem State.setPc_channels (s : State) (v : Word) :
    (s.setPc v).channels = s.channels := rfl
@[simp] theorem State.setPc_halted (s : State) (v : Word) : (s.setPc v).halted = s.halted := rfl
@[simp] theorem State.setPc_seq0 (s : State) (v : Word) : (s.setPc v).seq0 = s.seq0 := rfl
@[simp] theorem State.setPc_seq1 (s : State) (v : Word) : (s.setPc v).seq1 = s.seq1 := rfl
@[simp] theorem State.setPc_stepDue (s : State) (v : Word) : (s.setPc v).stepDue = s.stepDue := rfl
@[simp] theorem State.setPc_afterReset (s : State) (v : Word) :
    (s.setPc v).afterReset = s.afterReset := rfl
@[simp] theorem State.setPc_nmi0 (s : State) (v : Word) : (s.setPc v).nmi0 = s.nmi0 := rfl
@[simp] theorem State.setPc_nmi1 (s : State) (v : Word) : (s.setPc v).nmi1 = s.nmi1 := rfl
@[simp] theorem State.setPc_nmi2 (s : State) (v : Word) : (s.setPc v).nmi2 = s.nmi2 := rfl
@[simp] theorem State.setPc_intReq (s : State) (v : Word) : (s.setPc v).intReq = s.intReq := rfl
@[simp] theorem State.setPc_platform (s : State) (v : Word) :
    (s.setPc v).platform = s.platform := rfl
@[simp] theorem State.setPc_mem (s : State) (v : Word) : (s.setPc v).mem = s.mem := rfl
@[simp] theorem State.setPc_deviceOut (s : State) (v : Word) :
    (s.setPc v).deviceOut = s.deviceOut := rfl
@[simp] theorem State.setPc_tick (s : State) (v : Word) : (s.setPc v).tick = s.tick := rfl
@[simp] theorem State.setPc_choice (s : State) (v : Word) : (s.setPc v).choice = s.choice := rfl
@[simp] theorem State.setPc_reg (s : State) (v : Word) (q : Reg) :
    (s.setPc v).reg q = s.reg q := rfl
@[simp] theorem State.setPc_userMode (s : State) (v : Word) :
    (s.setPc v).userMode = s.userMode := by simp [State.userMode]
@[simp] theorem State.setPc_kindAt (s : State) (v : Word) (x : Word) :
    (s.setPc v).kindAt x = s.kindAt x := by simp [State.kindAt]

/-! ## advance -/

@[simp] theorem State.advance_gpr (s : State) (n : Nat) : (s.advance n).gpr = s.gpr := rfl
@[simp] theorem State.advance_pc (s : State) (n : Nat) :
    (s.advance n).pc = s.pcAfter n := rfl
@[simp] theorem State.advance_psw (s : State) (n : Nat) : (s.advance n).psw = s.psw := rfl
@[simp] theorem State.advance_eipc (s : State) (n : Nat) : (s.advance n).eipc = s.eipc := rfl
@[simp] theorem State.advance_eipsw (s : State) (n : Nat) : (s.advance n).eipsw = s.eipsw := rfl
@[simp] theorem State.advance_fepc (s : State) (n : Nat) : (s.advance n).fepc = s.fepc := rfl
@[simp] theorem State.advance_fepsw (s : State) (n : Nat) : (s.advance n).fepsw = s.fepsw := rfl
@[simp] theorem State.advance_ecr (s : State) (n : Nat) : (s.advance n).ecr = s.ecr := rfl
@[simp] theorem State.advance_ctpc (s : State) (n : Nat) : (s.advance n).ctpc = s.ctpc := rfl
@[simp] theorem State.advance_ctpsw (s : State) (n : Nat) : (s.advance n).ctpsw = s.ctpsw := rfl
@[simp] theorem State.advance_dbpc (s : State) (n : Nat) : (s.advance n).dbpc = s.dbpc := rfl
@[simp] theorem State.advance_dbpsw (s : State) (n : Nat) : (s.advance n).dbpsw = s.dbpsw := rfl
@[simp] theorem State.advance_ctbp (s : State) (n : Nat) : (s.advance n).ctbp = s.ctbp := rfl
@[simp] theorem State.advance_dir (s : State) (n : Nat) : (s.advance n).dir = s.dir := rfl
@[simp] theorem State.advance_asid (s : State) (n : Nat) : (s.advance n).asid = s.asid := rfl
@[simp] theorem State.advance_channels (s : State) (n : Nat) :
    (s.advance n).channels = s.channels := rfl
@[simp] theorem State.advance_halted (s : State) (n : Nat) : (s.advance n).halted = s.halted := rfl
@[simp] theorem State.advance_seq0 (s : State) (n : Nat) : (s.advance n).seq0 = s.seq0 := rfl
@[simp] theorem State.advance_seq1 (s : State) (n : Nat) : (s.advance n).seq1 = s.seq1 := rfl
@[simp] theorem State.advance_stepDue (s : State) (n : Nat) :
    (s.advance n).stepDue = s.stepDue := rfl
@[simp] theorem State.advance_afterReset (s : State) (n : Nat) :
    (s.advance n).afterReset = s.afterReset := rfl
@[simp] theorem State.advance_nmi0 (s : State) (n : Nat) : (s.advance n).nmi0 = s.nmi0 := rfl
@[simp] theorem State.advance_nmi1 (s : State) (n : Nat) : (s.advance n).nmi1 = s.nmi1 := rfl
@[simp] theorem State.advance_nmi2 (s : State) (n : Nat) : (s.advance n).nmi2 = s.nmi2 := rfl
@[simp] theorem State.advance_intReq (s : State) (n : Nat) : (s.advance n).intReq = s.intReq := rfl
@[simp] theorem State.advance_platform (s : State) (n : Nat) :
    (s.advance n).platform = s.platform := rfl
@[simp] theorem State.advance_mem (s : State) (n : Nat) : (s.advance n).mem = s.mem := rfl
@[simp] theorem State.advance_deviceOut (s : State) (n : Nat) :
    (s.advance n).deviceOut = s.deviceOut := rfl
@[simp] theorem State.advance_tick (s : State) (n : Nat) : (s.advance n).tick = s.tick := rfl
@[simp] theorem State.advance_choice (s : State) (n : Nat) : (s.advance n).choice = s.choice := rfl
@[simp] theorem State.advance_reg (s : State) (n : Nat) (q : Reg) :
    (s.advance n).reg q = s.reg q := rfl
@[simp] theorem State.advance_userMode (s : State) (n : Nat) :
    (s.advance n).userMode = s.userMode := by simp [State.userMode]
@[simp] theorem State.advance_kindAt (s : State) (n : Nat) (x : Word) :
    (s.advance n).kindAt x = s.kindAt x := by simp [State.kindAt]

/-! ## setPsw -/

@[simp] theorem State.setPsw_gpr (s : State) (v : Word) : (s.setPsw v).gpr = s.gpr := rfl
@[simp] theorem State.setPsw_pc (s : State) (v : Word) : (s.setPsw v).pc = s.pc := rfl
@[simp] theorem State.setPsw_psw (s : State) (v : Word) :
    (s.setPsw v).psw = legalPsw s.dir v := rfl
@[simp] theorem State.setPsw_eipc (s : State) (v : Word) : (s.setPsw v).eipc = s.eipc := rfl
@[simp] theorem State.setPsw_eipsw (s : State) (v : Word) : (s.setPsw v).eipsw = s.eipsw := rfl
@[simp] theorem State.setPsw_fepc (s : State) (v : Word) : (s.setPsw v).fepc = s.fepc := rfl
@[simp] theorem State.setPsw_fepsw (s : State) (v : Word) : (s.setPsw v).fepsw = s.fepsw := rfl
@[simp] theorem State.setPsw_ecr (s : State) (v : Word) : (s.setPsw v).ecr = s.ecr := rfl
@[simp] theorem State.setPsw_ctpc (s : State) (v : Word) : (s.setPsw v).ctpc = s.ctpc := rfl
@[simp] theorem State.setPsw_ctpsw (s : State) (v : Word) : (s.setPsw v).ctpsw = s.ctpsw := rfl
@[simp] theorem State.setPsw_dbpc (s : State) (v : Word) : (s.setPsw v).dbpc = s.dbpc := rfl
@[simp] theorem State.setPsw_dbpsw (s : State) (v : Word) : (s.setPsw v).dbpsw = s.dbpsw := rfl
@[simp] theorem State.setPsw_ctbp (s : State) (v : Word) : (s.setPsw v).ctbp = s.ctbp := rfl
@[simp] theorem State.setPsw_dir (s : State) (v : Word) : (s.setPsw v).dir = s.dir := rfl
@[simp] theorem State.setPsw_asid (s : State) (v : Word) : (s.setPsw v).asid = s.asid := rfl
@[simp] theorem State.setPsw_channels (s : State) (v : Word) :
    (s.setPsw v).channels = s.channels := rfl
@[simp] theorem State.setPsw_halted (s : State) (v : Word) : (s.setPsw v).halted = s.halted := rfl
@[simp] theorem State.setPsw_seq0 (s : State) (v : Word) : (s.setPsw v).seq0 = s.seq0 := rfl
@[simp] theorem State.setPsw_seq1 (s : State) (v : Word) : (s.setPsw v).seq1 = s.seq1 := rfl
@[simp] theorem State.setPsw_stepDue (s : State) (v : Word) :
    (s.setPsw v).stepDue = s.stepDue := rfl
@[simp] theorem State.setPsw_afterReset (s : State) (v : Word) :
    (s.setPsw v).afterReset = s.afterReset := rfl
@[simp] theorem State.setPsw_nmi0 (s : State) (v : Word) : (s.setPsw v).nmi0 = s.nmi0 := rfl
@[simp] theorem State.setPsw_nmi1 (s : State) (v : Word) : (s.setPsw v).nmi1 = s.nmi1 := rfl
@[simp] theorem State.setPsw_nmi2 (s : State) (v : Word) : (s.setPsw v).nmi2 = s.nmi2 := rfl
@[simp] theorem State.setPsw_intReq (s : State) (v : Word) : (s.setPsw v).intReq = s.intReq := rfl
@[simp] theorem State.setPsw_platform (s : State) (v : Word) :
    (s.setPsw v).platform = s.platform := rfl
@[simp] theorem State.setPsw_mem (s : State) (v : Word) : (s.setPsw v).mem = s.mem := rfl
@[simp] theorem State.setPsw_deviceOut (s : State) (v : Word) :
    (s.setPsw v).deviceOut = s.deviceOut := rfl
@[simp] theorem State.setPsw_tick (s : State) (v : Word) : (s.setPsw v).tick = s.tick := rfl
@[simp] theorem State.setPsw_choice (s : State) (v : Word) : (s.setPsw v).choice = s.choice := rfl
@[simp] theorem State.setPsw_reg (s : State) (v : Word) (q : Reg) :
    (s.setPsw v).reg q = s.reg q := rfl
@[simp] theorem State.setPsw_pcAfter (s : State) (v : Word) (m : Nat) :
    (s.setPsw v).pcAfter m = s.pcAfter m := by simp [State.pcAfter]
@[simp] theorem State.setPsw_userMode (s : State) (v : Word) :
    (s.setPsw v).userMode = s.userMode := by simp [State.userMode]
@[simp] theorem State.setPsw_kindAt (s : State) (v : Word) (x : Word) :
    (s.setPsw v).kindAt x = s.kindAt x := by simp [State.kindAt]

/-! ## withFlags -/

@[simp] theorem State.withFlags_gpr (s : State) (cy ov : Bool) (r : Word) :
    (s.withFlags cy ov r).gpr = s.gpr := rfl
@[simp] theorem State.withFlags_pc (s : State) (cy ov : Bool) (r : Word) :
    (s.withFlags cy ov r).pc = s.pc := rfl
@[simp] theorem State.withFlags_psw (s : State) (cy ov : Bool) (r : Word) :
    (s.withFlags cy ov r).psw = putFlags s.psw cy ov r.msb (r == 0#32) := rfl
@[simp] theorem State.withFlags_eipc (s : State) (cy ov : Bool) (r : Word) :
    (s.withFlags cy ov r).eipc = s.eipc := rfl
@[simp] theorem State.withFlags_eipsw (s : State) (cy ov : Bool) (r : Word) :
    (s.withFlags cy ov r).eipsw = s.eipsw := rfl
@[simp] theorem State.withFlags_fepc (s : State) (cy ov : Bool) (r : Word) :
    (s.withFlags cy ov r).fepc = s.fepc := rfl
@[simp] theorem State.withFlags_fepsw (s : State) (cy ov : Bool) (r : Word) :
    (s.withFlags cy ov r).fepsw = s.fepsw := rfl
@[simp] theorem State.withFlags_ecr (s : State) (cy ov : Bool) (r : Word) :
    (s.withFlags cy ov r).ecr = s.ecr := rfl
@[simp] theorem State.withFlags_ctpc (s : State) (cy ov : Bool) (r : Word) :
    (s.withFlags cy ov r).ctpc = s.ctpc := rfl
@[simp] theorem State.withFlags_ctpsw (s : State) (cy ov : Bool) (r : Word) :
    (s.withFlags cy ov r).ctpsw = s.ctpsw := rfl
@[simp] theorem State.withFlags_dbpc (s : State) (cy ov : Bool) (r : Word) :
    (s.withFlags cy ov r).dbpc = s.dbpc := rfl
@[simp] theorem State.withFlags_dbpsw (s : State) (cy ov : Bool) (r : Word) :
    (s.withFlags cy ov r).dbpsw = s.dbpsw := rfl
@[simp] theorem State.withFlags_ctbp (s : State) (cy ov : Bool) (r : Word) :
    (s.withFlags cy ov r).ctbp = s.ctbp := rfl
@[simp] theorem State.withFlags_dir (s : State) (cy ov : Bool) (r : Word) :
    (s.withFlags cy ov r).dir = s.dir := rfl
@[simp] theorem State.withFlags_asid (s : State) (cy ov : Bool) (r : Word) :
    (s.withFlags cy ov r).asid = s.asid := rfl
@[simp] theorem State.withFlags_channels (s : State) (cy ov : Bool) (r : Word) :
    (s.withFlags cy ov r).channels = s.channels := rfl
@[simp] theorem State.withFlags_halted (s : State) (cy ov : Bool) (r : Word) :
    (s.withFlags cy ov r).halted = s.halted := rfl
@[simp] theorem State.withFlags_seq0 (s : State) (cy ov : Bool) (r : Word) :
    (s.withFlags cy ov r).seq0 = s.seq0 := rfl
@[simp] theorem State.withFlags_seq1 (s : State) (cy ov : Bool) (r : Word) :
    (s.withFlags cy ov r).seq1 = s.seq1 := rfl
@[simp] theorem State.withFlags_stepDue (s : State) (cy ov : Bool) (r : Word) :
    (s.withFlags cy ov r).stepDue = s.stepDue := rfl
@[simp] theorem State.withFlags_afterReset (s : State) (cy ov : Bool) (r : Word) :
    (s.withFlags cy ov r).afterReset = s.afterReset := rfl
@[simp] theorem State.withFlags_nmi0 (s : State) (cy ov : Bool) (r : Word) :
    (s.withFlags cy ov r).nmi0 = s.nmi0 := rfl
@[simp] theorem State.withFlags_nmi1 (s : State) (cy ov : Bool) (r : Word) :
    (s.withFlags cy ov r).nmi1 = s.nmi1 := rfl
@[simp] theorem State.withFlags_nmi2 (s : State) (cy ov : Bool) (r : Word) :
    (s.withFlags cy ov r).nmi2 = s.nmi2 := rfl
@[simp] theorem State.withFlags_intReq (s : State) (cy ov : Bool) (r : Word) :
    (s.withFlags cy ov r).intReq = s.intReq := rfl
@[simp] theorem State.withFlags_platform (s : State) (cy ov : Bool) (r : Word) :
    (s.withFlags cy ov r).platform = s.platform := rfl
@[simp] theorem State.withFlags_mem (s : State) (cy ov : Bool) (r : Word) :
    (s.withFlags cy ov r).mem = s.mem := rfl
@[simp] theorem State.withFlags_deviceOut (s : State) (cy ov : Bool) (r : Word) :
    (s.withFlags cy ov r).deviceOut = s.deviceOut := rfl
@[simp] theorem State.withFlags_tick (s : State) (cy ov : Bool) (r : Word) :
    (s.withFlags cy ov r).tick = s.tick := rfl
@[simp] theorem State.withFlags_choice (s : State) (cy ov : Bool) (r : Word) :
    (s.withFlags cy ov r).choice = s.choice := rfl
@[simp] theorem State.withFlags_reg (s : State) (cy ov : Bool) (r : Word) (q : Reg) :
    (s.withFlags cy ov r).reg q = s.reg q := rfl
@[simp] theorem State.withFlags_pcAfter (s : State) (cy ov : Bool) (r : Word) (m : Nat) :
    (s.withFlags cy ov r).pcAfter m = s.pcAfter m := by simp [State.pcAfter]
@[simp] theorem State.withFlags_userMode (s : State) (cy ov : Bool) (r : Word) :
    (s.withFlags cy ov r).userMode = s.userMode := by simp [State.userMode]
@[simp] theorem State.withFlags_kindAt (s : State) (cy ov : Bool) (r : Word) (x : Word) :
    (s.withFlags cy ov r).kindAt x = s.kindAt x := by simp [State.kindAt]

/-! ## withFlagsNoCy -/

@[simp] theorem State.withFlagsNoCy_gpr (s : State) (ov : Bool) (r : Word) :
    (s.withFlagsNoCy ov r).gpr = s.gpr := rfl
@[simp] theorem State.withFlagsNoCy_pc (s : State) (ov : Bool) (r : Word) :
    (s.withFlagsNoCy ov r).pc = s.pc := rfl
@[simp] theorem State.withFlagsNoCy_psw (s : State) (ov : Bool) (r : Word) :
    (s.withFlagsNoCy ov r).psw = putFlagsNoCy s.psw ov r.msb (r == 0#32) := rfl
@[simp] theorem State.withFlagsNoCy_eipc (s : State) (ov : Bool) (r : Word) :
    (s.withFlagsNoCy ov r).eipc = s.eipc := rfl
@[simp] theorem State.withFlagsNoCy_eipsw (s : State) (ov : Bool) (r : Word) :
    (s.withFlagsNoCy ov r).eipsw = s.eipsw := rfl
@[simp] theorem State.withFlagsNoCy_fepc (s : State) (ov : Bool) (r : Word) :
    (s.withFlagsNoCy ov r).fepc = s.fepc := rfl
@[simp] theorem State.withFlagsNoCy_fepsw (s : State) (ov : Bool) (r : Word) :
    (s.withFlagsNoCy ov r).fepsw = s.fepsw := rfl
@[simp] theorem State.withFlagsNoCy_ecr (s : State) (ov : Bool) (r : Word) :
    (s.withFlagsNoCy ov r).ecr = s.ecr := rfl
@[simp] theorem State.withFlagsNoCy_ctpc (s : State) (ov : Bool) (r : Word) :
    (s.withFlagsNoCy ov r).ctpc = s.ctpc := rfl
@[simp] theorem State.withFlagsNoCy_ctpsw (s : State) (ov : Bool) (r : Word) :
    (s.withFlagsNoCy ov r).ctpsw = s.ctpsw := rfl
@[simp] theorem State.withFlagsNoCy_dbpc (s : State) (ov : Bool) (r : Word) :
    (s.withFlagsNoCy ov r).dbpc = s.dbpc := rfl
@[simp] theorem State.withFlagsNoCy_dbpsw (s : State) (ov : Bool) (r : Word) :
    (s.withFlagsNoCy ov r).dbpsw = s.dbpsw := rfl
@[simp] theorem State.withFlagsNoCy_ctbp (s : State) (ov : Bool) (r : Word) :
    (s.withFlagsNoCy ov r).ctbp = s.ctbp := rfl
@[simp] theorem State.withFlagsNoCy_dir (s : State) (ov : Bool) (r : Word) :
    (s.withFlagsNoCy ov r).dir = s.dir := rfl
@[simp] theorem State.withFlagsNoCy_asid (s : State) (ov : Bool) (r : Word) :
    (s.withFlagsNoCy ov r).asid = s.asid := rfl
@[simp] theorem State.withFlagsNoCy_channels (s : State) (ov : Bool) (r : Word) :
    (s.withFlagsNoCy ov r).channels = s.channels := rfl
@[simp] theorem State.withFlagsNoCy_halted (s : State) (ov : Bool) (r : Word) :
    (s.withFlagsNoCy ov r).halted = s.halted := rfl
@[simp] theorem State.withFlagsNoCy_seq0 (s : State) (ov : Bool) (r : Word) :
    (s.withFlagsNoCy ov r).seq0 = s.seq0 := rfl
@[simp] theorem State.withFlagsNoCy_seq1 (s : State) (ov : Bool) (r : Word) :
    (s.withFlagsNoCy ov r).seq1 = s.seq1 := rfl
@[simp] theorem State.withFlagsNoCy_stepDue (s : State) (ov : Bool) (r : Word) :
    (s.withFlagsNoCy ov r).stepDue = s.stepDue := rfl
@[simp] theorem State.withFlagsNoCy_afterReset (s : State) (ov : Bool) (r : Word) :
    (s.withFlagsNoCy ov r).afterReset = s.afterReset := rfl
@[simp] theorem State.withFlagsNoCy_nmi0 (s : State) (ov : Bool) (r : Word) :
    (s.withFlagsNoCy ov r).nmi0 = s.nmi0 := rfl
@[simp] theorem State.withFlagsNoCy_nmi1 (s : State) (ov : Bool) (r : Word) :
    (s.withFlagsNoCy ov r).nmi1 = s.nmi1 := rfl
@[simp] theorem State.withFlagsNoCy_nmi2 (s : State) (ov : Bool) (r : Word) :
    (s.withFlagsNoCy ov r).nmi2 = s.nmi2 := rfl
@[simp] theorem State.withFlagsNoCy_intReq (s : State) (ov : Bool) (r : Word) :
    (s.withFlagsNoCy ov r).intReq = s.intReq := rfl
@[simp] theorem State.withFlagsNoCy_platform (s : State) (ov : Bool) (r : Word) :
    (s.withFlagsNoCy ov r).platform = s.platform := rfl
@[simp] theorem State.withFlagsNoCy_mem (s : State) (ov : Bool) (r : Word) :
    (s.withFlagsNoCy ov r).mem = s.mem := rfl
@[simp] theorem State.withFlagsNoCy_deviceOut (s : State) (ov : Bool) (r : Word) :
    (s.withFlagsNoCy ov r).deviceOut = s.deviceOut := rfl
@[simp] theorem State.withFlagsNoCy_tick (s : State) (ov : Bool) (r : Word) :
    (s.withFlagsNoCy ov r).tick = s.tick := rfl
@[simp] theorem State.withFlagsNoCy_choice (s : State) (ov : Bool) (r : Word) :
    (s.withFlagsNoCy ov r).choice = s.choice := rfl
@[simp] theorem State.withFlagsNoCy_reg (s : State) (ov : Bool) (r : Word) (q : Reg) :
    (s.withFlagsNoCy ov r).reg q = s.reg q := rfl
@[simp] theorem State.withFlagsNoCy_pcAfter (s : State) (ov : Bool) (r : Word) (m : Nat) :
    (s.withFlagsNoCy ov r).pcAfter m = s.pcAfter m := by simp [State.pcAfter]
@[simp] theorem State.withFlagsNoCy_userMode (s : State) (ov : Bool) (r : Word) :
    (s.withFlagsNoCy ov r).userMode = s.userMode := by simp [State.userMode]
@[simp] theorem State.withFlagsNoCy_kindAt (s : State) (ov : Bool) (r : Word) (x : Word) :
    (s.withFlagsNoCy ov r).kindAt x = s.kindAt x := by simp [State.kindAt]

/-! ## withZ -/

@[simp] theorem State.withZ_gpr (s : State) (z : Bool) : (s.withZ z).gpr = s.gpr := rfl
@[simp] theorem State.withZ_pc (s : State) (z : Bool) : (s.withZ z).pc = s.pc := rfl
@[simp] theorem State.withZ_psw (s : State) (z : Bool) :
    (s.withZ z).psw = putBit s.psw Psw.z z := rfl
@[simp] theorem State.withZ_eipc (s : State) (z : Bool) : (s.withZ z).eipc = s.eipc := rfl
@[simp] theorem State.withZ_eipsw (s : State) (z : Bool) : (s.withZ z).eipsw = s.eipsw := rfl
@[simp] theorem State.withZ_fepc (s : State) (z : Bool) : (s.withZ z).fepc = s.fepc := rfl
@[simp] theorem State.withZ_fepsw (s : State) (z : Bool) : (s.withZ z).fepsw = s.fepsw := rfl
@[simp] theorem State.withZ_ecr (s : State) (z : Bool) : (s.withZ z).ecr = s.ecr := rfl
@[simp] theorem State.withZ_ctpc (s : State) (z : Bool) : (s.withZ z).ctpc = s.ctpc := rfl
@[simp] theorem State.withZ_ctpsw (s : State) (z : Bool) : (s.withZ z).ctpsw = s.ctpsw := rfl
@[simp] theorem State.withZ_dbpc (s : State) (z : Bool) : (s.withZ z).dbpc = s.dbpc := rfl
@[simp] theorem State.withZ_dbpsw (s : State) (z : Bool) : (s.withZ z).dbpsw = s.dbpsw := rfl
@[simp] theorem State.withZ_ctbp (s : State) (z : Bool) : (s.withZ z).ctbp = s.ctbp := rfl
@[simp] theorem State.withZ_dir (s : State) (z : Bool) : (s.withZ z).dir = s.dir := rfl
@[simp] theorem State.withZ_asid (s : State) (z : Bool) : (s.withZ z).asid = s.asid := rfl
@[simp] theorem State.withZ_channels (s : State) (z : Bool) :
    (s.withZ z).channels = s.channels := rfl
@[simp] theorem State.withZ_halted (s : State) (z : Bool) : (s.withZ z).halted = s.halted := rfl
@[simp] theorem State.withZ_seq0 (s : State) (z : Bool) : (s.withZ z).seq0 = s.seq0 := rfl
@[simp] theorem State.withZ_seq1 (s : State) (z : Bool) : (s.withZ z).seq1 = s.seq1 := rfl
@[simp] theorem State.withZ_stepDue (s : State) (z : Bool) : (s.withZ z).stepDue = s.stepDue := rfl
@[simp] theorem State.withZ_afterReset (s : State) (z : Bool) :
    (s.withZ z).afterReset = s.afterReset := rfl
@[simp] theorem State.withZ_nmi0 (s : State) (z : Bool) : (s.withZ z).nmi0 = s.nmi0 := rfl
@[simp] theorem State.withZ_nmi1 (s : State) (z : Bool) : (s.withZ z).nmi1 = s.nmi1 := rfl
@[simp] theorem State.withZ_nmi2 (s : State) (z : Bool) : (s.withZ z).nmi2 = s.nmi2 := rfl
@[simp] theorem State.withZ_intReq (s : State) (z : Bool) : (s.withZ z).intReq = s.intReq := rfl
@[simp] theorem State.withZ_platform (s : State) (z : Bool) :
    (s.withZ z).platform = s.platform := rfl
@[simp] theorem State.withZ_mem (s : State) (z : Bool) : (s.withZ z).mem = s.mem := rfl
@[simp] theorem State.withZ_deviceOut (s : State) (z : Bool) :
    (s.withZ z).deviceOut = s.deviceOut := rfl
@[simp] theorem State.withZ_tick (s : State) (z : Bool) : (s.withZ z).tick = s.tick := rfl
@[simp] theorem State.withZ_choice (s : State) (z : Bool) : (s.withZ z).choice = s.choice := rfl
@[simp] theorem State.withZ_reg (s : State) (z : Bool) (q : Reg) :
    (s.withZ z).reg q = s.reg q := rfl
@[simp] theorem State.withZ_pcAfter (s : State) (z : Bool) (m : Nat) :
    (s.withZ z).pcAfter m = s.pcAfter m := by simp [State.pcAfter]
@[simp] theorem State.withZ_userMode (s : State) (z : Bool) :
    (s.withZ z).userMode = s.userMode := by simp [State.userMode]
@[simp] theorem State.withZ_kindAt (s : State) (z : Bool) (x : Word) :
    (s.withZ z).kindAt x = s.kindAt x := by simp [State.kindAt]

/-! ## withSum -/

@[simp] theorem State.withSum_gpr (s : State) (r : Sum) : (s.withSum r).gpr = s.gpr := rfl
@[simp] theorem State.withSum_pc (s : State) (r : Sum) : (s.withSum r).pc = s.pc := rfl
@[simp] theorem State.withSum_psw (s : State) (r : Sum) :
    (s.withSum r).psw = putFlags s.psw r.cy r.ov r.value.msb (r.value == 0#32) := rfl
@[simp] theorem State.withSum_eipc (s : State) (r : Sum) : (s.withSum r).eipc = s.eipc := rfl
@[simp] theorem State.withSum_eipsw (s : State) (r : Sum) : (s.withSum r).eipsw = s.eipsw := rfl
@[simp] theorem State.withSum_fepc (s : State) (r : Sum) : (s.withSum r).fepc = s.fepc := rfl
@[simp] theorem State.withSum_fepsw (s : State) (r : Sum) : (s.withSum r).fepsw = s.fepsw := rfl
@[simp] theorem State.withSum_ecr (s : State) (r : Sum) : (s.withSum r).ecr = s.ecr := rfl
@[simp] theorem State.withSum_ctpc (s : State) (r : Sum) : (s.withSum r).ctpc = s.ctpc := rfl
@[simp] theorem State.withSum_ctpsw (s : State) (r : Sum) : (s.withSum r).ctpsw = s.ctpsw := rfl
@[simp] theorem State.withSum_dbpc (s : State) (r : Sum) : (s.withSum r).dbpc = s.dbpc := rfl
@[simp] theorem State.withSum_dbpsw (s : State) (r : Sum) : (s.withSum r).dbpsw = s.dbpsw := rfl
@[simp] theorem State.withSum_ctbp (s : State) (r : Sum) : (s.withSum r).ctbp = s.ctbp := rfl
@[simp] theorem State.withSum_dir (s : State) (r : Sum) : (s.withSum r).dir = s.dir := rfl
@[simp] theorem State.withSum_asid (s : State) (r : Sum) : (s.withSum r).asid = s.asid := rfl
@[simp] theorem State.withSum_channels (s : State) (r : Sum) :
    (s.withSum r).channels = s.channels := rfl
@[simp] theorem State.withSum_halted (s : State) (r : Sum) : (s.withSum r).halted = s.halted := rfl
@[simp] theorem State.withSum_seq0 (s : State) (r : Sum) : (s.withSum r).seq0 = s.seq0 := rfl
@[simp] theorem State.withSum_seq1 (s : State) (r : Sum) : (s.withSum r).seq1 = s.seq1 := rfl
@[simp] theorem State.withSum_stepDue (s : State) (r : Sum) :
    (s.withSum r).stepDue = s.stepDue := rfl
@[simp] theorem State.withSum_afterReset (s : State) (r : Sum) :
    (s.withSum r).afterReset = s.afterReset := rfl
@[simp] theorem State.withSum_nmi0 (s : State) (r : Sum) : (s.withSum r).nmi0 = s.nmi0 := rfl
@[simp] theorem State.withSum_nmi1 (s : State) (r : Sum) : (s.withSum r).nmi1 = s.nmi1 := rfl
@[simp] theorem State.withSum_nmi2 (s : State) (r : Sum) : (s.withSum r).nmi2 = s.nmi2 := rfl
@[simp] theorem State.withSum_intReq (s : State) (r : Sum) : (s.withSum r).intReq = s.intReq := rfl
@[simp] theorem State.withSum_platform (s : State) (r : Sum) :
    (s.withSum r).platform = s.platform := rfl
@[simp] theorem State.withSum_mem (s : State) (r : Sum) : (s.withSum r).mem = s.mem := rfl
@[simp] theorem State.withSum_deviceOut (s : State) (r : Sum) :
    (s.withSum r).deviceOut = s.deviceOut := rfl
@[simp] theorem State.withSum_tick (s : State) (r : Sum) : (s.withSum r).tick = s.tick := rfl
@[simp] theorem State.withSum_choice (s : State) (r : Sum) : (s.withSum r).choice = s.choice := rfl
@[simp] theorem State.withSum_reg (s : State) (r : Sum) (q : Reg) :
    (s.withSum r).reg q = s.reg q := rfl
@[simp] theorem State.withSum_pcAfter (s : State) (r : Sum) (m : Nat) :
    (s.withSum r).pcAfter m = s.pcAfter m := by simp [State.pcAfter]
@[simp] theorem State.withSum_userMode (s : State) (r : Sum) :
    (s.withSum r).userMode = s.userMode := by simp [State.userMode]
@[simp] theorem State.withSum_kindAt (s : State) (r : Sum) (x : Word) :
    (s.withSum r).kindAt x = s.kindAt x := by simp [State.kindAt]

/-! ## withSwap -/

@[simp] theorem State.withSwap_gpr (s : State) (cy z : Bool) (r : Word) :
    (s.withSwap cy z r).gpr = s.gpr := rfl
@[simp] theorem State.withSwap_pc (s : State) (cy z : Bool) (r : Word) :
    (s.withSwap cy z r).pc = s.pc := rfl
@[simp] theorem State.withSwap_psw (s : State) (cy z : Bool) (r : Word) :
    (s.withSwap cy z r).psw = putFlags s.psw cy false r.msb z := rfl
@[simp] theorem State.withSwap_eipc (s : State) (cy z : Bool) (r : Word) :
    (s.withSwap cy z r).eipc = s.eipc := rfl
@[simp] theorem State.withSwap_eipsw (s : State) (cy z : Bool) (r : Word) :
    (s.withSwap cy z r).eipsw = s.eipsw := rfl
@[simp] theorem State.withSwap_fepc (s : State) (cy z : Bool) (r : Word) :
    (s.withSwap cy z r).fepc = s.fepc := rfl
@[simp] theorem State.withSwap_fepsw (s : State) (cy z : Bool) (r : Word) :
    (s.withSwap cy z r).fepsw = s.fepsw := rfl
@[simp] theorem State.withSwap_ecr (s : State) (cy z : Bool) (r : Word) :
    (s.withSwap cy z r).ecr = s.ecr := rfl
@[simp] theorem State.withSwap_ctpc (s : State) (cy z : Bool) (r : Word) :
    (s.withSwap cy z r).ctpc = s.ctpc := rfl
@[simp] theorem State.withSwap_ctpsw (s : State) (cy z : Bool) (r : Word) :
    (s.withSwap cy z r).ctpsw = s.ctpsw := rfl
@[simp] theorem State.withSwap_dbpc (s : State) (cy z : Bool) (r : Word) :
    (s.withSwap cy z r).dbpc = s.dbpc := rfl
@[simp] theorem State.withSwap_dbpsw (s : State) (cy z : Bool) (r : Word) :
    (s.withSwap cy z r).dbpsw = s.dbpsw := rfl
@[simp] theorem State.withSwap_ctbp (s : State) (cy z : Bool) (r : Word) :
    (s.withSwap cy z r).ctbp = s.ctbp := rfl
@[simp] theorem State.withSwap_dir (s : State) (cy z : Bool) (r : Word) :
    (s.withSwap cy z r).dir = s.dir := rfl
@[simp] theorem State.withSwap_asid (s : State) (cy z : Bool) (r : Word) :
    (s.withSwap cy z r).asid = s.asid := rfl
@[simp] theorem State.withSwap_channels (s : State) (cy z : Bool) (r : Word) :
    (s.withSwap cy z r).channels = s.channels := rfl
@[simp] theorem State.withSwap_halted (s : State) (cy z : Bool) (r : Word) :
    (s.withSwap cy z r).halted = s.halted := rfl
@[simp] theorem State.withSwap_seq0 (s : State) (cy z : Bool) (r : Word) :
    (s.withSwap cy z r).seq0 = s.seq0 := rfl
@[simp] theorem State.withSwap_seq1 (s : State) (cy z : Bool) (r : Word) :
    (s.withSwap cy z r).seq1 = s.seq1 := rfl
@[simp] theorem State.withSwap_stepDue (s : State) (cy z : Bool) (r : Word) :
    (s.withSwap cy z r).stepDue = s.stepDue := rfl
@[simp] theorem State.withSwap_afterReset (s : State) (cy z : Bool) (r : Word) :
    (s.withSwap cy z r).afterReset = s.afterReset := rfl
@[simp] theorem State.withSwap_nmi0 (s : State) (cy z : Bool) (r : Word) :
    (s.withSwap cy z r).nmi0 = s.nmi0 := rfl
@[simp] theorem State.withSwap_nmi1 (s : State) (cy z : Bool) (r : Word) :
    (s.withSwap cy z r).nmi1 = s.nmi1 := rfl
@[simp] theorem State.withSwap_nmi2 (s : State) (cy z : Bool) (r : Word) :
    (s.withSwap cy z r).nmi2 = s.nmi2 := rfl
@[simp] theorem State.withSwap_intReq (s : State) (cy z : Bool) (r : Word) :
    (s.withSwap cy z r).intReq = s.intReq := rfl
@[simp] theorem State.withSwap_platform (s : State) (cy z : Bool) (r : Word) :
    (s.withSwap cy z r).platform = s.platform := rfl
@[simp] theorem State.withSwap_mem (s : State) (cy z : Bool) (r : Word) :
    (s.withSwap cy z r).mem = s.mem := rfl
@[simp] theorem State.withSwap_deviceOut (s : State) (cy z : Bool) (r : Word) :
    (s.withSwap cy z r).deviceOut = s.deviceOut := rfl
@[simp] theorem State.withSwap_tick (s : State) (cy z : Bool) (r : Word) :
    (s.withSwap cy z r).tick = s.tick := rfl
@[simp] theorem State.withSwap_choice (s : State) (cy z : Bool) (r : Word) :
    (s.withSwap cy z r).choice = s.choice := rfl
@[simp] theorem State.withSwap_reg (s : State) (cy z : Bool) (r : Word) (q : Reg) :
    (s.withSwap cy z r).reg q = s.reg q := rfl
@[simp] theorem State.withSwap_pcAfter (s : State) (cy z : Bool) (r : Word) (m : Nat) :
    (s.withSwap cy z r).pcAfter m = s.pcAfter m := by simp [State.pcAfter]
@[simp] theorem State.withSwap_userMode (s : State) (cy z : Bool) (r : Word) :
    (s.withSwap cy z r).userMode = s.userMode := by simp [State.userMode]
@[simp] theorem State.withSwap_kindAt (s : State) (cy z : Bool) (r : Word) (x : Word) :
    (s.withSwap cy z r).kindAt x = s.kindAt x := by simp [State.kindAt]

/-! ## withSearch -/

@[simp] theorem State.withSearch_gpr (s : State) (k : Nat) : (s.withSearch k).gpr = s.gpr := rfl
@[simp] theorem State.withSearch_pc (s : State) (k : Nat) : (s.withSearch k).pc = s.pc := rfl
@[simp] theorem State.withSearch_psw (s : State) (k : Nat) :
    (s.withSearch k).psw = putFlags s.psw (searchCy s.platform.schCyMode k) false false (k == 0) := rfl
@[simp] theorem State.withSearch_eipc (s : State) (k : Nat) : (s.withSearch k).eipc = s.eipc := rfl
@[simp] theorem State.withSearch_eipsw (s : State) (k : Nat) :
    (s.withSearch k).eipsw = s.eipsw := rfl
@[simp] theorem State.withSearch_fepc (s : State) (k : Nat) : (s.withSearch k).fepc = s.fepc := rfl
@[simp] theorem State.withSearch_fepsw (s : State) (k : Nat) :
    (s.withSearch k).fepsw = s.fepsw := rfl
@[simp] theorem State.withSearch_ecr (s : State) (k : Nat) : (s.withSearch k).ecr = s.ecr := rfl
@[simp] theorem State.withSearch_ctpc (s : State) (k : Nat) : (s.withSearch k).ctpc = s.ctpc := rfl
@[simp] theorem State.withSearch_ctpsw (s : State) (k : Nat) :
    (s.withSearch k).ctpsw = s.ctpsw := rfl
@[simp] theorem State.withSearch_dbpc (s : State) (k : Nat) : (s.withSearch k).dbpc = s.dbpc := rfl
@[simp] theorem State.withSearch_dbpsw (s : State) (k : Nat) :
    (s.withSearch k).dbpsw = s.dbpsw := rfl
@[simp] theorem State.withSearch_ctbp (s : State) (k : Nat) : (s.withSearch k).ctbp = s.ctbp := rfl
@[simp] theorem State.withSearch_dir (s : State) (k : Nat) : (s.withSearch k).dir = s.dir := rfl
@[simp] theorem State.withSearch_asid (s : State) (k : Nat) : (s.withSearch k).asid = s.asid := rfl
@[simp] theorem State.withSearch_channels (s : State) (k : Nat) :
    (s.withSearch k).channels = s.channels := rfl
@[simp] theorem State.withSearch_halted (s : State) (k : Nat) :
    (s.withSearch k).halted = s.halted := rfl
@[simp] theorem State.withSearch_seq0 (s : State) (k : Nat) : (s.withSearch k).seq0 = s.seq0 := rfl
@[simp] theorem State.withSearch_seq1 (s : State) (k : Nat) : (s.withSearch k).seq1 = s.seq1 := rfl
@[simp] theorem State.withSearch_stepDue (s : State) (k : Nat) :
    (s.withSearch k).stepDue = s.stepDue := rfl
@[simp] theorem State.withSearch_afterReset (s : State) (k : Nat) :
    (s.withSearch k).afterReset = s.afterReset := rfl
@[simp] theorem State.withSearch_nmi0 (s : State) (k : Nat) : (s.withSearch k).nmi0 = s.nmi0 := rfl
@[simp] theorem State.withSearch_nmi1 (s : State) (k : Nat) : (s.withSearch k).nmi1 = s.nmi1 := rfl
@[simp] theorem State.withSearch_nmi2 (s : State) (k : Nat) : (s.withSearch k).nmi2 = s.nmi2 := rfl
@[simp] theorem State.withSearch_intReq (s : State) (k : Nat) :
    (s.withSearch k).intReq = s.intReq := rfl
@[simp] theorem State.withSearch_platform (s : State) (k : Nat) :
    (s.withSearch k).platform = s.platform := rfl
@[simp] theorem State.withSearch_mem (s : State) (k : Nat) : (s.withSearch k).mem = s.mem := rfl
@[simp] theorem State.withSearch_deviceOut (s : State) (k : Nat) :
    (s.withSearch k).deviceOut = s.deviceOut := rfl
@[simp] theorem State.withSearch_tick (s : State) (k : Nat) : (s.withSearch k).tick = s.tick := rfl
@[simp] theorem State.withSearch_choice (s : State) (k : Nat) :
    (s.withSearch k).choice = s.choice := rfl
@[simp] theorem State.withSearch_reg (s : State) (k : Nat) (q : Reg) :
    (s.withSearch k).reg q = s.reg q := rfl
@[simp] theorem State.withSearch_pcAfter (s : State) (k : Nat) (m : Nat) :
    (s.withSearch k).pcAfter m = s.pcAfter m := by simp [State.pcAfter]
@[simp] theorem State.withSearch_userMode (s : State) (k : Nat) :
    (s.withSearch k).userMode = s.userMode := by simp [State.userMode]
@[simp] theorem State.withSearch_kindAt (s : State) (k : Nat) (x : Word) :
    (s.withSearch k).kindAt x = s.kindAt x := by simp [State.kindAt]

/-! ## withQuotient -/

@[simp] theorem State.withQuotient_gpr (s : State) (r : Quotient) :
    (s.withQuotient r).gpr = s.gpr := rfl
@[simp] theorem State.withQuotient_pc (s : State) (r : Quotient) :
    (s.withQuotient r).pc = s.pc := rfl
@[simp] theorem State.withQuotient_psw (s : State) (r : Quotient) :
    (s.withQuotient r).psw = putFlagsNoCy s.psw r.ov r.sg r.z := rfl
@[simp] theorem State.withQuotient_eipc (s : State) (r : Quotient) :
    (s.withQuotient r).eipc = s.eipc := rfl
@[simp] theorem State.withQuotient_eipsw (s : State) (r : Quotient) :
    (s.withQuotient r).eipsw = s.eipsw := rfl
@[simp] theorem State.withQuotient_fepc (s : State) (r : Quotient) :
    (s.withQuotient r).fepc = s.fepc := rfl
@[simp] theorem State.withQuotient_fepsw (s : State) (r : Quotient) :
    (s.withQuotient r).fepsw = s.fepsw := rfl
@[simp] theorem State.withQuotient_ecr (s : State) (r : Quotient) :
    (s.withQuotient r).ecr = s.ecr := rfl
@[simp] theorem State.withQuotient_ctpc (s : State) (r : Quotient) :
    (s.withQuotient r).ctpc = s.ctpc := rfl
@[simp] theorem State.withQuotient_ctpsw (s : State) (r : Quotient) :
    (s.withQuotient r).ctpsw = s.ctpsw := rfl
@[simp] theorem State.withQuotient_dbpc (s : State) (r : Quotient) :
    (s.withQuotient r).dbpc = s.dbpc := rfl
@[simp] theorem State.withQuotient_dbpsw (s : State) (r : Quotient) :
    (s.withQuotient r).dbpsw = s.dbpsw := rfl
@[simp] theorem State.withQuotient_ctbp (s : State) (r : Quotient) :
    (s.withQuotient r).ctbp = s.ctbp := rfl
@[simp] theorem State.withQuotient_dir (s : State) (r : Quotient) :
    (s.withQuotient r).dir = s.dir := rfl
@[simp] theorem State.withQuotient_asid (s : State) (r : Quotient) :
    (s.withQuotient r).asid = s.asid := rfl
@[simp] theorem State.withQuotient_channels (s : State) (r : Quotient) :
    (s.withQuotient r).channels = s.channels := rfl
@[simp] theorem State.withQuotient_halted (s : State) (r : Quotient) :
    (s.withQuotient r).halted = s.halted := rfl
@[simp] theorem State.withQuotient_seq0 (s : State) (r : Quotient) :
    (s.withQuotient r).seq0 = s.seq0 := rfl
@[simp] theorem State.withQuotient_seq1 (s : State) (r : Quotient) :
    (s.withQuotient r).seq1 = s.seq1 := rfl
@[simp] theorem State.withQuotient_stepDue (s : State) (r : Quotient) :
    (s.withQuotient r).stepDue = s.stepDue := rfl
@[simp] theorem State.withQuotient_afterReset (s : State) (r : Quotient) :
    (s.withQuotient r).afterReset = s.afterReset := rfl
@[simp] theorem State.withQuotient_nmi0 (s : State) (r : Quotient) :
    (s.withQuotient r).nmi0 = s.nmi0 := rfl
@[simp] theorem State.withQuotient_nmi1 (s : State) (r : Quotient) :
    (s.withQuotient r).nmi1 = s.nmi1 := rfl
@[simp] theorem State.withQuotient_nmi2 (s : State) (r : Quotient) :
    (s.withQuotient r).nmi2 = s.nmi2 := rfl
@[simp] theorem State.withQuotient_intReq (s : State) (r : Quotient) :
    (s.withQuotient r).intReq = s.intReq := rfl
@[simp] theorem State.withQuotient_platform (s : State) (r : Quotient) :
    (s.withQuotient r).platform = s.platform := rfl
@[simp] theorem State.withQuotient_mem (s : State) (r : Quotient) :
    (s.withQuotient r).mem = s.mem := rfl
@[simp] theorem State.withQuotient_deviceOut (s : State) (r : Quotient) :
    (s.withQuotient r).deviceOut = s.deviceOut := rfl
@[simp] theorem State.withQuotient_tick (s : State) (r : Quotient) :
    (s.withQuotient r).tick = s.tick := rfl
@[simp] theorem State.withQuotient_choice (s : State) (r : Quotient) :
    (s.withQuotient r).choice = s.choice := rfl
@[simp] theorem State.withQuotient_reg (s : State) (r : Quotient) (q : Reg) :
    (s.withQuotient r).reg q = s.reg q := rfl
@[simp] theorem State.withQuotient_pcAfter (s : State) (r : Quotient) (m : Nat) :
    (s.withQuotient r).pcAfter m = s.pcAfter m := by simp [State.pcAfter]
@[simp] theorem State.withQuotient_userMode (s : State) (r : Quotient) :
    (s.withQuotient r).userMode = s.userMode := by simp [State.userMode]
@[simp] theorem State.withQuotient_kindAt (s : State) (r : Quotient) (x : Word) :
    (s.withQuotient r).kindAt x = s.kindAt x := by simp [State.kindAt]

/-! ## withSaturation -/

@[simp] theorem State.withSaturation_gpr (s : State) (r : Sum) (v : Word) :
    (s.withSaturation r v).gpr = s.gpr := by
  unfold State.withSaturation; split <;> rfl
@[simp] theorem State.withSaturation_pc (s : State) (r : Sum) (v : Word) :
    (s.withSaturation r v).pc = s.pc := by
  unfold State.withSaturation; split <;> rfl
@[simp] theorem State.withSaturation_eipc (s : State) (r : Sum) (v : Word) :
    (s.withSaturation r v).eipc = s.eipc := by
  unfold State.withSaturation; split <;> rfl
@[simp] theorem State.withSaturation_eipsw (s : State) (r : Sum) (v : Word) :
    (s.withSaturation r v).eipsw = s.eipsw := by
  unfold State.withSaturation; split <;> rfl
@[simp] theorem State.withSaturation_fepc (s : State) (r : Sum) (v : Word) :
    (s.withSaturation r v).fepc = s.fepc := by
  unfold State.withSaturation; split <;> rfl
@[simp] theorem State.withSaturation_fepsw (s : State) (r : Sum) (v : Word) :
    (s.withSaturation r v).fepsw = s.fepsw := by
  unfold State.withSaturation; split <;> rfl
@[simp] theorem State.withSaturation_ecr (s : State) (r : Sum) (v : Word) :
    (s.withSaturation r v).ecr = s.ecr := by
  unfold State.withSaturation; split <;> rfl
@[simp] theorem State.withSaturation_ctpc (s : State) (r : Sum) (v : Word) :
    (s.withSaturation r v).ctpc = s.ctpc := by
  unfold State.withSaturation; split <;> rfl
@[simp] theorem State.withSaturation_ctpsw (s : State) (r : Sum) (v : Word) :
    (s.withSaturation r v).ctpsw = s.ctpsw := by
  unfold State.withSaturation; split <;> rfl
@[simp] theorem State.withSaturation_dbpc (s : State) (r : Sum) (v : Word) :
    (s.withSaturation r v).dbpc = s.dbpc := by
  unfold State.withSaturation; split <;> rfl
@[simp] theorem State.withSaturation_dbpsw (s : State) (r : Sum) (v : Word) :
    (s.withSaturation r v).dbpsw = s.dbpsw := by
  unfold State.withSaturation; split <;> rfl
@[simp] theorem State.withSaturation_ctbp (s : State) (r : Sum) (v : Word) :
    (s.withSaturation r v).ctbp = s.ctbp := by
  unfold State.withSaturation; split <;> rfl
@[simp] theorem State.withSaturation_dir (s : State) (r : Sum) (v : Word) :
    (s.withSaturation r v).dir = s.dir := by
  unfold State.withSaturation; split <;> rfl
@[simp] theorem State.withSaturation_asid (s : State) (r : Sum) (v : Word) :
    (s.withSaturation r v).asid = s.asid := by
  unfold State.withSaturation; split <;> rfl
@[simp] theorem State.withSaturation_channels (s : State) (r : Sum) (v : Word) :
    (s.withSaturation r v).channels = s.channels := by
  unfold State.withSaturation; split <;> rfl
@[simp] theorem State.withSaturation_halted (s : State) (r : Sum) (v : Word) :
    (s.withSaturation r v).halted = s.halted := by
  unfold State.withSaturation; split <;> rfl
@[simp] theorem State.withSaturation_seq0 (s : State) (r : Sum) (v : Word) :
    (s.withSaturation r v).seq0 = s.seq0 := by
  unfold State.withSaturation; split <;> rfl
@[simp] theorem State.withSaturation_seq1 (s : State) (r : Sum) (v : Word) :
    (s.withSaturation r v).seq1 = s.seq1 := by
  unfold State.withSaturation; split <;> rfl
@[simp] theorem State.withSaturation_stepDue (s : State) (r : Sum) (v : Word) :
    (s.withSaturation r v).stepDue = s.stepDue := by
  unfold State.withSaturation; split <;> rfl
@[simp] theorem State.withSaturation_afterReset (s : State) (r : Sum) (v : Word) :
    (s.withSaturation r v).afterReset = s.afterReset := by
  unfold State.withSaturation; split <;> rfl
@[simp] theorem State.withSaturation_nmi0 (s : State) (r : Sum) (v : Word) :
    (s.withSaturation r v).nmi0 = s.nmi0 := by
  unfold State.withSaturation; split <;> rfl
@[simp] theorem State.withSaturation_nmi1 (s : State) (r : Sum) (v : Word) :
    (s.withSaturation r v).nmi1 = s.nmi1 := by
  unfold State.withSaturation; split <;> rfl
@[simp] theorem State.withSaturation_nmi2 (s : State) (r : Sum) (v : Word) :
    (s.withSaturation r v).nmi2 = s.nmi2 := by
  unfold State.withSaturation; split <;> rfl
@[simp] theorem State.withSaturation_intReq (s : State) (r : Sum) (v : Word) :
    (s.withSaturation r v).intReq = s.intReq := by
  unfold State.withSaturation; split <;> rfl
@[simp] theorem State.withSaturation_platform (s : State) (r : Sum) (v : Word) :
    (s.withSaturation r v).platform = s.platform := by
  unfold State.withSaturation; split <;> rfl
@[simp] theorem State.withSaturation_mem (s : State) (r : Sum) (v : Word) :
    (s.withSaturation r v).mem = s.mem := by
  unfold State.withSaturation; split <;> rfl
@[simp] theorem State.withSaturation_deviceOut (s : State) (r : Sum) (v : Word) :
    (s.withSaturation r v).deviceOut = s.deviceOut := by
  unfold State.withSaturation; split <;> rfl
@[simp] theorem State.withSaturation_tick (s : State) (r : Sum) (v : Word) :
    (s.withSaturation r v).tick = s.tick := by
  unfold State.withSaturation; split <;> rfl
@[simp] theorem State.withSaturation_choice (s : State) (r : Sum) (v : Word) :
    (s.withSaturation r v).choice = s.choice := by
  unfold State.withSaturation; split <;> rfl
@[simp] theorem State.withSaturation_reg (s : State) (r : Sum) (v : Word) (q : Reg) :
    (s.withSaturation r v).reg q = s.reg q := by
  simp [State.reg]
@[simp] theorem State.withSaturation_pcAfter (s : State) (r : Sum) (v : Word) (m : Nat) :
    (s.withSaturation r v).pcAfter m = s.pcAfter m := by simp [State.pcAfter]
@[simp] theorem State.withSaturation_userMode (s : State) (r : Sum) (v : Word) :
    (s.withSaturation r v).userMode = s.userMode := by simp [State.userMode]
@[simp] theorem State.withSaturation_kindAt (s : State) (r : Sum) (v : Word) (x : Word) :
    (s.withSaturation r v).kindAt x = s.kindAt x := by simp [State.kindAt]

/-! ## setReg -/

@[simp] theorem State.setReg_pc (s : State) (r : Reg) (v : Word) : (s.setReg r v).pc = s.pc := by
  unfold State.setReg; split <;> rfl
@[simp] theorem State.setReg_psw (s : State) (r : Reg) (v : Word) : (s.setReg r v).psw = s.psw := by
  unfold State.setReg; split <;> rfl
@[simp] theorem State.setReg_eipc (s : State) (r : Reg) (v : Word) :
    (s.setReg r v).eipc = s.eipc := by
  unfold State.setReg; split <;> rfl
@[simp] theorem State.setReg_eipsw (s : State) (r : Reg) (v : Word) :
    (s.setReg r v).eipsw = s.eipsw := by
  unfold State.setReg; split <;> rfl
@[simp] theorem State.setReg_fepc (s : State) (r : Reg) (v : Word) :
    (s.setReg r v).fepc = s.fepc := by
  unfold State.setReg; split <;> rfl
@[simp] theorem State.setReg_fepsw (s : State) (r : Reg) (v : Word) :
    (s.setReg r v).fepsw = s.fepsw := by
  unfold State.setReg; split <;> rfl
@[simp] theorem State.setReg_ecr (s : State) (r : Reg) (v : Word) : (s.setReg r v).ecr = s.ecr := by
  unfold State.setReg; split <;> rfl
@[simp] theorem State.setReg_ctpc (s : State) (r : Reg) (v : Word) :
    (s.setReg r v).ctpc = s.ctpc := by
  unfold State.setReg; split <;> rfl
@[simp] theorem State.setReg_ctpsw (s : State) (r : Reg) (v : Word) :
    (s.setReg r v).ctpsw = s.ctpsw := by
  unfold State.setReg; split <;> rfl
@[simp] theorem State.setReg_dbpc (s : State) (r : Reg) (v : Word) :
    (s.setReg r v).dbpc = s.dbpc := by
  unfold State.setReg; split <;> rfl
@[simp] theorem State.setReg_dbpsw (s : State) (r : Reg) (v : Word) :
    (s.setReg r v).dbpsw = s.dbpsw := by
  unfold State.setReg; split <;> rfl
@[simp] theorem State.setReg_ctbp (s : State) (r : Reg) (v : Word) :
    (s.setReg r v).ctbp = s.ctbp := by
  unfold State.setReg; split <;> rfl
@[simp] theorem State.setReg_dir (s : State) (r : Reg) (v : Word) : (s.setReg r v).dir = s.dir := by
  unfold State.setReg; split <;> rfl
@[simp] theorem State.setReg_asid (s : State) (r : Reg) (v : Word) :
    (s.setReg r v).asid = s.asid := by
  unfold State.setReg; split <;> rfl
@[simp] theorem State.setReg_channels (s : State) (r : Reg) (v : Word) :
    (s.setReg r v).channels = s.channels := by
  unfold State.setReg; split <;> rfl
@[simp] theorem State.setReg_halted (s : State) (r : Reg) (v : Word) :
    (s.setReg r v).halted = s.halted := by
  unfold State.setReg; split <;> rfl
@[simp] theorem State.setReg_seq0 (s : State) (r : Reg) (v : Word) :
    (s.setReg r v).seq0 = s.seq0 := by
  unfold State.setReg; split <;> rfl
@[simp] theorem State.setReg_seq1 (s : State) (r : Reg) (v : Word) :
    (s.setReg r v).seq1 = s.seq1 := by
  unfold State.setReg; split <;> rfl
@[simp] theorem State.setReg_stepDue (s : State) (r : Reg) (v : Word) :
    (s.setReg r v).stepDue = s.stepDue := by
  unfold State.setReg; split <;> rfl
@[simp] theorem State.setReg_afterReset (s : State) (r : Reg) (v : Word) :
    (s.setReg r v).afterReset = s.afterReset := by
  unfold State.setReg; split <;> rfl
@[simp] theorem State.setReg_nmi0 (s : State) (r : Reg) (v : Word) :
    (s.setReg r v).nmi0 = s.nmi0 := by
  unfold State.setReg; split <;> rfl
@[simp] theorem State.setReg_nmi1 (s : State) (r : Reg) (v : Word) :
    (s.setReg r v).nmi1 = s.nmi1 := by
  unfold State.setReg; split <;> rfl
@[simp] theorem State.setReg_nmi2 (s : State) (r : Reg) (v : Word) :
    (s.setReg r v).nmi2 = s.nmi2 := by
  unfold State.setReg; split <;> rfl
@[simp] theorem State.setReg_intReq (s : State) (r : Reg) (v : Word) :
    (s.setReg r v).intReq = s.intReq := by
  unfold State.setReg; split <;> rfl
@[simp] theorem State.setReg_platform (s : State) (r : Reg) (v : Word) :
    (s.setReg r v).platform = s.platform := by
  unfold State.setReg; split <;> rfl
@[simp] theorem State.setReg_mem (s : State) (r : Reg) (v : Word) : (s.setReg r v).mem = s.mem := by
  unfold State.setReg; split <;> rfl
@[simp] theorem State.setReg_deviceOut (s : State) (r : Reg) (v : Word) :
    (s.setReg r v).deviceOut = s.deviceOut := by
  unfold State.setReg; split <;> rfl
@[simp] theorem State.setReg_tick (s : State) (r : Reg) (v : Word) :
    (s.setReg r v).tick = s.tick := by
  unfold State.setReg; split <;> rfl
@[simp] theorem State.setReg_choice (s : State) (r : Reg) (v : Word) :
    (s.setReg r v).choice = s.choice := by
  unfold State.setReg; split <;> rfl
@[simp] theorem State.setReg_pcAfter (s : State) (r : Reg) (v : Word) (m : Nat) :
    (s.setReg r v).pcAfter m = s.pcAfter m := by simp [State.pcAfter]
@[simp] theorem State.setReg_userMode (s : State) (r : Reg) (v : Word) :
    (s.setReg r v).userMode = s.userMode := by simp [State.userMode]
@[simp] theorem State.setReg_kindAt (s : State) (r : Reg) (v : Word) (x : Word) :
    (s.setReg r v).kindAt x = s.kindAt x := by simp [State.kindAt]

/-! ## stored -/

@[simp] theorem State.stored_gpr (s : State) (a : Word) (size : AccessSize) (v : Word) :
    (s.stored a size v).gpr = s.gpr := rfl
@[simp] theorem State.stored_pc (s : State) (a : Word) (size : AccessSize) (v : Word) :
    (s.stored a size v).pc = s.pc := rfl
@[simp] theorem State.stored_psw (s : State) (a : Word) (size : AccessSize) (v : Word) :
    (s.stored a size v).psw = s.psw := rfl
@[simp] theorem State.stored_eipc (s : State) (a : Word) (size : AccessSize) (v : Word) :
    (s.stored a size v).eipc = s.eipc := rfl
@[simp] theorem State.stored_eipsw (s : State) (a : Word) (size : AccessSize) (v : Word) :
    (s.stored a size v).eipsw = s.eipsw := rfl
@[simp] theorem State.stored_fepc (s : State) (a : Word) (size : AccessSize) (v : Word) :
    (s.stored a size v).fepc = s.fepc := rfl
@[simp] theorem State.stored_fepsw (s : State) (a : Word) (size : AccessSize) (v : Word) :
    (s.stored a size v).fepsw = s.fepsw := rfl
@[simp] theorem State.stored_ecr (s : State) (a : Word) (size : AccessSize) (v : Word) :
    (s.stored a size v).ecr = s.ecr := rfl
@[simp] theorem State.stored_ctpc (s : State) (a : Word) (size : AccessSize) (v : Word) :
    (s.stored a size v).ctpc = s.ctpc := rfl
@[simp] theorem State.stored_ctpsw (s : State) (a : Word) (size : AccessSize) (v : Word) :
    (s.stored a size v).ctpsw = s.ctpsw := rfl
@[simp] theorem State.stored_dbpc (s : State) (a : Word) (size : AccessSize) (v : Word) :
    (s.stored a size v).dbpc = s.dbpc := rfl
@[simp] theorem State.stored_dbpsw (s : State) (a : Word) (size : AccessSize) (v : Word) :
    (s.stored a size v).dbpsw = s.dbpsw := rfl
@[simp] theorem State.stored_ctbp (s : State) (a : Word) (size : AccessSize) (v : Word) :
    (s.stored a size v).ctbp = s.ctbp := rfl
@[simp] theorem State.stored_dir (s : State) (a : Word) (size : AccessSize) (v : Word) :
    (s.stored a size v).dir = s.dir := rfl
@[simp] theorem State.stored_asid (s : State) (a : Word) (size : AccessSize) (v : Word) :
    (s.stored a size v).asid = s.asid := rfl
@[simp] theorem State.stored_channels (s : State) (a : Word) (size : AccessSize) (v : Word) :
    (s.stored a size v).channels = s.channels := rfl
@[simp] theorem State.stored_halted (s : State) (a : Word) (size : AccessSize) (v : Word) :
    (s.stored a size v).halted = s.halted := rfl
@[simp] theorem State.stored_seq0 (s : State) (a : Word) (size : AccessSize) (v : Word) :
    (s.stored a size v).seq0 = s.seq0 := rfl
@[simp] theorem State.stored_seq1 (s : State) (a : Word) (size : AccessSize) (v : Word) :
    (s.stored a size v).seq1 = s.seq1 := rfl
@[simp] theorem State.stored_stepDue (s : State) (a : Word) (size : AccessSize) (v : Word) :
    (s.stored a size v).stepDue = s.stepDue := rfl
@[simp] theorem State.stored_afterReset (s : State) (a : Word) (size : AccessSize) (v : Word) :
    (s.stored a size v).afterReset = s.afterReset := rfl
@[simp] theorem State.stored_nmi0 (s : State) (a : Word) (size : AccessSize) (v : Word) :
    (s.stored a size v).nmi0 = s.nmi0 := rfl
@[simp] theorem State.stored_nmi1 (s : State) (a : Word) (size : AccessSize) (v : Word) :
    (s.stored a size v).nmi1 = s.nmi1 := rfl
@[simp] theorem State.stored_nmi2 (s : State) (a : Word) (size : AccessSize) (v : Word) :
    (s.stored a size v).nmi2 = s.nmi2 := rfl
@[simp] theorem State.stored_intReq (s : State) (a : Word) (size : AccessSize) (v : Word) :
    (s.stored a size v).intReq = s.intReq := rfl
@[simp] theorem State.stored_platform (s : State) (a : Word) (size : AccessSize) (v : Word) :
    (s.stored a size v).platform = s.platform := rfl
@[simp] theorem State.stored_tick (s : State) (a : Word) (size : AccessSize) (v : Word) :
    (s.stored a size v).tick = s.tick := rfl
@[simp] theorem State.stored_choice (s : State) (a : Word) (size : AccessSize) (v : Word) :
    (s.stored a size v).choice = s.choice := rfl
@[simp] theorem State.stored_reg (s : State) (a : Word) (size : AccessSize) (v : Word) (q : Reg) :
    (s.stored a size v).reg q = s.reg q := rfl
@[simp] theorem State.stored_pcAfter (s : State) (a : Word) (size : AccessSize) (v : Word) (m : Nat) :
    (s.stored a size v).pcAfter m = s.pcAfter m := by simp [State.pcAfter]
@[simp] theorem State.stored_userMode (s : State) (a : Word) (size : AccessSize) (v : Word) :
    (s.stored a size v).userMode = s.userMode := by simp [State.userMode]
@[simp] theorem State.stored_kindAt (s : State) (a : Word) (size : AccessSize) (v : Word) (x : Word) :
    (s.stored a size v).kindAt x = s.kindAt x := by simp [State.kindAt]

/-! ## save -/

@[simp] theorem State.save_gpr (s : State) (b : SaveBank) (v : Word) :
    (s.save b v).gpr = s.gpr := by
  cases b <;> rfl
@[simp] theorem State.save_pc (s : State) (b : SaveBank) (v : Word) : (s.save b v).pc = s.pc := by
  cases b <;> rfl
@[simp] theorem State.save_psw (s : State) (b : SaveBank) (v : Word) :
    (s.save b v).psw = s.psw := by
  cases b <;> rfl
@[simp] theorem State.save_ecr (s : State) (b : SaveBank) (v : Word) :
    (s.save b v).ecr = s.ecr := by
  cases b <;> rfl
@[simp] theorem State.save_ctbp (s : State) (b : SaveBank) (v : Word) :
    (s.save b v).ctbp = s.ctbp := by
  cases b <;> rfl
@[simp] theorem State.save_dir (s : State) (b : SaveBank) (v : Word) :
    (s.save b v).dir = s.dir := by
  cases b <;> rfl
@[simp] theorem State.save_asid (s : State) (b : SaveBank) (v : Word) :
    (s.save b v).asid = s.asid := by
  cases b <;> rfl
@[simp] theorem State.save_channels (s : State) (b : SaveBank) (v : Word) :
    (s.save b v).channels = s.channels := by
  cases b <;> rfl
@[simp] theorem State.save_halted (s : State) (b : SaveBank) (v : Word) :
    (s.save b v).halted = s.halted := by
  cases b <;> rfl
@[simp] theorem State.save_seq0 (s : State) (b : SaveBank) (v : Word) :
    (s.save b v).seq0 = s.seq0 := by
  cases b <;> rfl
@[simp] theorem State.save_seq1 (s : State) (b : SaveBank) (v : Word) :
    (s.save b v).seq1 = s.seq1 := by
  cases b <;> rfl
@[simp] theorem State.save_stepDue (s : State) (b : SaveBank) (v : Word) :
    (s.save b v).stepDue = s.stepDue := by
  cases b <;> rfl
@[simp] theorem State.save_afterReset (s : State) (b : SaveBank) (v : Word) :
    (s.save b v).afterReset = s.afterReset := by
  cases b <;> rfl
@[simp] theorem State.save_nmi0 (s : State) (b : SaveBank) (v : Word) :
    (s.save b v).nmi0 = s.nmi0 := by
  cases b <;> rfl
@[simp] theorem State.save_nmi1 (s : State) (b : SaveBank) (v : Word) :
    (s.save b v).nmi1 = s.nmi1 := by
  cases b <;> rfl
@[simp] theorem State.save_nmi2 (s : State) (b : SaveBank) (v : Word) :
    (s.save b v).nmi2 = s.nmi2 := by
  cases b <;> rfl
@[simp] theorem State.save_intReq (s : State) (b : SaveBank) (v : Word) :
    (s.save b v).intReq = s.intReq := by
  cases b <;> rfl
@[simp] theorem State.save_platform (s : State) (b : SaveBank) (v : Word) :
    (s.save b v).platform = s.platform := by
  cases b <;> rfl
@[simp] theorem State.save_mem (s : State) (b : SaveBank) (v : Word) :
    (s.save b v).mem = s.mem := by
  cases b <;> rfl
@[simp] theorem State.save_deviceOut (s : State) (b : SaveBank) (v : Word) :
    (s.save b v).deviceOut = s.deviceOut := by
  cases b <;> rfl
@[simp] theorem State.save_tick (s : State) (b : SaveBank) (v : Word) :
    (s.save b v).tick = s.tick := by
  cases b <;> rfl
@[simp] theorem State.save_choice (s : State) (b : SaveBank) (v : Word) :
    (s.save b v).choice = s.choice := by
  cases b <;> rfl
@[simp] theorem State.save_reg (s : State) (b : SaveBank) (v : Word) (q : Reg) :
    (s.save b v).reg q = s.reg q := by
  simp [State.reg]
@[simp] theorem State.save_pcAfter (s : State) (b : SaveBank) (v : Word) (m : Nat) :
    (s.save b v).pcAfter m = s.pcAfter m := by simp [State.pcAfter]
@[simp] theorem State.save_userMode (s : State) (b : SaveBank) (v : Word) :
    (s.save b v).userMode = s.userMode := by simp [State.userMode]
@[simp] theorem State.save_kindAt (s : State) (b : SaveBank) (v : Word) (x : Word) :
    (s.save b v).kindAt x = s.kindAt x := by simp [State.kindAt]

/-! ## enter -/

@[simp] theorem State.enter_gpr (s : State) (e : Entry) : (s.enter e).gpr = s.gpr := by
  cases e with | mk b _ _ _ _ _ _ _ _ => cases b <;> rfl
@[simp] theorem State.enter_pc (s : State) (e : Entry) :
    (s.enter e).pc = reducePc e.handler := by
  cases e with | mk b _ _ _ _ _ _ _ _ => cases b <;> rfl
@[simp] theorem State.enter_psw (s : State) (e : Entry) :
    (s.enter e).psw = enteredPsw s.psw s.dir e := by
  cases e with | mk b _ _ _ _ _ _ _ _ => cases b <;> rfl
@[simp] theorem State.enter_ecr (s : State) (e : Entry) :
    (s.enter e).ecr = ecrWith s.ecr e.bank e.code := by
  cases e with | mk b _ _ _ _ _ _ _ _ => cases b <;> rfl
@[simp] theorem State.enter_ctbp (s : State) (e : Entry) : (s.enter e).ctbp = s.ctbp := by
  cases e with | mk b _ _ _ _ _ _ _ _ => cases b <;> rfl
@[simp] theorem State.enter_dir (s : State) (e : Entry) :
    (s.enter e).dir = if e.toDebug then putBit s.dir Dir.dm true else s.dir := by
  cases e with | mk b _ _ _ _ _ _ _ _ => cases b <;> rfl
@[simp] theorem State.enter_asid (s : State) (e : Entry) : (s.enter e).asid = s.asid := by
  cases e with | mk b _ _ _ _ _ _ _ _ => cases b <;> rfl
@[simp] theorem State.enter_channels (s : State) (e : Entry) :
    (s.enter e).channels = s.channels := by
  cases e with | mk b _ _ _ _ _ _ _ _ => cases b <;> rfl
@[simp] theorem State.enter_halted (s : State) (e : Entry) :
    (s.enter e).halted = (s.halted && !e.wake) := by
  cases e with | mk b _ _ _ _ _ _ _ _ => cases b <;> rfl
@[simp] theorem State.enter_seq0 (s : State) (e : Entry) : (s.enter e).seq0 = s.seq0 := by
  cases e with | mk b _ _ _ _ _ _ _ _ => cases b <;> rfl
@[simp] theorem State.enter_seq1 (s : State) (e : Entry) : (s.enter e).seq1 = s.seq1 := by
  cases e with | mk b _ _ _ _ _ _ _ _ => cases b <;> rfl
@[simp] theorem State.enter_stepDue (s : State) (e : Entry) : (s.enter e).stepDue = s.stepDue := by
  cases e with | mk b _ _ _ _ _ _ _ _ => cases b <;> rfl
@[simp] theorem State.enter_afterReset (s : State) (e : Entry) :
    (s.enter e).afterReset = s.afterReset := by
  cases e with | mk b _ _ _ _ _ _ _ _ => cases b <;> rfl
@[simp] theorem State.enter_nmi0 (s : State) (e : Entry) : (s.enter e).nmi0 = s.nmi0 := by
  cases e with | mk b _ _ _ _ _ _ _ _ => cases b <;> rfl
@[simp] theorem State.enter_nmi1 (s : State) (e : Entry) : (s.enter e).nmi1 = s.nmi1 := by
  cases e with | mk b _ _ _ _ _ _ _ _ => cases b <;> rfl
@[simp] theorem State.enter_nmi2 (s : State) (e : Entry) : (s.enter e).nmi2 = s.nmi2 := by
  cases e with | mk b _ _ _ _ _ _ _ _ => cases b <;> rfl
@[simp] theorem State.enter_intReq (s : State) (e : Entry) : (s.enter e).intReq = s.intReq := by
  cases e with | mk b _ _ _ _ _ _ _ _ => cases b <;> rfl
@[simp] theorem State.enter_platform (s : State) (e : Entry) :
    (s.enter e).platform = s.platform := by
  cases e with | mk b _ _ _ _ _ _ _ _ => cases b <;> rfl
@[simp] theorem State.enter_mem (s : State) (e : Entry) : (s.enter e).mem = s.mem := by
  cases e with | mk b _ _ _ _ _ _ _ _ => cases b <;> rfl
@[simp] theorem State.enter_deviceOut (s : State) (e : Entry) :
    (s.enter e).deviceOut = s.deviceOut := by
  cases e with | mk b _ _ _ _ _ _ _ _ => cases b <;> rfl
@[simp] theorem State.enter_tick (s : State) (e : Entry) : (s.enter e).tick = s.tick := by
  cases e with | mk b _ _ _ _ _ _ _ _ => cases b <;> rfl
@[simp] theorem State.enter_choice (s : State) (e : Entry) : (s.enter e).choice = s.choice := by
  cases e with | mk b _ _ _ _ _ _ _ _ => cases b <;> rfl
@[simp] theorem State.enter_reg (s : State) (e : Entry) (q : Reg) :
    (s.enter e).reg q = s.reg q := by
  simp [State.reg]
@[simp] theorem State.enter_kindAt (s : State) (e : Entry) (x : Word) :
    (s.enter e).kindAt x = s.kindAt x := by simp [State.kindAt]

/-! ## returnFrom -/

@[simp] theorem State.returnFrom_gpr (s : State) (b : SaveBank) :
    (s.returnFrom b).gpr = s.gpr := rfl
@[simp] theorem State.returnFrom_pc (s : State) (b : SaveBank) :
    (s.returnFrom b).pc = reducePc (s.savedPc b) := rfl
@[simp] theorem State.returnFrom_psw (s : State) (b : SaveBank) :
    (s.returnFrom b).psw = legalPsw s.dir (s.savedPsw b) := rfl
@[simp] theorem State.returnFrom_eipc (s : State) (b : SaveBank) :
    (s.returnFrom b).eipc = s.eipc := rfl
@[simp] theorem State.returnFrom_eipsw (s : State) (b : SaveBank) :
    (s.returnFrom b).eipsw = s.eipsw := rfl
@[simp] theorem State.returnFrom_fepc (s : State) (b : SaveBank) :
    (s.returnFrom b).fepc = s.fepc := rfl
@[simp] theorem State.returnFrom_fepsw (s : State) (b : SaveBank) :
    (s.returnFrom b).fepsw = s.fepsw := rfl
@[simp] theorem State.returnFrom_ecr (s : State) (b : SaveBank) :
    (s.returnFrom b).ecr = s.ecr := rfl
@[simp] theorem State.returnFrom_ctpc (s : State) (b : SaveBank) :
    (s.returnFrom b).ctpc = s.ctpc := rfl
@[simp] theorem State.returnFrom_ctpsw (s : State) (b : SaveBank) :
    (s.returnFrom b).ctpsw = s.ctpsw := rfl
@[simp] theorem State.returnFrom_dbpc (s : State) (b : SaveBank) :
    (s.returnFrom b).dbpc = s.dbpc := rfl
@[simp] theorem State.returnFrom_dbpsw (s : State) (b : SaveBank) :
    (s.returnFrom b).dbpsw = s.dbpsw := rfl
@[simp] theorem State.returnFrom_ctbp (s : State) (b : SaveBank) :
    (s.returnFrom b).ctbp = s.ctbp := rfl
@[simp] theorem State.returnFrom_dir (s : State) (b : SaveBank) :
    (s.returnFrom b).dir = s.dir := rfl
@[simp] theorem State.returnFrom_asid (s : State) (b : SaveBank) :
    (s.returnFrom b).asid = s.asid := rfl
@[simp] theorem State.returnFrom_channels (s : State) (b : SaveBank) :
    (s.returnFrom b).channels = s.channels := rfl
@[simp] theorem State.returnFrom_halted (s : State) (b : SaveBank) :
    (s.returnFrom b).halted = s.halted := rfl
@[simp] theorem State.returnFrom_seq0 (s : State) (b : SaveBank) :
    (s.returnFrom b).seq0 = s.seq0 := rfl
@[simp] theorem State.returnFrom_seq1 (s : State) (b : SaveBank) :
    (s.returnFrom b).seq1 = s.seq1 := rfl
@[simp] theorem State.returnFrom_stepDue (s : State) (b : SaveBank) :
    (s.returnFrom b).stepDue = s.stepDue := rfl
@[simp] theorem State.returnFrom_afterReset (s : State) (b : SaveBank) :
    (s.returnFrom b).afterReset = s.afterReset := rfl
@[simp] theorem State.returnFrom_nmi0 (s : State) (b : SaveBank) :
    (s.returnFrom b).nmi0 = s.nmi0 := rfl
@[simp] theorem State.returnFrom_nmi1 (s : State) (b : SaveBank) :
    (s.returnFrom b).nmi1 = s.nmi1 := rfl
@[simp] theorem State.returnFrom_nmi2 (s : State) (b : SaveBank) :
    (s.returnFrom b).nmi2 = s.nmi2 := rfl
@[simp] theorem State.returnFrom_intReq (s : State) (b : SaveBank) :
    (s.returnFrom b).intReq = s.intReq := rfl
@[simp] theorem State.returnFrom_platform (s : State) (b : SaveBank) :
    (s.returnFrom b).platform = s.platform := rfl
@[simp] theorem State.returnFrom_mem (s : State) (b : SaveBank) :
    (s.returnFrom b).mem = s.mem := rfl
@[simp] theorem State.returnFrom_deviceOut (s : State) (b : SaveBank) :
    (s.returnFrom b).deviceOut = s.deviceOut := rfl
@[simp] theorem State.returnFrom_tick (s : State) (b : SaveBank) :
    (s.returnFrom b).tick = s.tick := rfl
@[simp] theorem State.returnFrom_choice (s : State) (b : SaveBank) :
    (s.returnFrom b).choice = s.choice := rfl
@[simp] theorem State.returnFrom_reg (s : State) (b : SaveBank) (q : Reg) :
    (s.returnFrom b).reg q = s.reg q := rfl
@[simp] theorem State.returnFrom_userMode (s : State) (b : SaveBank) :
    (s.returnFrom b).userMode = s.userMode := by simp [State.userMode]
@[simp] theorem State.returnFrom_kindAt (s : State) (b : SaveBank) (x : Word) :
    (s.returnFrom b).kindAt x = s.kindAt x := by simp [State.kindAt]

/-! ## keepProgress -/

@[simp] theorem State.keepProgress_gpr (s : State) (w : Watch) :
    (s.keepProgress w).gpr = s.gpr := rfl
@[simp] theorem State.keepProgress_pc (s : State) (w : Watch) : (s.keepProgress w).pc = s.pc := rfl
@[simp] theorem State.keepProgress_psw (s : State) (w : Watch) :
    (s.keepProgress w).psw = s.psw := rfl
@[simp] theorem State.keepProgress_eipc (s : State) (w : Watch) :
    (s.keepProgress w).eipc = s.eipc := rfl
@[simp] theorem State.keepProgress_eipsw (s : State) (w : Watch) :
    (s.keepProgress w).eipsw = s.eipsw := rfl
@[simp] theorem State.keepProgress_fepc (s : State) (w : Watch) :
    (s.keepProgress w).fepc = s.fepc := rfl
@[simp] theorem State.keepProgress_fepsw (s : State) (w : Watch) :
    (s.keepProgress w).fepsw = s.fepsw := rfl
@[simp] theorem State.keepProgress_ecr (s : State) (w : Watch) :
    (s.keepProgress w).ecr = s.ecr := rfl
@[simp] theorem State.keepProgress_ctpc (s : State) (w : Watch) :
    (s.keepProgress w).ctpc = s.ctpc := rfl
@[simp] theorem State.keepProgress_ctpsw (s : State) (w : Watch) :
    (s.keepProgress w).ctpsw = s.ctpsw := rfl
@[simp] theorem State.keepProgress_dbpc (s : State) (w : Watch) :
    (s.keepProgress w).dbpc = s.dbpc := rfl
@[simp] theorem State.keepProgress_dbpsw (s : State) (w : Watch) :
    (s.keepProgress w).dbpsw = s.dbpsw := rfl
@[simp] theorem State.keepProgress_ctbp (s : State) (w : Watch) :
    (s.keepProgress w).ctbp = s.ctbp := rfl
@[simp] theorem State.keepProgress_dir (s : State) (w : Watch) :
    (s.keepProgress w).dir = s.dir := rfl
@[simp] theorem State.keepProgress_asid (s : State) (w : Watch) :
    (s.keepProgress w).asid = s.asid := rfl
@[simp] theorem State.keepProgress_channels (s : State) (w : Watch) :
    (s.keepProgress w).channels = s.channels := rfl
@[simp] theorem State.keepProgress_halted (s : State) (w : Watch) :
    (s.keepProgress w).halted = s.halted := rfl
@[simp] theorem State.keepProgress_seq0 (s : State) (w : Watch) :
    (s.keepProgress w).seq0 = w.seq0 := rfl
@[simp] theorem State.keepProgress_seq1 (s : State) (w : Watch) :
    (s.keepProgress w).seq1 = w.seq1 := rfl
@[simp] theorem State.keepProgress_stepDue (s : State) (w : Watch) :
    (s.keepProgress w).stepDue = s.stepDue := rfl
@[simp] theorem State.keepProgress_afterReset (s : State) (w : Watch) :
    (s.keepProgress w).afterReset = s.afterReset := rfl
@[simp] theorem State.keepProgress_nmi0 (s : State) (w : Watch) :
    (s.keepProgress w).nmi0 = s.nmi0 := rfl
@[simp] theorem State.keepProgress_nmi1 (s : State) (w : Watch) :
    (s.keepProgress w).nmi1 = s.nmi1 := rfl
@[simp] theorem State.keepProgress_nmi2 (s : State) (w : Watch) :
    (s.keepProgress w).nmi2 = s.nmi2 := rfl
@[simp] theorem State.keepProgress_intReq (s : State) (w : Watch) :
    (s.keepProgress w).intReq = s.intReq := rfl
@[simp] theorem State.keepProgress_platform (s : State) (w : Watch) :
    (s.keepProgress w).platform = s.platform := rfl
@[simp] theorem State.keepProgress_mem (s : State) (w : Watch) :
    (s.keepProgress w).mem = s.mem := rfl
@[simp] theorem State.keepProgress_deviceOut (s : State) (w : Watch) :
    (s.keepProgress w).deviceOut = s.deviceOut := rfl
@[simp] theorem State.keepProgress_tick (s : State) (w : Watch) :
    (s.keepProgress w).tick = s.tick := rfl
@[simp] theorem State.keepProgress_choice (s : State) (w : Watch) :
    (s.keepProgress w).choice = s.choice := rfl
@[simp] theorem State.keepProgress_reg (s : State) (w : Watch) (q : Reg) :
    (s.keepProgress w).reg q = s.reg q := rfl
@[simp] theorem State.keepProgress_pcAfter (s : State) (w : Watch) (m : Nat) :
    (s.keepProgress w).pcAfter m = s.pcAfter m := by simp [State.pcAfter]
@[simp] theorem State.keepProgress_userMode (s : State) (w : Watch) :
    (s.keepProgress w).userMode = s.userMode := by simp [State.userMode]
@[simp] theorem State.keepProgress_kindAt (s : State) (w : Watch) (x : Word) :
    (s.keepProgress w).kindAt x = s.kindAt x := by simp [State.kindAt]

/-! ## nextTick -/

@[simp] theorem State.nextTick_gpr (s : State) : (s.nextTick).gpr = s.gpr := rfl
@[simp] theorem State.nextTick_pc (s : State) : (s.nextTick).pc = s.pc := rfl
@[simp] theorem State.nextTick_psw (s : State) : (s.nextTick).psw = s.psw := rfl
@[simp] theorem State.nextTick_eipc (s : State) : (s.nextTick).eipc = s.eipc := rfl
@[simp] theorem State.nextTick_eipsw (s : State) : (s.nextTick).eipsw = s.eipsw := rfl
@[simp] theorem State.nextTick_fepc (s : State) : (s.nextTick).fepc = s.fepc := rfl
@[simp] theorem State.nextTick_fepsw (s : State) : (s.nextTick).fepsw = s.fepsw := rfl
@[simp] theorem State.nextTick_ecr (s : State) : (s.nextTick).ecr = s.ecr := rfl
@[simp] theorem State.nextTick_ctpc (s : State) : (s.nextTick).ctpc = s.ctpc := rfl
@[simp] theorem State.nextTick_ctpsw (s : State) : (s.nextTick).ctpsw = s.ctpsw := rfl
@[simp] theorem State.nextTick_dbpc (s : State) : (s.nextTick).dbpc = s.dbpc := rfl
@[simp] theorem State.nextTick_dbpsw (s : State) : (s.nextTick).dbpsw = s.dbpsw := rfl
@[simp] theorem State.nextTick_ctbp (s : State) : (s.nextTick).ctbp = s.ctbp := rfl
@[simp] theorem State.nextTick_dir (s : State) : (s.nextTick).dir = s.dir := rfl
@[simp] theorem State.nextTick_asid (s : State) : (s.nextTick).asid = s.asid := rfl
@[simp] theorem State.nextTick_channels (s : State) : (s.nextTick).channels = s.channels := rfl
@[simp] theorem State.nextTick_halted (s : State) : (s.nextTick).halted = s.halted := rfl
@[simp] theorem State.nextTick_seq0 (s : State) : (s.nextTick).seq0 = s.seq0 := rfl
@[simp] theorem State.nextTick_seq1 (s : State) : (s.nextTick).seq1 = s.seq1 := rfl
@[simp] theorem State.nextTick_stepDue (s : State) : (s.nextTick).stepDue = s.stepDue := rfl
@[simp] theorem State.nextTick_afterReset (s : State) :
    (s.nextTick).afterReset = s.afterReset := rfl
@[simp] theorem State.nextTick_nmi0 (s : State) : (s.nextTick).nmi0 = s.nmi0 := rfl
@[simp] theorem State.nextTick_nmi1 (s : State) : (s.nextTick).nmi1 = s.nmi1 := rfl
@[simp] theorem State.nextTick_nmi2 (s : State) : (s.nextTick).nmi2 = s.nmi2 := rfl
@[simp] theorem State.nextTick_intReq (s : State) : (s.nextTick).intReq = s.intReq := rfl
@[simp] theorem State.nextTick_platform (s : State) : (s.nextTick).platform = s.platform := rfl
@[simp] theorem State.nextTick_mem (s : State) : (s.nextTick).mem = s.mem := rfl
@[simp] theorem State.nextTick_deviceOut (s : State) : (s.nextTick).deviceOut = s.deviceOut := rfl
@[simp] theorem State.nextTick_tick (s : State) :
    (s.nextTick).tick = s.tick + 1 := rfl
@[simp] theorem State.nextTick_choice (s : State) :
    (s.nextTick).choice = Config.arbiter (s.tick + 1) := rfl
@[simp] theorem State.nextTick_reg (s : State) (q : Reg) :
    (s.nextTick).reg q = s.reg q := rfl
@[simp] theorem State.nextTick_pcAfter (s : State) (m : Nat) :
    (s.nextTick).pcAfter m = s.pcAfter m := by simp [State.pcAfter]
@[simp] theorem State.nextTick_userMode (s : State) :
    (s.nextTick).userMode = s.userMode := by simp [State.userMode]
@[simp] theorem State.nextTick_kindAt (s : State) (x : Word) :
    (s.nextTick).kindAt x = s.kindAt x := by simp [State.kindAt]

/-! ## finishInstruction -/

@[simp] theorem State.finishInstruction_gpr (s t : State) :
    (s.finishInstruction t).gpr = t.gpr := rfl
@[simp] theorem State.finishInstruction_pc (s t : State) : (s.finishInstruction t).pc = t.pc := rfl
@[simp] theorem State.finishInstruction_psw (s t : State) :
    (s.finishInstruction t).psw = t.psw := rfl
@[simp] theorem State.finishInstruction_eipc (s t : State) :
    (s.finishInstruction t).eipc = t.eipc := rfl
@[simp] theorem State.finishInstruction_eipsw (s t : State) :
    (s.finishInstruction t).eipsw = t.eipsw := rfl
@[simp] theorem State.finishInstruction_fepc (s t : State) :
    (s.finishInstruction t).fepc = t.fepc := rfl
@[simp] theorem State.finishInstruction_fepsw (s t : State) :
    (s.finishInstruction t).fepsw = t.fepsw := rfl
@[simp] theorem State.finishInstruction_ecr (s t : State) :
    (s.finishInstruction t).ecr = t.ecr := rfl
@[simp] theorem State.finishInstruction_ctpc (s t : State) :
    (s.finishInstruction t).ctpc = t.ctpc := rfl
@[simp] theorem State.finishInstruction_ctpsw (s t : State) :
    (s.finishInstruction t).ctpsw = t.ctpsw := rfl
@[simp] theorem State.finishInstruction_dbpc (s t : State) :
    (s.finishInstruction t).dbpc = t.dbpc := rfl
@[simp] theorem State.finishInstruction_dbpsw (s t : State) :
    (s.finishInstruction t).dbpsw = t.dbpsw := rfl
@[simp] theorem State.finishInstruction_ctbp (s t : State) :
    (s.finishInstruction t).ctbp = t.ctbp := rfl
@[simp] theorem State.finishInstruction_dir (s t : State) :
    (s.finishInstruction t).dir = t.dir := rfl
@[simp] theorem State.finishInstruction_asid (s t : State) :
    (s.finishInstruction t).asid = t.asid := rfl
@[simp] theorem State.finishInstruction_channels (s t : State) :
    (s.finishInstruction t).channels = t.channels := rfl
@[simp] theorem State.finishInstruction_halted (s t : State) :
    (s.finishInstruction t).halted = t.halted := rfl
@[simp] theorem State.finishInstruction_seq0 (s t : State) :
    (s.finishInstruction t).seq0 = t.seq0 := rfl
@[simp] theorem State.finishInstruction_seq1 (s t : State) :
    (s.finishInstruction t).seq1 = t.seq1 := rfl
@[simp] theorem State.finishInstruction_stepDue (s t : State) :
    (s.finishInstruction t).stepDue = (s.stepArmed && t.userMode) := rfl
@[simp] theorem State.finishInstruction_afterReset (s t : State) :
    (s.finishInstruction t).afterReset = false := rfl
@[simp] theorem State.finishInstruction_nmi0 (s t : State) :
    (s.finishInstruction t).nmi0 = t.nmi0 := rfl
@[simp] theorem State.finishInstruction_nmi1 (s t : State) :
    (s.finishInstruction t).nmi1 = t.nmi1 := rfl
@[simp] theorem State.finishInstruction_nmi2 (s t : State) :
    (s.finishInstruction t).nmi2 = t.nmi2 := rfl
@[simp] theorem State.finishInstruction_intReq (s t : State) :
    (s.finishInstruction t).intReq = t.intReq := rfl
@[simp] theorem State.finishInstruction_platform (s t : State) :
    (s.finishInstruction t).platform = t.platform := rfl
@[simp] theorem State.finishInstruction_mem (s t : State) :
    (s.finishInstruction t).mem = t.mem := rfl
@[simp] theorem State.finishInstruction_deviceOut (s t : State) :
    (s.finishInstruction t).deviceOut = t.deviceOut := rfl
@[simp] theorem State.finishInstruction_tick (s t : State) :
    (s.finishInstruction t).tick = t.tick := rfl
@[simp] theorem State.finishInstruction_choice (s t : State) :
    (s.finishInstruction t).choice = t.choice := rfl
@[simp] theorem State.finishInstruction_reg (s t : State) (q : Reg) :
    (s.finishInstruction t).reg q = t.reg q := rfl
@[simp] theorem State.finishInstruction_pcAfter (s t : State) (m : Nat) :
    (s.finishInstruction t).pcAfter m = t.pcAfter m := by simp [State.pcAfter]
@[simp] theorem State.finishInstruction_userMode (s t : State) :
    (s.finishInstruction t).userMode = t.userMode := by simp [State.userMode]
@[simp] theorem State.finishInstruction_kindAt (s t : State) (x : Word) :
    (s.finishInstruction t).kindAt x = t.kindAt x := by simp [State.kindAt]

end Sys2Proof.Machine
end

