-- ==== Sys2Proof/Laws/Registers.lean ====
section
/-! SUPPORT. Reading a register after writing one (10_state.md R20, R21). -/

namespace Sys2Proof.Machine

/-- r0 reads 0. -/
@[simp] theorem State.reg_zero (s : State) : s.reg 0#5 = 0#32 := rfl

/-- A register reads what was written to it, r0 always 0; the others stay. -/
theorem State.reg_setReg (s : State) (r q : Reg) (v : Word) :
    (s.setReg r v).reg q = if q = r then (if r = 0#5 then 0#32 else v) else s.reg q := by
  unfold State.setReg State.reg
  by_cases hr : r = 0#5
  · by_cases hq : q = r
    · subst hq; simp [hr]
    · rw [if_neg hq, if_pos hr]
  · by_cases hq : q = r
    · subst hq; simp [hr]
    · have hne : r.toNat ≠ q.toNat := fun h => hq (BitVec.eq_of_toNat_eq h.symm)
      by_cases hq0 : q = 0#5
      · subst hq0; simp [hq]
      · simp [hr, hq, hq0, Vector.getElem_set_ne _ _ hne]

@[simp] theorem State.reg_setReg_same (s : State) (r : Reg) (v : Word) :
    (s.setReg r v).reg r = if r = 0#5 then 0#32 else v := by
  simp [State.reg_setReg]

theorem State.reg_setReg_ne (s : State) {r q : Reg} (h : q ≠ r) (v : Word) :
    (s.setReg r v).reg q = s.reg q := by
  simp [State.reg_setReg, h]

/-- Registers agree when their cells do. -/
theorem State.reg_congr {s t : State} (h : t.gpr = s.gpr) (q : Reg) : t.reg q = s.reg q := by
  unfold State.reg; rw [h]

/-- A write to a register leaves the unread cell of r0. -/
theorem State.setReg_cell_zero (s : State) (r : Reg) (v : Word) :
    (s.setReg r v).gpr[0] = s.gpr[0] := by
  unfold State.setReg
  by_cases hr : r = 0#5
  · simp [hr]
  · have : r.toNat ≠ 0 := fun h => hr (BitVec.eq_of_toNat_eq (by simpa using h))
    simp [hr, Vector.getElem_set_ne _ _ this]

end Sys2Proof.Machine
end

