-- ==== Sys2Proof/Laws/Ops.lean ====
section
/-! SUPPORT. One lemma per shared operation that says everything it can do; the provers cite these
instead of unfolding. -/

namespace Sys2Proof.Machine

/-! ## Reading and storing -/

/-- `readAt` answers exactly when every byte is mapped, and then the value there. -/
theorem State.readAt_eq_ok {s : State} {a : Word} {size : AccessSize} {v : Word} :
    s.readAt a size = .ok v ↔ s.mapped a size = true ∧ v = s.valueAt a size := by
  unfold State.readAt
  by_cases h : s.mapped a size = true
  · simp [h, eq_comm]
  · simp [h]

/-- `writeAt` answers exactly when every byte is mapped and none is ROM, and then the stored state. -/
theorem State.writeAt_eq_ok {s t : State} {a : Word} {size : AccessSize} {v : Word} :
    s.writeAt a size v = .ok t ↔
      s.mapped a size = true ∧ s.storable a size = true ∧ t = s.stored a size v := by
  unfold State.writeAt
  by_cases h : s.mapped a size = true
  · by_cases h2 : s.storable a size = true
    · simp [h, h2, eq_comm]
    · simp [h, h2]
  · simp [h]

theorem State.storeBytes_wf (s : State) (m : List Host.Cell) (a : Word) (bs : List Byte)
    (hm : Memory.wf m = true) : Memory.wf (s.storeBytes m a bs) = true := by
  induction bs generalizing m a with
  | nil => exact hm
  | cons b bs ih =>
    unfold State.storeBytes
    apply ih
    split
    · exact hm
    · exact Memory.wf_write _ _ _ hm a.isLt

/-- A store keeps the canonical form of memory. -/
theorem State.stored_wf (s : State) (a : Word) (size : AccessSize) (v : Word)
    (hm : Memory.wf s.mem = true) : Memory.wf (s.stored a size v).mem = true :=
  State.storeBytes_wf _ _ _ _ hm

/-- What `storeBytes` leaves in a byte that is none of its addresses. -/
theorem State.read_storeBytes_other (s : State) (m : List Host.Cell) (a : Word) (bs : List Byte)
    (x : Nat) (hx : ∀ k < bs.length, x ≠ (a + BitVec.ofNat 32 k).toNat) :
    Memory.read (s.storeBytes m a bs) x = Memory.read m x := by
  induction bs generalizing m a with
  | nil => rfl
  | cons b bs ih =>
    unfold State.storeBytes
    rw [ih]
    · split
      · rfl
      · rw [Memory.read_write, if_neg]
        simpa using hx 0 (by simp)
    · intro k hk
      have := hx (k + 1) (by simpa using hk)
      rwa [BitVec.ofNat_add, BitVec.add_comm (BitVec.ofNat 32 k), ← BitVec.add_assoc] at this

/-- What `storeBytes` leaves in the `k`-th of its addresses, where that is no device location. -/
theorem State.read_storeBytes_same (s : State) (m : List Host.Cell) (a : Word) (bs : List Byte)
    (k : Nat) (hk : k < bs.length) (hl : bs.length ≤ 2 ^ 32)
    (hd : s.kindAt (a + BitVec.ofNat 32 k) ≠ some .device) :
    Memory.read (s.storeBytes m a bs) (a + BitVec.ofNat 32 k).toNat = bs[k] := by
  induction bs generalizing m a k with
  | nil => simp at hk
  | cons b bs ih =>
    unfold State.storeBytes
    cases k with
    | zero =>
      have hd : s.kindAt a ≠ some .device := by simpa using hd
      rw [State.read_storeBytes_other]
      · simp [hd, Memory.read_write]
      · intro j hj h
        have h := BitVec.eq_of_toNat_eq h
        have h2 : (1#32 + BitVec.ofNat 32 j) = 0#32 := by
          have : a + (1#32 + BitVec.ofNat 32 j) = a + 0#32 := by
            rw [← BitVec.add_assoc]; simpa using h.symm
          simpa using this
        have h3 := congrArg BitVec.toNat h2
        simp only [List.length_cons] at hl
        simp [BitVec.toNat_add, BitVec.toNat_ofNat] at h3
        omega
    | succ k =>
      have e : a + BitVec.ofNat 32 (k + 1) = a + 1 + BitVec.ofNat 32 k := by
        rw [BitVec.ofNat_add, BitVec.add_comm (BitVec.ofNat 32 k), ← BitVec.add_assoc]
        rfl
      simp only [List.length_cons] at hk hl
      rw [e] at hd ⊢
      simpa using ih _ _ k (by omega) (by omega) hd

/-- The bytes of an access, one for each of its addresses. -/
@[simp] theorem bytesOf_length (size : AccessSize) (v : Word) :
    (bytesOf size v).length = size.bytes := by
  simp [bytesOf]

/-- A byte outside a store reads as before. -/
theorem State.read_stored_other (s : State) (a : Word) (size : AccessSize) (v : Word) (x : Nat)
    (hx : ∀ k < size.bytes, x ≠ (a + BitVec.ofNat 32 k).toNat) :
    Memory.read (s.stored a size v).mem x = Memory.read s.mem x :=
  State.read_storeBytes_other _ _ _ _ _ (by simpa using hx)

/-- A byte of a store reads as stored, where it is no device location. -/
theorem State.read_stored_same (s : State) (a : Word) (size : AccessSize) (v : Word) (k : Nat)
    (hk : k < size.bytes) (hd : s.kindAt (a + BitVec.ofNat 32 k) ≠ some .device) :
    Memory.read (s.stored a size v).mem (a + BitVec.ofNat 32 k).toNat
      = v.extractLsb' (8 * k) 8 := by
  have h := State.read_storeBytes_same s s.mem a (bytesOf size v) k (by simpa using hk)
    (by cases size <;> simp [bytesOf, AccessSize.bytes]) hd
  simpa [State.stored, bytesOf] using h

/-! ## Entries -/

/-- PSW after an entry without the SB to SS transfer, bit by bit. -/
theorem enteredPsw_getLsbD (psw dir : Word) (e : Entry) (k : Nat) (hk : k < 32) :
    (enteredPsw psw dir e).getLsbD k =
      if e.transferSb = true ∧ k = Psw.ss then
        ((psw.getLsbD Psw.sb || e.setBits.getLsbD Psw.sb) && !e.clearBits.getLsbD Psw.sb)
          && dir.getLsbD Dir.sse
      else (psw.getLsbD k || e.setBits.getLsbD k) && !e.clearBits.getLsbD k := by
  unfold enteredPsw
  by_cases ht : e.transferSb = true
  · simp only [ht, if_true, putBit_getLsbD _ _ _ _ (show Psw.ss < 32 by decide), true_and]
    by_cases h : k = Psw.ss
    · simp [h, show decide (Psw.sb < 32) = true from rfl]
    · simp [h, hk]
  · simp [ht, hk]

/-- Entering debug mode leaves every field but five. -/
theorem State.debugBreak_eq (s : State) (dbpc : Word) :
    s.debugBreak dbpc =
      { s with
        dbpc := dbpc &&& 0x1FFFFFFF#32
        dbpsw := s.psw &&& Psw.mask
        psw := enteredPsw s.psw s.dir (debugEntry dbpc true)
        dir := putBit s.dir Dir.dm true
        halted := false
        pc := 0x00000060#32 } := by
  simp [State.debugBreak, State.enter, debugEntry, State.save, ecrWith, reducePc]

end Sys2Proof.Machine
end

