-- ==== Sys2Proof/Laws/Completion.lean ====
section
/-! SUPPORT. How a completion claim follows from the shape of a meaning: a new PSW, one or two register
writes, the PC. -/

namespace Sys2Proof.Safety

open Sys2Proof.Machine

/-- A next state that differs from `s` in PSW and PC alone. -/
theorem completes_psw {s : State} {i : Instr} {psw pc : Word} {flags : List (Nat × Bool)}
    (he : exec i s = .next { s with psw := psw, pc := pc })
    (hf : ∀ p ∈ flags, psw.getLsbD p.1 = p.2)
    (hk : ∀ k, k ∉ flags.map Prod.fst → psw.getLsbD k = s.psw.getLsbD k) :
    Completes s i pc [] flags :=
  ⟨_, he, by simp, hf, rfl,
    { regs := fun _ _ => rfl, psw := hk, memory := fun _ _ => rfl, output := fun _ => rfl
      others := rfl }⟩

/-- A next state with one register written. -/
theorem completes_reg {s : State} {i : Instr} {psw pc : Word} {flags : List (Nat × Bool)} {dst :
    Reg}
    {v : Word}
    (he : exec i s = .next (({ s with psw := psw } : State).setReg dst v |>.setPc pc))
    (hpc : reducePc pc = pc)
    (hf : ∀ p ∈ flags, psw.getLsbD p.1 = p.2)
    (hk : ∀ k, k ∉ flags.map Prod.fst → psw.getLsbD k = s.psw.getLsbD k) :
    Completes s i pc [(dst, v)] flags :=
  ⟨_, he, by
      intro p hp
      obtain rfl : p = (dst, v) := by simpa using hp
      simp, by simpa using hf, by simpa using hpc,
    { regs := fun r hr => by
        have : r ≠ dst := by simpa using hr
        rw [State.setPc_reg, State.reg_setReg_ne _ this]; rfl
      psw := by simpa using hk
      memory := fun _ _ => by simp
      output := fun _ => by simp
      others := by unfold State.setReg; split <;> rfl }⟩

/-- A next state with two registers written, the second last. -/
theorem completes_reg2 {s : State} {i : Instr} {psw pc : Word} {flags : List (Nat × Bool)}
    {d1 d2 : Reg} {v1 v2 : Word}
    (he : exec i s
      = .next ((({ s with psw := psw } : State).setReg d1 v1).setReg d2 v2 |>.setPc pc))
    (hpc : reducePc pc = pc)
    (hf : ∀ p ∈ flags, psw.getLsbD p.1 = p.2)
    (hk : ∀ k, k ∉ flags.map Prod.fst → psw.getLsbD k = s.psw.getLsbD k) :
    Completes s i pc (if d1 = d2 then [(d2, v2)] else [(d1, v1), (d2, v2)]) flags :=
  ⟨_, he, by
      by_cases hd : d1 = d2
      · subst hd
        intro p hp
        obtain rfl : p = (d1, v2) := by simpa using hp
        simp
      · intro p hp
        rw [if_neg hd] at hp
        simp only [List.mem_cons, List.not_mem_nil, or_false] at hp
        obtain rfl | rfl := hp
        · simp [State.reg_setReg, hd]
        · simp, by simpa using hf, by simpa using hpc,
    { regs := fun r hr => by
        have h : r ≠ d1 ∧ r ≠ d2 := by
          by_cases hd : d1 = d2
          · subst hd; simpa using hr
          · simpa [hd] using hr
        rw [State.setPc_reg, State.reg_setReg_ne _ h.2, State.reg_setReg_ne _ h.1]; rfl
      psw := by simpa using hk
      memory := fun _ _ => by simp
      output := fun _ => by simp
      others := by
        unfold State.setReg
        split <;> split <;> rfl }⟩

/-- `advance` is a jump to the next instruction. -/
theorem advance_eq_setPc (s : State) (n : Nat) : s.advance n = s.setPc (s.pcAfter n) := by
  simp [State.advance, State.setPc, State.pcAfter]

/-- The next address is a PC. -/
@[simp] theorem reducePc_pcAfter (s : State) (n : Nat) : reducePc (s.pcAfter n) = s.pcAfter n := by
  simp [State.pcAfter]

/-- The flags an operation sets are the bits `putFlags` puts. -/
theorem putFlags_mem (w : Word) (cy ov sg z : Bool) :
    (∀ p ∈ [(Psw.cy, cy), (Psw.ov, ov), (Psw.s, sg), (Psw.z, z)],
        (putFlags w cy ov sg z).getLsbD p.1 = p.2)
      ∧ ∀ k, k ∉ [Psw.cy, Psw.ov, Psw.s, Psw.z] →
        (putFlags w cy ov sg z).getLsbD k = w.getLsbD k := by
  constructor
  · simp [putFlags_getLsbD]
  · intro k hk
    simp only [List.mem_cons, List.not_mem_nil, or_false, not_or] at hk
    simp [putFlags_getLsbD, hk]

/-- The same without CY. -/
theorem putFlagsNoCy_mem (w : Word) (ov sg z : Bool) :
    (∀ p ∈ [(Psw.ov, ov), (Psw.s, sg), (Psw.z, z)], (putFlagsNoCy w ov sg z).getLsbD p.1 = p.2)
      ∧ ∀ k, k ∉ [Psw.ov, Psw.s, Psw.z] → (putFlagsNoCy w ov sg z).getLsbD k = w.getLsbD k := by
  constructor
  · simp [putFlagsNoCy_getLsbD]
  · intro k hk
    simp only [List.mem_cons, List.not_mem_nil, or_false, not_or] at hk
    simp [putFlagsNoCy_getLsbD, hk]

/-! ## The shapes of a meaning -/

/-- S is the top bit of a result. -/
theorem msb_eq_bit31 (r : Word) : r.msb = r.getLsbD 31 := by
  simp [BitVec.msb_eq_getLsbD_last]

/-- OV of an addition or subtraction is that the exact result is out of range. -/
theorem overflows_eq (n : Int) : overflows n = decide (OutOfRange n) := by
  unfold overflows OutOfRange
  have e : (2 : Int) ^ 31 = 2147483648 := by norm_num
  rw [e, ← Bool.decide_or]
  apply decide_eq_decide.2
  omega

/-- A saturated result is the nearest number of the format. -/
theorem saturated_eq_clamp (n : Int) : saturated n = clamp n := by
  unfold saturated clamp
  split
  · rw [min_eq_right (by omega)]; rfl
  · split
    · rw [max_eq_left (by omega)]; rfl
    · rw [min_eq_left (by omega), max_eq_right (by omega)]

/-- A register and the four flags written. -/
theorem runs_flags {s : State} {i : Instr} {dst : Reg} {v : Word} {cy ov sg z : Bool}
    (he : exec i s = .next
      ((({ s with psw := putFlags s.psw cy ov sg z } : State).setReg dst v).advance i.length)) :
    Runs s i [(dst, v)] [(Psw.cy, cy), (Psw.ov, ov), (Psw.s, sg), (Psw.z, z)] := by
  have h := putFlags_mem s.psw cy ov sg z
  refine completes_reg (psw := putFlags s.psw cy ov sg z) ?_ (reducePc_pcAfter _ _) h.1 h.2
  rw [he, advance_eq_setPc, State.setReg_pcAfter]; rfl

/-- The four flags written and no register. -/
theorem runs_flags_only {s : State} {i : Instr} {cy ov sg z : Bool}
    (he : exec i s = .next
      (({ s with psw := putFlags s.psw cy ov sg z } : State).advance i.length)) :
    Runs s i [] [(Psw.cy, cy), (Psw.ov, ov), (Psw.s, sg), (Psw.z, z)] := by
  have h := putFlags_mem s.psw cy ov sg z
  exact completes_psw (psw := putFlags s.psw cy ov sg z) he h.1 h.2

/-- A register written and no flag. -/
theorem runs_value {s : State} {i : Instr} {dst : Reg} {v : Word}
    (he : exec i s = .next ((s.setReg dst v).advance i.length)) : Runs s i [(dst, v)] [] := by
  refine completes_reg (psw := s.psw) ?_ (reducePc_pcAfter _ _) (by simp) (by simp)
  rw [he, advance_eq_setPc, State.setReg_pcAfter]

/-- A 64-bit value written to a register pair. -/
theorem runs_pair {s : State} {i : Instr} {lo hi : Reg} {p : BitVec 64} (hl : i.length = 4)
    (he : exec i s = .next (s.storePair lo hi p)) : Runs s i (pair lo hi p) [] := by
  unfold Runs pair
  refine completes_reg2 (psw := s.psw) ?_ (reducePc_pcAfter _ _) (by simp) (by simp)
  rw [he, hl, State.storePair, advance_eq_setPc, State.setReg_pcAfter, State.setReg_pcAfter]; rfl

/-- Quotient, remainder and the three flags of a division written. -/
theorem runs_division {s : State} {i : Instr} {reg2 reg3 : Reg} {q : Machine.Quotient}
    (hl : i.length = 4) (he : exec i s = .next (s.storeDivision reg2 reg3 q)) :
    Runs s i (quotRem reg2 reg3 q.quot q.rem) [(Psw.ov, q.ov), (Psw.s, q.sg), (Psw.z, q.z)] := by
  have h := putFlagsNoCy_mem s.psw q.ov q.sg q.z
  unfold Runs quotRem
  refine completes_reg2 (psw := putFlagsNoCy s.psw q.ov q.sg q.z) ?_ (reducePc_pcAfter _ _) h.1 h.2
  rw [he, hl, State.storeDivision, advance_eq_setPc, State.setReg_pcAfter, State.setReg_pcAfter]
  rfl

/-- A jump that writes nothing else. -/
theorem completes_jump {s : State} {i : Instr} {v : Word} (he : exec i s = .next (s.setPc v)) :
    Completes s i (reducePc v) [] [] := by
  refine completes_psw (psw := s.psw) ?_ (by simp) (by simp)
  rw [he]; rfl

end Sys2Proof.Safety
end

