-- ==== Sys2Proof/Laws/Access.lean ====
section
/-! SUPPORT. What a data access reads and stores: the bits of a value read, the bytes of a value stored,
and the outcomes of the shared load, store and bit operations (20_memory.md R87, R90, R97). -/

namespace Sys2Proof.Safety

open Sys2Proof.Machine

/-- Bit `k` of a value read: little endian, zero above the access. -/
theorem valueAt_bit (s : State) (a : Word) (size : AccessSize) (k : Nat) (hk : k < 32) :
   (s.valueAt a size).getLsbD k = (decide (k < 8 * size.bytes) && (s.byteAt (a + BitVec.ofNat 32 (k/8))).getLsbD (k % 8)) := by
  cases size
  · simp only [State.valueAt, AccessSize.bytes, zext, BitVec.getLsbD_setWidth, hk, decide_true,
        Bool.true_and]
    by_cases h : k < 8
    · rw [show k / 8 = 0 by omega, show k % 8 = k by omega]; simp [h]
    · simp [h]; apply BitVec.getLsbD_of_ge; omega
  · simp only [State.valueAt, AccessSize.bytes, zext, BitVec.getLsbD_setWidth, hk, decide_true,
        Bool.true_and, BitVec.getLsbD_append]
    by_cases h : k < 8
    · rw [show k / 8 = 0 by omega, show k % 8 = k by omega]; simp [h, show k < 16 by omega]
    · by_cases h2 : k < 16
      · rw [show k / 8 = 1 by omega, show k % 8 = k - 8 by omega]; simp [h, h2]
      · simp [h, h2]; apply BitVec.getLsbD_of_ge; omega
  · simp only [State.valueAt, AccessSize.bytes, BitVec.getLsbD_append]
    rcases (by omega : k / 8 = 0 ∨ k / 8 = 1 ∨ k / 8 = 2 ∨ k / 8 = 3) with h | h | h | h
    · rw [h, show k % 8 = k by omega]; simp [show k < 8 by omega, show k < 32 by omega]
    · rw [h, show k % 8 = k - 8 by omega]; simp [show ¬ k < 8 by omega, show k - 8 < 8 by omega,
          show k < 32 by omega]
    · rw [h, show k % 8 = k - 16 by omega]; simp [show ¬ k < 8 by omega,
          show ¬ k - 8 < 8 by omega, show k - 16 < 8 by omega, show k < 32 by omega, show k - 8 - 8 = k - 16 by omega]
    · rw [h, show k % 8 = k - 24 by omega]; simp [show ¬ k < 8 by omega,
          show ¬ k - 8 < 8 by omega, show ¬ k - 8 - 8 < 8 by omega, show k < 32 by omega, show k - 8 - 8 - 8= k - 24 by omega]

/-- A byte access raises no misaligned access exception. -/
@[simp] theorem misalignDetected_byte (s : State) (a : Word) :
    s.misalignDetected a .byte = false := by
  simp [State.misalignDetected, misaligned]

/-- A byte access has no alignment step. -/
@[simp] theorem aligned_byte (s : State) (a : Word) : aligned s .byte a = a := by
  simp [aligned, alignAddr]

/-- The addresses of a stored value are those of its access. -/
theorem bytesAt_fst (a : Word) (size : AccessSize) (v : Word) :
    (bytesAt a size v).map Prod.fst = byteAddrs a size := by
  simp [bytesAt, byteAddrs, Function.comp_def]

/-- A stored value stands where it was stored. -/
theorem stored_holds (s : State) (a : Word) (size : AccessSize) (v : Word) :
    Holds (s.stored a size v) (bytesAt a size v) := by
  intro p hp hd
  simp only [bytesAt, List.mem_map, List.mem_range] at hp
  obtain ⟨k, hk, rfl⟩ := hp
  exact State.read_stored_same s a size v k hk hd

/-- A store changes the bytes of its access and the record of device writes, nothing else. -/
theorem stored_frame (s : State) (a : Word) (size : AccessSize) (v : Word) :
    Frame s (s.stored a size v) [] [] (byteAddrs a size) := by
  refine ⟨fun _ _ => rfl, fun _ _ => rfl, ?_, ?_, rfl⟩
  · intro x hx
    apply State.read_stored_other
    intro k hk h
    apply hx; rw [byteAddrs, List.map_map, List.mem_map]; exact ⟨k, List.mem_range.2 hk, h.symm⟩
  · intro h
    have : s.touchesDevice a size = false := by
      unfold State.touchesDevice; rw [List.any_eq_false]; intro x hx; simpa using h x hx
    simp [State.stored, this]

/-- A load that answers a next state broke for alignment or read a mapped address. -/
theorem load_next {s t : State} {a : Word} {size : AccessSize} {ext : Word → Word} {reg2 : Reg}
    {len : Nat} (h : s.load a size ext reg2 len = .next t) :
    (s.misalignDetected a size = true ∧ t = s.misalignBreak)
      ∨ (s.misalignDetected a size = false ∧ s.mapped (aligned s size a) size = true
          ∧ t = (s.setReg reg2 (ext (s.valueAt (aligned s size a) size))).advance len) := by
  unfold State.load at h
  split at h
  · cases h; exact .inl ⟨by assumption, rfl⟩
  · rename_i hm
    split at h
    · rename_i v hv
      obtain ⟨h1, rfl⟩ := State.readAt_eq_ok.1 hv
      cases h
      exact .inr ⟨by simpa using hm, h1, rfl⟩
    · cases h

/-- A store that answers a next state broke for alignment or wrote a writable address. -/
theorem store_next {s t : State} {a : Word} {size : AccessSize} {reg2 : Reg} {len : Nat}
    (h : s.store a size reg2 len = .next t) :
    (s.misalignDetected a size = true ∧ t = s.misalignBreak)
      ∨ (s.misalignDetected a size = false ∧ Writable s (aligned s size a) size
          ∧ t = (s.stored (aligned s size a) size (s.reg reg2)).advance len) := by
  unfold State.store at h
  split at h
  · cases h; exact .inl ⟨by assumption, rfl⟩
  · rename_i hm
    split at h
    · rename_i u hu
      obtain ⟨h1, h2, rfl⟩ := State.writeAt_eq_ok.1 hu
      cases h
      exact .inr ⟨by simpa using hm, ⟨h1, h2⟩, rfl⟩
    · cases h

/-- A bit manipulation that answers a next state read its byte and, unless it is TST1, wrote it. -/
theorem bitManip_next {s t : State} {op : BitOp} {a : Word} {n : Nat}
    (h : s.bitManip op a n = .next t) :
    s.mapped a .byte = true
      ∧ (op = .test ∧ t = (s.withZ (!(zext (s.byteAt a) : Word).getLsbD n)).advance 4
        ∨ op ≠ .test ∧ s.storable a .byte = true
          ∧ t = ((s.withZ (!(zext (s.byteAt a) : Word).getLsbD n)).stored a .byte
              (bitResult op (zext (s.byteAt a)) n)).advance 4) := by
  unfold State.bitManip State.memRead at h
  rw [show alignAddr s.platform.misalignEnabled .byte a = a from aligned_byte s a] at h
  split at h
  · cases h
  · rename_i b hb
    obtain ⟨h1, rfl⟩ := State.readAt_eq_ok.1 hb
    refine ⟨h1, ?_⟩
    dsimp only at h
    split at h
    · cases h; exact .inl ⟨rfl, rfl⟩
    · rename_i hop
      split at h
      · rename_i u hu
        unfold State.memWrite at hu
        rw [show alignAddr (s.withZ _).platform.misalignEnabled .byte a
            = a from aligned_byte s a] at hu
        obtain ⟨_, h2, rfl⟩ := State.writeAt_eq_ok.1 hu
        cases h
        exact .inr ⟨by rintro rfl; simp at hop, h2, rfl⟩
      · cases h

end Sys2Proof.Safety
end

