-- ==== Sys2Proof/Laws/Entries.lean ====
section
/-! SUPPORT. What an entry to debug mode leaves (60_exceptions.md R426 to R428, R463). -/

namespace Sys2Proof.Safety

open Sys2Proof.Machine

/-- An entry to debug mode is as DebugEntered says. -/
theorem debugEntered_enter (s t : State) (pc : Word) (wake : Bool)
    (ht : t = s.enter (debugEntry pc wake)) :
    DebugEntered s t (pc &&& 0x1FFFFFFF#32) [] := by
  subst ht
  refine ⟨rfl, rfl, ?_, ?_, ?_, ?_, by simp [State.enter, debugEntry, reducePc], ?_⟩
  · intro k hk
    show (enteredPsw _ _ _).getLsbD k = _
    have hk' : k < 32 := by fin_cases hk <;> decide
    rw [enteredPsw_getLsbD _ _ _ _ hk']
    have : (0xE0#32).getLsbD k = true := by fin_cases hk <;> rfl
    show (if false = true ∧ _ then _ else ((_ || (0xE0#32).getLsbD k) && !(0#32).getLsbD k)) = true
    simp only [this]; simp
  · intro k hk
    show (enteredPsw _ _ _).getLsbD k = _
    by_cases hk' : k < 32
    · rw [enteredPsw_getLsbD _ _ _ _ hk']
      have : (0xE0#32).getLsbD k = false := by
        have : ∀ k < 32, k ∉ [Psw.np, Psw.ep, Psw.id] → (0xE0#32).getLsbD k = false := by decide
        exact this k hk' hk
      show (if false = true ∧ _ then _ else ((_ || (0xE0#32).getLsbD k) && !(0#32).getLsbD k)) = _
      simp only [this]; simp
    · simp [BitVec.getLsbD_of_ge _ _ (by omega : 32 ≤ k)]
  · intro k hk
    obtain rfl : k = Dir.dm := by simpa using hk
    show (putBit s.dir Dir.dm true).getLsbD _ = _
    rw [putBit_getLsbD _ _ _ _ (by decide)]; rfl
  · intro k hk
    show (putBit s.dir Dir.dm true).getLsbD _ = _
    have : k ≠ Dir.dm := by simpa using hk
    rw [putBit_getLsbD _ _ _ _ (by decide), if_neg this]
  · rfl

/-- One more DIR bit set after an entry to debug mode. -/
theorem debugEntered_mark {s t t' : State} {pc : Word} {b : Nat} (hb : b < 32)
    (h : DebugEntered s t pc []) (ht : t' = { t with dir := putBit t.dir b true }) :
    DebugEntered s t' pc [b] := by
  subst ht
  obtain ⟨h1, h2, h3, h4, h5, h6, h7, h8⟩ := h
  refine ⟨h1, h2, h3, h4, ?_, ?_, h7, ?_⟩
  · intro k hk
    show (putBit _ _ _).getLsbD _ = _
    rw [putBit_getLsbD _ _ _ _ hb]
    split
    · rfl
    · apply h5; simp at hk ⊢; rcases hk with hk | hk
      · exact hk
      · contradiction
  · intro k hk
    show (putBit _ _ _).getLsbD _ = _
    rw [putBit_getLsbD _ _ _ _ hb, if_neg, h6]
    · simp at hk ⊢; exact hk.1
    · simp at hk; exact hk.2
  · conv_lhs => rw [h8]

/-- A debug break is in debug mode. -/
theorem debugBreak_userMode (s : State) (pc : Word) :
    (s.debugBreak pc).userMode = false := by
  show (!(putBit s.dir Dir.dm true).getLsbD Dir.dm) = false
  rw [putBit_getLsbD _ _ _ _ (by decide)]; rfl

/-- The misaligned access break. -/
theorem misalignBreak_entered (s : State) :
    DebugEntered s s.misalignBreak (s.pc &&& 0x1FFFFFFF#32) [Dir.mt] :=
  debugEntered_mark (b := Dir.mt) (by decide) (debugEntered_enter s _ s.pc true rfl) rfl

/-- The alignment error break. -/
theorem alignErrorBreak_entered (s : State) :
    DebugEntered s s.alignErrorBreak (s.pc &&& 0x1FFFFFFF#32) [Dir.alignErr] :=
  debugEntered_mark (b := Dir.alignErr) (by decide) (debugEntered_enter s _ s.pc true rfl) rfl

end Sys2Proof.Safety
end

