-- ==== Sys2Proof/Laws/Breaks.lean ====
section
/-! SUPPORT. What the breakpoint operations leave: the marks in DIR, the FB fields, the comparators over a
list of events (60_exceptions.md R460 to R464). -/

namespace Sys2Proof.Safety

open Sys2Proof.Machine

/-- DIR after a channel break, bit by bit: BTn of each channel that broke, unless INI is set. -/
theorem markBreaks_getLsbD (d : Word) (w : Watch) (k : Nat) :
    (markBreaks d w).getLsbD k = true ↔ d.getLsbD k = true
      ∨ (d.getLsbD Dir.ini = false ∧ ∃ n, k = btBit n ∧ hitOf w n = true) := by
  have bits : ∀ k < 32, ∀ b : Bool,
      (if b then 0x00000010#32 else 0#32 : Word).getLsbD k = (b && decide (k = 4))
        ∧ (if b then 0x00000020#32 else 0#32 : Word).getLsbD k = (b && decide (k = 5))
        ∧ (if b then 0x00100000#32 else 0#32 : Word).getLsbD k = (b && decide (k = 20))
        ∧ (if b then 0x00200000#32 else 0#32 : Word).getLsbD k = (b && decide (k = 21)) := by
    decide
  have chans : (∃ n, k = btBit n ∧ hitOf w n = true) ↔
      (k = 4 ∧ w.hit0 = true) ∨ (k = 5 ∧ w.hit1 = true) ∨ (k = 20 ∧ w.hit2 = true)
        ∨ (k = 21 ∧ w.hit3 = true) := by
    constructor
    · rintro ⟨n, h⟩
      match n, h with
      | 0, h => exact .inl h
      | 1, h => exact .inr (.inl h)
      | 2, h => exact .inr (.inr (.inl h))
      | 3, h => exact .inr (.inr (.inr h))
    · rintro (h | h | h | h)
      exacts [⟨0, h⟩, ⟨1, h⟩, ⟨2, h⟩, ⟨3, h⟩]
  rw [chans, markBreaks]
  by_cases hk : k < 32
  · cases d.getLsbD Dir.ini
    · simp only [Bool.false_eq_true, if_false, BitVec.getLsbD_or, (bits k hk _).1,
        (bits k hk _).2.1, (bits k hk _).2.2.1, (bits k hk _).2.2.2, Bool.or_eq_true,
        Bool.and_eq_true, decide_eq_true_eq, true_and]
      grind
    · simp
  · have : ∀ x : Word, x.getLsbD k = false := fun x => BitVec.getLsbD_of_ge _ _ (by omega)
    simp only [this, Bool.false_eq_true, false_or, false_iff]
    omega

/-- A channel break changes nothing of DIR but DM and the BT bits, and is in debug mode. -/
theorem channelBreak_dir (s : State) (w : Watch) (dbpc : Word) (k : Nat) :
    (s.channelBreak w dbpc).dir.getLsbD k = true ↔ k = Dir.dm ∨ s.dir.getLsbD k = true
      ∨ (s.dir.getLsbD Dir.ini = false ∧ ∃ n, k = btBit n ∧ hitOf w n = true) := by
  show (markBreaks (putBit s.dir Dir.dm true) w).getLsbD k = true ↔ _
  rw [markBreaks_getLsbD, putBit_getLsbD _ _ _ _ (by decide), putBit_getLsbD _ _ _ _ (by decide),
    if_neg (by decide : ¬Dir.ini = Dir.dm)]
  by_cases h : k = Dir.dm <;> simp [h]

/-- A channel break is in debug mode. -/
theorem channelBreak_userMode (s : State) (w : Watch) (dbpc : Word) :
    (s.channelBreak w dbpc).userMode = false := by
  show (!(s.channelBreak w dbpc).dir.getLsbD Dir.dm) = false
  rw [(channelBreak_dir s w dbpc Dir.dm).2 (.inl rfl)]; rfl

/-- The comparators see the events one after another. -/
theorem watch_append (s : State) (es : List BusEvent) (e : BusEvent) :
    s.watch (es ++ [e]) = s.observe (s.watch es) e := by simp [State.watch]

/-- Some channel broke. -/
theorem hit_iff (w : Watch) : w.hit = true ↔ ∃ n, hitOf w n = true := by
  simp only [Watch.hit, Bool.or_eq_true]
  constructor
  · rintro (((h | h) | h) | h)
    exacts [⟨0, h⟩, ⟨1, h⟩, ⟨2, h⟩, ⟨3, h⟩]
  · rintro ⟨n, h⟩
    match n, h with
    | 0, h => exact .inl (.inl (.inl h))
    | 1, h => exact .inl (.inl (.inr h))
    | 2, h => exact .inl (.inr h)
    | 3, h => exact .inr h

/-- What a fetch break leaves in the channels: a listed FB in each that broke, the others as they were. -/
theorem recordFb_channel (s : State) (w : Watch) (n : Fin 4) :
    (s.recordFb w).channels[n.val]
      = if hitOf w n = true then
          (s.channels[n.val]).withFb (Config.fetchBreakFb s.tick n.val)
        else s.channels[n.val] := by
  match n with
  | 0 => rfl
  | 1 => rfl
  | 2 => rfl
  | 3 => rfl

/-- The bits of BPCn after a record of FB. -/
theorem withFb_getLsbD (ch : BreakChannel) (v : Fin 4) (k : Nat) (hk : ¬(24 ≤ k ∧ k ≤ 26)) :
    (ch.withFb v).bpc.getLsbD k = ch.bpc.getLsbD k := by
  have inside : ∀ j < 32, ¬(24 ≤ j ∧ j ≤ 26) → (0x07000000#32).getLsbD j = false := by decide
  have outside : (0x07000000#32).getLsbD k = false := by
    by_cases h : k < 32
    · exact inside k h hk
    · exact BitVec.getLsbD_of_ge _ _ (by omega)
  show (mergeBits _ _ _).getLsbD k = _
  rw [mergeBits_getLsbD, outside]; simp

end Sys2Proof.Safety
end

