-- ==== Sys2Proof/Laws/Encoding.lean ====
section
/-! SUPPORT. The small lemmas of Decode.lean's fields: what each reads from a joined halfword, and
how the pieces of a split field go back together. -/

namespace Sys2Proof.Laws

@[simp] theorem hi5_join (a : BitVec 5) (b : BitVec 6) (d : BitVec 5) :
    hi5 (joinFields a b d) = a := by
  simp only [hi5, joinFields]
  apply BitVec.eq_of_getLsbD_eq
  intro i hi
  simp only [BitVec.getLsbD_extractLsb', BitVec.getLsbD_append]
  have h1 : ¬ (11 + i < 5) := by omega
  have h2 : ¬ (11 + i < 5 + 6) := by omega
  have h3 : 11 + i - 5 - 6 = i := by omega
  have h4 : ¬ (11 + i - 5 < 6) := by omega
  simp [h1, h4, h3, hi]

@[simp] theorem mid6_join (a : BitVec 5) (b : BitVec 6) (d : BitVec 5) :
    mid6 (joinFields a b d) = b := by
  simp only [mid6, joinFields]
  apply BitVec.eq_of_getLsbD_eq
  intro i hi
  simp only [BitVec.getLsbD_extractLsb', BitVec.getLsbD_append]
  have h1 : ¬ (5 + i < 5) := by omega
  have h3 : 5 + i - 5 = i := by omega
  simp [h1, h3, hi]

@[simp] theorem lo5_join (a : BitVec 5) (b : BitVec 6) (d : BitVec 5) :
    lo5 (joinFields a b d) = d := by
  simp only [lo5, joinFields]
  apply BitVec.eq_of_getLsbD_eq
  intro i hi
  simp only [BitVec.getLsbD_extractLsb', BitVec.getLsbD_append]
  simp [hi]

/-- The high part of an append. -/
theorem extract_append_high {m n : Nat} (a : BitVec m) (b : BitVec n) :
    (a ++ b).extractLsb' n m = a := by
  apply BitVec.eq_of_getLsbD_eq
  intro i hi
  simp [BitVec.getLsbD_append, hi]

/-- The low part of an append. -/
theorem extract_append_low {m n : Nat} (a : BitVec m) (b : BitVec n) :
    (a ++ b).extractLsb' 0 n = b := by
  apply BitVec.eq_of_getLsbD_eq
  intro i hi
  simp [BitVec.getLsbD_append, hi]

@[simp] theorem op5_high (a : BitVec 5) (b : BitVec 1) : (a ++ b : BitVec 6).extractLsb' 1 5 = a :=
  extract_append_high a b

@[simp] theorem op5_low (a : BitVec 5) (b : BitVec 1) : (a ++ b : BitVec 6).extractLsb' 0 1 = b :=
  extract_append_low a b

@[simp] theorem op4_high (a : BitVec 4) (b : BitVec 2) : (a ++ b : BitVec 6).extractLsb' 2 4 = a :=
  extract_append_high a b

@[simp] theorem op4_low (a : BitVec 4) (b : BitVec 2) : (a ++ b : BitVec 6).extractLsb' 0 2 = b :=
  extract_append_low a b

/-- Bits 10:7 of a word whose bits 10:6 are given. -/
theorem op4_of_op5 (a : BitVec 5) (b : BitVec 1) :
    (a ++ b : BitVec 6).extractLsb' 2 4 = a.extractLsb' 1 4 := by
  apply BitVec.eq_of_getLsbD_eq
  intro i hi
  simp only [BitVec.getLsbD_extractLsb', BitVec.getLsbD_append]
  have h1 : ¬ (2 + i < 1) := by omega
  have h2 : 2 + i - 1 = 1 + i := by omega
  simp [h1, h2]

/-- A field cut in two and put together again. -/
theorem extract_glue {w : Nat} (k n : Nat) (h : n + k = w) (d : BitVec w) :
    (d.extractLsb' k n ++ d.extractLsb' 0 k).cast h = d := by
  subst h
  apply BitVec.eq_of_getLsbD_eq
  intro i hi
  simp only [BitVec.getLsbD_cast, BitVec.getLsbD_append, BitVec.getLsbD_extractLsb']
  by_cases hk : i < k
  · simp [hk]
  · have h1 : i - k < n := by omega
    have h2 : k + (i - k) = i := by omega
    simp [hk, h1, h2]

@[simp] theorem glue7 (d : BitVec 7) : (d.extractLsb' 5 2 ++ d.extractLsb' 0 5 : BitVec 7) = d :=
  extract_glue 5 2 rfl d

@[simp] theorem glue6 (d : BitVec 6) : (d.extractLsb' 5 1 ++ d.extractLsb' 0 5 : BitVec 6) = d :=
  extract_glue 5 1 rfl d

@[simp] theorem glue32 (d : BitVec 32) :
    (d.extractLsb' 16 16 ++ d.extractLsb' 0 16 : BitVec 32) = d :=
  extract_glue 16 16 rfl d

@[simp] theorem glue22 (d : BitVec 22) :
    (d.extractLsb' 16 6 ++ d.extractLsb' 0 16 : BitVec 22) = d :=
  extract_glue 16 6 rfl d

/-- A field whose lowest bit is 0 and not stored. -/
theorem extract_glue_zero {w : Nat} (k n : Nat) (h : n + k = w) (d : BitVec w)
    (hz : ∀ i, i < k → d.getLsbD i = false) : (d.extractLsb' k n ++ 0#k).cast h = d := by
  subst h
  apply BitVec.eq_of_getLsbD_eq
  intro i hi
  simp only [BitVec.getLsbD_cast, BitVec.getLsbD_append, BitVec.getLsbD_extractLsb']
  by_cases hk : i < k
  · simp [hk, hz i hk]
  · have h1 : i - k < n := by omega
    have h2 : k + (i - k) = i := by omega
    simp [hk, h1, h2]

/-- LD.W, ST.W, LD.HU: the sub-opcode bit stands where the displacement's bit 0 would. -/
@[simp] theorem dropBit0_or (d : Half) (h : d[0] = false) : dropBit0 (d ||| 1#16) = d := by
  simp only [dropBit0]
  apply BitVec.eq_of_getLsbD_eq
  intro i hi
  rcases Nat.eq_zero_or_pos i with rfl | hpos
  · simpa [← BitVec.getLsbD_eq_getElem] using h
  · have hlt : i < 16 := hi
    have h1 : (1#16).getLsbD i = false := by
      simp; omega
    have h2 : (0xFFFE#16).getLsbD i = true := by
      interval_cases i <;> rfl
    simp [h1, h2]

/-- LD.BU: bit 0 of the displacement stands in the first halfword. -/
@[simp] theorem glue16_or (d : Half) :
    ((d ||| 1#16).extractLsb' 1 15 ++ d.extractLsb' 0 1 : BitVec 16) = d := by
  apply BitVec.eq_of_getLsbD_eq
  intro i hi
  simp only [BitVec.getLsbD_append, BitVec.getLsbD_extractLsb', BitVec.getLsbD_or]
  rcases Nat.eq_zero_or_pos i with rfl | hpos
  · simp
  · have h1 : ¬ i < 1 := by omega
    have h2 : 1 + (i - 1) = i := by omega
    have h3 : i - 1 < 15 := by omega
    have h4 : (1#16).getLsbD i = false := by
      simp; omega
    simp [h1, h2, h3, h4]

@[simp] theorem code_append_bit0 (k : BitVec 4) : (k ++ 0#1 : BitVec 5)[0] = false := by
  rw [← BitVec.getLsbD_eq_getElem, BitVec.getLsbD_append]
  simp

@[simp] theorem code_append_high (k : BitVec 4) : (k ++ 0#1 : BitVec 5).extractLsb' 1 4 = k :=
  extract_append_high k 0#1

@[simp] theorem code_append_eq_sat (cc : Cond) : cc.code ++ 0#1 = 26#5 ↔ cc = .sa := by
  cases cc <;> decide

@[simp] theorem code_prepend_low (b : BitVec 1) (k : BitVec 4) :
    (b ++ k : BitVec 5).extractLsb' 0 4 = k :=
  extract_append_low b k

@[simp] theorem code_prepend_bit4 (k : BitVec 4) : (0#1 ++ k : BitVec 5)[4] = false := by
  rw [← BitVec.getLsbD_eq_getElem, BitVec.getLsbD_append]
  simp

@[simp] theorem one_prepend_bit4 (k : BitVec 4) : (1#1 ++ k : BitVec 5)[4] = true := by
  rw [← BitVec.getLsbD_eq_getElem, BitVec.getLsbD_append]
  simp

@[simp] theorem select_append_high (a : BitVec 2) (b : BitVec 3) :
    (a ++ b : BitVec 5).extractLsb' 3 2 = a :=
  extract_append_high a b

@[simp] theorem select_append_low (a : BitVec 2) (b : BitVec 3) :
    (a ++ b : BitVec 5).extractLsb' 0 3 = b :=
  extract_append_low a b

@[simp] theorem lo5_stackList (list : List12) (l : BitVec 5) : lo5 (encodeStackList list l) = l :=
  extract_append_low _ l

@[simp] theorem bit0_stackList (list : List12) (l : BitVec 5) :
    (encodeStackList list l)[0] = l[0] := by
  rw [← BitVec.getLsbD_eq_getElem, encodeStackList, BitVec.getLsbD_append]
  simp

/-- The register list goes back together. -/
@[simp] theorem stackList_encode (imm5 : BitVec 5) (list : List12) (l : BitVec 5) :
    stackList ((imm5 ++ list.extractLsb' 0 1 : BitVec 6).extractLsb' 0 5)
      (encodeStackList list l) = list := by
  apply BitVec.eq_of_getLsbD_eq
  intro i hi
  simp only [stackList, encodeStackList, BitVec.getLsbD_append, BitVec.getLsbD_extractLsb']
  rcases Nat.eq_zero_or_pos i with rfl | hpos
  · simp
  · have h1 : ¬ i < 1 := by omega
    have h2 : i - 1 < 11 := by omega
    have h3 : ¬ (5 + (i - 1) < 5) := by omega
    have h4 : 5 + (i - 1) - 5 = i - 1 := by omega
    have h5 : 1 + (i - 1) = i := by omega
    simp [h1, h2, h3, h4, h5]

/-- The stack immediate goes back together. -/
@[simp] theorem stackImm5_encode (o : BitVec 5) (imm5 : BitVec 5) (b : BitVec 1) :
    stackImm5 (o ++ (imm5 ++ b : BitVec 6).extractLsb' 5 1)
      ((imm5 ++ b : BitVec 6).extractLsb' 0 5) = imm5 := by
  apply BitVec.eq_of_getLsbD_eq
  intro i hi
  simp only [stackImm5, BitVec.getLsbD_append, BitVec.getLsbD_extractLsb']
  by_cases h : i < 4
  · have h1 : i < 5 := by omega
    have h2 : 1 + i < 5 := by omega
    have h3 : ¬ (1 + i < 1) := by omega
    have h4 : 1 + i - 1 = i := by omega
    simp [h, h2]
  · have h1 : i = 4 := by omega
    subst h1
    simp

@[simp] theorem imm9_mid (a : BitVec 3) (x : BitVec 2) : (a ++ x : BitVec 5).extractLsb' 2 3 = a :=
  extract_append_high a x

/-- The 9-bit immediate goes back together (R135). -/
@[simp] theorem imm9_encode (imm : BitVec 9) :
    (imm.extractLsb' 8 1 ++ imm.extractLsb' 5 3 ++ imm.extractLsb' 0 5 : BitVec 9) = imm := by
  apply BitVec.eq_of_getLsbD_eq
  intro i hi
  simp only [BitVec.getLsbD_append, BitVec.getLsbD_extractLsb']
  by_cases h : i < 5
  · simp [h]
  · by_cases h2 : i < 8
    · have h3 : i - 5 < 3 := by omega
      have h4 : 5 + (i - 5) = i := by omega
      simp [h, h3, h4]
    · have h3 : i = 8 := by omega
      subst h3
      simp

@[simp] theorem op5_bit5 (o : BitVec 5) (b : BitVec 1) : (o ++ b : BitVec 6)[5] = o[4] := by
  rw [← BitVec.getLsbD_eq_getElem, BitVec.getLsbD_append]
  simp

/-- An even displacement's low three bits are not 011, PREPARE's sub-opcode. -/
@[simp] theorem even_low3 (d : BitVec 22) (h : d[0] = false) : d.extractLsb' 0 3 ≠ 3#3 := by
  intro e
  have := congrArg (fun b => b.getLsbD 0) e
  simp [h] at this

@[simp] theorem imm9_bit0 (a : BitVec 3) (x : BitVec 2) : (a ++ x : BitVec 5)[0] = x[0] := by
  rw [← BitVec.getLsbD_eq_getElem, BitVec.getLsbD_append]
  simp

@[simp] theorem imm9_bit1 (a : BitVec 3) (x : BitVec 2) : (a ++ x : BitVec 5)[1] = x[1] := by
  rw [← BitVec.getLsbD_eq_getElem, BitVec.getLsbD_append]
  simp

/-- The 9-bit branch displacement goes back together (R126). -/
@[simp] theorem disp9_encode (d : BitVec 9) (k : BitVec 4) (h : d[0] = false) :
    (d.extractLsb' 4 5 ++ (d.extractLsb' 1 3 ++ k : BitVec 7).extractLsb' 4 3 ++ 0#1 : BitVec 9)
      = d := by
  rw [show (d.extractLsb' 1 3 ++ k : BitVec 7).extractLsb' 4 3 = d.extractLsb' 1 3 from
    extract_append_high _ k]
  apply BitVec.eq_of_getLsbD_eq
  intro i hi
  simp only [BitVec.getLsbD_append, BitVec.getLsbD_extractLsb']
  rcases Nat.eq_zero_or_pos i with rfl | hpos
  · simpa using h.symm
  · have h1 : ¬ i < 1 := by omega
    by_cases h2 : i - 1 < 3
    · have h3 : 1 + (i - 1) = i := by omega
      simp [h1, h2, h3]
    · have h3 : 4 + (i - 1 - 3) = i := by omega
      have h4 : i - 1 - 3 < 5 := by omega
      simp [h1, h2, h3, h4]

/-- A 7-bit field's low five bits end in the low four of its last part. -/
@[simp] theorem cond_low (a : BitVec 3) (k : BitVec 4) :
    ((a ++ k : BitVec 7).extractLsb' 0 5).extractLsb' 0 4 = k := by
  apply BitVec.eq_of_getLsbD_eq
  intro i hi
  have h : i < 5 := by omega
  simp only [BitVec.getLsbD_extractLsb', Nat.zero_add, BitVec.getLsbD_append]
  simp [hi, h]

@[simp] theorem word_bit (a : BitVec 6) (b : BitVec 1) :
    ((a ++ b : BitVec 7).extractLsb' 0 5)[0] = b[0] := by
  rw [← BitVec.getLsbD_eq_getElem, BitVec.getLsbD_extractLsb', BitVec.getLsbD_append]
  simp

@[simp] theorem word_high (a : BitVec 6) (b : BitVec 1) :
    (a ++ b : BitVec 7).extractLsb' 1 6 = a :=
  extract_append_high a b

@[simp] theorem cond_low' (a : BitVec 3) (k : BitVec 4) :
    (a ++ k : BitVec 7).extractLsb' 0 4 = k :=
  extract_append_low a k

@[simp] theorem word_bit' (a : BitVec 6) (b : BitVec 1) : (a ++ b : BitVec 7)[0] = b[0] := by
  rw [← BitVec.getLsbD_eq_getElem, BitVec.getLsbD_append]
  simp

@[simp] theorem glue5_zero (d : BitVec 5) (h : d[0] = false) :
    (d.extractLsb' 1 4 ++ 0#1 : BitVec 5) = d :=
  extract_glue_zero 1 4 rfl d (by intro i hi; interval_cases i; simpa using h)

@[simp] theorem glue8_zero (d : BitVec 8) (h : d[0] = false) :
    (d.extractLsb' 1 7 ++ 0#1 : BitVec 8) = d :=
  extract_glue_zero 1 7 rfl d (by intro i hi; interval_cases i; simpa using h)

@[simp] theorem glue8_zeros (d : BitVec 8) (h : d[0] = false) (h' : d[1] = false) :
    (d.extractLsb' 2 6 ++ 0#2 : BitVec 8) = d :=
  extract_glue_zero 2 6 rfl d (by intro i hi; interval_cases i <;> simp [h, h'])

@[simp] theorem x6_high (b : BitVec 1) (r : BitVec 5) : (b ++ r : BitVec 6).extractLsb' 5 1 = b :=
  extract_append_high b r

@[simp] theorem x6_low (b : BitVec 1) (r : BitVec 5) : (b ++ r : BitVec 6).extractLsb' 0 5 = r :=
  extract_append_low b r

@[simp] theorem lo5_or_one (d : Half) : (lo5 (d ||| 1#16))[0] = true := by
  rw [← BitVec.getLsbD_eq_getElem, lo5, BitVec.getLsbD_extractLsb', BitVec.getLsbD_or]
  simp

/-- A one-bit field is 0 or 1. -/
theorem bit_cases (b : BitVec 1) : b = 0#1 ∨ b = 1#1 := by
  revert b
  decide

@[simp] theorem stackList_low3 (list : List12) (l : BitVec 5) :
    (encodeStackList list l).extractLsb' 0 3 = l.extractLsb' 0 3 := by
  apply BitVec.eq_of_getLsbD_eq
  intro i hi
  have h : i < 5 := by omega
  simp only [encodeStackList, BitVec.getLsbD_extractLsb', Nat.zero_add, BitVec.getLsbD_append]
  simp [hi, h]

@[simp] theorem stackList_ff (list : List12) (l : BitVec 5) :
    (encodeStackList list l).extractLsb' 3 2 = l.extractLsb' 3 2 := by
  apply BitVec.eq_of_getLsbD_eq
  intro i hi
  have h : 3 + i < 5 := by omega
  simp only [encodeStackList, BitVec.getLsbD_extractLsb', BitVec.getLsbD_append]
  simp [hi, h]

@[simp] theorem ofCode_code (cc : Cond) : Cond.ofCode cc.code = cc := by cases cc <;> rfl

end Sys2Proof.Laws
end

