-- ==== Sys2Proof/Laws/Stack.lean ====
section
/-! SUPPORT. What the stores of PREPARE and the loads of DISPOSE leave (49_special_debug.md R375,
R379). -/

namespace Sys2Proof.Safety

open Sys2Proof.Machine

/-- The address of the `k`-th push below `sp`. -/
def pushSlot (sp : Word) (k : Nat) : Word := stackAddr (sp - BitVec.ofNat 32 (4 * (k + 1)))

/-- The address of the `k`-th pop above `sp`. -/
def popSlot (sp : Word) (k : Nat) : Word := stackAddr (sp + BitVec.ofNat 32 (4 * k))

/-- A stack address as a number. -/
theorem stackAddr_toNat (x : Word) : (stackAddr x).toNat = x.toNat / 4 * 4 := by
  unfold stackAddr
  have h : x &&& 0xFFFFFFFC#32 = (x >>> 2) <<< 2 := by
    apply word_ext; intro k hk
    simp only [BitVec.getLsbD_and, BitVec.getLsbD_shiftLeft, BitVec.getLsbD_ushiftRight, hk]
    have : (0xFFFFFFFC#32).getLsbD k = !decide (k < 2) := by revert k; decide
    rw [this]
    by_cases h : k < 2
    · simp [h]
    · simp [h, show 2 + (k - 2) = k by omega]
  rw [h]; simp [Nat.shiftRight_eq_div_pow, Nat.shiftLeft_eq]; have := x.isLt; omega

/-- The bytes of two pushes are different. -/
theorem pushSlot_ne (sp : Word) (j k a b : Nat) (hj : j < 16) (hk : k < 16) (h : j ≠ k) (ha :
    a < 4) (hb : b < 4) :
   (pushSlot sp j + BitVec.ofNat 32 a).toNat ≠ (pushSlot sp k + BitVec.ofNat 32 b).toNat := by
  unfold pushSlot
  rw [BitVec.toNat_add, BitVec.toNat_add, stackAddr_toNat, stackAddr_toNat, BitVec.toNat_sub,
      BitVec.toNat_sub]
  simp only [BitVec.toNat_ofNat]
  have := sp.isLt
  omega

/-- The device writes among pushes below `sp`, each register given with its place. -/
def pushWrites (s : State) (sp : Word) (ps : List (Reg × Nat)) : List DeviceWrite :=
  (ps.filter (fun p => s.touchesDevice (pushSlot sp p.2) .word)).map
    (fun p => { addr := pushSlot sp p.2, size := .word, value := s.reg p.1 })

/-- What pushing the registers `rs` leaves. -/
structure Pushed (s t : State) (rs : List Reg) : Prop where
  sp : t.reg Reg.sp = s.reg Reg.sp - BitVec.ofNat 32 (4 * rs.length)
  regs : ∀ r, r ≠ Reg.sp → t.reg r = s.reg r
  same : ∀ p ∈ rs.zipIdx, ∀ j < 4,
    s.kindAt (pushSlot (s.reg Reg.sp) p.2 + BitVec.ofNat 32 j) ≠ some .device →
    Memory.read t.mem (pushSlot (s.reg Reg.sp) p.2 + BitVec.ofNat 32 j).toNat
      = (s.reg p.1).extractLsb' (8 * j) 8
  other : ∀ x, (∀ k < rs.length, ∀ j < 4,
      x ≠ (pushSlot (s.reg Reg.sp) k + BitVec.ofNat 32 j).toNat) → Memory.read t.mem x = Memory.read s.mem x
  out : t.deviceOut = s.deviceOut ++ pushWrites s (s.reg Reg.sp) rs.zipIdx
  rest : t = { s with gpr := t.gpr, mem := t.mem, deviceOut := t.deviceOut }

/-- The slots of the rest of a list. -/
theorem pushSlot_succ (sp : Word) (k : Nat) : pushSlot (sp - 4#32) k = pushSlot sp (k+1) := by
  unfold pushSlot; congr 1
  rw [BitVec.sub_sub]; congr 1
  rw [show 4 * (k+1+1) = 4 + 4 * (k+1) by omega, BitVec.ofNat_add]

theorem mapped_congr {s t : State} (h : t.platform = s.platform) (a sz) : t.mapped a sz
    = s.mapped a sz := by
  unfold State.mapped State.kindAt; rw [h]
theorem storable_congr {s t : State} (h : t.platform = s.platform) (a sz) : t.storable a sz
    = s.storable a sz := by
  unfold State.storable State.kindAt; rw [h]

theorem touchesDevice_congr {s t : State} (h : t.platform = s.platform) (a sz) :
    t.touchesDevice a sz = s.touchesDevice a sz := by
  unfold State.touchesDevice State.kindAt; rw [h]

/-- The device writes of the pushes after the first. -/
theorem pushWrites_cons (s u : State) (r : Reg) (rs : List Reg) (sp : Word)
    (hp : u.platform = s.platform) (hr : ∀ q ∈ rs, u.reg q = s.reg q) :
    pushWrites s sp (r :: rs).zipIdx
      = (if s.touchesDevice (pushSlot sp 0) .word then
          [{ addr := pushSlot sp 0, size := .word, value := s.reg r }] else [])
        ++ pushWrites u (sp - 4#32) rs.zipIdx := by
  unfold pushWrites
  simp only [List.zipIdx_cons', List.filter_cons, List.filter_map, pushSlot_succ,
    touchesDevice_congr hp]
  have rest : ((rs.zipIdx.filter
        (fun p => s.touchesDevice (pushSlot sp (p.2 + 1)) .word)).map
        (Prod.map id (· + 1))).map (fun p =>
          ({ addr := pushSlot sp p.2, size := .word, value := s.reg p.1 } : DeviceWrite))
      = (rs.zipIdx.filter (fun p => s.touchesDevice (pushSlot sp (p.2 + 1)) .word)).map (fun p =>
          { addr := pushSlot sp (p.2 + 1), size := .word, value := u.reg p.1 }) := by
    rw [List.map_map]
    apply List.map_congr_left
    intro p hp
    have := hr p.1 (List.fst_mem_of_mem_zipIdx (List.mem_of_mem_filter hp))
    simp [this]
  split
  · simpa [Function.comp_def] using rest
  · simpa [Function.comp_def] using rest

/-- Where every pushSlot can be written, pushing answers a state. -/
theorem pushRegs_ok (rs : List Reg) : ∀ s : State, rs.length ≤ 12 → (Reg.sp ∉ rs)
    → (∀ k < rs.length, Writable s (pushSlot (s.reg Reg.sp) k) .word) →
   ∃ t, s.pushRegs rs = .ok t ∧ Pushed s t rs := by
  induction rs with
  | nil => intro s _ _ _; exact ⟨s, rfl, ⟨by simp, fun _ _ => rfl, by simp, fun _ _ => rfl,
      by simp [pushWrites], rfl⟩⟩
  | cons r rs ih =>
    intro s hlen hsp hw
    simp only [List.length_cons] at hlen
    have h0 := hw 0 (by simp)
    have hr : r ≠ Reg.sp := fun h => hsp (by simp [h])
    have hs0 : pushSlot (s.reg Reg.sp) 0 = stackAddr (s.reg Reg.sp - 4#32) := rfl
    rw [hs0] at h0
    set u := (s.stored (stackAddr (s.reg Reg.sp - 4#32)) .word (s.reg r)).setReg Reg.sp (s.reg Reg.sp - 4#32) with hu
    have ug : ∀ q, u.reg q = if q = Reg.sp then s.reg Reg.sp - 4#32 else s.reg q := by
      intro q; rw [hu, State.reg_setReg]; split <;> rfl
    have up : u.platform = s.platform := rfl
    have um : u.mem = (s.stored (stackAddr (s.reg Reg.sp - 4#32)) .word (s.reg r)).mem := by rw [hu]; rfl
    have uo : u.deviceOut = (s.stored (stackAddr (s.reg Reg.sp - 4#32)) .word (s.reg r)).deviceOut := by rw [hu]; rfl
    have usp : u.reg Reg.sp = s.reg Reg.sp - 4#32 := by rw [ug, if_pos rfl]
    obtain ⟨t, ht, hp⟩ := ih u (by omega) (fun h => hsp (by simp [h])) (by
      intro k hk
      rw [usp, pushSlot_succ]
      have := hw (k+1) (by simpa using hk)
      exact ⟨(mapped_congr up _ _).trans this.1, (storable_congr up _ _).trans this.2⟩)
    obtain ⟨p1, p2, p3, p4, p5, p6⟩ := hp
    rw [usp] at p1 p3 p4 p5
    simp only [pushSlot_succ] at p3 p4
    refine ⟨t, ?_, ?_, ?_, ?_, ?_, ?_, ?_⟩
    · rw [State.pushRegs, State.writeAt, if_pos h0.1, if_pos h0.2]; exact ht
    · rw [p1, BitVec.sub_sub]; congr 1
      rw [List.length_cons, show 4 * (rs.length+1) = 4 + 4 * rs.length by omega, BitVec.ofNat_add]
    · intro q hq; rw [p2 q hq, ug, if_neg hq]
    · intro p hp j hj hd
      rw [List.zipIdx_cons'] at hp
      simp only [List.mem_cons, List.mem_map] at hp
      rcases hp with rfl | ⟨p', hp', rfl⟩
      · rw [p4, um]
        · exact State.read_stored_same s _ .word _ j hj hd
        · intro k hk i hi
          exact pushSlot_ne _ _ _ _ _ (by omega) (by omega) (by omega) hj hi
      · have hp'' := p3 p' hp' j hj hd
        rw [Prod.map_snd, hp'', ug, if_neg]; rfl
        intro h
        have : p'.1 ∈ rs := List.fst_mem_of_mem_zipIdx hp'
        exact hsp (by rw [← h]; simp [this])
    · intro x hx
      rw [p4, um]
      · apply State.read_stored_other
        intro k hk; exact hx 0 (by simp) k hk
      · intro k hk; exact hx (k+1) (by simpa using hk)
    · rw [p5, pushWrites_cons s u r rs _ up, uo, hs0]
      · simp only [State.stored]
        have full : s.reg r &&& BitVec.ofNat 32 (256 ^ AccessSize.word.bytes - 1) = s.reg r :=
          BitVec.and_allOnes
        rw [full]
        split <;> simp
      · intro q hq
        rw [ug, if_neg]
        exact fun h => hsp (by simp [← h, hq])
    · rw [p6]; rfl

/-- A list names r20 to r31 only. -/
theorem listRegs_sub : ∀ (l :
    List12), listRegs l ⊆ [20#5,21#5,22#5,23#5,24#5,25#5,26#5,27#5,28#5,29#5,30#5,31#5] := by
  intro l r hr
  unfold listRegs at hr
  rw [List.mem_map] at hr
  obtain ⟨p, hp, rfl⟩ := hr
  have := List.mem_of_mem_filter hp
  clear hp; revert p; decide
theorem listRegs_len (l : List12) : (listRegs l).length ≤ 12 := by
  unfold listRegs; rw [List.length_map]; exact (List.length_filter_le _ _).trans (by decide)
theorem listRegs_sp (l : List12) : Reg.sp ∉ listRegs l := fun h => by
  have := listRegs_sub l h; revert this; decide

/-- The frame size as a number. -/
theorem frameBytes_eq (imm5 : BitVec 5) : frameBytes imm5 = BitVec.ofNat 32 (4 * imm5.toNat) := by
  apply BitVec.eq_of_toNat_eq; have := imm5.isLt; simp [frameBytes, zext]; omega

theorem valueAt_congr {s t : State} (hm : t.mem = s.mem) (hp : t.platform = s.platform) (ht :
    t.tick = s.tick) (a sz) : t.valueAt a sz = s.valueAt a sz := by
  have : ∀ a, t.byteAt a = s.byteAt a := by intro a; unfold State.byteAt State.kindAt; rw [hm, hp,
      ht]
  unfold State.valueAt; simp only [this]
/-- What popping the registers `rs` leaves. -/
structure Popped (s t : State) (rs : List Reg) : Prop where
  sp : t.reg Reg.sp = s.reg Reg.sp + BitVec.ofNat 32 (4 * rs.length)
  got : ∀ p ∈ rs.zipIdx, t.reg p.1 = wordAt s (popSlot (s.reg Reg.sp) p.2)
  regs : ∀ r, r ≠ Reg.sp → r ∉ rs → t.reg r = s.reg r
  rest : t = { s with gpr := t.gpr }

/-- Where every pushSlot can be read, popping answers a state. -/
theorem popRegs_ok (rs : List Reg) : ∀ s : State, rs.Nodup → Reg.sp ∉ rs → 0#5 ∉ rs
    → (∀ k < rs.length, Readable s (popSlot (s.reg Reg.sp) k) .word) →
   ∃ t, s.popRegs rs = .ok t ∧ Popped s t rs := by
  induction rs with
  | nil => intro s _ _ _ _; exact ⟨s, rfl, ⟨by simp, by simp, fun _ _ _ => rfl, rfl⟩⟩
  | cons r rs ih =>
    intro s hnd hsp hz hw
    have h0 := hw 0 (by simp)
    have hr : r ≠ Reg.sp := fun h => hsp (by simp [h])
    have hs0 : popSlot (s.reg Reg.sp) 0 = stackAddr (s.reg Reg.sp) := by simp [popSlot]
    rw [hs0] at h0
    set u := (s.setReg r (s.valueAt (stackAddr (s.reg Reg.sp)) .word)).setReg Reg.sp (s.reg Reg.sp + 4#32) with hu
    have ug : ∀ q, q ≠ Reg.sp → q ≠ r → u.reg q = s.reg q := by
      intro q h h2; rw [hu, State.reg_setReg_ne _ h, State.reg_setReg_ne _ h2]
    have ur : u.reg r = s.valueAt (stackAddr (s.reg Reg.sp)) .word := by
      rw [hu, State.reg_setReg_ne _ hr, State.reg_setReg_same,
          if_neg]; intro h; exact hz (by simp [h])
    have uu : u = { s with gpr :=
        u.gpr } := by rw [hu]; unfold State.setReg; split <;> split <;> rfl
    have um : u.mem = s.mem := by rw [uu]
    have upl : u.platform = s.platform := by rw [uu]
    have ut : u.tick = s.tick := by rw [uu]
    have usp : u.reg Reg.sp = s.reg Reg.sp + 4#32 := by rw [hu, State.reg_setReg_same,
        if_neg (by decide)]
    have lsucc : ∀ k, popSlot (s.reg Reg.sp + 4#32) k = popSlot (s.reg Reg.sp) (k+1) := by
      intro k; unfold popSlot; rw [BitVec.add_assoc, show 4 * (k+1) = 4 + 4 * k by omega,
          BitVec.ofNat_add]
    obtain ⟨t, ht, hp⟩ := ih u (List.nodup_cons.1 hnd).2 (fun h => hsp (by simp [h])) (fun h => hz (by simp [h])) (by
      intro k hk
      rw [usp, lsucc]
      exact (mapped_congr upl _ _).trans (hw (k+1) (by simpa using hk)))
    obtain ⟨p1, p2, p3, p4⟩ := hp
    rw [usp] at p1 p2
    simp only [lsucc] at p2
    refine ⟨t, ?_, ?_, ?_, ?_, ?_⟩
    · rw [State.popRegs, State.readAt, if_pos h0]; exact ht
    · rw [p1, BitVec.add_assoc]; congr 1
      rw [List.length_cons, show 4 * (rs.length+1) = 4 + 4 * rs.length by omega, BitVec.ofNat_add]
    · intro p hp
      rw [List.zipIdx_cons'] at hp
      simp only [List.mem_cons, List.mem_map] at hp
      rcases hp with rfl | ⟨p', hp', rfl⟩
      · rw [p3 r hr (List.nodup_cons.1 hnd).1, ur, hs0]; rfl
      · rw [Prod.map_fst, id, p2 p' hp']
        show u.valueAt _ .word = _
        rw [valueAt_congr um upl ut]; rfl
    · intro q hq hq2
      simp only [List.mem_cons, not_or] at hq2
      rw [p3 q hq hq2.2, ug q hq hq2.1]
    · rw [p4, uu]

theorem listRegs_nodup (l : List12) : (listRegs l).Nodup := by
  unfold listRegs
  refine List.Nodup.sublist (l₂ := listPlaces.map Prod.fst) ?_ (by decide)
  exact List.Sublist.map _ List.filter_sublist
theorem listRegs_zero (l : List12) : 0#5 ∉ listRegs l := fun h => by
  have := listRegs_sub l h; revert this; decide

end Sys2Proof.Safety
end

