-- ==== Sys2Proof/Laws/Plain.lean ====
section
/-! SUPPORT. The relation between the states around an operation that changes nothing but general
registers, the flags and ID, the PC and memory, and that each shared operation keeps it; the fixed bits
of a register, bit by bit. -/

namespace Sys2Proof.Safety

open Sys2Proof.Machine

/-- A fixed bit is 0. -/
theorem within_iff (m w : Word) : Within m w ↔ ∀ k < 32, m.getLsbD k = false → w.getLsbD k
    = false := by
  constructor
  · intro h k hk hm
    have := congrArg (fun x : Word => x.getLsbD k) h
    simp only [BitVec.getLsbD_and, BitVec.getLsbD_not, hk, hm] at this
    simpa using this
  · intro h
    apply word_ext; intro k hk
    simp only [BitVec.getLsbD_and, BitVec.getLsbD_not, hk]
    cases hm : m.getLsbD k
    · simp [h k hk hm]
    · simp

/-- A masked value has no bit outside the mask. -/
theorem within_and (m w : Word) : Within m (w &&& m) := by
  rw [within_iff]; intro k hk hm; simp only [BitVec.getLsbD_and, hm, Bool.and_false]

/-- A wider mask. -/
theorem within_mono {m m' w : Word} (h : Within m w) (hm : m &&& ~~~m' = 0#32) : Within m' w := by
  rw [within_iff] at *
  intro k hk h'
  by_contra hc
  have := congrArg (fun x : Word => x.getLsbD k) hm
  simp only [BitVec.getLsbD_and, BitVec.getLsbD_not, hk, h'] at this
  exact hc (h k hk (by simpa using this))

/-- Nothing changes from `s` to `t` but general registers, PSW bits 5 to 0 with SAT not cleared, the PC
and, where `b` is true, memory. -/
structure Plain (b : Bool) (s t : State) : Prop where
  rest : t = { s with gpr := t.gpr, psw := t.psw, pc := t.pc, mem := t.mem, deviceOut := t.deviceOut }
  zero : t.gpr[0] = s.gpr[0]
  psw6 : ∀ k, 6 ≤ k → t.psw.getLsbD k = s.psw.getLsbD k
  sat : s.psw.getLsbD Psw.sat = true → t.psw.getLsbD Psw.sat = true
  pcw : Within 0x1FFFFFFE#32 s.pc → Within 0x1FFFFFFE#32 t.pc
  memwf : Memory.wf s.mem = true → Memory.wf t.mem = true
  mem : b = false → t.mem = s.mem ∧ t.deviceOut = s.deviceOut

variable {b : Bool} {s t u : State}

theorem Plain.refl : Plain b s s := ⟨rfl, rfl, fun _ _ => rfl, fun h => h, fun h => h, fun h => h,
    fun _ => ⟨rfl, rfl⟩⟩

theorem Plain.tr (h : Plain b s t) (h2 : Plain b t u) : Plain b s u := by
  obtain ⟨a1, a2, a3, a4, a5, a6, a7⟩ := h
  obtain ⟨b1, b2, b3, b4, b5, b6, b7⟩ := h2
  refine ⟨?_, b2.trans a2, fun k hk => (b3 k hk).trans (a3 k hk), fun h => b4 (a4 h),
      fun h => b5 (a5 h), fun h => b6 (a6 h), fun h => ⟨(b7 h).1.trans (a7 h).1,
      (b7 h).2.trans (a7 h).2⟩⟩
  rw [b1]
  conv_lhs => rw [a1]

theorem Plain.psw (h : Plain b s t) (p : Word) (h1 : ∀ k, 6 ≤ k → p.getLsbD k = t.psw.getLsbD k)
    (h2 : t.psw.getLsbD Psw.sat = true → p.getLsbD Psw.sat
    = true) : Plain b s { t with psw := p } :=
  h.tr ⟨rfl, rfl, h1, h2, fun h => h, fun h => h, fun _ => ⟨rfl, rfl⟩⟩

theorem Plain.setReg (h : Plain b s t) (r : Reg) (v : Word) : Plain b s (t.setReg r v) :=
  h.tr ⟨by unfold State.setReg; split <;> rfl, State.setReg_cell_zero t r v, fun _ _ => by simp,
      fun h => by simpa using h, fun h => by simpa using h, fun h => by simpa using h, fun _ => ⟨by simp, by simp⟩⟩

theorem Plain.setPc (h : Plain b s t) (v : Word) : Plain b s (t.setPc v) :=
  h.tr ⟨rfl, rfl, fun _ _ => rfl, fun h => h, fun _ => within_and _ _, fun h => h, fun _ => ⟨rfl,
      rfl⟩⟩

theorem Plain.advance (h : Plain b s t) (n : Nat) : Plain b s (t.advance n) := by
  rw [advance_eq_setPc]; exact h.setPc _

theorem Plain.flags (h : Plain b s t) (cy ov sg z : Bool) :
    Plain b s { t with psw := putFlags t.psw cy ov sg z } := by
  refine h.psw _ (fun k hk => ?_) (fun h => by rw [putFlags_getLsbD]; exact h)
  have : k ≠ Psw.z ∧ k ≠ Psw.s ∧ k ≠ Psw.ov ∧ k ≠ Psw.cy :=
    ⟨by show k ≠ 0; omega, by show k ≠ 1; omega, by show k ≠ 2; omega, by show k ≠ 3; omega⟩
  simp [putFlags_getLsbD, this]

theorem Plain.flagsNoCy (h : Plain b s t) (ov sg z : Bool) :
    Plain b s { t with psw := putFlagsNoCy t.psw ov sg z } := by
  refine h.psw _ (fun k hk => ?_) (fun h => by rw [putFlagsNoCy_getLsbD]; exact h)
  have : k ≠ Psw.z ∧ k ≠ Psw.s ∧ k ≠ Psw.ov :=
    ⟨by show k ≠ 0; omega, by show k ≠ 1; omega, by show k ≠ 2; omega⟩
  simp [putFlagsNoCy_getLsbD, this]

theorem Plain.bit (h : Plain b s t) (j : Nat) (v : Bool) (hj : j < 6) (hv : j = Psw.sat → v
    = true) : Plain b s { t with psw := putBit t.psw j v } :=
  h.psw _ (fun k hk => by rw [putBit_getLsbD _ _ _ _ (by omega), if_neg (by omega)]) (fun h => by
    rw [putBit_getLsbD _ _ _ _ (by omega)]; split
    · rename_i e; exact hv e.symm
    · exact h)

theorem Plain.stored (h : Plain true s t) (a : Word) (sz : AccessSize) (v : Word) :
    Plain true s (t.stored a sz v) :=
  h.tr ⟨rfl, rfl, fun _ _ => rfl, fun h => h, fun h => h, fun h => State.stored_wf _ _ _ _ h,
      fun h => by cases h⟩

theorem Plain.saturation (h : Plain b s t) (r : Sum) (v : Word) : Plain b s (t.withSaturation r v)
    := by
  have := h.flags r.cy r.ov v.msb (v == 0#32)
  unfold State.withSaturation
  dsimp only
  split
  · exact this.bit Psw.sat true (by decide) (fun _ => rfl)
  · exact this

theorem Plain.storeSum (h : Plain b s t) (d : Reg) (r : Sum) (n : Nat) :
    Plain b s (t.storeSum d r n) := ((h.flags _ _ _ _).setReg d r.value).advance n

theorem Plain.storeValue (h : Plain b s t) (d : Reg) (r : Word) (n : Nat) :
    Plain b s (t.storeValue d r n) := (h.setReg d r).advance n

theorem Plain.storeData (h : Plain b s t) (d : Reg) (r : Word) (n : Nat) :
    Plain b s (t.storeData d r n) := (h.setReg d r).advance n

theorem Plain.satAdd (h : Plain b s t) (x y : Word) (d : Reg) (n : Nat) :
    Plain b s (t.saturatedAdd x y d n) := ((h.saturation _ _).setReg d _).advance n

theorem Plain.satSub (h : Plain b s t) (x y : Word) (d : Reg) (n : Nat) :
    Plain b s (t.saturatedSub x y d n) := ((h.saturation _ _).setReg d _).advance n

theorem Plain.storeLogic (h : Plain b s t) (d : Reg) (r : Word) (n : Nat) :
    Plain b s (t.storeLogic d r n) := ((h.flagsNoCy _ _ _).setReg d r).advance n

theorem Plain.storeSwap (h : Plain b s t) (d : Reg) (c z : Bool) (r : Word) :
    Plain b s (t.storeSwap d c z r) := ((h.flags _ _ _ _).setReg d r).advance 4

theorem Plain.storeShift (h : Plain b s t) (d : Reg) (r : Shifted) (n : Nat) :
    Plain b s (t.storeShift d r n) := ((h.flags _ _ _ _).setReg d _).advance n

theorem Plain.storeSearch (h : Plain b s t) (d : Reg) (n : Nat) : Plain b s (t.storeSearch d n) :=
    ((h.flags _ _ _ _).setReg d _).advance 4

theorem Plain.storePair (h : Plain b s t) (d e : Reg) (p : BitVec 64) :
    Plain b s (t.storePair d e p) := ((h.setReg d _).setReg e _).advance 4

theorem Plain.storeDivision (h : Plain b s t) (d e : Reg) (p : Machine.Quotient) :
    Plain b s (t.storeDivision d e p) := (((h.flagsNoCy _ _ _).setReg d _).setReg e _).advance 4

theorem Plain.withZ (h : Plain b s t) (z : Bool) : Plain b s (t.withZ z) :=
    h.bit Psw.z z (by decide) (fun h => by cases h)

/-- A store at an exact address. -/
theorem writeAt_plain {s t u : State} (h : Plain true s t) {a sz v} (hw : t.writeAt a sz v
    = .ok u) : Plain true s u := by
  obtain ⟨_, _, rfl⟩ := State.writeAt_eq_ok.1 hw; exact h.stored _ _ _

/-- The pushes of PREPARE. -/
theorem push_plain (rs : List Reg) : ∀ {s t u : State}, Plain true s t → t.pushRegs rs = .ok u
    → Plain true s u := by
  induction rs with
  | nil => intro s t u h hu; cases hu; exact h
  | cons r rs ih =>
    intro s t u h hu
    rw [State.pushRegs] at hu
    split at hu
    · rename_i v hv; exact ih ((writeAt_plain h hv).setReg _ _) hu
    · cases hu

/-- The pops of DISPOSE. -/
theorem pop_plain (rs : List Reg) : ∀ {s t u : State}, Plain false s t → t.popRegs rs = .ok u
    → Plain false s u := by
  induction rs with
  | nil => intro s t u h hu; cases hu; exact h
  | cons r rs ih =>
    intro s t u h hu
    rw [State.popRegs] at hu
    split at hu
    · exact ih ((h.setReg _ _).setReg _ _) hu
    · cases hu

end Sys2Proof.Safety
end

