-- ==== Sys2Proof/Laws/Steps.lean ====
section
/-! SUPPORT. What one step can do, said once (60_exceptions.md R411, R415, R450). -/

namespace Sys2Proof.Safety

open Sys2Proof.Machine

/-- The state a step leaves, but for the count of steps, by what the step did. -/
inductive Ran (s : State) : State → Prop where
  | single : s.stepDue = true → Ran s s.singleStepBreak
  | accept r : s.stepDue = false → s.chosen = some r → Ran s (s.accept r)
  | wait : s.stepDue = false → s.halted = true → Ran s s.wait
  | fetchBreak code :
    s.stepDue = false → s.fetch = .ok code → (s.watch [s.fetchEvent code]).hit = true →
    Ran s (s.fetchBreak (s.watch [s.fetchEvent code]))
  | illegal code :
    s.stepDue = false → s.fetch = .ok code →
    Ran s ((afterFetch s code).finishInstruction (afterFetch s code).exceptionTrap)
  | instr code rest i t :
    s.stepDue = false → s.fetch = .ok code → decode code = .ok (i, rest) →
    exec i (afterFetch s code) = .next t →
    Ran s ((afterFetch s code).finishInstruction
      (t.afterAccesses ((afterFetch s code).accesses i)))

/-- A step that answers a next state did one of these. -/
theorem step_ran {s t : State} (h : step s = .next t) : ∃ u, t = u.nextTick ∧ Ran s u := by
  unfold step State.stepOnce at h
  split at h
  · rename_i u hu
    cases h
    refine ⟨u, rfl, ?_⟩
    unfold State.boundary at hu
    split at hu
    · rename_i h1; cases hu; exact .single h1
    · rename_i h1
      have h1 : s.stepDue = false := by simpa using h1
      split at hu
      · rename_i r hr; cases hu; exact .accept r h1 hr
      · split at hu
        · rename_i h2; cases hu; exact .wait h1 h2
        · unfold State.runInstruction at hu
          split at hu
          · rename_i code hc
            unfold State.runCode at hu
            split at hu
            · cases hu
            · dsimp only at hu
              split at hu
              · rename_i hh; cases hu; exact .fetchBreak code h1 hc hh
              · split at hu
                · rename_i i rest hd
                  unfold State.runDecoded at hu
                  split at hu
                  · rename_i t ht; cases hu; exact .instr code rest i t h1 hc hd ht
                  · cases hu
                  · cases hu
                · cases hu; exact .illegal code h1 hc
                · cases hu
          · cases hu
  · cases h
  · cases h

/-- A step at a ready state runs an instruction. -/
theorem ready_step {s : State} (hr : Ready s) :
    step s =
      match s.runInstruction with
      | .next t => .next t.nextTick
      | .fault f => .fault f
      | .refused r => .refused r := by
  obtain ⟨h1, h2, h3⟩ := hr
  unfold step State.stepOnce State.boundary
  rw [h1, if_neg (by simp), h2, h3]; rfl

/-- A step that accepts a request. -/
theorem accept_step {s : State} {r : Request} (h1 : s.stepDue = false) (h2 : s.chosen = some r) :
    step s = .next (s.accept r).nextTick := by
  unfold step State.stepOnce State.boundary
  rw [h1, if_neg (by simp), h2]

/-- Sequential progress is kept in sequential mode only. -/
theorem pairOutcome_seq {sq re seq a b x y} (h : (pairOutcome sq re seq a b x y).seq = true) (hs :
    seq = true → sq = true) : sq = true := by
  unfold pairOutcome at h
  split at h <;> simp_all

theorem observe_seq (s : State) (w : Watch) (e : BusEvent) (h0 : w.seq0 = true
    → s.dir.getLsbD Dir.sq0 = true) (h1 : w.seq1 = true → s.dir.getLsbD Dir.sq1 = true) :
   ((s.observe w e).seq0 = true → s.dir.getLsbD Dir.sq0 = true) ∧ ((s.observe w e).seq1 = true
       → s.dir.getLsbD Dir.sq1 = true) := by
  unfold State.observe
  dsimp only
  split
  · split
    · exact ⟨fun h => pairOutcome_seq h h0, fun h => pairOutcome_seq h h1⟩
    · exact ⟨fun h => pairOutcome_seq h h0, h1⟩
  · exact ⟨h0, h1⟩

end Sys2Proof.Safety
end

