-- ==== Sys2Proof/Laws/Invariant.lean ====
section
/-! SUPPORT. The invariant across the shared operations: an entry sequence, a whole write of PSW, an LDSR
to DIR bit by bit, a write of a breakpoint channel, the comparators (10_state.md R50 to R56). -/

namespace Sys2Proof.Safety

open Sys2Proof.Machine

/-- An entry sequence sets no bit PSW does not have. -/
theorem entered_psw_within {s : State} (e : Entry) (h : Within Psw.mask s.psw) (he :
    Within Psw.mask e.setBits) : Within Psw.mask (enteredPsw s.psw s.dir e) := by
  rw [within_iff] at *
  intro k hk hm
  rw [enteredPsw_getLsbD _ _ _ _ hk, h k hk hm, he k hk hm]
  split
  · rename_i hh; rw [hh.2] at hm; exact absurd hm (by decide)
  · simp

/-- An entry sequence keeps the invariant, whatever legal marks DIR gets with it. -/
theorem enter_inv {s t : State} (e : Entry) (hs : s.stepDue = false) (hi : Inv s)
    (hse : Within Psw.mask e.setBits) (hss : e.setBits.getLsbD 11 = false)
    (hd : Within dirBits t.dir) (hini : t.dir.getLsbD Dir.ini = true → t.dir &&& dirGroup = 0#32)
    (hsse : t.dir.getLsbD Dir.sse = s.dir.getLsbD Dir.sse)
    (hsq0 : t.dir.getLsbD Dir.sq0 = s.dir.getLsbD Dir.sq0)
    (hsq1 : t.dir.getLsbD Dir.sq1 = s.dir.getLsbD Dir.sq1)
    (ht : t = { s.enter e with dir := t.dir }) : Inv t := by
  have hb : ∀ bank pc, Within 0x1FFFFFFF#32 (s.save bank pc).eipc ∧ Within 0x1FFFFFFF#32 (s.save bank pc).fepc ∧ Within 0x1FFFFFFF#32 (s.save bank pc).ctpc ∧ Within 0x1FFFFFFF#32 (s.save bank pc).dbpc
     ∧ Within Psw.mask (s.save bank pc).eipsw ∧ Within Psw.mask (s.save bank pc).fepsw ∧ Within Psw.mask (s.save bank pc).ctpsw ∧ Within Psw.mask (s.save bank pc).dbpsw := by
    intro bank pc
    cases bank
    · exact ⟨within_and _ _, hi.fepc, hi.ctpc, hi.dbpc, within_and _ _, hi.fepsw, hi.ctpsw,
          hi.dbpsw⟩
    · exact ⟨hi.eipc, within_and _ _, hi.ctpc, hi.dbpc, hi.eipsw, within_and _ _, hi.ctpsw,
          hi.dbpsw⟩
    · exact ⟨hi.eipc, hi.fepc, within_and _ _, hi.dbpc, hi.eipsw, hi.fepsw, within_and _ _,
          hi.dbpsw⟩
    · exact ⟨hi.eipc, hi.fepc, hi.ctpc, within_and _ _, hi.eipsw, hi.fepsw, hi.ctpsw,
          within_and _ _⟩
  have hsv : ∀ bank pc, (s.save bank pc) = { s with eipc := (s.save bank pc).eipc, fepc := (s.save bank pc).fepc, ctpc := (s.save bank pc).ctpc, dbpc := (s.save bank pc).dbpc, eipsw := (s.save bank pc).eipsw, fepsw := (s.save bank pc).fepsw, ctpsw := (s.save bank pc).ctpsw, dbpsw := (s.save bank pc).dbpsw } := by
    intro bank pc; cases bank <;> rfl
  obtain ⟨h1, h2, h3, h4, h5, h6, h7, h8⟩ := hb e.bank e.returnPc
  have hpsw := entered_psw_within e hi.psw hse
  have tp : t.psw = enteredPsw s.psw s.dir e := by rw [ht]; rfl
  have key : Safety.Inv { s.save e.bank e.returnPc with ecr := ecrWith s.ecr e.bank e.code, psw := enteredPsw s.psw s.dir e, halted := s.halted && !e.wake, pc := reducePc e.handler, dir := t.dir } := by
    rw [hsv]
    exact
    { hi with
      pc := within_and _ _, psw := hpsw, eipc := h1, fepc := h2, ctpc := h3, dbpc := h4, eipsw := h5, fepsw := h6, ctpsw := h7, dbpsw := h8
      dir := hd, ini := hini
      sse := by
        intro h
        show (enteredPsw s.psw s.dir e).getLsbD Psw.ss = false
        have h' : s.dir.getLsbD Dir.sse = false := hsse.symm.trans h
        rw [enteredPsw_getLsbD _ _ _ _ (by decide)]
        split
        · rw [h']; simp
        · rw [hi.sse h', show e.setBits.getLsbD Psw.ss = false from hss]; simp
      seq0 := by intro h; show t.dir.getLsbD _ = _; rw [hsq0]; exact hi.seq0 h
      seq1 := by intro h; show t.dir.getLsbD _ = _; rw [hsq1]; exact hi.seq1 h
      stepDue := by intro h; exact absurd (show s.stepDue = true from h) (by rw [hs]; simp) }
  rw [ht]; exact key

/-- A whole write of PSW has no bit PSW does not have. -/
theorem legalPsw_within (d v : Word) : Within Psw.mask (legalPsw d v) := by
  rw [within_iff]; intro k hk h; rw [legalPsw_getLsbD, h]; simp

/-- A whole write of PSW leaves SS 0 while SSE is 0. -/
theorem legalPsw_ss {d v : Word} (h : d.getLsbD Dir.sse = false) : (legalPsw d v).getLsbD Psw.ss
    = false := by
  rw [legalPsw_getLsbD, h]; simp

/-- A legal channel written keeps the invariant. -/
theorem setChannel_inv {s : State} (hi : Safety.Inv s) (ch : BreakChannel) (h : ChannelInv ch) :
    Safety.Inv (s.setChannel ch) := by
  refine { hi with channels := ?_ }
  intro n
  show ChannelInv (s.channels.set (channelOf s.dir).val ch)[n.val]
  rw [Vector.getElem_set]
  split
  · exact h
  · exact hi.channels n

/-- DIR after an LDSR in debug mode, bit by bit (49_special_debug.md R365). -/
theorem debugWriteDir_getLsbD (old v : Word) (k : Nat) (hk : k < 32) :
    (debugWriteDir old v).getLsbD k =
   if k ∈ [6, 7, 8, 9, 10, 22] then v.getLsbD k else
   if k ∈ [12, 13, 14, 28, 29, 30] then (!v.getLsbD 6 && if old.getLsbD 6
       = true then old.getLsbD k else v.getLsbD k) else
   if k ∈ [4,5,20,21] then (!v.getLsbD 6 && old.getLsbD k && v.getLsbD k) else
   if k ∈ [1,2,16] then (old.getLsbD k && v.getLsbD k) else old.getLsbD k := by
  unfold debugWriteDir
  have m1 : ∀ k < 32, (0x004007C0#32).getLsbD k = decide (k ∈ [6, 7, 8, 9, 10, 22]) := by decide
  have m2 : ∀ k < 32, (0x70007000#32).getLsbD k = decide (k ∈ [12, 13, 14, 28, 29, 30]) := by decide
  have m3 : ∀ k < 32, (~~~0x00310036#32).getLsbD k = !decide (k ∈ [4,5,20,21,1,2,16]) := by decide
  have m4 : ∀ k < 32, (~~~0x70307030#32).getLsbD k = !decide (k ∈ [12, 13, 14, 28, 29,
      30,4,5,20,21]) := by decide
  have d6 : Dir.ini = 6 := rfl
  rw [d6]
  dsimp only
  generalize hx : v.getLsbD 6 = b
  generalize hy : old.getLsbD 6 = c
  have key : ∀ k < 32, (k ∈ [6, 7, 8, 9, 10, 22] ∧ k ∉ [12, 13, 14, 28, 29, 30] ∧ k ∉ [4,5,20,21]
      ∧ k ∉ [1,2,16]) ∨ 
     (k ∉ [6, 7, 8, 9, 10, 22] ∧ k ∈ [12, 13, 14, 28, 29, 30] ∧ k ∉ [4,5,20,21] ∧ k ∉ [1,2,16]) ∨
     (k ∉ [6, 7, 8, 9, 10, 22] ∧ k ∉ [12, 13, 14, 28, 29, 30] ∧ k ∈ [4,5,20,21] ∧ k ∉ [1,2,16]) ∨
     (k ∉ [6, 7, 8, 9, 10, 22] ∧ k ∉ [12, 13, 14, 28, 29, 30] ∧ k ∉ [4,5,20,21] ∧ k ∈ [1,2,16]) ∨ 
     (k ∉ [6, 7, 8, 9, 10, 22] ∧ k ∉ [12, 13, 14, 28, 29, 30] ∧ k ∉ [4,5,20,21]
         ∧ k ∉ [1,2,16]) := by
    intro k hk; interval_cases k <;> simp
  have s3 : ∀ k, k ∈ [4,5,20,21,1,2,16] ↔ k ∈ [4,5,20,21] ∨ k ∈ [1,2,16] := by intro k; simp; tauto
  have s4 : ∀ k, k ∈ [12, 13, 14, 28, 29, 30,4,5,20,21] ↔ k ∈ [12, 13, 14, 28, 29,
      30] ∨ k ∈ [4,5,20,21] := by intro k; simp; tauto
  cases b <;> cases c <;>
  simp only [Bool.false_eq_true, if_false, if_true, BitVec.getLsbD_and, BitVec.getLsbD_or,
      mergeBits_getLsbD, m1 k hk, m2 k hk, m3 k hk, m4 k hk, s3, s4] <;>
  rcases key k hk with ⟨a, b, c, d⟩ | ⟨a, b, c, d⟩ | ⟨a, b, c, d⟩ | ⟨a, b, c, d⟩ | ⟨a, b, c,
      d⟩ <;> simp only [a, b, c, d] <;> simp

/-- The sequential progress after the events of an instruction is in sequential mode. -/
theorem watch_seq (s : State) (hi : Safety.Inv s) (es : List BusEvent) :
   ((s.watch es).seq0 = true → s.dir.getLsbD Dir.sq0 = true) ∧ ((s.watch es).seq1 = true
       → s.dir.getLsbD Dir.sq1 = true) := by
  unfold State.watch
  have : ∀ (es : List BusEvent) (w : Watch), (w.seq0 = true → s.dir.getLsbD Dir.sq0
      = true) → (w.seq1 = true → s.dir.getLsbD Dir.sq1 = true) → 
    ((es.foldl s.observe w).seq0 = true → s.dir.getLsbD Dir.sq0
        = true) ∧ ((es.foldl s.observe w).seq1 = true → s.dir.getLsbD Dir.sq1 = true) := by
    intro es
    induction es with
    | nil => intro w a b; exact ⟨a, b⟩
    | cons e es ih => intro w a b; exact ih _ (observe_seq s w e a b).1 (observe_seq s w e a b).2
  exact this es _ hi.seq0 hi.seq1

/-- A channel with its FB field recorded is legal. -/
theorem withFb_inv {ch : BreakChannel} (h : ChannelInv ch) (k : Fin 4) : ChannelInv (ch.withFb k)
    := by
  refine ⟨?_, ?_, h.bpav, h.bpam⟩
  · show Within bpcBits (mergeBits 0x07000000#32 ch.bpc (fbValue k))
    rw [within_iff]; intro j hj hd
    have : ∀ k < 32, bpcBits.getLsbD k = false → ¬ (0x07000000#32).getLsbD k = true := by decide
    rw [mergeBits_getLsbD, if_neg (this j hj hd)]; exact (within_iff _ _).1 h.bpc j hj hd
  · show (mergeBits 0x07000000#32 ch.bpc (fbValue k)).extractLsb' 24 3 ∈ _
    have e : (mergeBits 0x07000000#32 ch.bpc (fbValue k)).extractLsb' 24 3 = (fbValue k).extractLsb' 24 3 := by
      apply BitVec.eq_of_getLsbD_eq; intro j hj
      have : ∀ k < 3, (0x07000000#32).getLsbD (24 + k) = true := by decide
      rw [BitVec.getLsbD_extractLsb', BitVec.getLsbD_extractLsb', mergeBits_getLsbD,
          if_pos (this j hj)]
    rw [e]; clear e; revert k; decide

end Sys2Proof.Safety
end

