-- ==== Sys2Proof/Laws/PerInstr.lean ====
section
/-! SUPPORT. The families of per-instruction statements (LAWS.json): RoundTrip, that decoding an
encoded well-formed instruction gives it back and leaves the halfwords after it, and CodeLength,
that the length rule R122 read from the encoded code is the instruction's length. -/

set_option Elab.async false
set_option linter.unusedSimpArgs false
set_option linter.unusedVariables false

namespace Sys2Proof.Laws

/-- Decoding what encode writes for `i`, whatever follows it, answers `i` and what follows. -/
def RoundTrip.Statement (i : Instr) : Prop :=
  WellFormed i = true → ∀ t : List Half, decode (encode i ++ t) = .ok (i, t)

/-- The code of `i` is as long as `i` (Table 5-6), and the length rule R122 finds that length. -/
def CodeLength.Statement (i : Instr) : Prop :=
  WellFormed i = true → 2 * (encode i).length = i.length ∧
    codeLength ((encode i).getD 0 0#16) ((encode i).getD 1 0#16) = i.length


theorem RoundTrip.nop : RoundTrip.Statement .nop := fun _ _ => rfl

theorem CodeLength.nop : CodeLength.Statement .nop := fun _ => by decide

theorem RoundTrip.movReg (reg1 : Reg) (reg2 : Reg) :
    RoundTrip.Statement (.movReg reg1 reg2) := by
  intro h t
  simp_all [WellFormed, notR0, evenDisp, wordDisp, encode, decode, decodeShort, decodeByOpcode]
  tauto

theorem CodeLength.movReg (reg1 : Reg) (reg2 : Reg) :
    CodeLength.Statement (.movReg reg1 reg2) := by
  intro h
  simp_all [WellFormed, notR0, evenDisp, wordDisp, codeLength, oneHalfword, encode, Instr.length]

theorem RoundTrip.notReg (reg1 : Reg) (reg2 : Reg) :
    RoundTrip.Statement (.notReg reg1 reg2) := by
  intro h t
  simp_all [WellFormed, notR0, evenDisp, wordDisp, encode, decode, decodeShort, decodeByOpcode]

theorem CodeLength.notReg (reg1 : Reg) (reg2 : Reg) :
    CodeLength.Statement (.notReg reg1 reg2) := by
  intro h
  simp_all [WellFormed, notR0, evenDisp, wordDisp, codeLength, oneHalfword, encode, Instr.length]

theorem RoundTrip.divhReg (reg1 : Reg) (reg2 : Reg) :
    RoundTrip.Statement (.divhReg reg1 reg2) := by
  intro h t
  simp_all [WellFormed, notR0, evenDisp, wordDisp, encode, decode, decodeShort, decodeByOpcode]

theorem CodeLength.divhReg (reg1 : Reg) (reg2 : Reg) :
    CodeLength.Statement (.divhReg reg1 reg2) := by
  intro h
  simp_all [WellFormed, notR0, evenDisp, wordDisp, codeLength, oneHalfword, encode, Instr.length]

theorem RoundTrip.switch (reg1 : Reg) :
    RoundTrip.Statement (.switch reg1) := by
  intro h t
  simp_all [WellFormed, notR0, evenDisp, wordDisp, encode, decode, decodeShort, decodeByOpcode]

theorem CodeLength.switch (reg1 : Reg) :
    CodeLength.Statement (.switch reg1) := by
  intro h
  simp_all [WellFormed, notR0, evenDisp, wordDisp, codeLength, oneHalfword, encode, Instr.length]

theorem RoundTrip.dbtrap : RoundTrip.Statement .dbtrap := fun _ _ => rfl

theorem CodeLength.dbtrap : CodeLength.Statement .dbtrap := fun _ => by decide

theorem RoundTrip.jmpReg (reg1 : Reg) :
    RoundTrip.Statement (.jmpReg reg1) := by
  intro h t
  simp_all [WellFormed, notR0, evenDisp, wordDisp, encode, decode, decodeShort, decodeByOpcode]

theorem CodeLength.jmpReg (reg1 : Reg) :
    CodeLength.Statement (.jmpReg reg1) := by
  intro h
  simp_all [WellFormed, notR0, evenDisp, wordDisp, codeLength, oneHalfword, encode, Instr.length]

theorem RoundTrip.satsubr (reg1 : Reg) (reg2 : Reg) :
    RoundTrip.Statement (.satsubr reg1 reg2) := by
  intro h t
  simp_all [WellFormed, notR0, evenDisp, wordDisp, encode, decode, decodeShort, decodeByOpcode]

theorem CodeLength.satsubr (reg1 : Reg) (reg2 : Reg) :
    CodeLength.Statement (.satsubr reg1 reg2) := by
  intro h
  simp_all [WellFormed, notR0, evenDisp, wordDisp, codeLength, oneHalfword, encode, Instr.length]

theorem RoundTrip.satsubReg (reg1 : Reg) (reg2 : Reg) :
    RoundTrip.Statement (.satsubReg reg1 reg2) := by
  intro h t
  simp_all [WellFormed, notR0, evenDisp, wordDisp, encode, decode, decodeShort, decodeByOpcode]

theorem CodeLength.satsubReg (reg1 : Reg) (reg2 : Reg) :
    CodeLength.Statement (.satsubReg reg1 reg2) := by
  intro h
  simp_all [WellFormed, notR0, evenDisp, wordDisp, codeLength, oneHalfword, encode, Instr.length]

theorem RoundTrip.sataddReg (reg1 : Reg) (reg2 : Reg) :
    RoundTrip.Statement (.sataddReg reg1 reg2) := by
  intro h t
  simp_all [WellFormed, notR0, evenDisp, wordDisp, encode, decode, decodeShort, decodeByOpcode]

theorem CodeLength.sataddReg (reg1 : Reg) (reg2 : Reg) :
    CodeLength.Statement (.sataddReg reg1 reg2) := by
  intro h
  simp_all [WellFormed, notR0, evenDisp, wordDisp, codeLength, oneHalfword, encode, Instr.length]

theorem RoundTrip.mulhReg (reg1 : Reg) (reg2 : Reg) :
    RoundTrip.Statement (.mulhReg reg1 reg2) := by
  intro h t
  simp_all [WellFormed, notR0, evenDisp, wordDisp, encode, decode, decodeShort, decodeByOpcode]

theorem CodeLength.mulhReg (reg1 : Reg) (reg2 : Reg) :
    CodeLength.Statement (.mulhReg reg1 reg2) := by
  intro h
  simp_all [WellFormed, notR0, evenDisp, wordDisp, codeLength, oneHalfword, encode, Instr.length]

theorem RoundTrip.zxb (reg1 : Reg) :
    RoundTrip.Statement (.zxb reg1) := by
  intro h t
  simp_all [WellFormed, notR0, evenDisp, wordDisp, encode, decode, decodeShort, decodeByOpcode]

theorem CodeLength.zxb (reg1 : Reg) :
    CodeLength.Statement (.zxb reg1) := by
  intro h
  simp_all [WellFormed, notR0, evenDisp, wordDisp, codeLength, oneHalfword, encode, Instr.length]

theorem RoundTrip.sxb (reg1 : Reg) :
    RoundTrip.Statement (.sxb reg1) := by
  intro h t
  simp_all [WellFormed, notR0, evenDisp, wordDisp, encode, decode, decodeShort, decodeByOpcode]

theorem CodeLength.sxb (reg1 : Reg) :
    CodeLength.Statement (.sxb reg1) := by
  intro h
  simp_all [WellFormed, notR0, evenDisp, wordDisp, codeLength, oneHalfword, encode, Instr.length]

theorem RoundTrip.zxh (reg1 : Reg) :
    RoundTrip.Statement (.zxh reg1) := by
  intro h t
  simp_all [WellFormed, notR0, evenDisp, wordDisp, encode, decode, decodeShort, decodeByOpcode]

theorem CodeLength.zxh (reg1 : Reg) :
    CodeLength.Statement (.zxh reg1) := by
  intro h
  simp_all [WellFormed, notR0, evenDisp, wordDisp, codeLength, oneHalfword, encode, Instr.length]

theorem RoundTrip.sxh (reg1 : Reg) :
    RoundTrip.Statement (.sxh reg1) := by
  intro h t
  simp_all [WellFormed, notR0, evenDisp, wordDisp, encode, decode, decodeShort, decodeByOpcode]

theorem CodeLength.sxh (reg1 : Reg) :
    CodeLength.Statement (.sxh reg1) := by
  intro h
  simp_all [WellFormed, notR0, evenDisp, wordDisp, codeLength, oneHalfword, encode, Instr.length]

theorem RoundTrip.orReg (reg1 : Reg) (reg2 : Reg) :
    RoundTrip.Statement (.orReg reg1 reg2) := by
  intro h t
  simp_all [WellFormed, notR0, evenDisp, wordDisp, encode, decode, decodeShort, decodeByOpcode]

theorem CodeLength.orReg (reg1 : Reg) (reg2 : Reg) :
    CodeLength.Statement (.orReg reg1 reg2) := by
  intro h
  simp_all [WellFormed, notR0, evenDisp, wordDisp, codeLength, oneHalfword, encode, Instr.length]

theorem RoundTrip.xorReg (reg1 : Reg) (reg2 : Reg) :
    RoundTrip.Statement (.xorReg reg1 reg2) := by
  intro h t
  simp_all [WellFormed, notR0, evenDisp, wordDisp, encode, decode, decodeShort, decodeByOpcode]

theorem CodeLength.xorReg (reg1 : Reg) (reg2 : Reg) :
    CodeLength.Statement (.xorReg reg1 reg2) := by
  intro h
  simp_all [WellFormed, notR0, evenDisp, wordDisp, codeLength, oneHalfword, encode, Instr.length]

theorem RoundTrip.andReg (reg1 : Reg) (reg2 : Reg) :
    RoundTrip.Statement (.andReg reg1 reg2) := by
  intro h t
  simp_all [WellFormed, notR0, evenDisp, wordDisp, encode, decode, decodeShort, decodeByOpcode]

theorem CodeLength.andReg (reg1 : Reg) (reg2 : Reg) :
    CodeLength.Statement (.andReg reg1 reg2) := by
  intro h
  simp_all [WellFormed, notR0, evenDisp, wordDisp, codeLength, oneHalfword, encode, Instr.length]

theorem RoundTrip.tst (reg1 : Reg) (reg2 : Reg) :
    RoundTrip.Statement (.tst reg1 reg2) := by
  intro h t
  simp_all [WellFormed, notR0, evenDisp, wordDisp, encode, decode, decodeShort, decodeByOpcode]

theorem CodeLength.tst (reg1 : Reg) (reg2 : Reg) :
    CodeLength.Statement (.tst reg1 reg2) := by
  intro h
  simp_all [WellFormed, notR0, evenDisp, wordDisp, codeLength, oneHalfword, encode, Instr.length]

theorem RoundTrip.subr (reg1 : Reg) (reg2 : Reg) :
    RoundTrip.Statement (.subr reg1 reg2) := by
  intro h t
  simp_all [WellFormed, notR0, evenDisp, wordDisp, encode, decode, decodeShort, decodeByOpcode]

theorem CodeLength.subr (reg1 : Reg) (reg2 : Reg) :
    CodeLength.Statement (.subr reg1 reg2) := by
  intro h
  simp_all [WellFormed, notR0, evenDisp, wordDisp, codeLength, oneHalfword, encode, Instr.length]

theorem RoundTrip.sub (reg1 : Reg) (reg2 : Reg) :
    RoundTrip.Statement (.sub reg1 reg2) := by
  intro h t
  simp_all [WellFormed, notR0, evenDisp, wordDisp, encode, decode, decodeShort, decodeByOpcode]

theorem CodeLength.sub (reg1 : Reg) (reg2 : Reg) :
    CodeLength.Statement (.sub reg1 reg2) := by
  intro h
  simp_all [WellFormed, notR0, evenDisp, wordDisp, codeLength, oneHalfword, encode, Instr.length]

theorem RoundTrip.addReg (reg1 : Reg) (reg2 : Reg) :
    RoundTrip.Statement (.addReg reg1 reg2) := by
  intro h t
  simp_all [WellFormed, notR0, evenDisp, wordDisp, encode, decode, decodeShort, decodeByOpcode]

theorem CodeLength.addReg (reg1 : Reg) (reg2 : Reg) :
    CodeLength.Statement (.addReg reg1 reg2) := by
  intro h
  simp_all [WellFormed, notR0, evenDisp, wordDisp, codeLength, oneHalfword, encode, Instr.length]

theorem RoundTrip.cmpReg (reg1 : Reg) (reg2 : Reg) :
    RoundTrip.Statement (.cmpReg reg1 reg2) := by
  intro h t
  simp_all [WellFormed, notR0, evenDisp, wordDisp, encode, decode, decodeShort, decodeByOpcode]

theorem CodeLength.cmpReg (reg1 : Reg) (reg2 : Reg) :
    CodeLength.Statement (.cmpReg reg1 reg2) := by
  intro h
  simp_all [WellFormed, notR0, evenDisp, wordDisp, codeLength, oneHalfword, encode, Instr.length]

theorem RoundTrip.movImm5 (imm5 : BitVec 5) (reg2 : Reg) :
    RoundTrip.Statement (.movImm5 imm5 reg2) := by
  intro h t
  simp_all [WellFormed, notR0, evenDisp, wordDisp, encode, decode, decodeShort, decodeByOpcode]

theorem CodeLength.movImm5 (imm5 : BitVec 5) (reg2 : Reg) :
    CodeLength.Statement (.movImm5 imm5 reg2) := by
  intro h
  simp_all [WellFormed, notR0, evenDisp, wordDisp, codeLength, oneHalfword, encode, Instr.length]

theorem RoundTrip.sataddImm5 (imm5 : BitVec 5) (reg2 : Reg) :
    RoundTrip.Statement (.sataddImm5 imm5 reg2) := by
  intro h t
  simp_all [WellFormed, notR0, evenDisp, wordDisp, encode, decode, decodeShort, decodeByOpcode]

theorem CodeLength.sataddImm5 (imm5 : BitVec 5) (reg2 : Reg) :
    CodeLength.Statement (.sataddImm5 imm5 reg2) := by
  intro h
  simp_all [WellFormed, notR0, evenDisp, wordDisp, codeLength, oneHalfword, encode, Instr.length]

theorem RoundTrip.addImm5 (imm5 : BitVec 5) (reg2 : Reg) :
    RoundTrip.Statement (.addImm5 imm5 reg2) := by
  intro h t
  simp_all [WellFormed, notR0, evenDisp, wordDisp, encode, decode, decodeShort, decodeByOpcode]

theorem CodeLength.addImm5 (imm5 : BitVec 5) (reg2 : Reg) :
    CodeLength.Statement (.addImm5 imm5 reg2) := by
  intro h
  simp_all [WellFormed, notR0, evenDisp, wordDisp, codeLength, oneHalfword, encode, Instr.length]

theorem RoundTrip.cmpImm5 (imm5 : BitVec 5) (reg2 : Reg) :
    RoundTrip.Statement (.cmpImm5 imm5 reg2) := by
  intro h t
  simp_all [WellFormed, notR0, evenDisp, wordDisp, encode, decode, decodeShort, decodeByOpcode]

theorem CodeLength.cmpImm5 (imm5 : BitVec 5) (reg2 : Reg) :
    CodeLength.Statement (.cmpImm5 imm5 reg2) := by
  intro h
  simp_all [WellFormed, notR0, evenDisp, wordDisp, codeLength, oneHalfword, encode, Instr.length]

theorem RoundTrip.callt (imm6 : BitVec 6) :
    RoundTrip.Statement (.callt imm6) := by
  intro h t
  simp_all [WellFormed, notR0, evenDisp, wordDisp, encode, decode, decodeShort, encodeOp5, op4_of_op5]

theorem CodeLength.callt (imm6 : BitVec 6) :
    CodeLength.Statement (.callt imm6) := by
  intro h
  rcases bit_cases (imm6.extractLsb' 5 1) with e | e <;>
    simp_all [WellFormed, notR0, evenDisp, wordDisp, codeLength, oneHalfword, encode, Instr.length, encodeOp5, op4_of_op5]

theorem RoundTrip.shrImm5 (imm5 : BitVec 5) (reg2 : Reg) :
    RoundTrip.Statement (.shrImm5 imm5 reg2) := by
  intro h t
  simp_all [WellFormed, notR0, evenDisp, wordDisp, encode, decode, decodeShort, decodeByOpcode]

theorem CodeLength.shrImm5 (imm5 : BitVec 5) (reg2 : Reg) :
    CodeLength.Statement (.shrImm5 imm5 reg2) := by
  intro h
  simp_all [WellFormed, notR0, evenDisp, wordDisp, codeLength, oneHalfword, encode, Instr.length]

theorem RoundTrip.sarImm5 (imm5 : BitVec 5) (reg2 : Reg) :
    RoundTrip.Statement (.sarImm5 imm5 reg2) := by
  intro h t
  simp_all [WellFormed, notR0, evenDisp, wordDisp, encode, decode, decodeShort, decodeByOpcode]

theorem CodeLength.sarImm5 (imm5 : BitVec 5) (reg2 : Reg) :
    CodeLength.Statement (.sarImm5 imm5 reg2) := by
  intro h
  simp_all [WellFormed, notR0, evenDisp, wordDisp, codeLength, oneHalfword, encode, Instr.length]

theorem RoundTrip.shlImm5 (imm5 : BitVec 5) (reg2 : Reg) :
    RoundTrip.Statement (.shlImm5 imm5 reg2) := by
  intro h t
  simp_all [WellFormed, notR0, evenDisp, wordDisp, encode, decode, decodeShort, decodeByOpcode]

theorem CodeLength.shlImm5 (imm5 : BitVec 5) (reg2 : Reg) :
    CodeLength.Statement (.shlImm5 imm5 reg2) := by
  intro h
  simp_all [WellFormed, notR0, evenDisp, wordDisp, codeLength, oneHalfword, encode, Instr.length]

theorem RoundTrip.mulhImm5 (imm5 : BitVec 5) (reg2 : Reg) :
    RoundTrip.Statement (.mulhImm5 imm5 reg2) := by
  intro h t
  simp_all [WellFormed, notR0, evenDisp, wordDisp, encode, decode, decodeShort, decodeByOpcode]

theorem CodeLength.mulhImm5 (imm5 : BitVec 5) (reg2 : Reg) :
    CodeLength.Statement (.mulhImm5 imm5 reg2) := by
  intro h
  simp_all [WellFormed, notR0, evenDisp, wordDisp, codeLength, oneHalfword, encode, Instr.length]

theorem RoundTrip.bcond (cond : Cond) (disp9 : BitVec 9) :
    RoundTrip.Statement (.bcond cond disp9) := by
  intro h t
  simp_all [WellFormed, notR0, evenDisp, wordDisp, encode, decode, decodeShort, encodeShort]

theorem CodeLength.bcond (cond : Cond) (disp9 : BitVec 9) :
    CodeLength.Statement (.bcond cond disp9) := by
  intro h
  simp_all [WellFormed, notR0, evenDisp, wordDisp, codeLength, oneHalfword, encode, Instr.length, encodeShort]

theorem RoundTrip.sldbu (disp4 : BitVec 4) (reg2 : Reg) :
    RoundTrip.Statement (.sldbu disp4 reg2) := by
  intro h t
  simp_all [WellFormed, notR0, evenDisp, wordDisp, encode, decode, decodeShort, decodeByOpcode]

theorem CodeLength.sldbu (disp4 : BitVec 4) (reg2 : Reg) :
    CodeLength.Statement (.sldbu disp4 reg2) := by
  intro h
  simp_all [WellFormed, notR0, evenDisp, wordDisp, codeLength, oneHalfword, encode, Instr.length]

theorem RoundTrip.sldhu (disp5 : BitVec 5) (reg2 : Reg) :
    RoundTrip.Statement (.sldhu disp5 reg2) := by
  intro h t
  simp_all [WellFormed, notR0, evenDisp, wordDisp, encode, decode, decodeShort, decodeByOpcode]

theorem CodeLength.sldhu (disp5 : BitVec 5) (reg2 : Reg) :
    CodeLength.Statement (.sldhu disp5 reg2) := by
  intro h
  simp_all [WellFormed, notR0, evenDisp, wordDisp, codeLength, oneHalfword, encode, Instr.length]

theorem RoundTrip.sldb (disp7 : BitVec 7) (reg2 : Reg) :
    RoundTrip.Statement (.sldb disp7 reg2) := by
  intro h t
  simp_all [WellFormed, notR0, evenDisp, wordDisp, encode, decode, decodeShort, encodeShort]

theorem CodeLength.sldb (disp7 : BitVec 7) (reg2 : Reg) :
    CodeLength.Statement (.sldb disp7 reg2) := by
  intro h
  simp_all [WellFormed, notR0, evenDisp, wordDisp, codeLength, oneHalfword, encode, Instr.length, encodeShort]

theorem RoundTrip.sstb (reg2 : Reg) (disp7 : BitVec 7) :
    RoundTrip.Statement (.sstb reg2 disp7) := by
  intro h t
  simp_all [WellFormed, notR0, evenDisp, wordDisp, encode, decode, decodeShort, encodeShort]

theorem CodeLength.sstb (reg2 : Reg) (disp7 : BitVec 7) :
    CodeLength.Statement (.sstb reg2 disp7) := by
  intro h
  simp_all [WellFormed, notR0, evenDisp, wordDisp, codeLength, oneHalfword, encode, Instr.length, encodeShort]

theorem RoundTrip.sldh (disp8 : BitVec 8) (reg2 : Reg) :
    RoundTrip.Statement (.sldh disp8 reg2) := by
  intro h t
  simp_all [WellFormed, notR0, evenDisp, wordDisp, encode, decode, decodeShort, encodeShort]

theorem CodeLength.sldh (disp8 : BitVec 8) (reg2 : Reg) :
    CodeLength.Statement (.sldh disp8 reg2) := by
  intro h
  simp_all [WellFormed, notR0, evenDisp, wordDisp, codeLength, oneHalfword, encode, Instr.length, encodeShort]

theorem RoundTrip.ssth (reg2 : Reg) (disp8 : BitVec 8) :
    RoundTrip.Statement (.ssth reg2 disp8) := by
  intro h t
  simp_all [WellFormed, notR0, evenDisp, wordDisp, encode, decode, decodeShort, encodeShort]

theorem CodeLength.ssth (reg2 : Reg) (disp8 : BitVec 8) :
    CodeLength.Statement (.ssth reg2 disp8) := by
  intro h
  simp_all [WellFormed, notR0, evenDisp, wordDisp, codeLength, oneHalfword, encode, Instr.length, encodeShort]

theorem RoundTrip.sldw (disp8 : BitVec 8) (reg2 : Reg) :
    RoundTrip.Statement (.sldw disp8 reg2) := by
  intro h t
  simp_all [WellFormed, notR0, evenDisp, wordDisp, encode, decode, decodeShort, encodeShort]

theorem CodeLength.sldw (disp8 : BitVec 8) (reg2 : Reg) :
    CodeLength.Statement (.sldw disp8 reg2) := by
  intro h
  simp_all [WellFormed, notR0, evenDisp, wordDisp, codeLength, oneHalfword, encode, Instr.length, encodeShort]

theorem RoundTrip.sstw (reg2 : Reg) (disp8 : BitVec 8) :
    RoundTrip.Statement (.sstw reg2 disp8) := by
  intro h t
  simp_all [WellFormed, notR0, evenDisp, wordDisp, encode, decode, decodeShort, encodeShort]

theorem CodeLength.sstw (reg2 : Reg) (disp8 : BitVec 8) :
    CodeLength.Statement (.sstw reg2 disp8) := by
  intro h
  simp_all [WellFormed, notR0, evenDisp, wordDisp, codeLength, oneHalfword, encode, Instr.length, encodeShort]

theorem RoundTrip.jarl22 (disp22 : BitVec 22) (reg2 : Reg) :
    RoundTrip.Statement (.jarl22 disp22 reg2) := by
  intro h t
  simp_all [WellFormed, notR0, evenDisp, wordDisp, encode, decode, decodeShort, encodeOp5, decodeFormatV, op4_of_op5]

theorem CodeLength.jarl22 (disp22 : BitVec 22) (reg2 : Reg) :
    CodeLength.Statement (.jarl22 disp22 reg2) := by
  intro h
  rcases bit_cases ((disp22.extractLsb' 16 6).extractLsb' 5 1) with e | e <;>
    simp_all [WellFormed, notR0, evenDisp, wordDisp, codeLength, oneHalfword, encode, Instr.length, encodeOp5, op4_of_op5]

theorem RoundTrip.jr22 (disp22 : BitVec 22) :
    RoundTrip.Statement (.jr22 disp22) := by
  intro h t
  simp_all [WellFormed, notR0, evenDisp, wordDisp, encode, decode, decodeShort, encodeOp5, decodeFormatV, op4_of_op5]

theorem CodeLength.jr22 (disp22 : BitVec 22) :
    CodeLength.Statement (.jr22 disp22) := by
  intro h
  rcases bit_cases ((disp22.extractLsb' 16 6).extractLsb' 5 1) with e | e <;>
    simp_all [WellFormed, notR0, evenDisp, wordDisp, codeLength, oneHalfword, encode, Instr.length, encodeOp5, op4_of_op5]

theorem RoundTrip.addi (imm16 : BitVec 16) (reg1 : Reg) (reg2 : Reg) :
    RoundTrip.Statement (.addi imm16 reg1 reg2) := by
  intro h t
  simp_all [WellFormed, notR0, evenDisp, wordDisp, encode, decode, decodeShort, decodeByOpcode, withSecond]

theorem CodeLength.addi (imm16 : BitVec 16) (reg1 : Reg) (reg2 : Reg) :
    CodeLength.Statement (.addi imm16 reg1 reg2) := by
  intro h
  simp_all [WellFormed, notR0, evenDisp, wordDisp, codeLength, oneHalfword, encode, Instr.length]

theorem RoundTrip.movea (imm16 : BitVec 16) (reg1 : Reg) (reg2 : Reg) :
    RoundTrip.Statement (.movea imm16 reg1 reg2) := by
  intro h t
  simp_all [WellFormed, notR0, evenDisp, wordDisp, encode, decode, decodeShort, decodeByOpcode, withSecond]

theorem CodeLength.movea (imm16 : BitVec 16) (reg1 : Reg) (reg2 : Reg) :
    CodeLength.Statement (.movea imm16 reg1 reg2) := by
  intro h
  simp_all [WellFormed, notR0, evenDisp, wordDisp, codeLength, oneHalfword, encode, Instr.length]

theorem RoundTrip.movImm32 (imm32 : BitVec 32) (reg1 : Reg) :
    RoundTrip.Statement (.movImm32 imm32 reg1) := by
  intro h t
  simp_all [WellFormed, notR0, evenDisp, wordDisp, encode, decode, decodeShort, decodeByOpcode, withThird, bit0Clear]

theorem CodeLength.movImm32 (imm32 : BitVec 32) (reg1 : Reg) :
    CodeLength.Statement (.movImm32 imm32 reg1) := by
  intro h
  simp_all [WellFormed, notR0, evenDisp, wordDisp, codeLength, oneHalfword, encode, Instr.length]

theorem RoundTrip.movhi (imm16 : BitVec 16) (reg1 : Reg) (reg2 : Reg) :
    RoundTrip.Statement (.movhi imm16 reg1 reg2) := by
  intro h t
  simp_all [WellFormed, notR0, evenDisp, wordDisp, encode, decode, decodeShort, decodeByOpcode, withSecond]

theorem CodeLength.movhi (imm16 : BitVec 16) (reg1 : Reg) (reg2 : Reg) :
    CodeLength.Statement (.movhi imm16 reg1 reg2) := by
  intro h
  simp_all [WellFormed, notR0, evenDisp, wordDisp, codeLength, oneHalfword, encode, Instr.length]

theorem RoundTrip.satsubi (imm16 : BitVec 16) (reg1 : Reg) (reg2 : Reg) :
    RoundTrip.Statement (.satsubi imm16 reg1 reg2) := by
  intro h t
  simp_all [WellFormed, notR0, evenDisp, wordDisp, encode, decode, decodeShort, decodeByOpcode, withSecond]

theorem CodeLength.satsubi (imm16 : BitVec 16) (reg1 : Reg) (reg2 : Reg) :
    CodeLength.Statement (.satsubi imm16 reg1 reg2) := by
  intro h
  simp_all [WellFormed, notR0, evenDisp, wordDisp, codeLength, oneHalfword, encode, Instr.length]

theorem RoundTrip.ori (imm16 : BitVec 16) (reg1 : Reg) (reg2 : Reg) :
    RoundTrip.Statement (.ori imm16 reg1 reg2) := by
  intro h t
  simp_all [WellFormed, notR0, evenDisp, wordDisp, encode, decode, decodeShort, decodeByOpcode, withSecond]

theorem CodeLength.ori (imm16 : BitVec 16) (reg1 : Reg) (reg2 : Reg) :
    CodeLength.Statement (.ori imm16 reg1 reg2) := by
  intro h
  simp_all [WellFormed, notR0, evenDisp, wordDisp, codeLength, oneHalfword, encode, Instr.length]

theorem RoundTrip.xori (imm16 : BitVec 16) (reg1 : Reg) (reg2 : Reg) :
    RoundTrip.Statement (.xori imm16 reg1 reg2) := by
  intro h t
  simp_all [WellFormed, notR0, evenDisp, wordDisp, encode, decode, decodeShort, decodeByOpcode, withSecond]

theorem CodeLength.xori (imm16 : BitVec 16) (reg1 : Reg) (reg2 : Reg) :
    CodeLength.Statement (.xori imm16 reg1 reg2) := by
  intro h
  simp_all [WellFormed, notR0, evenDisp, wordDisp, codeLength, oneHalfword, encode, Instr.length]

theorem RoundTrip.andi (imm16 : BitVec 16) (reg1 : Reg) (reg2 : Reg) :
    RoundTrip.Statement (.andi imm16 reg1 reg2) := by
  intro h t
  simp_all [WellFormed, notR0, evenDisp, wordDisp, encode, decode, decodeShort, decodeByOpcode, withSecond]

theorem CodeLength.andi (imm16 : BitVec 16) (reg1 : Reg) (reg2 : Reg) :
    CodeLength.Statement (.andi imm16 reg1 reg2) := by
  intro h
  simp_all [WellFormed, notR0, evenDisp, wordDisp, codeLength, oneHalfword, encode, Instr.length]

theorem RoundTrip.mulhi (imm16 : BitVec 16) (reg1 : Reg) (reg2 : Reg) :
    RoundTrip.Statement (.mulhi imm16 reg1 reg2) := by
  intro h t
  simp_all [WellFormed, notR0, evenDisp, wordDisp, encode, decode, decodeShort, decodeByOpcode, withSecond]

theorem CodeLength.mulhi (imm16 : BitVec 16) (reg1 : Reg) (reg2 : Reg) :
    CodeLength.Statement (.mulhi imm16 reg1 reg2) := by
  intro h
  simp_all [WellFormed, notR0, evenDisp, wordDisp, codeLength, oneHalfword, encode, Instr.length]

theorem RoundTrip.jmpDisp32 (disp32 : BitVec 32) (reg1 : Reg) :
    RoundTrip.Statement (.jmpDisp32 disp32 reg1) := by
  intro h t
  simp_all [WellFormed, notR0, evenDisp, wordDisp, encode, decode, decodeShort, decodeByOpcode, withThird, bit0Clear]

theorem CodeLength.jmpDisp32 (disp32 : BitVec 32) (reg1 : Reg) :
    CodeLength.Statement (.jmpDisp32 disp32 reg1) := by
  intro h
  simp_all [WellFormed, notR0, evenDisp, wordDisp, codeLength, oneHalfword, encode, Instr.length]

theorem RoundTrip.jr32 (disp32 : BitVec 32) :
    RoundTrip.Statement (.jr32 disp32) := by
  intro h t
  simp_all [WellFormed, notR0, evenDisp, wordDisp, encode, decode, decodeShort, decodeByOpcode, withThird, bit0Clear]

theorem CodeLength.jr32 (disp32 : BitVec 32) :
    CodeLength.Statement (.jr32 disp32) := by
  intro h
  simp_all [WellFormed, notR0, evenDisp, wordDisp, codeLength, oneHalfword, encode, Instr.length]

theorem RoundTrip.jarl32 (disp32 : BitVec 32) (reg1 : Reg) :
    RoundTrip.Statement (.jarl32 disp32 reg1) := by
  intro h t
  simp_all [WellFormed, notR0, evenDisp, wordDisp, encode, decode, decodeShort, decodeByOpcode, withThird, bit0Clear]

theorem CodeLength.jarl32 (disp32 : BitVec 32) (reg1 : Reg) :
    CodeLength.Statement (.jarl32 disp32 reg1) := by
  intro h
  simp_all [WellFormed, notR0, evenDisp, wordDisp, codeLength, oneHalfword, encode, Instr.length]

theorem RoundTrip.ldb (disp16 : BitVec 16) (reg1 : Reg) (reg2 : Reg) :
    RoundTrip.Statement (.ldb disp16 reg1 reg2) := by
  intro h t
  simp_all [WellFormed, notR0, evenDisp, wordDisp, encode, decode, decodeShort, decodeByOpcode, withSecond]

theorem CodeLength.ldb (disp16 : BitVec 16) (reg1 : Reg) (reg2 : Reg) :
    CodeLength.Statement (.ldb disp16 reg1 reg2) := by
  intro h
  simp_all [WellFormed, notR0, evenDisp, wordDisp, codeLength, oneHalfword, encode, Instr.length]

theorem RoundTrip.ldh (disp16 : BitVec 16) (reg1 : Reg) (reg2 : Reg) :
    RoundTrip.Statement (.ldh disp16 reg1 reg2) := by
  intro h t
  simp_all [WellFormed, notR0, evenDisp, wordDisp, encode, decode, decodeShort, decodeByOpcode, withSecond]

theorem CodeLength.ldh (disp16 : BitVec 16) (reg1 : Reg) (reg2 : Reg) :
    CodeLength.Statement (.ldh disp16 reg1 reg2) := by
  intro h
  simp_all [WellFormed, notR0, evenDisp, wordDisp, codeLength, oneHalfword, encode, Instr.length]

theorem RoundTrip.ldw (disp16 : BitVec 16) (reg1 : Reg) (reg2 : Reg) :
    RoundTrip.Statement (.ldw disp16 reg1 reg2) := by
  intro h t
  simp_all [WellFormed, notR0, evenDisp, wordDisp, encode, decode, decodeShort, decodeByOpcode, withSecond]

theorem CodeLength.ldw (disp16 : BitVec 16) (reg1 : Reg) (reg2 : Reg) :
    CodeLength.Statement (.ldw disp16 reg1 reg2) := by
  intro h
  simp_all [WellFormed, notR0, evenDisp, wordDisp, codeLength, oneHalfword, encode, Instr.length]

theorem RoundTrip.stb (reg2 : Reg) (disp16 : BitVec 16) (reg1 : Reg) :
    RoundTrip.Statement (.stb reg2 disp16 reg1) := by
  intro h t
  simp_all [WellFormed, notR0, evenDisp, wordDisp, encode, decode, decodeShort, decodeByOpcode, withSecond]

theorem CodeLength.stb (reg2 : Reg) (disp16 : BitVec 16) (reg1 : Reg) :
    CodeLength.Statement (.stb reg2 disp16 reg1) := by
  intro h
  simp_all [WellFormed, notR0, evenDisp, wordDisp, codeLength, oneHalfword, encode, Instr.length]

theorem RoundTrip.sth (reg2 : Reg) (disp16 : BitVec 16) (reg1 : Reg) :
    RoundTrip.Statement (.sth reg2 disp16 reg1) := by
  intro h t
  simp_all [WellFormed, notR0, evenDisp, wordDisp, encode, decode, decodeShort, decodeByOpcode, withSecond]

theorem CodeLength.sth (reg2 : Reg) (disp16 : BitVec 16) (reg1 : Reg) :
    CodeLength.Statement (.sth reg2 disp16 reg1) := by
  intro h
  simp_all [WellFormed, notR0, evenDisp, wordDisp, codeLength, oneHalfword, encode, Instr.length]

theorem RoundTrip.stw (reg2 : Reg) (disp16 : BitVec 16) (reg1 : Reg) :
    RoundTrip.Statement (.stw reg2 disp16 reg1) := by
  intro h t
  simp_all [WellFormed, notR0, evenDisp, wordDisp, encode, decode, decodeShort, decodeByOpcode, withSecond]

theorem CodeLength.stw (reg2 : Reg) (disp16 : BitVec 16) (reg1 : Reg) :
    CodeLength.Statement (.stw reg2 disp16 reg1) := by
  intro h
  simp_all [WellFormed, notR0, evenDisp, wordDisp, codeLength, oneHalfword, encode, Instr.length]

theorem RoundTrip.ldbu (disp16 : BitVec 16) (reg1 : Reg) (reg2 : Reg) :
    RoundTrip.Statement (.ldbu disp16 reg1 reg2) := by
  intro h t
  simp_all [WellFormed, notR0, evenDisp, wordDisp, encode, decode, decodeShort, encodeOp5, decodeFormatV, op4_of_op5]

theorem CodeLength.ldbu (disp16 : BitVec 16) (reg1 : Reg) (reg2 : Reg) :
    CodeLength.Statement (.ldbu disp16 reg1 reg2) := by
  intro h
  rcases bit_cases ((disp16.extractLsb' 0 1 ++ reg1 : BitVec 6).extractLsb' 5 1) with e | e <;>
    simp_all [WellFormed, notR0, evenDisp, wordDisp, codeLength, oneHalfword, encode, Instr.length, encodeOp5, op4_of_op5]

theorem RoundTrip.ldhu (disp16 : BitVec 16) (reg1 : Reg) (reg2 : Reg) :
    RoundTrip.Statement (.ldhu disp16 reg1 reg2) := by
  intro h t
  simp_all [WellFormed, notR0, evenDisp, wordDisp, encode, decode, decodeShort, decodeByOpcode, withSecond, decodeExpansion]

theorem CodeLength.ldhu (disp16 : BitVec 16) (reg1 : Reg) (reg2 : Reg) :
    CodeLength.Statement (.ldhu disp16 reg1 reg2) := by
  intro h
  simp_all [WellFormed, notR0, evenDisp, wordDisp, codeLength, oneHalfword, encode, Instr.length]

theorem RoundTrip.set1Imm (bit3 : BitVec 3) (disp16 : BitVec 16) (reg1 : Reg) :
    RoundTrip.Statement (.set1Imm bit3 disp16 reg1) := by
  intro h t
  simp_all [WellFormed, notR0, evenDisp, wordDisp, encode, decode, decodeShort, decodeByOpcode, withSecond, decodeBitOp]

theorem CodeLength.set1Imm (bit3 : BitVec 3) (disp16 : BitVec 16) (reg1 : Reg) :
    CodeLength.Statement (.set1Imm bit3 disp16 reg1) := by
  intro h
  simp_all [WellFormed, notR0, evenDisp, wordDisp, codeLength, oneHalfword, encode, Instr.length]

theorem RoundTrip.not1Imm (bit3 : BitVec 3) (disp16 : BitVec 16) (reg1 : Reg) :
    RoundTrip.Statement (.not1Imm bit3 disp16 reg1) := by
  intro h t
  simp_all [WellFormed, notR0, evenDisp, wordDisp, encode, decode, decodeShort, decodeByOpcode, withSecond, decodeBitOp]

theorem CodeLength.not1Imm (bit3 : BitVec 3) (disp16 : BitVec 16) (reg1 : Reg) :
    CodeLength.Statement (.not1Imm bit3 disp16 reg1) := by
  intro h
  simp_all [WellFormed, notR0, evenDisp, wordDisp, codeLength, oneHalfword, encode, Instr.length]

theorem RoundTrip.clr1Imm (bit3 : BitVec 3) (disp16 : BitVec 16) (reg1 : Reg) :
    RoundTrip.Statement (.clr1Imm bit3 disp16 reg1) := by
  intro h t
  simp_all [WellFormed, notR0, evenDisp, wordDisp, encode, decode, decodeShort, decodeByOpcode, withSecond, decodeBitOp]

theorem CodeLength.clr1Imm (bit3 : BitVec 3) (disp16 : BitVec 16) (reg1 : Reg) :
    CodeLength.Statement (.clr1Imm bit3 disp16 reg1) := by
  intro h
  simp_all [WellFormed, notR0, evenDisp, wordDisp, codeLength, oneHalfword, encode, Instr.length]

theorem RoundTrip.tst1Imm (bit3 : BitVec 3) (disp16 : BitVec 16) (reg1 : Reg) :
    RoundTrip.Statement (.tst1Imm bit3 disp16 reg1) := by
  intro h t
  simp_all [WellFormed, notR0, evenDisp, wordDisp, encode, decode, decodeShort, decodeByOpcode, withSecond, decodeBitOp]

theorem CodeLength.tst1Imm (bit3 : BitVec 3) (disp16 : BitVec 16) (reg1 : Reg) :
    CodeLength.Statement (.tst1Imm bit3 disp16 reg1) := by
  intro h
  simp_all [WellFormed, notR0, evenDisp, wordDisp, codeLength, oneHalfword, encode, Instr.length]

theorem RoundTrip.setf (cond : Cond) (reg2 : Reg) :
    RoundTrip.Statement (.setf cond reg2) := by
  intro h t
  simp_all [WellFormed, notR0, evenDisp, wordDisp, encode, decode, decodeShort, encodeExt, decodeByOpcode, withSecond, decodeExpansion]

theorem CodeLength.setf (cond : Cond) (reg2 : Reg) :
    CodeLength.Statement (.setf cond reg2) := by
  intro h
  simp_all [WellFormed, notR0, evenDisp, wordDisp, codeLength, oneHalfword, encode, Instr.length, encodeExt]

theorem RoundTrip.ldsr (reg2 : Reg) (regID : BitVec 5) :
    RoundTrip.Statement (.ldsr reg2 regID) := by
  intro h t
  simp_all [WellFormed, notR0, evenDisp, wordDisp, encode, decode, decodeShort, encodeExt, decodeByOpcode, withSecond, decodeExpansion]

theorem CodeLength.ldsr (reg2 : Reg) (regID : BitVec 5) :
    CodeLength.Statement (.ldsr reg2 regID) := by
  intro h
  simp_all [WellFormed, notR0, evenDisp, wordDisp, codeLength, oneHalfword, encode, Instr.length, encodeExt]

theorem RoundTrip.stsr (regID : BitVec 5) (reg2 : Reg) :
    RoundTrip.Statement (.stsr regID reg2) := by
  intro h t
  simp_all [WellFormed, notR0, evenDisp, wordDisp, encode, decode, decodeShort, encodeExt, decodeByOpcode, withSecond, decodeExpansion]

theorem CodeLength.stsr (regID : BitVec 5) (reg2 : Reg) :
    CodeLength.Statement (.stsr regID reg2) := by
  intro h
  simp_all [WellFormed, notR0, evenDisp, wordDisp, codeLength, oneHalfword, encode, Instr.length, encodeExt]

theorem RoundTrip.shrReg (reg1 : Reg) (reg2 : Reg) :
    RoundTrip.Statement (.shrReg reg1 reg2) := by
  intro h t
  simp_all [WellFormed, notR0, evenDisp, wordDisp, encode, decode, decodeShort, encodeExt, decodeByOpcode, withSecond, decodeExpansion]

theorem CodeLength.shrReg (reg1 : Reg) (reg2 : Reg) :
    CodeLength.Statement (.shrReg reg1 reg2) := by
  intro h
  simp_all [WellFormed, notR0, evenDisp, wordDisp, codeLength, oneHalfword, encode, Instr.length, encodeExt]

theorem RoundTrip.sarReg (reg1 : Reg) (reg2 : Reg) :
    RoundTrip.Statement (.sarReg reg1 reg2) := by
  intro h t
  simp_all [WellFormed, notR0, evenDisp, wordDisp, encode, decode, decodeShort, encodeExt, decodeByOpcode, withSecond, decodeExpansion]

theorem CodeLength.sarReg (reg1 : Reg) (reg2 : Reg) :
    CodeLength.Statement (.sarReg reg1 reg2) := by
  intro h
  simp_all [WellFormed, notR0, evenDisp, wordDisp, codeLength, oneHalfword, encode, Instr.length, encodeExt]

theorem RoundTrip.shlReg (reg1 : Reg) (reg2 : Reg) :
    RoundTrip.Statement (.shlReg reg1 reg2) := by
  intro h t
  simp_all [WellFormed, notR0, evenDisp, wordDisp, encode, decode, decodeShort, encodeExt, decodeByOpcode, withSecond, decodeExpansion]

theorem CodeLength.shlReg (reg1 : Reg) (reg2 : Reg) :
    CodeLength.Statement (.shlReg reg1 reg2) := by
  intro h
  simp_all [WellFormed, notR0, evenDisp, wordDisp, codeLength, oneHalfword, encode, Instr.length, encodeExt]

theorem RoundTrip.set1Reg (reg2 : Reg) (reg1 : Reg) :
    RoundTrip.Statement (.set1Reg reg2 reg1) := by
  intro h t
  simp_all [WellFormed, notR0, evenDisp, wordDisp, encode, decode, decodeShort, encodeExt, decodeByOpcode, withSecond, decodeExpansion]

theorem CodeLength.set1Reg (reg2 : Reg) (reg1 : Reg) :
    CodeLength.Statement (.set1Reg reg2 reg1) := by
  intro h
  simp_all [WellFormed, notR0, evenDisp, wordDisp, codeLength, oneHalfword, encode, Instr.length, encodeExt]

theorem RoundTrip.not1Reg (reg2 : Reg) (reg1 : Reg) :
    RoundTrip.Statement (.not1Reg reg2 reg1) := by
  intro h t
  simp_all [WellFormed, notR0, evenDisp, wordDisp, encode, decode, decodeShort, encodeExt, decodeByOpcode, withSecond, decodeExpansion]

theorem CodeLength.not1Reg (reg2 : Reg) (reg1 : Reg) :
    CodeLength.Statement (.not1Reg reg2 reg1) := by
  intro h
  simp_all [WellFormed, notR0, evenDisp, wordDisp, codeLength, oneHalfword, encode, Instr.length, encodeExt]

theorem RoundTrip.clr1Reg (reg2 : Reg) (reg1 : Reg) :
    RoundTrip.Statement (.clr1Reg reg2 reg1) := by
  intro h t
  simp_all [WellFormed, notR0, evenDisp, wordDisp, encode, decode, decodeShort, encodeExt, decodeByOpcode, withSecond, decodeExpansion]

theorem CodeLength.clr1Reg (reg2 : Reg) (reg1 : Reg) :
    CodeLength.Statement (.clr1Reg reg2 reg1) := by
  intro h
  simp_all [WellFormed, notR0, evenDisp, wordDisp, codeLength, oneHalfword, encode, Instr.length, encodeExt]

theorem RoundTrip.tst1Reg (reg2 : Reg) (reg1 : Reg) :
    RoundTrip.Statement (.tst1Reg reg2 reg1) := by
  intro h t
  simp_all [WellFormed, notR0, evenDisp, wordDisp, encode, decode, decodeShort, encodeExt, decodeByOpcode, withSecond, decodeExpansion]

theorem CodeLength.tst1Reg (reg2 : Reg) (reg1 : Reg) :
    CodeLength.Statement (.tst1Reg reg2 reg1) := by
  intro h
  simp_all [WellFormed, notR0, evenDisp, wordDisp, codeLength, oneHalfword, encode, Instr.length, encodeExt]

theorem RoundTrip.sasf (cond : Cond) (reg2 : Reg) :
    RoundTrip.Statement (.sasf cond reg2) := by
  intro h t
  simp_all [WellFormed, notR0, evenDisp, wordDisp, encode, decode, decodeShort, encodeExt, decodeByOpcode, withSecond, decodeExpansion]

theorem CodeLength.sasf (cond : Cond) (reg2 : Reg) :
    CodeLength.Statement (.sasf cond reg2) := by
  intro h
  simp_all [WellFormed, notR0, evenDisp, wordDisp, codeLength, oneHalfword, encode, Instr.length, encodeExt]

theorem RoundTrip.sch0r (reg2 : Reg) (reg3 : Reg) :
    RoundTrip.Statement (.sch0r reg2 reg3) := by
  intro h t
  simp_all [WellFormed, notR0, evenDisp, wordDisp, encode, decode, decodeShort, encodeExt, decodeByOpcode, withSecond, decodeExpansion]

theorem CodeLength.sch0r (reg2 : Reg) (reg3 : Reg) :
    CodeLength.Statement (.sch0r reg2 reg3) := by
  intro h
  simp_all [WellFormed, notR0, evenDisp, wordDisp, codeLength, oneHalfword, encode, Instr.length, encodeExt]

theorem RoundTrip.sch1r (reg2 : Reg) (reg3 : Reg) :
    RoundTrip.Statement (.sch1r reg2 reg3) := by
  intro h t
  simp_all [WellFormed, notR0, evenDisp, wordDisp, encode, decode, decodeShort, encodeExt, decodeByOpcode, withSecond, decodeExpansion]

theorem CodeLength.sch1r (reg2 : Reg) (reg3 : Reg) :
    CodeLength.Statement (.sch1r reg2 reg3) := by
  intro h
  simp_all [WellFormed, notR0, evenDisp, wordDisp, codeLength, oneHalfword, encode, Instr.length, encodeExt]

theorem RoundTrip.sch0l (reg2 : Reg) (reg3 : Reg) :
    RoundTrip.Statement (.sch0l reg2 reg3) := by
  intro h t
  simp_all [WellFormed, notR0, evenDisp, wordDisp, encode, decode, decodeShort, encodeExt, decodeByOpcode, withSecond, decodeExpansion]

theorem CodeLength.sch0l (reg2 : Reg) (reg3 : Reg) :
    CodeLength.Statement (.sch0l reg2 reg3) := by
  intro h
  simp_all [WellFormed, notR0, evenDisp, wordDisp, codeLength, oneHalfword, encode, Instr.length, encodeExt]

theorem RoundTrip.sch1l (reg2 : Reg) (reg3 : Reg) :
    RoundTrip.Statement (.sch1l reg2 reg3) := by
  intro h t
  simp_all [WellFormed, notR0, evenDisp, wordDisp, encode, decode, decodeShort, encodeExt, decodeByOpcode, withSecond, decodeExpansion]

theorem CodeLength.sch1l (reg2 : Reg) (reg3 : Reg) :
    CodeLength.Statement (.sch1l reg2 reg3) := by
  intro h
  simp_all [WellFormed, notR0, evenDisp, wordDisp, codeLength, oneHalfword, encode, Instr.length, encodeExt]

theorem RoundTrip.trap (vector : BitVec 5) :
    RoundTrip.Statement (.trap vector) := by
  intro h t
  simp_all [WellFormed, notR0, evenDisp, wordDisp, encode, decode, decodeShort, encodeExt, decodeByOpcode, withSecond, decodeExpansion]

theorem CodeLength.trap (vector : BitVec 5) :
    CodeLength.Statement (.trap vector) := by
  intro h
  simp_all [WellFormed, notR0, evenDisp, wordDisp, codeLength, oneHalfword, encode, Instr.length, encodeExt]

theorem RoundTrip.halt :
    RoundTrip.Statement .halt := by
  intro h t
  simp_all [WellFormed, notR0, evenDisp, wordDisp, encode, decode, decodeShort, encodeExt, decodeByOpcode, withSecond, decodeExpansion]

theorem CodeLength.halt :
    CodeLength.Statement .halt := by
  intro h
  simp_all [WellFormed, notR0, evenDisp, wordDisp, codeLength, oneHalfword, encode, Instr.length, encodeExt]

theorem RoundTrip.reti :
    RoundTrip.Statement .reti := by
  intro h t
  simp_all [WellFormed, notR0, evenDisp, wordDisp, encode, decode, decodeShort, encodeExt, decodeByOpcode, withSecond, decodeExpansion]

theorem CodeLength.reti :
    CodeLength.Statement .reti := by
  intro h
  simp_all [WellFormed, notR0, evenDisp, wordDisp, codeLength, oneHalfword, encode, Instr.length, encodeExt]

theorem RoundTrip.ctret :
    RoundTrip.Statement .ctret := by
  intro h t
  simp_all [WellFormed, notR0, evenDisp, wordDisp, encode, decode, decodeShort, encodeExt, decodeByOpcode, withSecond, decodeExpansion]

theorem CodeLength.ctret :
    CodeLength.Statement .ctret := by
  intro h
  simp_all [WellFormed, notR0, evenDisp, wordDisp, codeLength, oneHalfword, encode, Instr.length, encodeExt]

theorem RoundTrip.dbret :
    RoundTrip.Statement .dbret := by
  intro h t
  simp_all [WellFormed, notR0, evenDisp, wordDisp, encode, decode, decodeShort, encodeExt, decodeByOpcode, withSecond, decodeExpansion]

theorem CodeLength.dbret :
    CodeLength.Statement .dbret := by
  intro h
  simp_all [WellFormed, notR0, evenDisp, wordDisp, codeLength, oneHalfword, encode, Instr.length, encodeExt]

theorem RoundTrip.di :
    RoundTrip.Statement .di := by
  intro h t
  simp_all [WellFormed, notR0, evenDisp, wordDisp, encode, decode, decodeShort, encodeExt, decodeByOpcode, withSecond, decodeExpansion]

theorem CodeLength.di :
    CodeLength.Statement .di := by
  intro h
  simp_all [WellFormed, notR0, evenDisp, wordDisp, codeLength, oneHalfword, encode, Instr.length, encodeExt]

theorem RoundTrip.ei :
    RoundTrip.Statement .ei := by
  intro h t
  simp_all [WellFormed, notR0, evenDisp, wordDisp, encode, decode, decodeShort, encodeExt, decodeByOpcode, withSecond, decodeExpansion]

theorem CodeLength.ei :
    CodeLength.Statement .ei := by
  intro h
  simp_all [WellFormed, notR0, evenDisp, wordDisp, codeLength, oneHalfword, encode, Instr.length, encodeExt]

theorem RoundTrip.shr3 (reg1 : Reg) (reg2 : Reg) (reg3 : Reg) :
    RoundTrip.Statement (.shr3 reg1 reg2 reg3) := by
  intro h t
  simp_all [WellFormed, notR0, evenDisp, wordDisp, encode, decode, decodeShort, encodeExt, decodeByOpcode, withSecond, decodeExpansion]

theorem CodeLength.shr3 (reg1 : Reg) (reg2 : Reg) (reg3 : Reg) :
    CodeLength.Statement (.shr3 reg1 reg2 reg3) := by
  intro h
  simp_all [WellFormed, notR0, evenDisp, wordDisp, codeLength, oneHalfword, encode, Instr.length, encodeExt]

theorem RoundTrip.sar3 (reg1 : Reg) (reg2 : Reg) (reg3 : Reg) :
    RoundTrip.Statement (.sar3 reg1 reg2 reg3) := by
  intro h t
  simp_all [WellFormed, notR0, evenDisp, wordDisp, encode, decode, decodeShort, encodeExt, decodeByOpcode, withSecond, decodeExpansion]

theorem CodeLength.sar3 (reg1 : Reg) (reg2 : Reg) (reg3 : Reg) :
    CodeLength.Statement (.sar3 reg1 reg2 reg3) := by
  intro h
  simp_all [WellFormed, notR0, evenDisp, wordDisp, codeLength, oneHalfword, encode, Instr.length, encodeExt]

theorem RoundTrip.shl3 (reg1 : Reg) (reg2 : Reg) (reg3 : Reg) :
    RoundTrip.Statement (.shl3 reg1 reg2 reg3) := by
  intro h t
  simp_all [WellFormed, notR0, evenDisp, wordDisp, encode, decode, decodeShort, encodeExt, decodeByOpcode, withSecond, decodeExpansion]

theorem CodeLength.shl3 (reg1 : Reg) (reg2 : Reg) (reg3 : Reg) :
    CodeLength.Statement (.shl3 reg1 reg2 reg3) := by
  intro h
  simp_all [WellFormed, notR0, evenDisp, wordDisp, codeLength, oneHalfword, encode, Instr.length, encodeExt]

theorem RoundTrip.mul (reg1 : Reg) (reg2 : Reg) (reg3 : Reg) :
    RoundTrip.Statement (.mul reg1 reg2 reg3) := by
  intro h t
  simp_all [WellFormed, notR0, evenDisp, wordDisp, encode, decode, decodeShort, encodeExt, decodeByOpcode, withSecond, decodeExpansion]

theorem CodeLength.mul (reg1 : Reg) (reg2 : Reg) (reg3 : Reg) :
    CodeLength.Statement (.mul reg1 reg2 reg3) := by
  intro h
  simp_all [WellFormed, notR0, evenDisp, wordDisp, codeLength, oneHalfword, encode, Instr.length, encodeExt]

theorem RoundTrip.mulu (reg1 : Reg) (reg2 : Reg) (reg3 : Reg) :
    RoundTrip.Statement (.mulu reg1 reg2 reg3) := by
  intro h t
  simp_all [WellFormed, notR0, evenDisp, wordDisp, encode, decode, decodeShort, encodeExt, decodeByOpcode, withSecond, decodeExpansion]

theorem CodeLength.mulu (reg1 : Reg) (reg2 : Reg) (reg3 : Reg) :
    CodeLength.Statement (.mulu reg1 reg2 reg3) := by
  intro h
  simp_all [WellFormed, notR0, evenDisp, wordDisp, codeLength, oneHalfword, encode, Instr.length, encodeExt]

theorem RoundTrip.divh3 (reg1 : Reg) (reg2 : Reg) (reg3 : Reg) :
    RoundTrip.Statement (.divh3 reg1 reg2 reg3) := by
  intro h t
  simp_all [WellFormed, notR0, evenDisp, wordDisp, encode, decode, decodeShort, encodeExt, decodeByOpcode, withSecond, decodeExpansion]

theorem CodeLength.divh3 (reg1 : Reg) (reg2 : Reg) (reg3 : Reg) :
    CodeLength.Statement (.divh3 reg1 reg2 reg3) := by
  intro h
  simp_all [WellFormed, notR0, evenDisp, wordDisp, codeLength, oneHalfword, encode, Instr.length, encodeExt]

theorem RoundTrip.divhu (reg1 : Reg) (reg2 : Reg) (reg3 : Reg) :
    RoundTrip.Statement (.divhu reg1 reg2 reg3) := by
  intro h t
  simp_all [WellFormed, notR0, evenDisp, wordDisp, encode, decode, decodeShort, encodeExt, decodeByOpcode, withSecond, decodeExpansion]

theorem CodeLength.divhu (reg1 : Reg) (reg2 : Reg) (reg3 : Reg) :
    CodeLength.Statement (.divhu reg1 reg2 reg3) := by
  intro h
  simp_all [WellFormed, notR0, evenDisp, wordDisp, codeLength, oneHalfword, encode, Instr.length, encodeExt]

theorem RoundTrip.div (reg1 : Reg) (reg2 : Reg) (reg3 : Reg) :
    RoundTrip.Statement (.div reg1 reg2 reg3) := by
  intro h t
  simp_all [WellFormed, notR0, evenDisp, wordDisp, encode, decode, decodeShort, encodeExt, decodeByOpcode, withSecond, decodeExpansion]

theorem CodeLength.div (reg1 : Reg) (reg2 : Reg) (reg3 : Reg) :
    CodeLength.Statement (.div reg1 reg2 reg3) := by
  intro h
  simp_all [WellFormed, notR0, evenDisp, wordDisp, codeLength, oneHalfword, encode, Instr.length, encodeExt]

theorem RoundTrip.divu (reg1 : Reg) (reg2 : Reg) (reg3 : Reg) :
    RoundTrip.Statement (.divu reg1 reg2 reg3) := by
  intro h t
  simp_all [WellFormed, notR0, evenDisp, wordDisp, encode, decode, decodeShort, encodeExt, decodeByOpcode, withSecond, decodeExpansion]

theorem CodeLength.divu (reg1 : Reg) (reg2 : Reg) (reg3 : Reg) :
    CodeLength.Statement (.divu reg1 reg2 reg3) := by
  intro h
  simp_all [WellFormed, notR0, evenDisp, wordDisp, codeLength, oneHalfword, encode, Instr.length, encodeExt]

theorem RoundTrip.cmov (cond : Cond) (reg1 : Reg) (reg2 : Reg) (reg3 : Reg) :
    RoundTrip.Statement (.cmov cond reg1 reg2 reg3) := by
  intro h t
  simp_all [WellFormed, notR0, evenDisp, wordDisp, encode, decode, decodeShort, encodeExt, decodeByOpcode, withSecond, decodeExpansion]

theorem CodeLength.cmov (cond : Cond) (reg1 : Reg) (reg2 : Reg) (reg3 : Reg) :
    CodeLength.Statement (.cmov cond reg1 reg2 reg3) := by
  intro h
  simp_all [WellFormed, notR0, evenDisp, wordDisp, codeLength, oneHalfword, encode, Instr.length, encodeExt]

theorem RoundTrip.sbf (cond : Cond) (reg1 : Reg) (reg2 : Reg) (reg3 : Reg) :
    RoundTrip.Statement (.sbf cond reg1 reg2 reg3) := by
  intro h t
  simp_all [WellFormed, notR0, evenDisp, wordDisp, encode, decode, decodeShort, encodeExt, decodeByOpcode, withSecond, decodeExpansion]

theorem CodeLength.sbf (cond : Cond) (reg1 : Reg) (reg2 : Reg) (reg3 : Reg) :
    CodeLength.Statement (.sbf cond reg1 reg2 reg3) := by
  intro h
  simp_all [WellFormed, notR0, evenDisp, wordDisp, codeLength, oneHalfword, encode, Instr.length, encodeExt]

theorem RoundTrip.satsub3 (reg1 : Reg) (reg2 : Reg) (reg3 : Reg) :
    RoundTrip.Statement (.satsub3 reg1 reg2 reg3) := by
  intro h t
  simp_all [WellFormed, notR0, evenDisp, wordDisp, encode, decode, decodeShort, encodeExt, decodeByOpcode, withSecond, decodeExpansion]

theorem CodeLength.satsub3 (reg1 : Reg) (reg2 : Reg) (reg3 : Reg) :
    CodeLength.Statement (.satsub3 reg1 reg2 reg3) := by
  intro h
  simp_all [WellFormed, notR0, evenDisp, wordDisp, codeLength, oneHalfword, encode, Instr.length, encodeExt]

theorem RoundTrip.adf (cond : Cond) (reg1 : Reg) (reg2 : Reg) (reg3 : Reg) :
    RoundTrip.Statement (.adf cond reg1 reg2 reg3) := by
  intro h t
  simp_all [WellFormed, notR0, evenDisp, wordDisp, encode, decode, decodeShort, encodeExt, decodeByOpcode, withSecond, decodeExpansion]

theorem CodeLength.adf (cond : Cond) (reg1 : Reg) (reg2 : Reg) (reg3 : Reg) :
    CodeLength.Statement (.adf cond reg1 reg2 reg3) := by
  intro h
  simp_all [WellFormed, notR0, evenDisp, wordDisp, codeLength, oneHalfword, encode, Instr.length, encodeExt]

theorem RoundTrip.satadd3 (reg1 : Reg) (reg2 : Reg) (reg3 : Reg) :
    RoundTrip.Statement (.satadd3 reg1 reg2 reg3) := by
  intro h t
  simp_all [WellFormed, notR0, evenDisp, wordDisp, encode, decode, decodeShort, encodeExt, decodeByOpcode, withSecond, decodeExpansion]

theorem CodeLength.satadd3 (reg1 : Reg) (reg2 : Reg) (reg3 : Reg) :
    CodeLength.Statement (.satadd3 reg1 reg2 reg3) := by
  intro h
  simp_all [WellFormed, notR0, evenDisp, wordDisp, codeLength, oneHalfword, encode, Instr.length, encodeExt]

theorem RoundTrip.mac (reg1 : Reg) (reg2 : Reg) (reg3 : Reg) (reg4 : Reg) :
    RoundTrip.Statement (.mac reg1 reg2 reg3 reg4) := by
  intro h t
  simp_all [WellFormed, notR0, evenDisp, wordDisp, encode, decode, decodeShort, encodeExt, decodeByOpcode, withSecond, decodeExpansion]

theorem CodeLength.mac (reg1 : Reg) (reg2 : Reg) (reg3 : Reg) (reg4 : Reg) :
    CodeLength.Statement (.mac reg1 reg2 reg3 reg4) := by
  intro h
  simp_all [WellFormed, notR0, evenDisp, wordDisp, codeLength, oneHalfword, encode, Instr.length, encodeExt]

theorem RoundTrip.macu (reg1 : Reg) (reg2 : Reg) (reg3 : Reg) (reg4 : Reg) :
    RoundTrip.Statement (.macu reg1 reg2 reg3 reg4) := by
  intro h t
  simp_all [WellFormed, notR0, evenDisp, wordDisp, encode, decode, decodeShort, encodeExt, decodeByOpcode, withSecond, decodeExpansion]

theorem CodeLength.macu (reg1 : Reg) (reg2 : Reg) (reg3 : Reg) (reg4 : Reg) :
    CodeLength.Statement (.macu reg1 reg2 reg3 reg4) := by
  intro h
  simp_all [WellFormed, notR0, evenDisp, wordDisp, codeLength, oneHalfword, encode, Instr.length, encodeExt]

theorem RoundTrip.mulImm9 (imm9 : BitVec 9) (reg2 : Reg) (reg3 : Reg) :
    RoundTrip.Statement (.mulImm9 imm9 reg2 reg3) := by
  intro h t
  simp_all [WellFormed, notR0, evenDisp, wordDisp, encode, decode, decodeShort, encodeExt, decodeByOpcode, withSecond, decodeExpansion]

theorem CodeLength.mulImm9 (imm9 : BitVec 9) (reg2 : Reg) (reg3 : Reg) :
    CodeLength.Statement (.mulImm9 imm9 reg2 reg3) := by
  intro h
  simp_all [WellFormed, notR0, evenDisp, wordDisp, codeLength, oneHalfword, encode, Instr.length, encodeExt]

theorem RoundTrip.muluImm9 (imm9 : BitVec 9) (reg2 : Reg) (reg3 : Reg) :
    RoundTrip.Statement (.muluImm9 imm9 reg2 reg3) := by
  intro h t
  simp_all [WellFormed, notR0, evenDisp, wordDisp, encode, decode, decodeShort, encodeExt, decodeByOpcode, withSecond, decodeExpansion]

theorem CodeLength.muluImm9 (imm9 : BitVec 9) (reg2 : Reg) (reg3 : Reg) :
    CodeLength.Statement (.muluImm9 imm9 reg2 reg3) := by
  intro h
  simp_all [WellFormed, notR0, evenDisp, wordDisp, codeLength, oneHalfword, encode, Instr.length, encodeExt]

theorem RoundTrip.cmovImm5 (cond : Cond) (imm5 : BitVec 5) (reg2 : Reg) (reg3 : Reg) :
    RoundTrip.Statement (.cmovImm5 cond imm5 reg2 reg3) := by
  intro h t
  simp_all [WellFormed, notR0, evenDisp, wordDisp, encode, decode, decodeShort, encodeExt, decodeByOpcode, withSecond, decodeExpansion]

theorem CodeLength.cmovImm5 (cond : Cond) (imm5 : BitVec 5) (reg2 : Reg) (reg3 : Reg) :
    CodeLength.Statement (.cmovImm5 cond imm5 reg2 reg3) := by
  intro h
  simp_all [WellFormed, notR0, evenDisp, wordDisp, codeLength, oneHalfword, encode, Instr.length, encodeExt]

theorem RoundTrip.bsw (reg2 : Reg) (reg3 : Reg) :
    RoundTrip.Statement (.bsw reg2 reg3) := by
  intro h t
  simp_all [WellFormed, notR0, evenDisp, wordDisp, encode, decode, decodeShort, encodeExt, decodeByOpcode, withSecond, decodeExpansion]

theorem CodeLength.bsw (reg2 : Reg) (reg3 : Reg) :
    CodeLength.Statement (.bsw reg2 reg3) := by
  intro h
  simp_all [WellFormed, notR0, evenDisp, wordDisp, codeLength, oneHalfword, encode, Instr.length, encodeExt]

theorem RoundTrip.bsh (reg2 : Reg) (reg3 : Reg) :
    RoundTrip.Statement (.bsh reg2 reg3) := by
  intro h t
  simp_all [WellFormed, notR0, evenDisp, wordDisp, encode, decode, decodeShort, encodeExt, decodeByOpcode, withSecond, decodeExpansion]

theorem CodeLength.bsh (reg2 : Reg) (reg3 : Reg) :
    CodeLength.Statement (.bsh reg2 reg3) := by
  intro h
  simp_all [WellFormed, notR0, evenDisp, wordDisp, codeLength, oneHalfword, encode, Instr.length, encodeExt]

theorem RoundTrip.hsw (reg2 : Reg) (reg3 : Reg) :
    RoundTrip.Statement (.hsw reg2 reg3) := by
  intro h t
  simp_all [WellFormed, notR0, evenDisp, wordDisp, encode, decode, decodeShort, encodeExt, decodeByOpcode, withSecond, decodeExpansion]

theorem CodeLength.hsw (reg2 : Reg) (reg3 : Reg) :
    CodeLength.Statement (.hsw reg2 reg3) := by
  intro h
  simp_all [WellFormed, notR0, evenDisp, wordDisp, codeLength, oneHalfword, encode, Instr.length, encodeExt]

theorem RoundTrip.hsh (reg2 : Reg) (reg3 : Reg) :
    RoundTrip.Statement (.hsh reg2 reg3) := by
  intro h t
  simp_all [WellFormed, notR0, evenDisp, wordDisp, encode, decode, decodeShort, encodeExt, decodeByOpcode, withSecond, decodeExpansion]

theorem CodeLength.hsh (reg2 : Reg) (reg3 : Reg) :
    CodeLength.Statement (.hsh reg2 reg3) := by
  intro h
  simp_all [WellFormed, notR0, evenDisp, wordDisp, codeLength, oneHalfword, encode, Instr.length, encodeExt]

theorem RoundTrip.dispose (imm5 : BitVec 5) (list12 : List12) :
    RoundTrip.Statement (.dispose imm5 list12) := by
  intro h t
  simp_all [WellFormed, notR0, evenDisp, wordDisp, encode, decode, decodeShort, encodeStack, encodeOp5, op4_of_op5, withSecond, decodeDispose]

theorem CodeLength.dispose (imm5 : BitVec 5) (list12 : List12) :
    CodeLength.Statement (.dispose imm5 list12) := by
  intro h
  rcases bit_cases ((imm5 ++ list12.extractLsb' 0 1 : BitVec 6).extractLsb' 5 1) with e | e <;>
    simp_all [WellFormed, notR0, evenDisp, wordDisp, codeLength, oneHalfword, encode, Instr.length, encodeOp5, op4_of_op5, encodeStack]

theorem RoundTrip.disposeJmp (imm5 : BitVec 5) (list12 : List12) (reg1 : Reg) :
    RoundTrip.Statement (.disposeJmp imm5 list12 reg1) := by
  intro h t
  simp_all [WellFormed, notR0, evenDisp, wordDisp, encode, decode, decodeShort, encodeStack, encodeOp5, op4_of_op5, withSecond, decodeDispose]

theorem CodeLength.disposeJmp (imm5 : BitVec 5) (list12 : List12) (reg1 : Reg) :
    CodeLength.Statement (.disposeJmp imm5 list12 reg1) := by
  intro h
  rcases bit_cases ((imm5 ++ list12.extractLsb' 0 1 : BitVec 6).extractLsb' 5 1) with e | e <;>
    simp_all [WellFormed, notR0, evenDisp, wordDisp, codeLength, oneHalfword, encode, Instr.length, encodeOp5, op4_of_op5, encodeStack]

theorem RoundTrip.prepare (list12 : List12) (imm5 : BitVec 5) :
    RoundTrip.Statement (.prepare list12 imm5) := by
  intro h t
  simp_all [WellFormed, notR0, evenDisp, wordDisp, encode, decode, decodeShort, encodeOp5, decodeFormatV, op4_of_op5, encodeStack, decodePrepare]

theorem CodeLength.prepare (list12 : List12) (imm5 : BitVec 5) :
    CodeLength.Statement (.prepare list12 imm5) := by
  intro h
  rcases bit_cases ((imm5 ++ list12.extractLsb' 0 1 : BitVec 6).extractLsb' 5 1) with e | e <;>
    simp_all [WellFormed, notR0, evenDisp, wordDisp, codeLength, oneHalfword, encode, Instr.length, encodeOp5, op4_of_op5, encodeStack]

theorem RoundTrip.prepareSp (list12 : List12) (imm5 : BitVec 5) :
    RoundTrip.Statement (.prepareSp list12 imm5) := by
  intro h t
  simp_all [WellFormed, notR0, evenDisp, wordDisp, encode, decode, decodeShort, encodeOp5, decodeFormatV, op4_of_op5, encodeStack, decodePrepare]

theorem CodeLength.prepareSp (list12 : List12) (imm5 : BitVec 5) :
    CodeLength.Statement (.prepareSp list12 imm5) := by
  intro h
  rcases bit_cases ((imm5 ++ list12.extractLsb' 0 1 : BitVec 6).extractLsb' 5 1) with e | e <;>
    simp_all [WellFormed, notR0, evenDisp, wordDisp, codeLength, oneHalfword, encode, Instr.length, encodeOp5, op4_of_op5, encodeStack]

theorem RoundTrip.prepareImm16 (list12 : List12) (imm5 : BitVec 5) (imm16 : BitVec 16) :
    RoundTrip.Statement (.prepareImm16 list12 imm5 imm16) := by
  intro h t
  simp_all [WellFormed, notR0, evenDisp, wordDisp, encode, decode, decodeShort, encodeOp5, decodeFormatV, op4_of_op5, encodeStack, decodePrepare]

theorem CodeLength.prepareImm16 (list12 : List12) (imm5 : BitVec 5) (imm16 : BitVec 16) :
    CodeLength.Statement (.prepareImm16 list12 imm5 imm16) := by
  intro h
  rcases bit_cases ((imm5 ++ list12.extractLsb' 0 1 : BitVec 6).extractLsb' 5 1) with e | e <;>
    simp_all [WellFormed, notR0, evenDisp, wordDisp, codeLength, oneHalfword, encode, Instr.length, encodeOp5, op4_of_op5, encodeStack]

theorem RoundTrip.prepareImm16Hi (list12 : List12) (imm5 : BitVec 5) (imm16 : BitVec 16) :
    RoundTrip.Statement (.prepareImm16Hi list12 imm5 imm16) := by
  intro h t
  simp_all [WellFormed, notR0, evenDisp, wordDisp, encode, decode, decodeShort, encodeOp5, decodeFormatV, op4_of_op5, encodeStack, decodePrepare]

theorem CodeLength.prepareImm16Hi (list12 : List12) (imm5 : BitVec 5) (imm16 : BitVec 16) :
    CodeLength.Statement (.prepareImm16Hi list12 imm5 imm16) := by
  intro h
  rcases bit_cases ((imm5 ++ list12.extractLsb' 0 1 : BitVec 6).extractLsb' 5 1) with e | e <;>
    simp_all [WellFormed, notR0, evenDisp, wordDisp, codeLength, oneHalfword, encode, Instr.length, encodeOp5, op4_of_op5, encodeStack]

theorem RoundTrip.prepareImm32 (list12 : List12) (imm5 : BitVec 5) (imm32 : BitVec 32) :
    RoundTrip.Statement (.prepareImm32 list12 imm5 imm32) := by
  intro h t
  simp_all [WellFormed, notR0, evenDisp, wordDisp, encode, decode, decodeShort, encodeOp5, decodeFormatV, op4_of_op5, encodeStack, decodePrepare]

theorem CodeLength.prepareImm32 (list12 : List12) (imm5 : BitVec 5) (imm32 : BitVec 32) :
    CodeLength.Statement (.prepareImm32 list12 imm5 imm32) := by
  intro h
  rcases bit_cases ((imm5 ++ list12.extractLsb' 0 1 : BitVec 6).extractLsb' 5 1) with e | e <;>
    simp_all [WellFormed, notR0, evenDisp, wordDisp, codeLength, oneHalfword, encode, Instr.length, encodeOp5, op4_of_op5, encodeStack]

end Sys2Proof.Laws
end

