-- ==== Sys2Proof/Tests/Slice0.lean ====
section
/-! SUPPORT. Small tests: the decoding of every constructor and what the vectors of
95_test_vectors.md show of one step. The expected values are the spec's, the words are written out
from its encodings. -/

namespace Sys2Proof.Tests

open Sys2Proof.Machine Sys2Proof.Safety

/-! ## Helpers -/

/-- The start of a vector: the named registers and bytes, DIR = 0, the rest as after reset. -/
def start (pc psw : Word) (regs : List (Reg × Word)) (bytes : List (Nat × Byte)) : State :=
  let s : State := { State.reset with pc := pc, psw := psw, dir := 0 }
  let t := regs.foldl (fun u p => u.setReg p.1 p.2) s
  { t with mem := bytes.foldl (fun m p => Memory.write m p.1 p.2) [] }

/-- What `p` says of the state after the instruction of `code`. -/
def after (s : State) (code : List Half) (p : State → Bool) : Bool :=
  match decode code with
  | .ok (i, []) =>
    match exec i s with
    | .next t => p t
    | _ => false
  | _ => false

/-- The platform with MISALIGN_ENABLED. -/
def misalignOn : Config.Platform := { Config.Platform.standard with misalignEnabled := true }

/-- The platform with the other SCH_CY_MODE. -/
def lastPosition : Config.Platform :=
  { Config.Platform.standard with schCyMode := .foundAtLastPosition }

/-- Every row's word decodes to the row's instruction. -/
def Decodes (rows : List (Nat × Nat × Instr)) : Prop :=
  ∀ r ∈ rows, decodeTableWord r.1 r.2.1 = some r.2.2

/-! ## Words written out from the encodings (30_encoding.md R124 to R137, R155) -/

theorem test_decode_format_I_a : Decodes [
    (16, 0b0000000000000000, .nop),
    (16, 0b1001100000000110, .movReg 0x6 0x13),
    (16, 0b1001100000100110, .notReg 0x6 0x13),
    (16, 0b1001100001000110, .divhReg 0x6 0x13),
    (16, 0b0000000001000110, .switch 0x6),
    (16, 0b1111100001000000, .dbtrap),
    (16, 0b0000000001100110, .jmpReg 0x6),
    (16, 0b1001100010000110, .satsubr 0x6 0x13),
    (16, 0b1001100010100110, .satsubReg 0x6 0x13),
    (16, 0b1001100011000110, .sataddReg 0x6 0x13),
    (16, 0b1001100011100110, .mulhReg 0x6 0x13),
    (16, 0b0000000010000110, .zxb 0x6)] := by
  unfold Decodes; decide

theorem test_decode_format_I_b : Decodes [
    (16, 0b0000000010100110, .sxb 0x6),
    (16, 0b0000000011000110, .zxh 0x6),
    (16, 0b0000000011100110, .sxh 0x6),
    (16, 0b1001100100000110, .orReg 0x6 0x13),
    (16, 0b1001100100100110, .xorReg 0x6 0x13),
    (16, 0b1001100101000110, .andReg 0x6 0x13),
    (16, 0b1001100101100110, .tst 0x6 0x13),
    (16, 0b1001100110000110, .subr 0x6 0x13),
    (16, 0b1001100110100110, .sub 0x6 0x13),
    (16, 0b1001100111000110, .addReg 0x6 0x13),
    (16, 0b1001100111100110, .cmpReg 0x6 0x13)] := by
  unfold Decodes; decide

theorem test_decode_format_II : Decodes [
    (16, 0b1001101000010110, .movImm5 0x16 0x13),
    (16, 0b1001101000110110, .sataddImm5 0x16 0x13),
    (16, 0b1001101001010110, .addImm5 0x16 0x13),
    (16, 0b1001101001110110, .cmpImm5 0x16 0x13),
    (16, 0b0000001000100110, .callt 0x26),
    (16, 0b1001101010010110, .shrImm5 0x16 0x13),
    (16, 0b1001101010110110, .sarImm5 0x16 0x13),
    (16, 0b1001101011010110, .shlImm5 0x16 0x13),
    (16, 0b1001101011110110, .mulhImm5 0x16 0x13)] := by
  unfold Decodes; decide

theorem test_decode_format_III : Decodes [
    (16, 0b1011010110110110, .bcond .lt 0x166)] := by
  unfold Decodes; decide

theorem test_decode_format_IV : Decodes [
    (16, 0b1001100001101011, .sldbu 0xB 0x13),
    (16, 0b1001100001111011, .sldhu 0x16 0x13),
    (16, 0b1001101101011010, .sldb 0x5A 0x13),
    (16, 0b1001101111011010, .sstb 0x13 0x5A),
    (16, 0b1001110001011010, .sldh 0xB4 0x13),
    (16, 0b1001110011011010, .ssth 0x13 0xB4),
    (16, 0b1001110101011010, .sldw 0xB4 0x13),
    (16, 0b1001110101011011, .sstw 0x13 0xB4)] := by
  unfold Decodes; decide

theorem test_decode_format_V : Decodes [
    (32, 0b11100011110101101001111110101100, .jarl22 0x2CE3D6 0x13),
    (32, 0b11100011110101100000011110101100, .jr22 0x2CE3D6)] := by
  unfold Decodes; decide

theorem test_decode_format_VI : Decodes [
    (32, 0b11001010001110011001111000000110, .addi 0xCA39 0x6 0x13),
    (32, 0b11001010001110011001111000100110, .movea 0xCA39 0x6 0x13),
    (48, 0b110100111000111101011001110001110000011000100110, .movImm32 0xD38F59C7 0x6),
    (32, 0b11001010001110011001111001000110, .movhi 0xCA39 0x6 0x13),
    (32, 0b11001010001110011001111001100110, .satsubi 0xCA39 0x6 0x13),
    (32, 0b11001010001110011001111010000110, .ori 0xCA39 0x6 0x13),
    (32, 0b11001010001110011001111010100110, .xori 0xCA39 0x6 0x13),
    (32, 0b11001010001110011001111011000110, .andi 0xCA39 0x6 0x13),
    (32, 0b11001010001110011001111011100110, .mulhi 0xCA39 0x6 0x13),
    (48, 0b110100111000111101011001110001100000011011100110, .jmpDisp32 0xD38F59C6 0x6),
    (48, 0b110100111000111101011001110001100000001011100000, .jr32 0xD38F59C6),
    (48, 0b110100111000111101011001110001100000001011100110, .jarl32 0xD38F59C6 0x6)] := by
  unfold Decodes; decide

theorem test_decode_format_VII : Decodes [
    (32, 0b10110011100011101001111100000110, .ldb 0xB38E 0x6 0x13),
    (32, 0b10110011100011101001111100100110, .ldh 0xB38E 0x6 0x13),
    (32, 0b10110011100011111001111100100110, .ldw 0xB38E 0x6 0x13),
    (32, 0b10110011100011101001111101000110, .stb 0x13 0xB38E 0x6),
    (32, 0b10110011100011101001111101100110, .sth 0x13 0xB38E 0x6),
    (32, 0b10110011100011111001111101100110, .stw 0x13 0xB38E 0x6),
    (32, 0b10110011100011111001111110000110, .ldbu 0xB38E 0x6 0x13),
    (32, 0b10110011100011111001111111100110, .ldhu 0xB38E 0x6 0x13)] := by
  unfold Decodes; decide

theorem test_decode_format_VIII : Decodes [
    (32, 0b10110011100011100010111111000110, .set1Imm 0x5 0xB38E 0x6),
    (32, 0b10110011100011100110111111000110, .not1Imm 0x5 0xB38E 0x6),
    (32, 0b10110011100011101010111111000110, .clr1Imm 0x5 0xB38E 0x6),
    (32, 0b10110011100011101110111111000110, .tst1Imm 0x5 0xB38E 0x6)] := by
  unfold Decodes; decide

theorem test_decode_format_IX_a : Decodes [
    (32, 0b00000000000000001001111111100110, .setf .lt 0x13),
    (32, 0b00000000001000000010111111110011, .ldsr 0x13 0x5),
    (32, 0b00000000010000001001111111100101, .stsr 0x5 0x13),
    (32, 0b00000000100000001001111111100110, .shrReg 0x6 0x13),
    (32, 0b00000000101000001001111111100110, .sarReg 0x6 0x13),
    (32, 0b00000000110000001001111111100110, .shlReg 0x6 0x13),
    (32, 0b00000000111000001001111111100110, .set1Reg 0x13 0x6),
    (32, 0b00000000111000101001111111100110, .not1Reg 0x13 0x6),
    (32, 0b00000000111001001001111111100110, .clr1Reg 0x13 0x6),
    (32, 0b00000000111001101001111111100110, .tst1Reg 0x13 0x6),
    (32, 0b00000010000000001001111111100110, .sasf .lt 0x13),
    (32, 0b01101011011000001001111111100000, .sch0r 0x13 0xD)] := by
  unfold Decodes; decide

theorem test_decode_format_IX_b : Decodes [
    (32, 0b01101011011000101001111111100000, .sch1r 0x13 0xD),
    (32, 0b01101011011001001001111111100000, .sch0l 0x13 0xD),
    (32, 0b01101011011001101001111111100000, .sch1l 0x13 0xD)] := by
  unfold Decodes; decide

theorem test_decode_format_X : Decodes [
    (32, 0b00000001000000000000011111110110, .trap 0x16),
    (32, 0b00000001001000000000011111100000, .halt),
    (32, 0b00000001010000000000011111100000, .reti),
    (32, 0b00000001010001000000011111100000, .ctret),
    (32, 0b00000001010001100000011111100000, .dbret),
    (32, 0b00000001011000000000011111100000, .di),
    (32, 0b00000001011000001000011111100000, .ei)] := by
  unfold Decodes; decide

theorem test_decode_format_XI_a : Decodes [
    (32, 0b01101000100000101001111111100110, .shr3 0x6 0x13 0xD),
    (32, 0b01101000101000101001111111100110, .sar3 0x6 0x13 0xD),
    (32, 0b01101000110000101001111111100110, .shl3 0x6 0x13 0xD),
    (32, 0b01101010001000001001111111100110, .mul 0x6 0x13 0xD),
    (32, 0b01101010001000101001111111100110, .mulu 0x6 0x13 0xD),
    (32, 0b01101010100000001001111111100110, .divh3 0x6 0x13 0xD),
    (32, 0b01101010100000101001111111100110, .divhu 0x6 0x13 0xD),
    (32, 0b01101010110000001001111111100110, .div 0x6 0x13 0xD),
    (32, 0b01101010110000101001111111100110, .divu 0x6 0x13 0xD),
    (32, 0b01101011001011001001111111100110, .cmov .lt 0x6 0x13 0xD),
    (32, 0b01101011100011001001111111100110, .sbf .lt 0x6 0x13 0xD),
    (32, 0b01101011100110101001111111100110, .satsub3 0x6 0x13 0xD)] := by
  unfold Decodes; decide

theorem test_decode_format_XI_b : Decodes [
    (32, 0b01101011101011001001111111100110, .adf .lt 0x6 0x13 0xD),
    (32, 0b01101011101110101001111111100110, .satadd3 0x6 0x13 0xD),
    (32, 0b01101011110110101001111111100110, .mac 0x6 0x13 0xD 0x1A),
    (32, 0b01101011111110101001111111100110, .macu 0x6 0x13 0xD 0x1A)] := by
  unfold Decodes; decide

theorem test_decode_format_XII : Decodes [
    (32, 0b01101010011011001001111111100110, .mulImm9 0x166 0x13 0xD),
    (32, 0b01101010011011101001111111100110, .muluImm9 0x166 0x13 0xD),
    (32, 0b01101011000011001001111111110110, .cmovImm5 .lt 0x16 0x13 0xD),
    (32, 0b01101011010000001001111111100000, .bsw 0x13 0xD),
    (32, 0b01101011010000101001111111100000, .bsh 0x13 0xD),
    (32, 0b01101011010001001001111111100000, .hsw 0x13 0xD),
    (32, 0b01101011010001101001111111100000, .hsh 0x13 0xD)] := by
  unfold Decodes; decide

theorem test_decode_format_XIII : Decodes [
    (32, 0b10110100101000000000011001101101, .dispose 0x16 0xB4B),
    (32, 0b10110100101001100000011001101101, .disposeJmp 0x16 0xB4B 0x6),
    (32, 0b10110100101000010000011110101101, .prepare 0xB4B 0x16),
    (32, 0b10110100101000110000011110101101, .prepareSp 0xB4B 0x16),
    (48, 0b110010100011100110110100101010110000011110101101, .prepareImm16 0xB4B 0x16 0xCA39),
    (48, 0b110010100011100110110100101100110000011110101101, .prepareImm16Hi 0xB4B 0x16 0xCA39),
    (64, 0b1101001110001111010110011100011110110100101110110000011110101101,
      .prepareImm32 0xB4B 0x16 0xD38F59C7)] := by
  unfold Decodes; decide

/-! ## Vectors of 95_test_vectors.md (2.1 to 2.11) -/

/-- `NOP`: only PC changes (49_special_debug.md R367). -/
theorem test_nop :
    after (start 0x100 0x35 [] []) [0x0000]
      (fun t => t.psw == 0x35 && t.pc == 0x102) = true := by decide

/-- `MOV r1, r2` -/
theorem test_movReg :
    after (start 0x100 0xF [(1, 0x12345678)] []) [0x1001]
      (fun t => t.reg 2 == 0x12345678 && t.psw == 0xF && t.pc == 0x102) = true := by decide

/-- `NOT r1, r2` -/
theorem test_notReg :
    after (start 0x100 0x0 [(1, 0x0)] []) [0x1021]
      (fun t => t.reg 2 == 0xFFFFFFFF && t.psw == 0x2 && t.pc == 0x102) = true := by decide

/-- `DIVH r1, r2` -/
theorem test_divhReg_a :
    after (start 0x100 0x0 [(1, 0x1234FFFE), (2, 0x7)] []) [0x1041]
      (fun t => t.reg 2 == 0xFFFFFFFD && t.psw == 0x2 && t.pc == 0x102) = true := by decide

/-- `DIVH r1, r2` -/
theorem test_divhReg_b :
    after (start 0x100 0x0 [(1, 0xFFFF), (2, 0x80000000)] []) [0x1041]
      (fun t => t.reg 2 == 0x80000000 && t.psw == 0x6 && t.pc == 0x102) = true := by decide

/-- `SWITCH r1` -/
theorem test_switch_a :
    after (start 0x1000 0x0 [(1, 0x2)] [(0x1006, 0x10), (0x1007, 0x0)]) [0x41]
      (fun t => t.pc == 0x1022 && t.psw == 0x0) = true := by decide

/-- `SWITCH r1` -/
theorem test_switch_b :
    after (start 0x1000 0x0 [(1, 0x2)] [(0x1006, 0xFF), (0x1007, 0xFF)]) [0x41]
      (fun t => t.pc == 0x1000 && t.psw == 0x0) = true := by decide

/-- `DBTRAP` -/
theorem test_dbtrap_a :
    after (start 0x1000 0x1 [] []) [0xF840]
      (fun t => t.dbpc == 0x1002 && t.dbpsw == 0x1 && t.psw == 0xE1 && t.dir == 0x1 &&
        t.pc == 0x60) = true := by decide

/-- `DBTRAP` -/
theorem test_dbtrap_b :
    after { start 0x1000 0xC20 [] [] with dir := 0x180 } [0xF840]
      (fun t => t.dbpc == 0x1002 && t.dbpsw == 0xC20 && t.psw == 0xCE0 && t.dir == 0x10181 &&
        t.pc == 0x60) = true := by decide

/-- `JMP [r31]` -/
theorem test_jmpReg_a :
    after (start 0x1000 0x0 [(31, 0x2005)] []) [0x7F]
      (fun t => t.pc == 0x2004 && t.psw == 0x0) = true := by decide

/-- `JMP [r1]` -/
theorem test_jmpReg_b :
    after (start 0x1000 0x0 [(1, 0xFFFFFFFF)] []) [0x61]
      (fun t => t.pc == 0x1FFFFFFE && t.psw == 0x0) = true := by decide

/-- `SATSUBR r1, r2` -/
theorem test_satsubr_a :
    after (start 0x100 0x0 [(1, 0x7FFFFFFF), (2, 0x80000000)] []) [0x1081]
      (fun t => t.reg 2 == 0x7FFFFFFF && t.psw == 0x1C && t.pc == 0x102) = true := by decide

/-- `SATSUBR r1, r2` -/
theorem test_satsubr_b :
    after (start 0x100 0x0 [(1, 0x80000000), (2, 0x1)] []) [0x1081]
      (fun t => t.reg 2 == 0x80000000 && t.psw == 0x16 && t.pc == 0x102) = true := by decide

/-- `SATSUB r1, r2` -/
theorem test_satsubReg_a :
    after (start 0x100 0x0 [(1, 0x1), (2, 0x80000000)] []) [0x10A1]
      (fun t => t.reg 2 == 0x80000000 && t.psw == 0x16 && t.pc == 0x102) = true := by decide

/-- `SATSUB r1, r2` -/
theorem test_satsubReg_b :
    after (start 0x100 0x0 [(1, 0x80000000), (2, 0x0)] []) [0x10A1]
      (fun t => t.reg 2 == 0x7FFFFFFF && t.psw == 0x1C && t.pc == 0x102) = true := by decide

/-- `SATADD r1, r2` -/
theorem test_sataddReg_a :
    after (start 0x100 0x0 [(1, 0x1), (2, 0x7FFFFFFF)] []) [0x10C1]
      (fun t => t.reg 2 == 0x7FFFFFFF && t.psw == 0x14 && t.pc == 0x102) = true := by decide

/-- `SATADD r1, r2` -/
theorem test_sataddReg_b :
    after (start 0x100 0x10 [(1, 0x1), (2, 0x2)] []) [0x10C1]
      (fun t => t.reg 2 == 0x3 && t.psw == 0x10 && t.pc == 0x102) = true := by decide

/-- `MULH r1, r2` -/
theorem test_mulhReg :
    after (start 0x100 0x0 [(1, 0x12348000), (2, 0xFFFF8000)] []) [0x10E1]
      (fun t => t.reg 2 == 0x40000000 && t.psw == 0x0 && t.pc == 0x102) = true := by decide

/-- `ZXB r5` -/
theorem test_zxb :
    after (start 0x100 0x0 [(5, 0x12345680)] []) [0x85]
      (fun t => t.reg 5 == 0x80 && t.psw == 0x0 && t.pc == 0x102) = true := by decide

/-- `SXB r5` -/
theorem test_sxb :
    after (start 0x100 0x0 [(5, 0x12345680)] []) [0xA5]
      (fun t => t.reg 5 == 0xFFFFFF80 && t.psw == 0x0 && t.pc == 0x102) = true := by decide

/-- `ZXH r5` -/
theorem test_zxh :
    after (start 0x100 0x0 [(5, 0x12348000)] []) [0xC5]
      (fun t => t.reg 5 == 0x8000 && t.psw == 0x0 && t.pc == 0x102) = true := by decide

/-- `SXH r5` -/
theorem test_sxh :
    after (start 0x100 0x0 [(5, 0x12348000)] []) [0xE5]
      (fun t => t.reg 5 == 0xFFFF8000 && t.psw == 0x0 && t.pc == 0x102) = true := by decide

/-- `OR r1, r2` -/
theorem test_orReg :
    after (start 0x100 0x0 [(1, 0x80000000), (2, 0x1)] []) [0x1101]
      (fun t => t.reg 2 == 0x80000001 && t.psw == 0x2 && t.pc == 0x102) = true := by decide

/-- `XOR r2, r2` -/
theorem test_xorReg :
    after (start 0x100 0x0 [(2, 0xDEADBEEF)] []) [0x1122]
      (fun t => t.reg 2 == 0x0 && t.psw == 0x1 && t.pc == 0x102) = true := by decide

/-- `AND r1, r2` -/
theorem test_andReg :
    after (start 0x100 0xC [(1, 0xFF00FF00), (2, 0xFF00FF0)] []) [0x1141]
      (fun t => t.reg 2 == 0xF000F00 && t.psw == 0x8 && t.pc == 0x102) = true := by decide

/-- `TST r1, r2` -/
theorem test_tst :
    after (start 0x100 0x0 [(1, 0xF), (2, 0xF0)] []) [0x1161]
      (fun t => t.psw == 0x1 && t.pc == 0x102) = true := by decide

/-- `SUBR r1, r2` -/
theorem test_subr_a :
    after (start 0x100 0x0 [(1, 0x80000000), (2, 0x1)] []) [0x1181]
      (fun t => t.reg 2 == 0x7FFFFFFF && t.psw == 0x4 && t.pc == 0x102) = true := by decide

/-- `SUBR r1, r2` -/
theorem test_subr_b :
    after (start 0x100 0x0 [(1, 0x3), (2, 0x5)] []) [0x1181]
      (fun t => t.reg 2 == 0xFFFFFFFE && t.psw == 0xA && t.pc == 0x102) = true := by decide

/-- `SUB r1, r2` -/
theorem test_sub_a :
    after (start 0x100 0x0 [(1, 0x1), (2, 0x0)] []) [0x11A1]
      (fun t => t.reg 2 == 0xFFFFFFFF && t.psw == 0xA && t.pc == 0x102) = true := by decide

/-- `SUB r1, r2` -/
theorem test_sub_b :
    after (start 0x100 0x0 [(1, 0x1), (2, 0x80000000)] []) [0x11A1]
      (fun t => t.reg 2 == 0x7FFFFFFF && t.psw == 0x4 && t.pc == 0x102) = true := by decide

/-- `ADD r1, r2` -/
theorem test_addReg_a :
    after (start 0x100 0x0 [(1, 0x80000000), (2, 0x80000000)] []) [0x11C1]
      (fun t => t.reg 2 == 0x0 && t.psw == 0xD && t.pc == 0x102) = true := by decide

/-- `ADD r1, r0` -/
theorem test_addReg_b :
    after (start 0x100 0x10 [(1, 0xFFFFFFFF)] []) [0x1C1]
      (fun t => t.psw == 0x12 && t.pc == 0x102) = true := by decide

/-- `CMP r1, r2` -/
theorem test_cmpReg_a :
    after (start 0x100 0x0 [(1, 0x5), (2, 0x3)] []) [0x11E1]
      (fun t => t.psw == 0xA && t.pc == 0x102) = true := by decide

/-- `CMP r1, r2` -/
theorem test_cmpReg_b :
    after (start 0x100 0x0 [(1, 0xFFFFFFFF), (2, 0x1)] []) [0x11E1]
      (fun t => t.psw == 0x8 && t.pc == 0x102) = true := by decide

/-- `MOV -1, r2` -/
theorem test_movImm5 :
    after (start 0x100 0x0 [] []) [0x121F]
      (fun t => t.reg 2 == 0xFFFFFFFF && t.psw == 0x0 && t.pc == 0x102) = true := by decide

/-- `SATADD -16, r2` -/
theorem test_sataddImm5 :
    after (start 0x100 0x0 [(2, 0x80000005)] []) [0x1230]
      (fun t => t.reg 2 == 0x80000000 && t.psw == 0x1E && t.pc == 0x102) = true := by decide

/-- `ADD -1, r2` -/
theorem test_addImm5_a :
    after (start 0x100 0x0 [(2, 0x1)] []) [0x125F]
      (fun t => t.reg 2 == 0x0 && t.psw == 0x9 && t.pc == 0x102) = true := by decide

/-- `ADD 15, r2` -/
theorem test_addImm5_b :
    after (start 0x100 0x0 [(2, 0x7FFFFFF1)] []) [0x124F]
      (fun t => t.reg 2 == 0x80000000 && t.psw == 0x6 && t.pc == 0x102) = true := by decide

/-- `CMP -16, r2` -/
theorem test_cmpImm5_a :
    after (start 0x100 0x0 [(2, 0x7FFFFFFF)] []) [0x1270]
      (fun t => t.psw == 0xE && t.pc == 0x102) = true := by decide

/-- `CMP 0, r2` -/
theorem test_cmpImm5_b :
    after (start 0x100 0x0 [(2, 0x0)] []) [0x1260]
      (fun t => t.psw == 0x1 && t.pc == 0x102) = true := by decide

/-- `CALLT 5` -/
theorem test_callt :
    after { start 0x1000 0x21 [] [(0x200A, 0x0), (0x200B, 0x1)] with ctbp := 0x2000 } [0x205]
      (fun t => t.ctpc == 0x1002 && t.ctpsw == 0x21 && t.pc == 0x2100) = true := by decide

/-- `SHR 0, r2` -/
theorem test_shrImm5 :
    after (start 0x100 0xE [(2, 0x0)] []) [0x1280]
      (fun t => t.reg 2 == 0x0 && t.psw == 0x1 && t.pc == 0x102) = true := by decide

/-- `SAR 31, r2` -/
theorem test_sarImm5 :
    after (start 0x100 0x0 [(2, 0x80000000)] []) [0x12BF]
      (fun t => t.reg 2 == 0xFFFFFFFF && t.psw == 0x2 && t.pc == 0x102) = true := by decide

/-- `SHL 4, r2` -/
theorem test_shlImm5_a :
    after (start 0x100 0x0 [(2, 0x18000001)] []) [0x12C4]
      (fun t => t.reg 2 == 0x80000010 && t.psw == 0xA && t.pc == 0x102) = true := by decide

/-- `SHL 31, r2` -/
theorem test_shlImm5_b :
    after (start 0x100 0x0 [(2, 0x3)] []) [0x12DF]
      (fun t => t.reg 2 == 0x80000000 && t.psw == 0xA && t.pc == 0x102) = true := by decide

/-- `MULH -16, r2` -/
theorem test_mulhImm5 :
    after (start 0x100 0x0 [(2, 0x7FFF)] []) [0x12F0]
      (fun t => t.reg 2 == 0xFFF80010 && t.psw == 0x0 && t.pc == 0x102) = true := by decide

/-- `BNE +8` -/
theorem test_bcond_a :
    after (start 0x1000 0x0 [] []) [0x5CA]
      (fun t => t.pc == 0x1008 && t.psw == 0x0) = true := by decide

/-- `BNE +8` -/
theorem test_bcond_b :
    after (start 0x1000 0x1 [] []) [0x5CA]
      (fun t => t.pc == 0x1002 && t.psw == 0x1) = true := by decide

/-- `SLD.BU 15[ep], r5` -/
theorem test_sldbu :
    after (start 0x100 0x0 [(30, 0x2000)] [(0x200F, 0xFF)]) [0x286F]
      (fun t => t.reg 5 == 0xFF && t.psw == 0x0 && t.pc == 0x102) = true := by decide

/-- `SLD.HU 4[ep], r5` -/
theorem test_sldhu :
    after (start 0x100 0x0 [(30, 0x2000)] [(0x2004, 0x0), (0x2005, 0x80)]) [0x2872]
      (fun t => t.reg 5 == 0x8000 && t.psw == 0x0 && t.pc == 0x102) = true := by decide

/-- `SLD.B 127[ep], r5` -/
theorem test_sldb :
    after (start 0x100 0x0 [(30, 0x2000)] [(0x207F, 0xFF)]) [0x2B7F]
      (fun t => t.reg 5 == 0xFFFFFFFF && t.psw == 0x0 && t.pc == 0x102) = true := by decide

/-- `SST.B r5, 1[ep]` -/
theorem test_sstb :
    after (start 0x100 0x0 [(30, 0x2000), (5, 0xA5)] []) [0x2B81]
      (fun t => t.valueAt 0x00002001 .byte == 0xA5 && t.psw == 0x0 &&
        t.pc == 0x102) = true := by decide

/-- `SLD.H 4[ep], r5` -/
theorem test_sldh :
    after (start 0x100 0x0 [(30, 0x2000)] [(0x2004, 0x0), (0x2005, 0x80)]) [0x2C02]
      (fun t => t.reg 5 == 0xFFFF8000 && t.psw == 0x0 && t.pc == 0x102) = true := by decide

/-- `SST.H r5, 2[ep]` -/
theorem test_ssth :
    after (start 0x100 0x0 [(30, 0x2000), (5, 0xBEEF)] []) [0x2C81]
      (fun t => t.valueAt 0x00002002 .half == 0xBEEF && t.psw == 0x0 &&
        t.pc == 0x102) = true := by decide

/-- `SLD.W 8[ep], r5` -/
theorem test_sldw_a :
    after (start 0x100 0x0 [(30, 0x2000)] [(0x2008, 0xEF), (0x2009, 0xBE), (0x200A, 0xAD),
      (0x200B, 0xDE)]) [0x2D04]
      (fun t => t.reg 5 == 0xDEADBEEF && t.psw == 0x0 && t.pc == 0x102) = true := by decide

/-- `SLD.W 252[ep], r5` -/
theorem test_sldw_b :
    after (start 0x100 0x0 [(30, 0x2000)] [(0x20FC, 0x1), (0x20FD, 0x0), (0x20FE, 0x0), (0x20FF,
      0x0)]) [0x2D7E]
      (fun t => t.reg 5 == 0x1 && t.psw == 0x0 && t.pc == 0x102) = true := by decide

/-- `SST.W r5, 8[ep]` -/
theorem test_sstw :
    after (start 0x100 0x0 [(30, 0x2000), (5, 0xDEADBEEF)] []) [0x2D05]
      (fun t => t.valueAt 0x00002008 .word == 0xDEADBEEF && t.psw == 0x0 &&
        t.pc == 0x102) = true := by decide

/-- `JARL +256, r31` -/
theorem test_jarl22_a :
    after (start 0x2000 0x0 [] []) [0xFF80, 0x100]
      (fun t => t.reg 31 == 0x2004 && t.pc == 0x2100 && t.psw == 0x0) = true := by decide

/-- `JARL -4, r31` -/
theorem test_jarl22_b :
    after (start 0x1000 0x0 [] []) [0xFFBF, 0xFFFC]
      (fun t => t.reg 31 == 0x1004 && t.pc == 0xFFC && t.psw == 0x0) = true := by decide

/-- `JR -2097152` -/
theorem test_jr22_a :
    after (start 0x300000 0x0 [] []) [0x7A0, 0x0]
      (fun t => t.pc == 0x100000 && t.psw == 0x0) = true := by decide

/-- `JR -2` -/
theorem test_jr22_b :
    after (start 0x0 0x0 [] []) [0x7BF, 0xFFFE]
      (fun t => t.pc == 0x1FFFFFFE && t.psw == 0x0) = true := by decide

/-- `ADDI 0x8000, r1, r2` -/
theorem test_addi :
    after (start 0x100 0x0 [(1, 0x80000000)] []) [0x1601, 0x8000]
      (fun t => t.reg 2 == 0x7FFF8000 && t.psw == 0xC && t.pc == 0x104) = true := by decide

/-- `MOVEA -4, r3, r4` -/
theorem test_movea_a :
    after (start 0x100 0xF [(3, 0x1000)] []) [0x2623, 0xFFFC]
      (fun t => t.reg 4 == 0xFFC && t.psw == 0xF && t.pc == 0x104) = true := by decide

/-- `MOVEA -1, r0, r4` -/
theorem test_movea_b :
    after (start 0x100 0x0 [] []) [0x2620, 0xFFFF]
      (fun t => t.reg 4 == 0xFFFFFFFF && t.psw == 0x0 && t.pc == 0x104) = true := by decide

/-- `MOV 0x12345678, r1` -/
theorem test_movImm32 :
    after (start 0x100 0x0 [] []) [0x621, 0x5678, 0x1234]
      (fun t => t.reg 1 == 0x12345678 && t.psw == 0x0 && t.pc == 0x106) = true := by decide

/-- `MOVHI 0x8000, r1, r2` -/
theorem test_movhi_a :
    after (start 0x100 0x0 [(1, 0x80000001)] []) [0x1641, 0x8000]
      (fun t => t.reg 2 == 0x1 && t.psw == 0x0 && t.pc == 0x104) = true := by decide

/-- `MOVHI 0x1235, r0, r2` -/
theorem test_movhi_b :
    after (start 0x100 0x0 [] []) [0x1640, 0x1235]
      (fun t => t.reg 2 == 0x12350000 && t.psw == 0x0 && t.pc == 0x104) = true := by decide

/-- `SATSUBI -1, r1, r2` -/
theorem test_satsubi_a :
    after (start 0x100 0x0 [(1, 0x7FFFFFFF)] []) [0x1661, 0xFFFF]
      (fun t => t.reg 2 == 0x7FFFFFFF && t.psw == 0x1C && t.pc == 0x104) = true := by decide

/-- `SATSUBI 1, r1, r2` -/
theorem test_satsubi_b :
    after (start 0x100 0x0 [(1, 0x1)] []) [0x1661, 0x1]
      (fun t => t.reg 2 == 0x0 && t.psw == 0x1 && t.pc == 0x104) = true := by decide

/-- `ORI 0x8000, r1, r2` -/
theorem test_ori :
    after (start 0x100 0x0 [(1, 0x0)] []) [0x1681, 0x8000]
      (fun t => t.reg 2 == 0x8000 && t.psw == 0x0 && t.pc == 0x104) = true := by decide

/-- `XORI 0xFFFF, r1, r2` -/
theorem test_xori :
    after (start 0x100 0x0 [(1, 0xFFFF00FF)] []) [0x16A1, 0xFFFF]
      (fun t => t.reg 2 == 0xFFFFFF00 && t.psw == 0x2 && t.pc == 0x104) = true := by decide

/-- `ANDI 0xFFFF, r1, r2` -/
theorem test_andi_a :
    after (start 0x100 0x0 [(1, 0x12345678)] []) [0x16C1, 0xFFFF]
      (fun t => t.reg 2 == 0x5678 && t.psw == 0x0 && t.pc == 0x104) = true := by decide

/-- `ANDI 0, r1, r0` -/
theorem test_andi_b :
    after (start 0x100 0x0 [(1, 0x12345678)] []) [0x6C1, 0x0]
      (fun t => t.psw == 0x1 && t.pc == 0x104) = true := by decide

/-- `MULHI 0x8000, r1, r2` -/
theorem test_mulhi :
    after (start 0x100 0x0 [(1, 0x8000)] []) [0x16E1, 0x8000]
      (fun t => t.reg 2 == 0x40000000 && t.psw == 0x0 && t.pc == 0x104) = true := by decide

/-- `JMP 0x1000[r1]` -/
theorem test_jmpDisp32 :
    after (start 0x1000 0x0 [(1, 0x234)] []) [0x6E1, 0x1000, 0x0]
      (fun t => t.pc == 0x1234 && t.psw == 0x0) = true := by decide

/-- `JR -6 (disp32)` -/
theorem test_jr32 :
    after (start 0x106 0x0 [] []) [0x2E0, 0xFFFA, 0xFFFF]
      (fun t => t.pc == 0x100 && t.psw == 0x0) = true := by decide

/-- `JARL +305419896, r31` -/
theorem test_jarl32 :
    after (start 0x100 0x0 [] []) [0x2FF, 0x5678, 0x1234]
      (fun t => t.reg 31 == 0x106 && t.pc == 0x12345778 && t.psw == 0x0) = true := by decide

/-- `LD.B -1[r1], r2` -/
theorem test_ldb :
    after (start 0x100 0x0 [(1, 0x1000)] [(0xFFF, 0x80)]) [0x1701, 0xFFFF]
      (fun t => t.reg 2 == 0xFFFFFF80 && t.psw == 0x0 && t.pc == 0x104) = true := by decide

/-- `LD.H 2[r1], r2` -/
theorem test_ldh_a :
    after (start 0x100 0x0 [(1, 0x1000)] [(0x1002, 0x34), (0x1003, 0xF2)]) [0x1721, 0x2]
      (fun t => t.reg 2 == 0xFFFFF234 && t.psw == 0x0 && t.pc == 0x104) = true := by decide

/-- `LD.H 0[r1], r2` -/
theorem test_ldh_b :
    after { start 0x100 0x0 [(1, 0x1001)] [(0x1000, 0x11), (0x1001, 0x82), (0x1002, 0x33),
      (0x1003, 0x44)] with platform := misalignOn } [0x1721, 0x0]
      (fun t => t.reg 2 == 0x3382 && t.psw == 0x0 && t.pc == 0x104) = true := by decide

/-- `LD.W 0[r1], r2` -/
theorem test_ldw_a :
    after (start 0x100 0x0 [(1, 0x1002)] [(0x1000, 0x11), (0x1001, 0x22), (0x1002, 0x33),
      (0x1003, 0x44), (0x1004, 0x55), (0x1005, 0x66), (0x1006, 0x77), (0x1007, 0x88)]) [0x1721, 0x1]
      (fun t => t.reg 2 == 0x44332211 && t.psw == 0x0 && t.pc == 0x104) = true := by decide

/-- `LD.W 0[r1], r2` -/
theorem test_ldw_b :
    after { start 0x100 0x0 [(1, 0x1002)] [(0x1000, 0x11), (0x1001, 0x22), (0x1002, 0x33),
      (0x1003, 0x44), (0x1004, 0x55), (0x1005, 0x66), (0x1006, 0x77), (0x1007, 0x88)] with
        platform := misalignOn } [0x1721, 0x1]
      (fun t => t.reg 2 == 0x66554433 && t.psw == 0x0 && t.pc == 0x104) = true := by decide

/-- `ST.B r2, -1[r1]` -/
theorem test_stb :
    after (start 0x100 0x0 [(1, 0x1000), (2, 0x12345678)] []) [0x1741, 0xFFFF]
      (fun t => t.valueAt 0x00000FFF .byte == 0x78 && t.psw == 0x0 &&
        t.pc == 0x104) = true := by decide

/-- `ST.H r2, 2[r1]` -/
theorem test_sth :
    after (start 0x100 0x0 [(1, 0x1000), (2, 0x12345678)] []) [0x1761, 0x2]
      (fun t => t.valueAt 0x00001002 .half == 0x5678 && t.psw == 0x0 &&
        t.pc == 0x104) = true := by decide

/-- `ST.W r2, 0[r1]` -/
theorem test_stw_a :
    after (start 0x100 0x0 [(1, 0x1003), (2, 0x12345678)] []) [0x1761, 0x1]
      (fun t => t.valueAt 0x00001000 .word == 0x12345678 && t.psw == 0x0 &&
        t.pc == 0x104) = true := by decide

/-- `ST.W r2, 0[r1]` -/
theorem test_stw_b :
    after { start 0x100 0x0 [(1, 0x1003), (2, 0x12345678)] [] with
        platform := misalignOn } [0x1761, 0x1]
      (fun t => t.valueAt 0x00001003 .word == 0x12345678 && t.psw == 0x0 &&
        t.pc == 0x104) = true := by decide

/-- `LD.BU 1[r1], r2` -/
theorem test_ldbu :
    after (start 0x100 0x0 [(1, 0x1000)] [(0x1001, 0x80)]) [0x17A1, 0x1]
      (fun t => t.reg 2 == 0x80 && t.psw == 0x0 && t.pc == 0x104) = true := by decide

/-- `LD.HU 2[r1], r2` -/
theorem test_ldhu :
    after (start 0x100 0x0 [(1, 0x1000)] [(0x1002, 0x34), (0x1003, 0xF2)]) [0x17E1, 0x3]
      (fun t => t.reg 2 == 0xF234 && t.psw == 0x0 && t.pc == 0x104) = true := by decide

/-- `SET1 3, 4[r1]` -/
theorem test_set1Imm_a :
    after (start 0x100 0x0 [(1, 0x1000)] [(0x1004, 0x0)]) [0x1FC1, 0x4]
      (fun t => t.psw == 0x1 && t.valueAt 0x00001004 .byte == 0x08 &&
        t.pc == 0x104) = true := by decide

/-- `SET1 0, -32768[r0]` -/
theorem test_set1Imm_b :
    after (start 0x100 0x0 [] [(0xFFFF8000, 0xFE)]) [0x7C0, 0x8000]
      (fun t => t.psw == 0x1 && t.valueAt 0xFFFF8000 .byte == 0xFF &&
        t.pc == 0x104) = true := by decide

/-- `NOT1 3, 4[r1]` -/
theorem test_not1Imm :
    after (start 0x100 0xF [(1, 0x1000)] [(0x1004, 0x8)]) [0x5FC1, 0x4]
      (fun t => t.psw == 0xE && t.valueAt 0x00001004 .byte == 0x00 &&
        t.pc == 0x104) = true := by decide

/-- `CLR1 7, -1[r1]` -/
theorem test_clr1Imm :
    after (start 0x100 0x0 [(1, 0x1001)] [(0x1000, 0xFF)]) [0xBFC1, 0xFFFF]
      (fun t => t.psw == 0x0 && t.valueAt 0x00001000 .byte == 0x7F &&
        t.pc == 0x104) = true := by decide

/-- `TST1 3, 4[r1]` -/
theorem test_tst1Imm :
    after (start 0x100 0x0 [(1, 0x1000)] [(0x1004, 0xF7)]) [0xDFC1, 0x4]
      (fun t => t.psw == 0x1 && t.pc == 0x104) = true := by decide

/-- `SETF 0110, r2` -/
theorem test_setf_a :
    after (start 0x100 0x4 [(2, 0xFFFFFFFF)] []) [0x17E6, 0x0]
      (fun t => t.reg 2 == 0x1 && t.psw == 0x4 && t.pc == 0x104) = true := by decide

/-- `SETF 1101, r2` -/
theorem test_setf_b :
    after (start 0x100 0x0 [(2, 0xFFFFFFFF)] []) [0x17ED, 0x0]
      (fun t => t.reg 2 == 0x0 && t.psw == 0x0 && t.pc == 0x104) = true := by decide

/-- `LDSR r2, 5` -/
theorem test_ldsr_a :
    after (start 0x100 0x0 [(2, 0xFFFFFFFF)] []) [0x2FE2, 0x20]
      (fun t => t.psw == 0x4FF && t.pc == 0x104) = true := by decide

/-- `LDSR r2, 20` -/
theorem test_ldsr_b :
    after (start 0x100 0x0 [(2, 0xFFFFFFFF)] []) [0xA7E2, 0x20]
      (fun t => t.ctbp == 0x1FFFFFFE && t.psw == 0x0 && t.pc == 0x104) = true := by decide

/-- `STSR 5, r2` -/
theorem test_stsr :
    after (start 0x100 0x35 [] []) [0x17E5, 0x40]
      (fun t => t.reg 2 == 0x35 && t.psw == 0x35 && t.pc == 0x104) = true := by decide

/-- `SHR r1, r2` -/
theorem test_shrReg :
    after (start 0x100 0x0 [(1, 0xFFFFFFE1), (2, 0x80000001)] []) [0x17E1, 0x80]
      (fun t => t.reg 2 == 0x40000000 && t.psw == 0x8 && t.pc == 0x104) = true := by decide

/-- `SAR r1, r2` -/
theorem test_sarReg :
    after (start 0x100 0x0 [(1, 0x24), (2, 0x80000008)] []) [0x17E1, 0xA0]
      (fun t => t.reg 2 == 0xF8000000 && t.psw == 0xA && t.pc == 0x104) = true := by decide

/-- `SHL r1, r2`: the count is r1 modulo 32 (45_data_manipulation.md R280, R284). -/
theorem test_shlReg :
    after (start 0x100 0 [(1, 0x21), (2, 0x80000001)] []) [0x17E1, 0x00C0]
      (fun t => t.reg 2 == 0x2 && t.psw == 0x8 && t.pc == 0x104) = true := by decide

/-- `SET1 r2, [r1]` -/
theorem test_set1Reg :
    after (start 0x100 0x0 [(1, 0x1000), (2, 0xF)] [(0x1000, 0x80)]) [0x17E1, 0xE0]
      (fun t => t.psw == 0x0 && t.valueAt 0x00001000 .byte == 0x80 &&
        t.pc == 0x104) = true := by decide

/-- `NOT1 r2, [r1]` -/
theorem test_not1Reg :
    after (start 0x100 0x0 [(1, 0x1000), (2, 0xFFFFFFF9)] [(0x1000, 0x0)]) [0x17E1, 0xE2]
      (fun t => t.psw == 0x1 && t.valueAt 0x00001000 .byte == 0x02 &&
        t.pc == 0x104) = true := by decide

/-- `CLR1 r2, [r1]` -/
theorem test_clr1Reg :
    after (start 0x100 0x1 [(1, 0x1000), (2, 0x0)] [(0x1000, 0x1)]) [0x17E1, 0xE4]
      (fun t => t.psw == 0x0 && t.valueAt 0x00001000 .byte == 0x00 &&
        t.pc == 0x104) = true := by decide

/-- `TST1 r2, [r1]` -/
theorem test_tst1Reg :
    after (start 0x100 0x1 [(1, 0x1000), (2, 0x7)] [(0x1000, 0x80)]) [0x17E1, 0xE6]
      (fun t => t.psw == 0x0 && t.pc == 0x104) = true := by decide

/-- `SASF 0001, r2` -/
theorem test_sasf :
    after (start 0x100 0x8 [(2, 0x80000001)] []) [0x17E1, 0x200]
      (fun t => t.reg 2 == 0x3 && t.psw == 0x8 && t.pc == 0x104) = true := by decide

/-- `SCH0R r2, r3` -/
theorem test_sch0r :
    after (start 0x100 0x0 [(2, 0xFFFF)] []) [0x17E0, 0x1B60]
      (fun t => t.reg 3 == 0x11 && t.psw == 0x8 && t.pc == 0x104) = true := by decide

/-- `SCH1R r2, r3` -/
theorem test_sch1r_a :
    after (start 0x100 0x0 [(2, 0x80000000)] []) [0x17E0, 0x1B62]
      (fun t => t.reg 3 == 0x20 && t.psw == 0x8 && t.pc == 0x104) = true := by decide

/-- `SCH1R r2, r3` -/
theorem test_sch1r_b :
    after (start 0x100 0xE [(2, 0x0)] []) [0x17E0, 0x1B62]
      (fun t => t.reg 3 == 0x0 && t.psw == 0x1 && t.pc == 0x104) = true := by decide

/-- `SCH0L r2, r3` -/
theorem test_sch0l_a :
    after (start 0x100 0x0 [(2, 0xFFFFFFFF), (3, 0x5)] []) [0x17E0, 0x1B64]
      (fun t => t.reg 3 == 0x0 && t.psw == 0x1 && t.pc == 0x104) = true := by decide

/-- `SCH0L r2, r3` -/
theorem test_sch0l_b :
    after { start 0x100 0x0 [(2, 0xFFFF7FFF)] [] with platform := lastPosition } [0x17E0, 0x1B64]
      (fun t => t.reg 3 == 0x11 && t.psw == 0x0 && t.pc == 0x104) = true := by decide

/-- `SCH1L r2, r3` -/
theorem test_sch1l :
    after (start 0x100 0x0 [(2, 0x10000)] []) [0x17E0, 0x1B66]
      (fun t => t.reg 3 == 0x10 && t.psw == 0x8 && t.pc == 0x104) = true := by decide

/-- `TRAP 5` -/
theorem test_trap_a :
    after (start 0x1000 0x1 [] []) [0x7E5, 0x100]
      (fun t => t.psw == 0x61 && t.eipc == 0x1004 && t.eipsw == 0x1 && t.ecr == 0x45 &&
        t.pc == 0x40) = true := by decide

/-- `TRAP 31` -/
theorem test_trap_b :
    after { start 0x1000 0x80 [] [] with ecr := 0x100000 } [0x7FF, 0x100]
      (fun t => t.psw == 0xE0 && t.eipc == 0x1004 && t.eipsw == 0x80 && t.ecr == 0x10005F &&
        t.pc == 0x50) = true := by decide

/-- `HALT` (49_special_debug.md R364). -/
theorem test_halt :
    after (start 0x1000 0x20 [] []) [0x07E0, 0x0120]
      (fun t => t.halted && t.psw == 0x20 && t.pc == 0x1004) = true := by decide

/-- `RETI` -/
theorem test_reti_a :
    after { start 0x10 0xA0 [] [] with
        fepc := 0x2000, fepsw := 0x0, eipc := 0x3000, eipsw := 0x20 } [0x7E0, 0x140]
      (fun t => t.psw == 0x0 && t.pc == 0x2000) = true := by decide

/-- `RETI` -/
theorem test_reti_b :
    after { start 0x80 0x20 [] [] with
        fepc := 0x2000, fepsw := 0x0, eipc := 0x3001, eipsw := 0x1F } [0x7E0, 0x140]
      (fun t => t.psw == 0x1F && t.pc == 0x3000) = true := by decide

/-- `CTRET` -/
theorem test_ctret :
    after { start 0x2100 0x0 [] [] with ctpc := 0x1003, ctpsw := 0x21 } [0x7E0, 0x144]
      (fun t => t.psw == 0x21 && t.pc == 0x1002) = true := by decide

/-- `DBRET` -/
theorem test_dbret_a :
    after { start 0x60 0xE1 [] [] with dir := 0x1, dbpc := 0x1003, dbpsw := 0x1 } [0x7E0, 0x146]
      (fun t => t.pc == 0x1002 && t.psw == 0x1 && t.dir == 0x0 &&
        t.dbpc == 0x1003) = true := by decide

/-- `DBRET` -/
theorem test_dbret_b :
    after { start 0x70 0xE0 [] [] with dir := 0x101, dbpc := 0x2000, dbpsw := 0x800 } [0x7E0, 0x146]
      (fun t => t.pc == 0x2000 && t.psw == 0x800 && t.dir == 0x100) = true := by decide

/-- `DI` -/
theorem test_di :
    after (start 0x100 0x0 [] []) [0x7E0, 0x160]
      (fun t => t.psw == 0x20 && t.pc == 0x104) = true := by decide

/-- `EI` -/
theorem test_ei :
    after (start 0x100 0x20 [] []) [0x87E0, 0x160]
      (fun t => t.psw == 0x0 && t.pc == 0x104) = true := by decide

/-- `SHR r1, r2, r3` -/
theorem test_shr3 :
    after (start 0x100 0x0 [(1, 0x1F), (2, 0x80000000)] []) [0x17E1, 0x1882]
      (fun t => t.reg 3 == 0x1 && t.psw == 0x0 && t.pc == 0x104) = true := by decide

/-- `SAR r1, r2, r3` -/
theorem test_sar3 :
    after (start 0x100 0x0 [(1, 0x1), (2, 0xFFFFFFFF)] []) [0x17E1, 0x18A2]
      (fun t => t.reg 3 == 0xFFFFFFFF && t.psw == 0xA && t.pc == 0x104) = true := by decide

/-- `SHL r1, r2, r3` -/
theorem test_shl3 :
    after (start 0x100 0xC [(1, 0x20), (2, 0x1234), (3, 0xFFFFFFFF)] []) [0x17E1, 0x18C2]
      (fun t => t.reg 3 == 0x1234 && t.psw == 0x0 && t.pc == 0x104) = true := by decide

/-- `MUL r1, r2, r3` -/
theorem test_mul_a :
    after (start 0x100 0x0 [(1, 0x3), (2, 0xFFFFFFFE)] []) [0x17E1, 0x1A20]
      (fun t => t.reg 2 == 0xFFFFFFFA && t.reg 3 == 0xFFFFFFFF && t.psw == 0x0 &&
        t.pc == 0x104) = true := by decide

/-- `MUL r1, r2, r2` -/
theorem test_mul_b :
    after (start 0x100 0x0 [(1, 0x10000), (2, 0x10000)] []) [0x17E1, 0x1220]
      (fun t => t.reg 2 == 0x1 && t.psw == 0x0 && t.pc == 0x104) = true := by decide

/-- `MULU r1, r2, r3` -/
theorem test_mulu_a :
    after (start 0x100 0x0 [(1, 0x3), (2, 0xFFFFFFFE)] []) [0x17E1, 0x1A22]
      (fun t => t.reg 2 == 0xFFFFFFFA && t.reg 3 == 0x2 && t.psw == 0x0 &&
        t.pc == 0x104) = true := by decide

/-- `MULU r1, r2, r3` -/
theorem test_mulu_b :
    after (start 0x100 0x0 [(1, 0xFFFFFFFF), (2, 0xFFFFFFFF)] []) [0x17E1, 0x1A22]
      (fun t => t.reg 2 == 0x1 && t.reg 3 == 0xFFFFFFFE && t.psw == 0x0 &&
        t.pc == 0x104) = true := by decide

/-- `DIVH r1, r2, r3` -/
theorem test_divh3 :
    after (start 0x100 0x0 [(1, 0x10003), (2, 0xA)] []) [0x17E1, 0x1A80]
      (fun t => t.reg 2 == 0x3 && t.reg 3 == 0x1 && t.psw == 0x0 &&
        t.pc == 0x104) = true := by decide

/-- `DIVHU r1, r2, r3` -/
theorem test_divhu :
    after (start 0x100 0x0 [(1, 0xFFFFFFFF), (2, 0xFFFFFFFF)] []) [0x17E1, 0x1A82]
      (fun t => t.reg 2 == 0x10001 && t.reg 3 == 0x0 && t.psw == 0x0 &&
        t.pc == 0x104) = true := by decide

/-- `DIV r1, r2, r3` -/
theorem test_div_a :
    after (start 0x100 0x0 [(1, 0x2), (2, 0xFFFFFFF9)] []) [0x17E1, 0x1AC0]
      (fun t => t.reg 2 == 0xFFFFFFFD && t.reg 3 == 0xFFFFFFFF && t.psw == 0x2 &&
        t.pc == 0x104) = true := by decide

/-- `DIV r1, r2, r3` -/
theorem test_div_b :
    after (start 0x100 0x0 [(1, 0xFFFFFFFF), (2, 0x80000000)] []) [0x17E1, 0x1AC0]
      (fun t => t.reg 2 == 0x80000000 && t.reg 3 == 0x0 && t.psw == 0x6 &&
        t.pc == 0x104) = true := by decide

/-- `DIVU r1, r2, r3` -/
theorem test_divu_a :
    after (start 0x100 0x0 [(1, 0x2), (2, 0xFFFFFFF9)] []) [0x17E1, 0x1AC2]
      (fun t => t.reg 2 == 0x7FFFFFFC && t.reg 3 == 0x1 && t.psw == 0x0 &&
        t.pc == 0x104) = true := by decide

/-- `DIVU r1, r2, r3` -/
theorem test_divu_b :
    after (start 0x100 0x0 [(1, 0x1), (2, 0x80000000)] []) [0x17E1, 0x1AC2]
      (fun t => t.reg 2 == 0x80000000 && t.reg 3 == 0x0 && t.psw == 0x2 &&
        t.pc == 0x104) = true := by decide

/-- `CMOV 0010, r1, r2, r3` -/
theorem test_cmov_a :
    after (start 0x100 0x1 [(1, 0xAAAA), (2, 0xBBBB)] []) [0x17E1, 0x1B24]
      (fun t => t.reg 3 == 0xAAAA && t.psw == 0x1 && t.pc == 0x104) = true := by decide

/-- `CMOV 0010, r1, r2, r3` -/
theorem test_cmov_b :
    after (start 0x100 0x0 [(1, 0xAAAA), (2, 0xBBBB)] []) [0x17E1, 0x1B24]
      (fun t => t.reg 3 == 0xBBBB && t.psw == 0x0 && t.pc == 0x104) = true := by decide

/-- `SBF 0001, r1, r2, r3` -/
theorem test_sbf_a :
    after (start 0x100 0x8 [(1, 0x0), (2, 0x0)] []) [0x17E1, 0x1B82]
      (fun t => t.reg 3 == 0xFFFFFFFF && t.psw == 0xA && t.pc == 0x104) = true := by decide

/-- `SBF 0001, r1, r2, r3` -/
theorem test_sbf_b :
    after (start 0x100 0x8 [(1, 0x0), (2, 0x80000000)] []) [0x17E1, 0x1B82]
      (fun t => t.reg 3 == 0x7FFFFFFF && t.psw == 0x4 && t.pc == 0x104) = true := by decide

/-- `SATSUB r1, r2, r3` -/
theorem test_satsub3 :
    after (start 0x100 0x0 [(1, 0x7), (2, 0x5)] []) [0x17E1, 0x1B9A]
      (fun t => t.reg 3 == 0xFFFFFFFE && t.psw == 0xA && t.pc == 0x104) = true := by decide

/-- `ADF 0001, r1, r2, r3` -/
theorem test_adf_a :
    after (start 0x100 0x8 [(1, 0xFFFFFFFF), (2, 0x0)] []) [0x17E1, 0x1BA2]
      (fun t => t.reg 3 == 0x0 && t.psw == 0x9 && t.pc == 0x104) = true := by decide

/-- `ADF 0001, r1, r2, r3` -/
theorem test_adf_b :
    after (start 0x100 0x8 [(1, 0x7FFFFFFF), (2, 0x0)] []) [0x17E1, 0x1BA2]
      (fun t => t.reg 3 == 0x80000000 && t.psw == 0x6 && t.pc == 0x104) = true := by decide

/-- `SATADD r1, r2, r3` -/
theorem test_satadd3_a :
    after (start 0x100 0x0 [(1, 0x80000000), (2, 0x80000000)] []) [0x17E1, 0x1BBA]
      (fun t => t.reg 3 == 0x80000000 && t.psw == 0x1E && t.pc == 0x104) = true := by decide

/-- `SATADD r1, r2, r0` -/
theorem test_satadd3_b :
    after (start 0x100 0x0 [(1, 0x7FFFFFFF), (2, 0x7FFFFFFF)] []) [0x17E1, 0x3BA]
      (fun t => t.psw == 0x14 && t.pc == 0x104) = true := by decide

/-- `MAC r1, r2, r4, r6` -/
theorem test_mac_a :
    after (start 0x100 0x0 [(1, 0xFFFFFFFF), (2, 0x2), (4, 0x1), (5, 0x0)] []) [0x17E1, 0x23C6]
      (fun t => t.reg 6 == 0xFFFFFFFF && t.reg 7 == 0xFFFFFFFF && t.psw == 0x0 &&
        t.pc == 0x104) = true := by decide

/-- `MAC r1, r2, r4, r4` -/
theorem test_mac_b :
    after (start 0x100 0x0 [(1, 0x2), (2, 0x3), (4, 0xA), (5, 0x0)] []) [0x17E1, 0x23C4]
      (fun t => t.reg 4 == 0x10 && t.reg 5 == 0x0 && t.psw == 0x0 &&
        t.pc == 0x104) = true := by decide

/-- `MACU r1, r2, r4, r6` -/
theorem test_macu_a :
    after (start 0x100 0x0 [(1, 0x3), (2, 0x2), (4, 0xFFFFFFFF), (5, 0xFFFFFFFF)] []) [0x17E1,
      0x23E6]
      (fun t => t.reg 6 == 0x5 && t.reg 7 == 0x0 && t.psw == 0x0 &&
        t.pc == 0x104) = true := by decide

/-- `MACU r1, r2, r0, r6` -/
theorem test_macu_b :
    after (start 0x100 0x0 [(1, 0xFFFFFFFF), (2, 0xFFFFFFFF)] []) [0x17E1, 0x3E6]
      (fun t => t.reg 6 == 0x1 && t.reg 7 == 0xFFFFFFFD && t.psw == 0x0 &&
        t.pc == 0x104) = true := by decide

/-- `MUL -2, r2, r3` -/
theorem test_mulImm9 :
    after (start 0x100 0x0 [(2, 0x10000)] []) [0x17FE, 0x1A7C]
      (fun t => t.reg 2 == 0xFFFE0000 && t.reg 3 == 0xFFFFFFFF && t.psw == 0x0 &&
        t.pc == 0x104) = true := by decide

/-- `MULU 511, r2, r3` -/
theorem test_muluImm9 :
    after (start 0x100 0x0 [(2, 0x80000000)] []) [0x17FF, 0x1A7E]
      (fun t => t.reg 2 == 0x80000000 && t.reg 3 == 0xFF && t.psw == 0x0 &&
        t.pc == 0x104) = true := by decide

/-- `CMOV 1010, -1, r2, r3` -/
theorem test_cmovImm5 :
    after (start 0x100 0x0 [(2, 0x7)] []) [0x17FF, 0x1B14]
      (fun t => t.reg 3 == 0xFFFFFFFF && t.psw == 0x0 && t.pc == 0x104) = true := by decide

/-- `BSW r2, r3` -/
theorem test_bsw_a :
    after (start 0x100 0x0 [(2, 0x11220044)] []) [0x17E0, 0x1B40]
      (fun t => t.reg 3 == 0x44002211 && t.psw == 0x8 && t.pc == 0x104) = true := by decide

/-- `BSW r2, r3` -/
theorem test_bsw_b :
    after (start 0x100 0x0 [(2, 0xFF)] []) [0x17E0, 0x1B40]
      (fun t => t.reg 3 == 0xFF000000 && t.psw == 0xA && t.pc == 0x104) = true := by decide

/-- `BSH r2, r3` -/
theorem test_bsh :
    after (start 0x100 0x0 [(2, 0x11220044)] []) [0x17E0, 0x1B42]
      (fun t => t.reg 3 == 0x22114400 && t.psw == 0x8 && t.pc == 0x104) = true := by decide

/-- `HSW r2, r3` -/
theorem test_hsw_a :
    after (start 0x100 0x0 [(2, 0x11220044)] []) [0x17E0, 0x1B44]
      (fun t => t.reg 3 == 0x441122 && t.psw == 0x0 && t.pc == 0x104) = true := by decide

/-- `HSW r2, r3` -/
theorem test_hsw_b :
    after (start 0x100 0x0 [(2, 0x8000)] []) [0x17E0, 0x1B44]
      (fun t => t.reg 3 == 0x80000000 && t.psw == 0xA && t.pc == 0x104) = true := by decide

/-- `HSH r2, r3` -/
theorem test_hsh :
    after (start 0x100 0x0 [(2, 0x80010000)] []) [0x17E0, 0x1B46]
      (fun t => t.reg 3 == 0x80010000 && t.psw == 0xB && t.pc == 0x104) = true := by decide

/-- `DISPOSE 2, (r29, r31)` -/
theorem test_dispose :
    after (start 0x100 0x0 [(3, 0xFF0)] [(0xFF8, 0xBB), (0xFF9, 0xBB), (0xFFA, 0xBB), (0xFFB,
      0xBB), (0xFFC, 0xAA), (0xFFD, 0xAA), (0xFFE, 0xAA), (0xFFF, 0xAA)]) [0x644, 0x60]
      (fun t => t.reg 3 == 0x1000 && t.reg 29 == 0xAAAAAAAA && t.reg 31 == 0xBBBBBBBB &&
        t.psw == 0x0 && t.pc == 0x104) = true := by decide

/-- `DISPOSE 2, (r29, r31)` -/
theorem test_disposeJmp_a :
    after (start 0x100 0x0 [(3, 0xFF0)] [(0xFF8, 0xBB), (0xFF9, 0xBB), (0xFFA, 0xBB), (0xFFB,
      0xBB), (0xFFC, 0xAA), (0xFFD, 0xAA), (0xFFE, 0xAA), (0xFFF, 0xAA)]) [0x644, 0x60]
      (fun t => t.reg 3 == 0x1000 && t.reg 29 == 0xAAAAAAAA && t.reg 31 == 0xBBBBBBBB &&
        t.psw == 0x0 && t.pc == 0x104) = true := by decide

/-- `DISPOSE 2, (r29, r31), [r31]` -/
theorem test_disposeJmp_b :
    after (start 0x1000 0x0 [(3, 0xFF0)] [(0xFF8, 0x5), (0xFF9, 0x20), (0xFFA, 0x0), (0xFFB,
      0x0), (0xFFC, 0xAA), (0xFFD, 0xAA), (0xFFE, 0xAA), (0xFFF, 0xAA)]) [0x644, 0x7F]
      (fun t => t.reg 3 == 0x1000 && t.reg 29 == 0xAAAAAAAA && t.reg 31 == 0x2005 &&
        t.pc == 0x2004 && t.psw == 0x0) = true := by decide

/-- `PREPARE (r20, r30), 2` -/
theorem test_prepare_a :
    after (start 0x100 0x0 [(3, 0x1000), (20, 0x20), (30, 0x30)] []) [0x785, 0x801]
      (fun t => t.reg 3 == 0xFF0 && t.valueAt 0x00000FFC .word == 0x00000020 &&
        t.valueAt 0x00000FF8 .word == 0x00000030 && t.psw == 0x0 &&
          t.pc == 0x104) = true := by decide

/-- `PREPARE (r31), 0` -/
theorem test_prepare_b :
    after { start 0x100 0x0 [(3, 0x1002), (31, 0x12345678)] [] with
        platform := misalignOn } [0x780, 0x21]
      (fun t => t.reg 3 == 0xFFE && t.valueAt 0x00000FFC .word == 0x12345678 && t.psw == 0x0 &&
        t.pc == 0x104) = true := by decide

/-- `PREPARE (r29, r31), 1, sp` -/
theorem test_prepareSp :
    after (start 0x100 0x0 [(3, 0x1000), (29, 0xAAAAAAAA), (31, 0xBBBBBBBB)] []) [0x782, 0x63]
      (fun t => t.reg 3 == 0xFF4 && t.reg 30 == 0xFF4 &&
        t.valueAt 0x00000FFC .word == 0xAAAAAAAA && t.valueAt 0x00000FF8 .word == 0xBBBBBBBB &&
          t.psw == 0x0 && t.pc == 0x104) = true := by decide

/-- `PREPARE (r31), 1, imm16`, sign-extended to ep (49_special_debug.md R376). -/
theorem test_prepareImm16 :
    after (start 0x1000 0 [(3, 0x2000), (31, 0xA5)] []) [0x0782, 0x002B, 0x8000]
      (fun t => t.reg 3 == 0x1FF8 && t.reg 30 == 0xFFFF8000 && t.valueAt 0x1FFC .word == 0xA5
        && t.pc == 0x1006) = true := by decide

/-- `PREPARE (r31), 1, imm16`, shifted left by 16 into ep (49_special_debug.md R376). -/
theorem test_prepareImm16Hi :
    after (start 0x1000 0 [(3, 0x2000), (31, 0xA5)] []) [0x0782, 0x0033, 0x8000]
      (fun t => t.reg 3 == 0x1FF8 && t.reg 30 == 0x80000000 && t.pc == 0x1006) = true := by decide

/-- `PREPARE (r31), 1, imm32` (49_special_debug.md R376). -/
theorem test_prepareImm32 :
    after (start 0x1000 0 [(3, 0x2000), (31, 0xA5)] []) [0x0782, 0x003B, 0x5678, 0x1234]
      (fun t => t.reg 3 == 0x1FF8 && t.reg 30 == 0x12345678 && t.pc == 0x1008) = true := by decide

/-! ## Codes with no instruction, and the words that share a pattern (95_test_vectors.md 2.13) -/

theorem test_decode_shared_patterns : Decodes [
    (16, 0x0000, .nop), (16, 0x0020, .notReg 0 0), (16, 0x0041, .switch 1), (16, 0x0065, .jmpReg 5),
    (16, 0x0085, .zxb 5), (16, 0x00A5, .sxb 5), (16, 0x00C5, .zxh 5), (16, 0x00E5, .sxh 5),
    (16, 0x0205, .callt 5), (16, 0x0225, .callt 0x25), (16, 0xF840, .dbtrap),
    (48, 0x123456780621, .movImm32 0x12345678 1), (48, 0x1234567802FF, .jarl32 0x12345678 31),
    (48, 0x1234567802E0, .jr32 0x12345678), (32, 0x1BBA17E1, .satadd3 1 2 3),
    (32, 0x1B9A17E1, .satsub3 1 2 3), (32, 0x016007E0, .di), (32, 0x016087E0, .ei)] := by
  unfold Decodes; decide

theorem test_decode_undefined :
    decode [0x0040] = .error .undefinedCode
      ∧ decode [0x07E0, 0x0144 ||| 0x8000] = .error .undefinedCode
      ∧ decode [0x07E0, 0x0400] = .error .illegalCode
      ∧ decode [0xFFFF, 0xFFFE] = .error .illegalCode := ⟨rfl, rfl, rfl, rfl⟩

/-- The example of the manual: r20 and r30 are bits 27 and 0 of the list word; the order is ascending
(30_encoding.md R137). -/
theorem test_listRegs :
    listRegs 0b000010000001#12 = [20, 30]
      ∧ listRegs 0xFFF#12 = [20, 21, 22, 23, 24, 25, 26, 27, 28, 29, 30, 31] := by decide

/-! ## WellFormed refuses an ill-formed term for each check -/

theorem test_wellFormed_r0 : ∀ i ∈ [Instr.movReg 0 0, .divhReg 0 2, .divhReg 1 0, .switch 0,
    .satsubr 1 0, .satsubReg 1 0, .sataddReg 1 0, .mulhReg 1 0, .movImm5 1 0, .sataddImm5 1 0,
    .mulhImm5 1 0, .sldbu 1 0, .sldhu 2 0, .jarl22 2 0, .movea 1 2 0, .movhi 1 2 0, .satsubi 1 2 0,
    .mulhi 1 2 0, .jarl32 2 0, .ldbu 1 2 0, .ldhu 2 2 0, .disposeJmp 1 1 0],
    WellFormed i = false := by decide

theorem test_wellFormed_odd : ∀ i ∈ [Instr.bcond .z 1, .sldhu 1 2, .sldh 1 2, .ssth 2 1, .sldw 2 2,
    .sldw 1 2, .sstw 2 2, .sstw 2 1, .jarl22 1 2, .jr22 1, .jmpDisp32 1 2, .jr32 1, .jarl32 1 2,
    .ldh 1 2 3, .ldw 1 2 3, .sth 2 1 3, .stw 2 1 3, .ldhu 1 2 3, .mac 1 2 4 5, .macu 1 2 4 5],
    WellFormed i = false := by decide

theorem test_wellFormed_cond :
    WellFormed (.adf .sa 1 2 3) = false ∧ WellFormed (.sbf .sa 1 2 3) = false := by decide

/-! ## Steps (95_test_vectors.md 2.12) -/

/-- What `p` says of the state after one step. -/
def afterStep (s : State) (p : State → Bool) : Bool :=
  match step s with
  | .next t => p t
  | _ => false

/-- A start past the first instruction after reset. -/
def going (pc psw : Word) (regs : List (Reg × Word)) (bytes : List (Nat × Byte)) : State :=
  { start pc psw regs bytes with afterReset := false }

theorem test_step_interrupt :
    afterStep { going 0x1006 0x1 [] [] with ecr := 0x00300045, intReq := some 0x0080 }
      (fun t => t.eipc == 0x1006 && t.eipsw == 0x1 && t.ecr == 0x00300080 && t.psw == 0x21
        && t.pc == 0x80 && t.intReq == none) = true := by decide

theorem test_step_interrupt_sb :
    afterStep { going 0x1000 0x400 [] [] with dir := 0x100, intReq := some 0x0090 }
      (fun t => t.eipsw == 0x400 && t.psw == 0xC20 && t.pc == 0x90) = true := by decide

/-- NMI2 is accepted while NP = 1; a maskable request is not. -/
theorem test_step_nmi2 :
    afterStep { going 0x14 0xA0 [] [] with
        ecr := 0x00100041, fepc := 0x2004, nmi2 := true, intReq := some 0x0080 }
      (fun t => t.fepc == 0x14 && t.fepsw == 0xA0 && t.ecr == 0x00300041 && t.psw == 0xA0
        && t.pc == 0x30 && t.intReq == some 0x0080) = true := by decide

/-- A request ID = 1 blocks stays pending while `NOP` runs. -/
theorem test_step_blocked :
    afterStep { going 0x1000 0x20 [] [] with intReq := some 0x0080 }
      (fun t => t.pc == 0x1002 && t.intReq == some 0x0080) = true := by decide

theorem test_step_illegal_code :
    afterStep { going 0x1000 0x8 [] [(0x1000, 0xE0), (0x1001, 0x07), (0x1003, 0x04)] with
        ecr := 0x45 }
      (fun t => t.dbpc == 0x1004 && t.dbpsw == 0x8 && t.psw == 0xE8 && t.dir == 0x1 && t.ecr == 0x45
        && t.pc == 0x60) = true := by decide

/-- `ADD 1, r5` under SS = 1 leaves a single-step break due at 00002002H. -/
theorem test_step_armed :
    afterStep { going 0x2000 0x800 [] [(0x2000, 0x41), (0x2001, 0x2A)] with dir := 0x100 }
      (fun t => t.reg 5 == 0x1 && t.stepDue && t.pc == 0x2002) = true := by decide

/-- The single-step break. -/
theorem test_step_single_step :
    afterStep { going 0x2002 0x800 [] [] with dir := 0x100, stepDue := true }
      (fun t => t.dbpc == 0x2002 && t.dbpsw == 0x800 && t.psw == 0x8E0 && t.dir == 0x101
        && t.pc == 0x60) = true := by decide

/-- `LD.W 0[r1], r2` with DIR.MAE = 1 and r1 = 00001002H. -/
theorem test_step_misaligned :
    after { start 0x1000 0 [(1, 0x1002), (2, 0x55555555)] [] with dir := 0x400 } [0x1721, 0x0001]
      (fun t => t.reg 2 == 0x55555555 && t.dbpc == 0x1000 && t.psw == 0xE0 && t.dir == 0x405
        && t.pc == 0x60) = true := by decide

/-- `PREPARE (r31), 0` with DIR.AEE = 1 and r3 = 00001002H. -/
theorem test_step_alignment_error :
    after { start 0x1000 0 [(3, 0x1002)] [] with dir := 0x200 } [0x0780, 0x0021]
      (fun t => t.reg 3 == 0x1002 && t.dbpc == 0x1000 && t.psw == 0xE0 && t.dir == 0x203
        && t.pc == 0x60) = true := by decide

/-- The host's placement: `ADD -1, r2` is the first instruction after reset. -/
theorem test_withFetchWord :
    afterStep (State.reset.withFetchWord 16 0x125F)
      (fun t => t.reg 2 == 0xFFFFFFFF && t.pc == 0x2) = true := by decide

/-! ## Witnesses: what each obligation with hypotheses assumes is met -/

/-- `ADD 1, r5` at 00002000H, nothing else due. -/
def ready : State := going 0x2000 0 [] [(0x2000, 0x41), (0x2001, 0x2A)]

theorem witness_DecodeOfEncode : WellFormed (.prepareImm32 0x801 2 0x12345678) = true := by decide

theorem witness_EncodeOfDecode : decode [0x2A41, 0x1234] = .ok (.addImm5 1 5, [0x1234]) := rfl

theorem witness_CodeLengthOfEncode : WellFormed (.jarl32 0x12345678 31) = true := by decide

theorem witness_StepRunsDecoded :
    Ready ready ∧ Fetched ready [0x2A41] ∧ decode [0x2A41] = .ok (.addImm5 1 5, []) :=
  ⟨⟨rfl, rfl, rfl⟩, ⟨rfl, rfl, rfl⟩, rfl⟩

/-- A 48-bit code that runs over the top of the 29-bit address space. -/
theorem witness_FetchOfPlacedCode :
    WellFormed (.movImm32 0x12345678 1) = true
      ∧ CodeAt (going 0x1FFFFFFE 0 [] [(0x1FFFFFFE, 0x21), (0x1FFFFFFF, 0x06), (0, 0x78), (1, 0x56),
          (2, 0x34), (3, 0x12)]) (.movImm32 0x12345678 1) := by
  refine ⟨rfl, ?_⟩
  unfold CodeAt; decide

/-- A state with the invariant: a channel in use, SS under SSE, memory listed. -/
def kept : State :=
  { ready with
    psw := 0x800, dir := 0x4100, seq0 := true
    channels := ready.channels.set 0
      { bpc := 0x0100008C, bpav := 0x1000, bpam := 0x3, bpdv := 5, bpdm := 0 } }

theorem witness_Inv : Safety.Inv kept where
  mem := by decide
  pc := by decide
  zero := by decide
  psw := by decide
  eipsw := by decide
  fepsw := by decide
  ctpsw := by decide
  dbpsw := by decide
  eipc := by decide
  fepc := by decide
  ctpc := by decide
  dbpc := by decide
  ctbp := by decide
  asid := by decide
  dir := by decide
  sse := by decide
  ini := by decide
  seq0 := by decide
  seq1 := by decide
  stepDue := by decide
  channels := fun n => by
    refine ⟨?_, ?_, ?_, ?_⟩ <;> (revert n; decide)

theorem witness_StepKeepsInv : Safety.Inv kept ∧ ∃ t, step kept = .next t := ⟨witness_Inv, _, rfl⟩

theorem witness_PlatformFixed : ∃ t, step ready = .next t := ⟨_, rfl⟩

/-- `DBTRAP` at 00001000H. -/
theorem witness_DebugModeEntry : ∃ t,
    step (going 0x1000 0 [] [(0x1000, 0x40), (0x1001, 0xF8)]) = .next t
      ∧ (going 0x1000 0 [] [(0x1000, 0x40), (0x1001, 0xF8)]).userMode = true
      ∧ t.userMode = false := ⟨_, rfl, by decide, by decide⟩

/-- `DBRET` in debug mode. -/
def returning : State :=
  { going 0x60 0xE0 [] [(0x60, 0xE0), (0x61, 0x07), (0x62, 0x46), (0x63, 0x01)] with dir := 0x1 }

theorem witness_DebugModeExit : ∃ t,
    step returning = .next t ∧ returning.userMode = false ∧ t.userMode = true :=
  ⟨_, rfl, by decide, by decide⟩

theorem witness_SatCumulative : ∃ t, exec (.sataddReg 1 2) (start 0x100 0x10 [] []) = .next t
    ∧ clearsSat (.sataddReg 1 2) = false
    ∧ (start 0x100 0x10 [] []).psw.getLsbD Psw.sat = true := ⟨_, rfl, by decide, by decide⟩

theorem witness_EcrWriters : ∃ t, exec (.ldsr 1 0) (start 0x100 0 [] []) = .next t
    ∧ ∀ v, Instr.ldsr 1 0 ≠ .trap v := ⟨_, rfl, fun _ => by simp⟩

theorem witness_MemoryWriters : ∃ t, exec (.tst1Imm 3 4 1) (start 0x100 0 [] []) = .next t
    ∧ writesMemory (.tst1Imm 3 4 1) = false := ⟨_, rfl, by decide⟩

/-- The register combinations of MUL next to the prohibited one: all equal, reg3 = r0, reg1 = r0. -/
theorem witness_ProductResult :
    let allowed := fun reg1 reg2 reg3 : Reg =>
      ¬(reg1 = reg3 ∧ reg1 ≠ reg2 ∧ reg1 ≠ 0#5 ∧ reg3 ≠ 0#5)
    allowed 1 1 1 ∧ allowed 0 2 0 ∧ allowed 1 2 3 ∧ allowed 1 2 2 ∧ ¬allowed 1 2 1 := by decide

/-- An even and an odd reg3. -/
theorem witness_MultiplyAccumulate : (4#5).getLsbD 0 = false ∧ (5#5).getLsbD 0 = true := by decide

/-- A divisor that is not 0, and the pair of R312, for the word and for the halfword divisor. -/
theorem witness_SignedDivision :
    let s := start 0x100 0 [(1, 0xFFFFFFFF), (2, 0x80000000), (4, 0x12340001)] []
    s.reg 1 ≠ 0 ∧ ((s.reg 1).setWidth 16).signExtend 32 = 0xFFFFFFFF#32 ∧ s.reg 2 = 0x80000000
      ∧ ((s.reg 4).setWidth 16).signExtend 32 = 1#32 := by decide

theorem witness_UnsignedDivision :
    let s := start 0x100 0 [(1, 0x10001)] []
    s.reg 1 ≠ 0 ∧ ((s.reg 1).setWidth 16).setWidth 32 = 1#32 := by decide

/-- A zero word, and a word whose lower halfword is 0. -/
theorem witness_DivisionByZero :
    let s := start 0x100 0 [(2, 0x10000)] []
    s.reg 1 = 0 ∧ (s.reg 2).setWidth 16 = 0#16 := by decide

/-- Accesses of both forms, those through reg1 at an address the alignment step moves. -/
theorem witness_LoadResult :
    let s := start 0x100 0 [(1, 0xFFFFFFFF), (30, 0x2000)] []
    Readable s (s.dispAddr 1 0) .byte
      ∧ s.misalignDetected (s.dispAddr 1 0) .half = false
      ∧ Readable s (aligned s .half (s.dispAddr 1 0)) .half
      ∧ s.misalignDetected (s.dispAddr 1 0) .word = false
      ∧ Readable s (aligned s .word (s.dispAddr 1 0)) .word
      ∧ Readable s (s.epAddr (127#7)) .byte ∧ Readable s (s.epAddr (15#4)) .byte
      ∧ s.misalignDetected (s.epAddr (254#8)) .half = false
      ∧ Readable s (aligned s .half (s.epAddr (254#8))) .half
      ∧ s.misalignDetected (s.epAddr (30#5)) .half = false
      ∧ Readable s (aligned s .half (s.epAddr (30#5))) .half
      ∧ s.misalignDetected (s.epAddr (252#8)) .word = false
      ∧ Readable s (aligned s .word (s.epAddr (252#8))) .word := by decide

/-- A word store that wraps over the top of the address space, with misaligned accesses enabled. -/
theorem witness_StoreResult :
    let s := { start 0x100 0 [(1, 0xFFFFFFFE), (30, 0x2000)] [] with platform := misalignOn }
    Writable s (s.dispAddr 1 0) .byte
      ∧ s.misalignDetected (s.dispAddr 1 0) .half = false
      ∧ Writable s (aligned s .half (s.dispAddr 1 0)) .half
      ∧ s.misalignDetected (s.dispAddr 1 0) .word = false
      ∧ Writable s (aligned s .word (s.dispAddr 1 0)) .word
      ∧ Writable s (s.epAddr (127#7)) .byte
      ∧ s.misalignDetected (s.epAddr (254#8)) .half = false
      ∧ Writable s (aligned s .half (s.epAddr (254#8))) .half
      ∧ s.misalignDetected (s.epAddr (252#8)) .word = false
      ∧ Writable s (aligned s .word (s.epAddr (252#8))) .word := by decide

/-- An odd halfword address, the word addresses 1, 2 and 3 past a boundary, and a misaligned sp. -/
theorem witness_AlignmentBreaks :
    let s := { start 0x100 0 [(1, 0x1001), (2, 0x1002), (3, 0x1003)] [] with dir := 0x600 }
    s.userMode = true ∧ s.dir.getLsbD Dir.mae = true ∧ s.dir.getLsbD Dir.aee = true
      ∧ (s.dispAddr 1 0).getLsbD 0 = true ∧ (s.dispAddr 1 0).toNat % 4 = 1
      ∧ (s.dispAddr 2 0).toNat % 4 = 2 ∧ (s.dispAddr 3 0).toNat % 4 = 3
      ∧ (s.epAddr (1#8)).getLsbD 0 = true ∧ (s.reg Reg.sp).toNat % 4 ≠ 0 := by decide

theorem witness_BitManipulation :
    let s := start 0x100 0 [(1, 0xFFFFFFFF)] []
    Writable s (s.dispAddr 1 0) .byte ∧ Readable s (s.dispAddr 1 0x8000) .byte
      ∧ Writable s (s.reg 1) .byte ∧ Readable s (s.reg 1) .byte := by decide

/-- A platform with one device word at 0000000CH. -/
def withDevice : Config.Platform :=
  { Config.Platform.standard with
    memoryMap :=
      [{ base := 0xC, size := 4, kind := .device }, { base := 0, size := 2 ^ 32, kind := .ram }] }

/-- The whole list, from an sp low enough that the slots wrap, the alignment step at work and the first
slot a device location. -/
theorem witness_PrepareResult :
    let s := { start 0x100 0 [(3, 0x12)] [] with platform := withDevice }
    s.alignErrorDetected = false
      ∧ (∀ k < (listRegs 0xFFF#12).length, Writable s (saveSlot s k) .word)
      ∧ s.touchesDevice (saveSlot s 0) .word = true
      ∧ s.touchesDevice (saveSlot s 1) .word = false := by decide

/-- `PREPARE (r30, r31), 0` over that word: r30 goes to the device, r31 to memory (20_memory.md R97). -/
theorem test_prepare_device :
    after { start 0x1000 0 [(3, 0x12), (30, 0x11223344), (31, 0x55)] [] with platform := withDevice }
        [0x0781, 0x0021]
      (fun t => t.reg 3 == 0xA && Memory.read t.mem 0xC == 0 && Memory.read t.mem 0x8 == 0x55
        && t.deviceOut == [{ addr := 0xC, size := .word, value := 0x11223344 }]) = true := by decide

theorem witness_DisposeResult :
    let s := start 0x100 0 [(3, 0xFFFFFFF2)] []
    s.alignErrorDetected = false
      ∧ ∀ k < (listRegs 0xFFF#12).length, Readable s (loadSlot s 31 k) .word := by decide

theorem witness_TableJumps :
    let s := { start 0x1000 0 [(1, 0x2)] [] with ctbp := 0x2000 }
    Readable s (aligned s .half (s.ctbp + BitVec.ofNat 32 (2 * (63#6).toNat))) .half
      ∧ Readable s (aligned s .half (s.pc + 2#32 + (s.reg 1 + s.reg 1))) .half := by decide

/-- The three cases of RETI. -/
theorem witness_ReturnResult :
    (start 0x100 0xC0 [] []).psw.getLsbD Psw.ep = true
      ∧ (start 0x100 0x80 [] []).psw.getLsbD Psw.ep = false
      ∧ (start 0x100 0x80 [] []).psw.getLsbD Psw.np = true
      ∧ (start 0x100 0x20 [] []).psw.getLsbD Psw.ep = false
      ∧ (start 0x100 0x20 [] []).psw.getLsbD Psw.np = false := by decide

/-- A BPCn value with every bit it may have. -/
theorem witness_LdsrResult :
    (start 0x100 0 [(1, 0x07FF8F9F)] []).reg 1 &&& 0xF8007060#32 = 0#32 := by decide

theorem witness_LdsrDir :
    (start 0x100 0 [] []).userMode = true ∧ returning.userMode = false := by decide

/-- A breakpoint channel with BE, FE and WE set, at a state with nothing else due. -/
def badChannel : State :=
  { ready with
    dir := 0x80
    channels := ready.channels.set 3 { bpc := 0x8E, bpav := 0, bpam := 0, bpdv := 0, bpdm := 0 } }

/-- The ends of the reserved ranges of regID, one must-be-zero bit of BPCn, a prohibited MUL, a prohibited
breakpoint setting. -/
theorem witness_ProhibitedUses :
    (Ready badChannel ∧ badChannel.fetch = .ok [0x2A41] ∧ TakesPart badChannel 3
      ∧ badChannel.channels[3].bpc.getLsbD Bpc.be = true
      ∧ badChannel.channels[3].bpc.getLsbD Bpc.fe = true
      ∧ badChannel.channels[3].bpc.getLsbD Bpc.we = true) ∧
    (∀ r ∈ [6#5, 15#5, 28#5, 31#5], (6 ≤ r.toNat ∧ r.toNat ≤ 15) ∨ 28 ≤ r.toNat)
      ∧ (∀ r ∈ [5#5, 16#5, 27#5], ¬((6 ≤ r.toNat ∧ r.toNat ≤ 15) ∨ 28 ≤ r.toNat))
      ∧ (start 0x100 0 [(1, 0x20)] []).reg 1 &&& 0xF8007060#32 ≠ 0#32
      ∧ 1#5 ≠ 2#5 ∧ 1#5 ≠ 0#5 :=
  ⟨⟨⟨rfl, rfl, rfl⟩, rfl, ⟨rfl, rfl, fun _ => rfl⟩, rfl, rfl, rfl⟩, by decide⟩

/-- The illegal code at 00001000H, and an undefined one. -/
theorem witness_CodesWithoutInstruction :
    let s := going 0x1000 0 [] [(0x1000, 0xE0), (0x1001, 0x07), (0x1003, 0x04)]
    let u := going 0x1000 0 [] [(0x1000, 0x40)]
    (Ready s ∧ Fetched s [0x07E0, 0x0400] ∧ decode [0x07E0, 0x0400] = .error .illegalCode)
      ∧ (Ready u ∧ Fetched u [0x0040] ∧ decode [0x0040] = .error .undefinedCode) :=
  ⟨⟨⟨rfl, rfl, rfl⟩, ⟨rfl, rfl, rfl⟩, rfl⟩, ⟨⟨rfl, rfl, rfl⟩, ⟨rfl, rfl, rfl⟩, rfl⟩⟩

theorem witness_InterruptEntry :
    let s := { ready with intReq := some 0x0080#16 }
    s.stepDue = false ∧ s.chosen = some (.int 0x0080#16) := by decide

/-- Each line. -/
theorem witness_NmiEntry :
    ({ ready with nmi0 := true } : State).chosen = some (.nmi .nmi0)
      ∧ ({ ready with nmi1 := true } : State).chosen = some (.nmi .nmi1)
      ∧ ({ ready with nmi2 := true } : State).chosen = some (.nmi .nmi2)
      ∧ ready.stepDue = false := by decide

/-- Two acceptable requests: either can be chosen, or neither. -/
theorem witness_AcceptableRequests :
    let s := { ready with nmi0 := true, intReq := some 0x0080#16 }
    s.chosen = some (.nmi .nmi0)
      ∧ ({ s with choice := 1 } : State).chosen = some (.int 0x0080#16)
      ∧ ({ s with choice := 2 } : State).chosen = none := by decide

/-- A halted machine with a request that PSW blocks. -/
theorem witness_HaltWaits :
    let s := { ready with halted := true, psw := 0x20, intReq := some 0x0080#16 }
    s.stepDue = false ∧ s.chosen = none ∧ s.halted = true ∧ s.psw.getLsbD Psw.id = true := by decide

theorem witness_SingleStep :
    ({ ready with stepDue := true } : State).stepDue = true ∧ Ready kept
      ∧ ∃ t, step kept = .next t :=
  ⟨rfl, ⟨rfl, rfl, rfl⟩, witness_StepKeepsInv.2⟩

/-- `ready` with DIR and two breakpoint channels as given. -/
def withChannels (dir : Word) (n : Fin 4) (ch : BreakChannel) (m : Fin 4) (ch' : BreakChannel) : State :=
  { ready with dir := dir, channels := (ready.channels.set n.val ch).set m.val ch' }

/-- A channel on the address of the next instruction. -/
def onFetch : BreakChannel := { bpc := 0x8C, bpav := 0x2000, bpam := 0, bpdv := 0, bpdm := 0 }

/-- A channel on a write of any byte at 00001004H. -/
def onWrite : BreakChannel := { bpc := 0x8A, bpav := 0x1004, bpam := 0, bpdv := 0, bpdm := 0 }

/-- One channel on the next instruction, with EXT for channels 2 and 3. -/
def watched (n : Fin 4) : State :=
  withChannels (if n.val < 2 then 0 else 0x80) n onFetch n onFetch

theorem witness_ExecutionBreak (n : Fin 4) :
    Ready (watched n) ∧ (watched n).fetch = .ok [0x2A41] ∧ (watched n).prohibitedSetting = false
      ∧ TakesPart (watched n) n
      ∧ (watched n).dir.getLsbD (sqBit n) = false ∧ (watched n).dir.getLsbD (reBit n) = false
      ∧ (watched n).channels[n.val].bpc &&& 0x0000818F#32 = 0x0000008C#32
      ∧ (watched n).channels[n.val].bpam = 0#32
      ∧ (watched n).channels[n.val].bpav = (watched n).pc := by
  match n with
  | 0 => exact ⟨⟨rfl, rfl, rfl⟩, rfl, rfl, ⟨rfl, rfl, by decide⟩, rfl, rfl, rfl, rfl, rfl⟩
  | 1 => exact ⟨⟨rfl, rfl, rfl⟩, rfl, rfl, ⟨rfl, rfl, by decide⟩, rfl, rfl, rfl, rfl, rfl⟩
  | 2 => exact ⟨⟨rfl, rfl, rfl⟩, rfl, rfl, ⟨rfl, rfl, fun _ => rfl⟩, rfl, rfl, rfl, rfl, rfl⟩
  | 3 => exact ⟨⟨rfl, rfl, rfl⟩, rfl, rfl, ⟨rfl, rfl, fun _ => rfl⟩, rfl, rfl, rfl, rfl, rfl⟩

/-- One channel on a write of 55H to the byte at 00001004H. -/
def guarded (n : Fin 4) : State :=
  { watched n with
    channels := ready.channels.set n.val onWrite
    gpr := (ready.gpr.set 1 0x1000).set 2 0x55 }

theorem witness_AccessBreak (n : Fin 4) : ∃ t, exec (.stb 2 4 1) (guarded n) = .next t
    ∧ ∃ e ∈ (guarded n).accesses (.stb 2 4 1), TakesPart t n
      ∧ t.dir.getLsbD (sqBit n) = false ∧ t.dir.getLsbD (reBit n) = false
      ∧ t.channels[n.val].bpc.getLsbD Bpc.be = true ∧ EventOf t e n := by
  match n with
  | 0 => exact ⟨_, rfl, _, List.mem_cons_self, ⟨rfl, rfl, by decide⟩, rfl, rfl, rfl, rfl⟩
  | 1 => exact ⟨_, rfl, _, List.mem_cons_self, ⟨rfl, rfl, by decide⟩, rfl, rfl, rfl, rfl⟩
  | 2 => exact ⟨_, rfl, _, List.mem_cons_self, ⟨rfl, rfl, fun _ => rfl⟩, rfl, rfl, rfl, rfl⟩
  | 3 => exact ⟨_, rfl, _, List.mem_cons_self, ⟨rfl, rfl, fun _ => rfl⟩, rfl, rfl, rfl, rfl⟩

/-- Channels 2 and 3 in sequential mode, channel 3 on the next instruction. -/
def sequenced (progress : Bool) : State :=
  { withChannels 0x40000080 2 onWrite 3 onFetch with seq1 := progress }

/-- A fetch that hits and one that does not, an access that hits and one that does not. -/
theorem witness_BreakModes :
    (Ready (sequenced true) ∧ (sequenced true).fetch = .ok [0x2A41]
        ∧ (sequenced true).prohibitedSetting = false
        ∧ hitOf ((sequenced true).watch [(sequenced true).fetchEvent [0x2A41]]) 3 = true)
      ∧ (Ready (sequenced false) ∧ (sequenced false).fetch = .ok [0x2A41]
        ∧ (sequenced false).prohibitedSetting = false
        ∧ ∀ n, hitOf ((sequenced false).watch [(sequenced false).fetchEvent [0x2A41]]) n = false)
      ∧ (∃ t, exec (.stb 2 4 1) (guarded 3) = .next t
        ∧ hitOf (t.watch ((guarded 3).accesses (.stb 2 4 1))) 3 = true)
      ∧ (∃ t, exec (.stb 2 5 1) (guarded 3) = .next t
        ∧ ∀ n, hitOf (t.watch ((guarded 3).accesses (.stb 2 5 1))) n = false) := by
  refine ⟨⟨⟨rfl, rfl, rfl⟩, rfl, rfl, rfl⟩, ⟨⟨rfl, rfl, rfl⟩, rfl, rfl, fun n => ?_⟩,
    ⟨_, rfl, rfl⟩, ⟨_, rfl, fun n => ?_⟩⟩ <;>
  · match n with
    | 0 => rfl
    | 1 => rfl
    | 2 => rfl
    | 3 => rfl

/-- Sequential mode (60_exceptions.md R462): the second channel breaks only after the first, which breaks
nothing and sets the progress; the break clears it. -/
theorem test_step_sequential :
    afterStep (sequenced true) (fun t => t.pc == 0x60 && t.dir == 0x40200081 && !t.seq1) = true
      ∧ afterStep (sequenced false) (fun t => t.pc == 0x2002 && t.dir == 0x40000080 && !t.seq1) = true
      ∧ afterStep (withChannels 0x40000080 2 onFetch 3 onWrite)
          (fun t => t.pc == 0x2002 && t.dir == 0x40000080 && t.seq1) = true := by decide

/-- Range mode (60_exceptions.md R462): both channels on one fetch break, one alone does not. -/
theorem test_step_range :
    afterStep (withChannels 0x2000 0 onFetch 1 onFetch)
        (fun t => t.pc == 0x60 && t.dir == 0x2031) = true
      ∧ afterStep (withChannels 0x2000 0 onFetch 1 onWrite)
          (fun t => t.pc == 0x2002 && t.dir == 0x2000) = true := by decide

/-- BE, FE and RE together in channel 1 stop the step, in a pair with SQ and RE both set too; in channel 2
only while EXT is set (60_exceptions.md R460). -/
theorem test_step_prohibited_setting :
    let bad : BreakChannel := { onFetch with bpc := 0x8D }
    step (withChannels 0 1 bad 1 bad) = .fault .prohibitedBreakSetting
      ∧ step (withChannels 0x6000 1 bad 1 bad) = .fault .prohibitedBreakSetting
      ∧ step (withChannels 0x80 2 bad 2 bad) = .fault .prohibitedBreakSetting
      ∧ afterStep (withChannels 0 2 bad 2 bad) (fun t => t.pc == 0x2002) = true :=
  ⟨rfl, rfl, rfl, by decide⟩

end Sys2Proof.Tests
end

section
/-! SUPPORT. What one instruction can do, said once over all of exec's arms: a plain change (Plain), a
debug break for an address, or one of the eight instructions that touch a system register or HALT mode. -/

namespace Sys2Proof.Safety

open Sys2Proof.Machine

/-- The state `i` leaves when it answers a next state, with the guard of each case. -/
inductive Effect (s : State) : Instr → State → Prop where
  | plain {i t} : Plain (writesMemory i) s t → Effect s i t
  | misalign {i} a size : s.misalignDetected a size = true → Effect s i s.misalignBreak
  | alignError {i} : s.alignErrorDetected = true → Effect s i s.alignErrorBreak
  | callt imm6 h :
    s.memRead (s.calltAddr imm6) .half = .ok h →
    Effect s (.callt imm6) ((s.save .ct (s.pcAfter 2)).setPc (s.ctbp + h))
  | halt : Effect s .halt { s.advance 4 with halted := true }
  | ldsr reg2 regID r t :
    SysReg.ofId regID = some r → s.writeSysreg r (s.reg reg2) = .ok t →
    Effect s (.ldsr reg2 regID) (t.advance 4)
  | trap vector : Effect s (.trap vector) (s.enter (trapEntry (s.pcAfter 4) vector))
  | reti : Effect s .reti (s.returnFrom (retiBank s.psw))
  | ctret : Effect s .ctret (s.returnFrom .ct)
  | dbret :
    Effect s .dbret { s.returnFrom .db with dir := putBit (s.returnFrom .db).dir Dir.dm false }
  | dbtrap :
    Effect s .dbtrap
      (if s.dir.getLsbD Dir.ext then
        { s.enter (debugEntry (s.pcAfter 2) false) with
          dir := putBit (s.enter (debugEntry (s.pcAfter 2) false)).dir Dir.stt true }
      else s.enter (debugEntry (s.pcAfter 2) false))

section
variable {s t : State} {i : Instr}

/-- An arm that answers a plain change. -/
theorem Effect.of_plain {u : State} (hp : Plain (writesMemory i) s u)
    (h : Host.Outcome.next u = (.next t : Result)) : Effect s i t := by
  cases h
  exact .plain hp

/-- An arm that answers a plain change unless it is prohibited. -/
theorem Effect.of_plain_unless {c : Bool} {f : Fault} {u : State}
    (hp : Plain (writesMemory i) s u)
    (h : (if c then .fault f else .next u : Result) = .next t) : Effect s i t := by
  split at h
  · cases h
  · exact .of_plain hp h

/-- A load reads and writes a register, or breaks. -/
theorem Effect.of_load {a : Word} {size : AccessSize} {ext : Word → Word} {reg2 : Reg} {len : Nat}
    (h : s.load a size ext reg2 len = .next t) : Effect s i t := by
  unfold State.load at h
  split at h
  · rename_i hm
    cases h
    exact .misalign a size hm
  · split at h
    · exact .of_plain ((Plain.refl.setReg _ _).advance _) h
    · cases h

/-- A store writes memory, or breaks. -/
theorem Effect.of_store {a : Word} {size : AccessSize} {reg2 : Reg} {len : Nat}
    (hw : writesMemory i = true) (h : s.store a size reg2 len = .next t) : Effect s i t := by
  unfold State.store at h
  split at h
  · rename_i hm
    cases h
    exact .misalign a size hm
  · split at h
    · rename_i u hu
      exact .of_plain (hw ▸ (writeAt_plain Plain.refl hu).advance _) h
    · cases h

/-- TST1 writes Z alone. -/
theorem Effect.of_testBit {a : Word} {n : Nat} (h : s.bitManip .test a n = .next t) :
    Effect s i t := by
  unfold State.bitManip at h
  split at h
  · cases h
  · exact .of_plain ((Plain.refl.withZ _).advance _) h

/-- SET1, CLR1 and NOT1 write Z and their byte. -/
theorem Effect.of_bitManip {op : BitOp} {a : Word} {n : Nat} (hw : writesMemory i = true)
    (h : s.bitManip op a n = .next t) : Effect s i t := by
  unfold State.bitManip at h
  split at h
  · cases h
  · dsimp only at h
    split at h
    · exact .of_plain ((Plain.refl.withZ _).advance _) h
    · split at h
      · rename_i u hu
        exact .of_plain (hw ▸ (writeAt_plain (Plain.refl.withZ _) hu).advance _) h
      · cases h

/-- PREPARE stores its frame and ends as its form asks for, or breaks. -/
theorem Effect.of_prepare {list12 : List12} {imm5 : BitVec 5} {finish : State → State}
    (hw : writesMemory i = true) (hf : ∀ u, Plain true s u → Plain true s (finish u))
    (h : s.prepareWith list12 imm5 finish = .next t) : Effect s i t := by
  unfold State.prepareWith at h
  split at h
  · rename_i he
    cases h
    exact .alignError he
  · split at h
    · rename_i u hu
      unfold State.pushFrame at hu
      split at hu
      · rename_i v hv
        cases hu
        exact .of_plain (hw ▸ hf _ ((push_plain _ Plain.refl hv).setReg _ _)) h
      · cases hu
    · cases h

/-- DISPOSE loads its registers and ends as its form asks for, or breaks. -/
theorem Effect.of_dispose {imm5 : BitVec 5} {list12 : List12} {finish : State → State}
    (hw : writesMemory i = false) (hf : ∀ u, Plain false s u → Plain false s (finish u))
    (h : s.disposeWith imm5 list12 finish = .next t) : Effect s i t := by
  unfold State.disposeWith at h
  split at h
  · rename_i he
    cases h
    exact .alignError he
  · split at h
    · rename_i u hu
      exact .of_plain (hw ▸ hf _ (pop_plain _ (Plain.refl.setReg _ _) hu)) h
    · cases h

/-- Bcond jumps or goes on. -/
theorem Effect.of_bcond {cond : Cond} {disp9 : BitVec 9}
    (h : execBcond cond disp9 s = .next t) : Effect s i t := by
  refine .of_plain ?_ h
  split
  · exact Plain.refl.setPc _
  · exact Plain.refl.advance _

/-- SWITCH jumps through the table it reads. -/
theorem Effect.of_switch {reg1 : Reg} (h : execSwitch reg1 s = .next t) : Effect s i t := by
  unfold execSwitch at h
  split at h
  · exact .of_plain (Plain.refl.setPc _) h
  · cases h

/-- STSR writes a general register. -/
theorem Effect.of_stsr {regID : BitVec 5} {reg2 : Reg} (h : execStsr regID reg2 s = .next t) :
    Effect s i t := by
  unfold execStsr at h
  split at h
  · cases h
  · exact .of_plain ((Plain.refl.setReg _ _).advance _) h

/-- CALLT reads its table, saves and jumps. -/
theorem Effect.of_callt {imm6 : BitVec 6} (h : execCallt imm6 s = .next t) :
    Effect s (.callt imm6) t := by
  unfold execCallt at h
  split at h
  · rename_i v hv
    cases h
    exact .callt imm6 v hv
  · cases h

/-- LDSR writes a system register and goes on. -/
theorem Effect.of_ldsr {reg2 : Reg} {regID : BitVec 5} (h : execLdsr reg2 regID s = .next t) :
    Effect s (.ldsr reg2 regID) t := by
  unfold execLdsr at h
  split at h
  · cases h
  · rename_i r hr
    split at h
    · rename_i u hu
      cases h
      exact .ldsr reg2 regID r u hr hu
    · cases h

/-- An instruction that answers a next state did one of these. -/
theorem exec_effect (h : exec i s = .next t) : Effect s i t := by
  cases i with
  | nop => exact .of_plain (Plain.refl.advance _) h
  | addReg | addImm5 | addi | adf | sub | subr | sbf =>
    exact .of_plain (Plain.refl.storeSum _ _ _) h
  | cmpReg | cmpImm5 => exact .of_plain ((Plain.refl.flags _ _ _ _).advance _) h
  | movReg | movImm5 | movImm32 | movea | movhi =>
    exact .of_plain (Plain.refl.storeValue _ _ _) h
  | sataddReg | sataddImm5 | satadd3 => exact .of_plain (Plain.refl.satAdd _ _ _ _) h
  | satsubReg | satsub3 | satsubi | satsubr => exact .of_plain (Plain.refl.satSub _ _ _ _) h
  | andReg | andi | notReg | orReg | ori | xorReg | xori =>
    exact .of_plain (Plain.refl.storeLogic _ _ _) h
  | tst => exact .of_plain ((Plain.refl.flagsNoCy _ _ _).advance _) h
  | bsh | bsw | hsh | hsw => exact .of_plain (Plain.refl.storeSwap _ _ _ _) h
  | cmov | cmovImm5 | sasf | setf | sxb | sxh | zxb | zxh =>
    exact .of_plain (Plain.refl.storeData _ _ _) h
  | sarReg | sarImm5 | sar3 | shlReg | shlImm5 | shl3 | shrReg | shrImm5 | shr3 =>
    exact .of_plain (Plain.refl.storeShift _ _ _) h
  | sch0l | sch0r | sch1l | sch1r => exact .of_plain (Plain.refl.storeSearch _ _) h
  | mul | mulu => exact .of_plain_unless (Plain.refl.storePair _ _ _) h
  | mulImm9 | muluImm9 | mac | macu => exact .of_plain (Plain.refl.storePair _ _ _) h
  | mulhReg | mulhImm5 | mulhi => exact .of_plain ((Plain.refl.setReg _ _).advance _) h
  | div | divh3 | divhu | divu => exact .of_plain (Plain.refl.storeDivision _ _ _) h
  | divhReg =>
    exact .of_plain (((Plain.refl.flagsNoCy _ _ _).setReg _ _).advance _) h
  | bcond => exact .of_bcond h
  | jarl22 | jarl32 => exact .of_plain ((Plain.refl.setReg _ _).setPc _) h
  | jmpReg | jmpDisp32 | jr22 | jr32 => exact .of_plain (Plain.refl.setPc _) h
  | ldb | ldbu | ldh | ldhu | ldw | sldb | sldbu | sldh | sldhu | sldw => exact .of_load h
  | stb | sth | stw | sstb | ssth | sstw => exact .of_store rfl h
  | tst1Imm | tst1Reg => exact .of_testBit h
  | set1Imm | set1Reg => exact .of_bitManip (op := .set) rfl h
  | clr1Imm | clr1Reg => exact .of_bitManip (op := .clear) rfl h
  | not1Imm | not1Reg => exact .of_bitManip (op := .invert) rfl h
  | prepare => exact .of_prepare rfl (fun _ hu => hu.advance _) h
  | prepareSp | prepareImm16 | prepareImm16Hi | prepareImm32 =>
    exact .of_prepare rfl (fun _ hu => (hu.setReg _ _).advance _) h
  | dispose => exact .of_dispose rfl (fun _ hu => hu.advance _) h
  | disposeJmp => exact .of_dispose rfl (fun _ hu => hu.setPc _) h
  | switch => exact .of_switch h
  | stsr => exact .of_stsr h
  | di | ei =>
    exact .of_plain ((Plain.refl.bit Psw.id _ (by decide) (by decide)).advance _) h
  | callt imm6 => exact .of_callt h
  | ldsr reg2 regID => exact .of_ldsr h
  | halt => cases h; exact .halt
  | trap vector => cases h; exact .trap vector
  | reti => cases h; exact .reti
  | ctret => cases h; exact .ctret
  | dbret => cases h; exact .dbret
  | dbtrap => cases h; exact .dbtrap

end

end Sys2Proof.Safety
end

section
/-! SUPPORT. The parameters of the platform and the count of steps, which no operation of a step writes
before nextTick (00_scope.md R6, log entry 8). -/

namespace Sys2Proof.Safety

open Sys2Proof.Machine

/-- The platform and the count of `t` are those of `s`. -/
structure KeepsFixed (s t : State) : Prop where
  platform : t.platform = s.platform
  tick : t.tick = s.tick

section
variable {s t u : State}

theorem KeepsFixed.trans (h : KeepsFixed s t) (h2 : KeepsFixed t u) : KeepsFixed s u :=
  ⟨h2.platform.trans h.platform, h2.tick.trans h.tick⟩

theorem Plain.keepsFixed {b : Bool} (h : Plain b s t) : KeepsFixed s t :=
  ⟨by rw [h.rest], by rw [h.rest]⟩

theorem enter_keepsFixed (s : State) (e : Entry) : KeepsFixed s (s.enter e) :=
  ⟨s.enter_platform e, s.enter_tick e⟩

/-- A mark put in DIR afterwards, as every cause of a break does. -/
theorem withDir_keepsFixed (h : KeepsFixed s t) (dir : Word) :
    KeepsFixed s { t with dir := dir } := ⟨h.platform, h.tick⟩

theorem misalignBreak_keepsFixed (s : State) : KeepsFixed s s.misalignBreak :=
  withDir_keepsFixed (enter_keepsFixed s _) _

theorem alignErrorBreak_keepsFixed (s : State) : KeepsFixed s s.alignErrorBreak :=
  withDir_keepsFixed (enter_keepsFixed s _) _

theorem writeDir_keepsFixed (s : State) (v : Word) : KeepsFixed s (s.writeDir v) := by
  unfold State.writeDir
  split
  · exact ⟨rfl, rfl⟩
  · exact ⟨rfl, rfl⟩

/-- An LDSR writes system registers alone (49_special_debug.md R365). -/
theorem writeSysreg_keepsFixed {r : SysReg} {v : Word} (h : s.writeSysreg r v = .ok t) :
    KeepsFixed s t := by
  cases r with
  | ecr => cases h
  | dir => cases h; exact writeDir_keepsFixed s v
  | bpc =>
    unfold State.writeSysreg at h
    dsimp only at h
    split at h
    · cases h; exact ⟨rfl, rfl⟩
    · cases h
  | _ => cases h; exact ⟨rfl, rfl⟩

/-- No instruction writes the platform or the count. -/
theorem exec_keepsFixed {i : Instr} (h : exec i s = .next t) : KeepsFixed s t := by
  cases exec_effect h with
  | plain hp => exact hp.keepsFixed
  | misalign => exact misalignBreak_keepsFixed s
  | alignError => exact alignErrorBreak_keepsFixed s
  | callt => exact ⟨by simp, by simp⟩
  | halt | reti | ctret | dbret => exact ⟨rfl, rfl⟩
  | ldsr reg2 regID r u _ hu =>
    exact (writeSysreg_keepsFixed hu).trans ⟨u.advance_platform 4, u.advance_tick 4⟩
  | trap => exact enter_keepsFixed s _
  | dbtrap =>
    split
    · exact withDir_keepsFixed (enter_keepsFixed s _) _
    · exact enter_keepsFixed s _

theorem keepProgress_keepsFixed (s : State) (w : Watch) : KeepsFixed s (s.keepProgress w) :=
  ⟨rfl, rfl⟩

theorem recordFb_keepsFixed (s : State) (w : Watch) : KeepsFixed s (s.recordFb w) := ⟨rfl, rfl⟩

theorem channelBreak_keepsFixed (s : State) (w : Watch) (dbpc : Word) :
    KeepsFixed s (s.channelBreak w dbpc) :=
  withDir_keepsFixed ((keepProgress_keepsFixed s w).trans (enter_keepsFixed _ _)) _

theorem afterAccesses_keepsFixed (s : State) (es : List BusEvent) :
    KeepsFixed s (s.afterAccesses es) := by
  unfold State.afterAccesses
  dsimp only
  split
  · exact channelBreak_keepsFixed s _ _
  · exact keepProgress_keepsFixed s _

theorem fetchBreak_keepsFixed (s : State) (w : Watch) : KeepsFixed s (s.fetchBreak w) :=
  (recordFb_keepsFixed s w).trans (channelBreak_keepsFixed _ w s.pc)

theorem removeRequest_keepsFixed (s : State) (r : Request) : KeepsFixed s (s.removeRequest r) := by
  match r with
  | .nmi .nmi0 | .nmi .nmi1 | .nmi .nmi2 | .int _ => exact ⟨rfl, rfl⟩

theorem accept_keepsFixed (s : State) (r : Request) : KeepsFixed s (s.accept r) :=
  (removeRequest_keepsFixed s r).trans (enter_keepsFixed _ _)

theorem afterFetch_keepsFixed (s : State) (code : List Half) : KeepsFixed s (afterFetch s code) :=
  ⟨rfl, rfl⟩

theorem finishInstruction_keepsFixed (s t : State) : KeepsFixed t (s.finishInstruction t) :=
  ⟨rfl, rfl⟩

/-- Whatever a step did, the platform is kept and the count not yet taken. -/
theorem Ran.keepsFixed (h : Ran s u) : KeepsFixed s u := by
  cases h with
  | single => exact (enter_keepsFixed s _).trans ⟨rfl, rfl⟩
  | accept r => exact accept_keepsFixed s r
  | wait => exact ⟨rfl, rfl⟩
  | fetchBreak code => exact fetchBreak_keepsFixed s _
  | illegal code =>
    exact ((afterFetch_keepsFixed s code).trans (enter_keepsFixed _ _)).trans
      (finishInstruction_keepsFixed _ _)
  | instr code rest i t _ _ _ ht =>
    exact (((afterFetch_keepsFixed s code).trans (exec_keepsFixed ht)).trans
      (afterAccesses_keepsFixed t _)).trans (finishInstruction_keepsFixed _ _)

end

/-- Settles O12: every way a step can go keeps the platform and the count, and nextTick adds one. -/
theorem platformFixed : Obligations.PlatformFixed := by
  unfold Obligations.PlatformFixed
  intro s t h
  obtain ⟨u, rfl, hu⟩ := step_ran h
  obtain ⟨hplatform, htick⟩ := hu.keepsFixed
  exact ⟨hplatform, congrArg (· + 1) htick⟩

end Sys2Proof.Safety
end

section
/-! SUPPORT. The invariant across what one step can do (10_state.md R21 to R60): the marks a break puts
in DIR, the entry sequences, the plain changes, the returns, LDSR, and the comparators. -/

namespace Sys2Proof.Safety

open Sys2Proof.Machine

/-! ## Marks in DIR -/

/-- `d'` is `d` with marks that none of the interlocks of DIR speaks of (10_state.md R51, R53): DM and the
records of causes, the BT bits only while INI is 0. -/
structure DirMarked (d d' : Word) : Prop where
  within : Within dirBits d → Within dirBits d'
  ini : (d.getLsbD Dir.ini = true → d &&& dirGroup = 0#32) →
    d'.getLsbD Dir.ini = true → d' &&& dirGroup = 0#32
  sse : d'.getLsbD Dir.sse = d.getLsbD Dir.sse
  sq0 : d'.getLsbD Dir.sq0 = d.getLsbD Dir.sq0
  sq1 : d'.getLsbD Dir.sq1 = d.getLsbD Dir.sq1

theorem DirMarked.refl (d : Word) : DirMarked d d := ⟨id, id, rfl, rfl, rfl⟩

/-- The INI group is 0, bit by bit. -/
theorem dirGroup_zero_iff (d : Word) :
    d &&& dirGroup = 0#32 ↔ ∀ k < 32, dirGroup.getLsbD k = true → d.getLsbD k = false := by
  have h := within_iff (~~~dirGroup) d
  rw [Within, BitVec.not_not] at h
  rw [h]
  refine forall₂_congr fun k hk => ?_
  simp [hk]

/-- A DIR that agrees with `d` but for named bits apart from INI, SSE and SQ, and apart from the INI group
while INI is 1. -/
theorem DirMarked.of_agree {d d' : Word} (marks : List Nat)
    (hmarks : ∀ k ∈ marks, dirBits.getLsbD k = true ∧ k ∉ [Dir.ini, Dir.sse, Dir.sq0, Dir.sq1])
    (hgroup : d.getLsbD Dir.ini = true → ∀ k ∈ marks, dirGroup.getLsbD k = false)
    (h : ∀ k < 32, k ∉ marks → d'.getLsbD k = d.getLsbD k) : DirMarked d d' := by
  have same : ∀ k < 32, k ∈ [Dir.ini, Dir.sse, Dir.sq0, Dir.sq1] → d'.getLsbD k = d.getLsbD k :=
    fun k hk hin => h k hk fun hm => (hmarks k hm).2 hin
  refine ⟨fun hd => ?_, fun hd hini => ?_, same _ (by decide) (by simp),
    same _ (by decide) (by simp), same _ (by decide) (by simp)⟩
  · rw [within_iff] at hd ⊢
    intro k hk hout
    rw [h k hk fun hm => by simp [(hmarks k hm).1] at hout]
    exact hd k hk hout
  · rw [same _ (by decide) (by simp)] at hini
    rw [dirGroup_zero_iff] at hd ⊢
    intro k hk hin
    rw [h k hk fun hm => by simp [hgroup hini k hm] at hin]
    exact hd hini k hk hin

/-- DM and the records of causes AT, MT and STT. -/
theorem DirMarked.putBit (d : Word) {i : Nat} (v : Bool)
    (hi : i ∈ [Dir.dm, Dir.alignErr, Dir.mt, Dir.stt]) : DirMarked d (putBit d i v) := by
  have hbits : ∀ j ∈ [Dir.dm, Dir.alignErr, Dir.mt, Dir.stt], j < 32 ∧ dirBits.getLsbD j = true
      ∧ j ∉ [Dir.ini, Dir.sse, Dir.sq0, Dir.sq1] ∧ dirGroup.getLsbD j = false := by decide
  obtain ⟨hlt, hdir, hapart, hgroup⟩ := hbits i hi
  refine .of_agree [i] (List.forall_mem_singleton.2 ⟨hdir, hapart⟩)
    (fun _ => List.forall_mem_singleton.2 hgroup) fun k _ hk => ?_
  rw [putBit_getLsbD _ _ _ _ hlt, if_neg (by simpa using hk)]

/-- The BT bits: no mark is put while INI is 1. -/
theorem DirMarked.markBreaks (d : Word) (w : Watch) : DirMarked d (markBreaks d w) := by
  cases hini : d.getLsbD Dir.ini with
  | true =>
    rw [Machine.markBreaks, if_pos hini]
    exact .refl d
  | false =>
    refine .of_agree [Dir.bt0, Dir.bt1, Dir.bt2, Dir.bt3] (by decide) (by simp [hini])
      fun k _ hk => ?_
    rw [Bool.eq_iff_iff, markBreaks_getLsbD]
    have hbt : ∀ n, btBit n ∈ [Dir.bt0, Dir.bt1, Dir.bt2, Dir.bt3] := by decide
    exact or_iff_left fun ⟨_, n, hn, _⟩ => hk (hn ▸ hbt n)

/-- CSL, the one bit an LDSR to DIR writes in user mode. -/
theorem DirMarked.csl (d v : Word) : DirMarked d (mergeBits 0x00400000#32 d v) := by
  have hbit : ∀ k < 32, (0x00400000#32).getLsbD k = decide (k = Dir.csl) := by decide
  refine .of_agree [Dir.csl] (by decide) (fun _ => by decide) fun k hk hne => ?_
  rw [mergeBits_getLsbD, hbit k hk, if_neg (by simpa using hne)]

section
variable {s t : State}

/-- Marks in DIR keep the invariant; they may leave user mode, so no single-step break may be due. -/
theorem withDir_inv {d : Word} (hi : Inv s) (hdue : s.stepDue = false) (hd : DirMarked s.dir d) :
    Inv { s with dir := d } :=
  { hi with
    dir := hd.within hi.dir
    sse := fun h => hi.sse (hd.sse.symm.trans h)
    ini := hd.ini hi.ini
    seq0 := fun h => hd.sq0.trans (hi.seq0 h)
    seq1 := fun h => hd.sq1.trans (hi.seq1 h)
    stepDue := fun h => by simp [hdue] at h }

/-! ## Entries -/

/-- An entry leaves DIR as it was but for DM. -/
theorem enter_dirMarked (s : State) (e : Entry) : DirMarked s.dir (s.enter e).dir := by
  rw [State.enter_dir]
  split
  · exact .putBit _ _ (by simp)
  · exact .refl _

/-- An entry sequence that sets none of PSW but NP, EP and ID, as all do, keeps the invariant. -/
theorem enter_keepsInv {e : Entry} (hi : Inv s) (hdue : s.stepDue = false)
    (hset : Within (Psw.npBit ||| Psw.epBit ||| Psw.idBit) e.setBits) : Inv (s.enter e) :=
  have hd := enter_dirMarked s e
  have hss := (within_iff _ _).1 hset Psw.ss (by decide) (by decide)
  enter_inv e hdue hi (within_mono hset (by decide)) hss
    (hd.within hi.dir) (hd.ini hi.ini) hd.sse hd.sq0 hd.sq1 rfl

/-- An entry to debug mode and the marks of its cause keep the invariant. -/
theorem debugEntry_inv {pc d : Word} {wake : Bool} (hi : Inv s) (hdue : s.stepDue = false)
    (hd : DirMarked (s.enter (debugEntry pc wake)).dir d) :
    Inv { s.enter (debugEntry pc wake) with dir := d } :=
  withDir_inv (enter_keepsInv hi hdue (by dsimp only [debugEntry]; decide))
    ((State.enter_stepDue s _).trans hdue) hd

theorem misalignBreak_inv (hi : Inv s) (hdue : s.stepDue = false) : Inv s.misalignBreak :=
  debugEntry_inv hi hdue (.putBit _ _ (by simp))

theorem alignErrorBreak_inv (hi : Inv s) (hdue : s.stepDue = false) : Inv s.alignErrorBreak :=
  debugEntry_inv hi hdue (.putBit _ _ (by simp))

/-- The single-step break is a debug break of the state in which it is no longer due. -/
theorem singleStepBreak_inv (hi : Inv s) : Inv s.singleStepBreak := by
  have hoff : Inv { s with stepDue := false } := { hi with stepDue := fun h => by cases h }
  exact debugEntry_inv (pc := s.pc) (wake := true) hoff rfl (.refl _)

theorem removeRequest_inv (hi : Inv s) (r : Request) : Inv (s.removeRequest r) := by
  match r with
  | .nmi .nmi0 | .nmi .nmi1 | .nmi .nmi2 | .int _ => exact { hi with }

theorem removeRequest_stepDue (s : State) (r : Request) :
    (s.removeRequest r).stepDue = s.stepDue := by
  match r with
  | .nmi .nmi0 | .nmi .nmi1 | .nmi .nmi2 | .int _ => rfl

theorem accept_inv (hi : Inv s) (hdue : s.stepDue = false) (r : Request) : Inv (s.accept r) := by
  have hr := removeRequest_inv hi r
  have hrdue := (removeRequest_stepDue s r).trans hdue
  cases r with
  | nmi line =>
    exact enter_keepsInv hr hrdue (by dsimp only [State.requestEntry, nmiEntry]; decide)
  | int code =>
    exact enter_keepsInv hr hrdue (by dsimp only [State.requestEntry, intEntry]; decide)

/-! ## Instructions -/

/-- A plain change touches of PSW the bits below 6 alone, all of which PSW has. -/
theorem Plain.inv {b : Bool} (h : Plain b s t) (hi : Inv s) : Inv t := by
  have hlow : ∀ k < 6, Psw.mask.getLsbD k = true := by decide
  have hpsw : Within Psw.mask t.psw := by
    rw [within_iff]
    intro k hk hm
    have h6 : 6 ≤ k := by
      by_contra hlt
      simp [hlow k (by omega)] at hm
    rw [h.psw6 k h6]
    exact (within_iff _ _).1 hi.psw k hk hm
  rw [h.rest]
  exact
    { hi with
      mem := h.memwf hi.mem
      pc := h.pcw hi.pc
      zero := h.zero.trans hi.zero
      psw := hpsw
      sse := fun hs => (h.psw6 Psw.ss (by decide)).trans (hi.sse hs) }

theorem save_inv (hi : Inv s) (bank : SaveBank) (pc : Word) : Inv (s.save bank pc) := by
  cases bank with
  | ei => exact { hi with eipc := within_and _ _, eipsw := within_and _ _ }
  | fe => exact { hi with fepc := within_and _ _, fepsw := within_and _ _ }
  | ct => exact { hi with ctpc := within_and _ _, ctpsw := within_and _ _ }
  | db => exact { hi with dbpc := within_and _ _, dbpsw := within_and _ _ }

/-- A whole write of PSW (10_state.md R28, R53 (d)). -/
theorem setPsw_inv (hi : Inv s) (v : Word) : Inv (s.setPsw v) :=
  { hi with psw := legalPsw_within _ _, sse := legalPsw_ss }

theorem returnFrom_inv (hi : Inv s) (bank : SaveBank) : Inv (s.returnFrom bank) :=
  { setPsw_inv hi (s.savedPsw bank) with pc := within_and _ _ }

/-! ## LDSR -/

/-- An LDSR leaves what is no register it can write (49_special_debug.md R365). -/
theorem writeSysreg_rest {r : SysReg} {v : Word} (h : s.writeSysreg r v = .ok t) :
    t = { s with
      eipc := t.eipc, eipsw := t.eipsw, fepc := t.fepc, fepsw := t.fepsw, psw := t.psw
      ctpc := t.ctpc, ctpsw := t.ctpsw, dbpc := t.dbpc, dbpsw := t.dbpsw, ctbp := t.ctbp
      dir := t.dir, asid := t.asid, channels := t.channels, seq0 := t.seq0, seq1 := t.seq1 } := by
  cases r with
  | ecr => cases h
  | dir =>
    cases h
    unfold State.writeDir
    split
    · rfl
    · rfl
  | bpc =>
    rw [State.writeSysreg] at h
    split at h
    · cases h; rfl
    · cases h
  | _ => cases h; rfl

/-- DIR after an LDSR in debug mode has its named bits only, and its INI group is 0 with INI
(10_state.md R51, R53 (a); 49_special_debug.md R365). -/
theorem debugWriteDir_legal {d : Word} (h : Within dirBits d) (v : Word) :
    Within dirBits (debugWriteDir d v)
      ∧ ((debugWriteDir d v).getLsbD Dir.ini = true → debugWriteDir d v &&& dirGroup = 0#32) := by
  have hnamed : ∀ k < 32, dirBits.getLsbD k = false →
      k ∉ [6, 7, 8, 9, 10, 22] ∧ k ∉ [12, 13, 14, 28, 29, 30] ∧ k ∉ [4, 5, 20, 21]
        ∧ k ∉ [1, 2, 16] := by decide
  have hgroup : ∀ k < 32, dirGroup.getLsbD k = true → k ∉ [6, 7, 8, 9, 10, 22]
      ∧ (k ∉ [12, 13, 14, 28, 29, 30] → k ∈ [4, 5, 20, 21]) := by decide
  refine ⟨?_, fun hini => ?_⟩
  · rw [within_iff] at h ⊢
    intro k hk hout
    obtain ⟨h1, h2, h3, h4⟩ := hnamed k hk hout
    rw [debugWriteDir_getLsbD _ _ _ hk, if_neg h1, if_neg h2, if_neg h3, if_neg h4]
    exact h k hk hout
  · rw [debugWriteDir_getLsbD _ _ _ (by decide), if_pos (by simp)] at hini
    rw [dirGroup_zero_iff]
    intro k hk hin
    obtain ⟨h1, h3⟩ := hgroup k hk hin
    rw [debugWriteDir_getLsbD _ _ _ hk, if_neg h1]
    split
    · simp [hini]
    · rename_i h2
      simp [h3 h2, hini]

/-- PSW after an LDSR to DIR in debug mode: SS is cleared with SSE (10_state.md R53 (d)). -/
theorem clearSs_within {p : Word} (h : Within Psw.mask p) :
    Within Psw.mask (putBit p Psw.ss false) := by
  rw [within_iff] at h ⊢
  intro k hk hout
  rw [putBit_getLsbD _ _ _ _ (by decide)]
  split
  · rfl
  · exact h k hk hout

/-- An LDSR to DIR keeps the interlocks of DIR with PSW and with the sequential progress. -/
theorem writeDir_inv (hi : Inv s) (hdue : s.stepDue = false) (v : Word) : Inv (s.writeDir v) := by
  unfold State.writeDir
  split
  · exact withDir_inv hi hdue (.csl _ _)
  · obtain ⟨hdir, hini⟩ := debugWriteDir_legal hi.dir v
    refine
      { hi with
        dir := hdir
        ini := hini
        psw := ?_
        sse := fun hs => ?_
        seq0 := fun h => (Bool.and_eq_true_iff.1 h).2
        seq1 := fun h => (Bool.and_eq_true_iff.1 h).2
        stepDue := fun h => by simp [hdue] at h }
    · dsimp only
      split
      · exact hi.psw
      · exact clearSs_within hi.psw
    · dsimp only at hs ⊢
      rw [if_neg (by simp [hs]), putBit_getLsbD _ _ _ _ (by decide), if_pos rfl]

/-- Bits put together. -/
theorem within_or {m v w : Word} (hv : Within m v) (hw : Within m w) : Within m (v ||| w) := by
  rw [within_iff] at *
  intro k hk hm
  rw [BitVec.getLsbD_or, hv k hk hm, hw k hk hm, Bool.or_self]

/-- A BPCn that LDSR writes has its named bits and, as FB bits are only cleared, a listed FB (10_state.md
R54; 49_special_debug.md R365). -/
theorem writtenBpc_inv {ch : BreakChannel} (h : ChannelInv ch) (v : Word) :
    ChannelInv { ch with bpc := writtenBpc ch.bpc v } := by
  have hfb : ∀ old new : BitVec 3, old ∈ [0b000#3, 0b010#3, 0b100#3, 0b001#3] →
      old &&& new ∈ [0b000#3, 0b010#3, 0b100#3, 0b001#3] := by decide
  have hext : (writtenBpc ch.bpc v).extractLsb' 24 3
      = ch.bpc.extractLsb' 24 3 &&& v.extractLsb' 24 3 := by
    ext j hj
    have hfbMask : ∀ j < 3, (0x07000000#32).getLsbD (24 + j) = true
        ∧ (0x00FF8F9F#32).getLsbD (24 + j) = false := by decide
    obtain ⟨hin, hout⟩ := hfbMask j hj
    simp only [writtenBpc, BitVec.getElem_extractLsb', BitVec.getElem_and, BitVec.getLsbD_or,
      BitVec.getLsbD_and, hin, hout, Bool.and_true, Bool.and_false, Bool.or_false]
  refine ⟨?_, ?_, h.bpav, h.bpam⟩
  · exact within_or (within_mono (within_and _ _) (by decide))
      (within_mono (within_and _ _) (by decide))
  · dsimp only
    rw [hext]
    exact hfb _ _ h.fb

/-- An LDSR keeps the invariant. -/
theorem writeSysreg_inv {r : SysReg} {v : Word} (hi : Inv s) (hdue : s.stepDue = false)
    (h : s.writeSysreg r v = .ok t) : Inv t := by
  have hch : ChannelInv s.channel := hi.channels (channelOf s.dir)
  cases r with
  | ecr => cases h
  | eipc => cases h; exact { hi with eipc := within_and _ _ }
  | eipsw => cases h; exact { hi with eipsw := within_and _ _ }
  | fepc => cases h; exact { hi with fepc := within_and _ _ }
  | fepsw => cases h; exact { hi with fepsw := within_and _ _ }
  | psw => cases h; exact setPsw_inv hi v
  | ctpc => cases h; exact { hi with ctpc := within_and _ _ }
  | ctpsw => cases h; exact { hi with ctpsw := within_and _ _ }
  | dbpc => cases h; exact { hi with dbpc := within_and _ _ }
  | dbpsw => cases h; exact { hi with dbpsw := within_and _ _ }
  | ctbp => cases h; exact { hi with ctbp := within_and _ _ }
  | dir => cases h; exact writeDir_inv hi hdue v
  | bpc =>
    rw [State.writeSysreg] at h
    split at h
    · cases h; exact setChannel_inv hi _ (writtenBpc_inv hch v)
    · cases h
  | asid => cases h; exact { hi with asid := within_and _ _ }
  | bpav => cases h; exact setChannel_inv hi _ { hch with bpav := within_and _ _ }
  | bpam => cases h; exact setChannel_inv hi _ { hch with bpam := within_and _ _ }
  | bpdv | bpdm => cases h; exact setChannel_inv hi _ { hch with }

/-- An instruction does not make a single-step break due; the end of its step does. -/
theorem exec_stepDue {i : Instr} (h : exec i s = .next t) : t.stepDue = s.stepDue := by
  cases exec_effect h with
  | plain hp => rw [hp.rest]
  | misalign | alignError | halt | trap | reti | ctret | dbret => rfl
  | callt => simp
  | ldsr reg2 regID r u _ hu => rw [State.advance_stepDue, writeSysreg_rest hu]
  | dbtrap =>
    split
    · rfl
    · rfl

/-- An instruction keeps the invariant, run where no single-step break is due. -/
theorem exec_inv {i : Instr} (hi : Inv s) (hdue : s.stepDue = false) (h : exec i s = .next t) :
    Inv t := by
  cases exec_effect h with
  | plain hp => exact hp.inv hi
  | misalign => exact misalignBreak_inv hi hdue
  | alignError => exact alignErrorBreak_inv hi hdue
  | callt imm6 v => exact (Plain.refl.setPc (b := false) _).inv (save_inv hi .ct (s.pcAfter 2))
  | halt => exact { (Plain.refl.advance (b := false) 4).inv hi with }
  | ldsr reg2 regID r u _ hu =>
    exact (Plain.refl.advance (b := false) 4).inv (writeSysreg_inv hi hdue hu)
  | trap vector => exact enter_keepsInv hi hdue (by dsimp only [trapEntry]; decide)
  | reti | ctret => exact returnFrom_inv hi _
  | dbret => exact withDir_inv (returnFrom_inv hi .db) hdue (.putBit _ _ (by simp))
  | dbtrap =>
    split
    · exact debugEntry_inv hi hdue (.putBit _ _ (by simp))
    · exact debugEntry_inv hi hdue (.refl _)

/-! ## Breakpoints -/

/-- The sequential progress the comparators leave is in sequential mode. -/
theorem keepProgress_inv (hi : Inv s) (es : List BusEvent) : Inv (s.keepProgress (s.watch es)) :=
  { hi with seq0 := (watch_seq s hi es).1, seq1 := (watch_seq s hi es).2 }

/-- A debug break with the BT bits of the channels that broke. -/
theorem channelBreak_inv {w : Watch} (hi : Inv (s.keepProgress w)) (hdue : s.stepDue = false)
    (dbpc : Word) : Inv (s.channelBreak w dbpc) :=
  debugEntry_inv hi hdue (.markBreaks _ w)

/-- The FB fields a fetch break records are listed ones. -/
theorem recordFb_inv (hi : Inv s) (w : Watch) : Inv (s.recordFb w) := by
  refine { hi with channels := fun n => ?_ }
  rw [recordFb_channel]
  split
  · exact withFb_inv (hi.channels n) _
  · exact hi.channels n

theorem fetchBreak_inv (hi : Inv s) (hdue : s.stepDue = false) (es : List BusEvent) :
    Inv (s.fetchBreak (s.watch es)) :=
  channelBreak_inv (s := s.recordFb (s.watch es))
    (recordFb_inv (keepProgress_inv hi es) (s.watch es)) hdue s.pc

theorem afterAccesses_inv (hi : Inv s) (hdue : s.stepDue = false) (es : List BusEvent) :
    Inv (s.afterAccesses es) := by
  have hk := keepProgress_inv hi es
  unfold State.afterAccesses
  dsimp only
  split
  · exact channelBreak_inv hk hdue s.pc
  · exact hk

/-! ## Steps -/

/-- The single-step break comes due in user mode only. -/
theorem finishInstruction_inv (hi : Inv t) (s : State) : Inv (s.finishInstruction t) :=
  { hi with stepDue := fun h => (Bool.and_eq_true_iff.1 h).2 }

/-- Whatever a step did, it kept the invariant. -/
theorem Ran.inv (h : Ran s t) (hi : Inv s) : Inv t := by
  cases h with
  | single => exact singleStepBreak_inv hi
  | accept r hdue => exact accept_inv hi hdue r
  | wait => exact { hi with }
  | fetchBreak code hdue => exact fetchBreak_inv hi hdue _
  | illegal code hdue =>
    exact finishInstruction_inv (debugEntry_inv (keepProgress_inv hi _) hdue (.refl _)) _
  | instr code rest i u hdue _ _ hu =>
    have hu_due : u.stepDue = false := (exec_stepDue hu).trans hdue
    exact finishInstruction_inv
      (afterAccesses_inv (exec_inv (keepProgress_inv hi _) hdue hu) hu_due _) _

end

/-- Settles O8: every way a step can go keeps the invariant, and nextTick touches none of it. -/
theorem stepKeepsInv : Obligations.StepKeepsInv := by
  unfold Obligations.StepKeepsInv
  intro s t hi h
  obtain ⟨u, rfl, hu⟩ := step_ran h
  exact { hu.inv hi with }

/-- Every breakpoint channel is as its reset leaves it. -/
theorem reset_channel (n : Fin 4) : State.reset.channels[n.val] = BreakChannel.reset :=
  Vector.getElem_replicate n.isLt

/-- Settles O9: every register is 0 after reset but PSW, whose ID is set, and DIR, whose INI is set. -/
theorem resetHasInv : Obligations.ResetHasInv where
  mem := rfl
  pc := rfl
  zero := rfl
  psw := rfl
  eipsw := rfl
  fepsw := rfl
  ctpsw := rfl
  dbpsw := rfl
  eipc := rfl
  fepc := rfl
  ctpc := rfl
  dbpc := rfl
  ctbp := rfl
  asid := rfl
  dir := rfl
  sse := fun _ => rfl
  ini := fun _ => rfl
  seq0 := fun h => by cases h
  seq1 := fun h => by cases h
  stepDue := fun h => by cases h
  channels := fun n => by
    rw [reset_channel]
    exact ⟨rfl, by decide, rfl, rfl⟩

end Sys2Proof.Safety
end

section
/-! SUPPORT. What no instruction but a few writes of PSW.SAT and of ECR (10_state.md R29, R40). -/

namespace Sys2Proof.Safety

open Sys2Proof.Machine

section
variable {s t : State}

/-- An entry sequence clears EP at most (60_exceptions.md R420 to R428). -/
theorem enter_sat {e : Entry} (hclear : e.clearBits.getLsbD Psw.sat = false)
    (h : s.psw.getLsbD Psw.sat = true) : (s.enter e).psw.getLsbD Psw.sat = true := by
  rw [State.enter_psw, enteredPsw_getLsbD _ _ _ _ (by decide), if_neg (by simp), h, hclear]
  rfl

/-- PSW is the register of regID 5 alone (10_state.md R34). -/
theorem ofId_psw {regID : BitVec 5} (h : SysReg.ofId regID = some .psw) : regID = 5#5 := by
  revert regID
  decide

/-- An LDSR to another register than PSW leaves SAT: one to DIR may clear SS, no more. -/
theorem writeSysreg_sat {r : SysReg} {v : Word} (h : s.writeSysreg r v = .ok t) (hr : r ≠ .psw) :
    t.psw.getLsbD Psw.sat = s.psw.getLsbD Psw.sat := by
  cases r with
  | psw => exact absurd rfl hr
  | ecr => cases h
  | dir =>
    cases h
    unfold State.writeDir
    split
    · rfl
    · dsimp only
      split
      · rfl
      · rw [putBit_getLsbD _ _ _ _ (by decide), if_neg (by decide)]
  | bpc =>
    rw [State.writeSysreg] at h
    split at h
    · cases h; rfl
    · cases h
  | _ => cases h; rfl

end

/-- Settles O15: a plain change keeps SAT, an entry does not clear it, LDSR to another register than PSW
leaves it, and the returns are excepted. -/
theorem satCumulative : Obligations.SatCumulative := by
  unfold Obligations.SatCumulative
  intro i s t h hclears hsat
  cases exec_effect h with
  | plain hp => exact hp.sat hsat
  | misalign | alignError => exact enter_sat (by simp [debugEntry]) hsat
  | callt => simpa using hsat
  | halt => exact hsat
  | ldsr reg2 regID r u hr hu =>
    have hne : r ≠ .psw := by
      rintro rfl
      simp [clearsSat, ofId_psw hr] at hclears
    rw [State.advance_psw, writeSysreg_sat hu hne]
    exact hsat
  | trap => exact enter_sat (by simp [trapEntry]) hsat
  | reti | ctret | dbret => cases hclears
  | dbtrap =>
    split
    · exact enter_sat (e := debugEntry _ _) (by simp [debugEntry]) hsat
    · exact enter_sat (by simp [debugEntry]) hsat

/-- Settles O16: of the entries an instruction can run, TRAP's alone carries a code; LDSR to ECR is
prohibited. -/
theorem ecrWriters : Obligations.EcrWriters := by
  unfold Obligations.EcrWriters
  intro i s t h htrap
  cases exec_effect h with
  | plain hp => rw [hp.rest]
  | misalign | alignError | halt | reti | ctret | dbret => rfl
  | callt => simp
  | ldsr reg2 regID r u _ hu => rw [State.advance_ecr, writeSysreg_rest hu]
  | trap vector => exact absurd rfl (htrap vector)
  | dbtrap =>
    split
    · rfl
    · rfl

end Sys2Proof.Safety
end

section
/-! SUPPORT. What a system reset leaves (10_state.md R60), the conditions of a PSW (R30) and the breakpoint
channel that DIR selects (R52). -/

namespace Sys2Proof.Safety

open Sys2Proof.Machine

/-- Settles O11: a system reset leaves the state of the reset with memory and the platform of before. -/
theorem resetValues : Obligations.ResetValues := by
  unfold Obligations.ResetValues
  intro s
  have hbpc : ∀ n : Fin 4,
      (s.environment .systemReset).channels[n.val].bpc &&& 0xFF00707F#32 = 0#32 := fun n => by
    show State.reset.channels[n.val].bpc &&& _ = _
    rw [reset_channel]
    rfl
  have hchosen : (s.environment .systemReset).chosen = none := rfl
  exact ⟨rfl, rfl, rfl, rfl, State.reg_zero _, rfl, rfl, rfl, hbpc, rfl, rfl, rfl, rfl,
    fun _ => rfl, rfl, rfl, rfl, rfl, hchosen⟩

/-- Settles O24: each code names the condition whose expression the table gives. -/
theorem conditionTable : Obligations.ConditionTable := by
  unfold Obligations.ConditionTable
  intro psw
  exact ⟨rfl, rfl, rfl, rfl, rfl, rfl, rfl, rfl, rfl, rfl, rfl, rfl, rfl, rfl, rfl, rfl⟩

/-- While CSL is 0, CS0 selects (10_state.md R52). -/
theorem channelOf_low {dir : Word} (h : dir.getLsbD Dir.csl = false) :
    channelOf dir = if dir.getLsbD Dir.cs0 then 1 else 0 := by
  unfold channelOf
  rw [h, if_neg (by simp)]

/-- While CSL is 1, CS1 selects (10_state.md R52). -/
theorem channelOf_high {dir : Word} (h : dir.getLsbD Dir.csl = true) :
    channelOf dir = if dir.getLsbD Dir.cs1 then 3 else 2 := by
  unfold channelOf
  rw [h, if_pos rfl]

/-- Settles O45: CSL decides the pair, and then its own bit the channel. -/
theorem channelSelection : Obligations.ChannelSelection := by
  unfold Obligations.ChannelSelection
  intro dir
  refine ⟨fun hcsl hcs => ?_, fun hcsl hcs => ?_, fun hcsl hcs => ?_, fun hcsl hcs => ?_⟩
  · rw [channelOf_low hcsl, hcs, if_neg (by simp)]
  · rw [channelOf_low hcsl, hcs, if_pos rfl]
  · rw [channelOf_high hcsl, hcs, if_neg (by simp)]
  · rw [channelOf_high hcsl, hcs, if_pos rfl]

end Sys2Proof.Safety
end

section
/-! SUPPORT. The uses the manual prohibits, and the fault each stops with (10_state.md R34;
41_multiply_mac.md R201, R203; 49_special_debug.md R365, R366; 60_exceptions.md R460). -/

namespace Sys2Proof.Safety

open Sys2Proof.Machine

section
variable {s : State}

/-! ## System registers -/

/-- The reserved numbers name no register. -/
theorem ofId_reserved {regID : BitVec 5}
    (h : (6 ≤ regID.toNat ∧ regID.toNat ≤ 15) ∨ 28 ≤ regID.toNat) : SysReg.ofId regID = none := by
  revert regID
  decide

theorem ldsr_reserved {regID : BitVec 5} (h : SysReg.ofId regID = none) (reg2 : Reg) :
    exec (.ldsr reg2 regID) s = .fault .prohibitedSysreg := by
  show execLdsr reg2 regID s = _
  unfold execLdsr
  rw [h]

theorem stsr_reserved {regID : BitVec 5} (h : SysReg.ofId regID = none) (reg2 : Reg) :
    exec (.stsr regID reg2) s = .fault .prohibitedSysreg := by
  show execStsr regID reg2 s = _
  unfold execStsr
  rw [h]

/-- LDSR answers the fault of the register's write. -/
theorem ldsr_fault {regID : BitVec 5} {r : SysReg} {reg2 : Reg} {f : Fault}
    (hr : SysReg.ofId regID = some r) (hf : s.writeSysreg r (s.reg reg2) = .error f) :
    exec (.ldsr reg2 regID) s = .fault f := by
  show execLdsr reg2 regID s = _
  unfold execLdsr
  rw [hr]
  dsimp only
  rw [hf]

theorem writeSysreg_bpc_prohibited {v : Word} (h : v &&& bpcMustBeZero ≠ 0#32) :
    s.writeSysreg .bpc v = .error .prohibitedSysreg := by
  unfold State.writeSysreg
  dsimp only
  rw [if_neg h]

/-! ## MUL and MULU -/

theorem prohibitedMul_of {reg1 reg2 : Reg} (hne : reg1 ≠ reg2) (h0 : reg1 ≠ 0#5) :
    prohibitedMul reg1 reg2 reg1 = true := by
  simp [prohibitedMul, hne, h0]

/-! ## Breakpoint settings -/

/-- A prohibited channel that takes part is a prohibited setting. -/
theorem prohibitedSetting_of_channel {n : Fin 4} (hn : TakesPart s n)
    (hch : prohibitedChannel s.channels[n.val] = true) : s.prohibitedSetting = true := by
  obtain ⟨huser, hmodelled, hext⟩ := hn
  have hactive : s.breakpointsActive = true := by simp [State.breakpointsActive, huser, hmodelled]
  rw [State.prohibitedSetting, hactive, Bool.true_and]
  match n with
  | 0 => simp [show prohibitedChannel s.channels[0] = true from hch]
  | 1 => simp [show prohibitedChannel s.channels[1] = true from hch]
  | 2 => simp [show prohibitedChannel s.channels[2] = true from hch, hext (by decide)]
  | 3 => simp [show prohibitedChannel s.channels[3] = true from hch, hext (by decide)]

/-- A step at a ready state stops at a prohibited setting once its code is fetched. -/
theorem step_prohibitedSetting {code : List Half} (hready : Ready s) (hfetch : s.fetch = .ok code)
    (hset : s.prohibitedSetting = true) : step s = .fault .prohibitedBreakSetting := by
  have hrun : s.runInstruction = .fault .prohibitedBreakSetting := by
    unfold State.runInstruction
    rw [hfetch]
    dsimp only
    unfold State.runCode
    rw [if_pos hset]
  rw [ready_step hready, hrun]

end

/-- Settles O49: each prohibited use meets the check its instruction, or the step, makes first. -/
theorem prohibitedUses : Obligations.ProhibitedUses := by
  unfold Obligations.ProhibitedUses
  intro s
  refine ⟨fun reg2 regID h => ?_, fun reg2 => ldsr_fault rfl rfl, fun reg2 h => ?_,
    fun reg1 reg2 hne h0 => ?_, fun code n hready hfetch hpart hbe hfe hrw => ?_⟩
  · have hnone := ofId_reserved h
    exact ⟨ldsr_reserved hnone reg2, stsr_reserved hnone reg2⟩
  · exact ldsr_fault rfl (writeSysreg_bpc_prohibited h)
  · have hmul := prohibitedMul_of hne h0
    exact ⟨if_pos hmul, if_pos hmul⟩
  · refine step_prohibitedSetting hready hfetch (prohibitedSetting_of_channel hpart ?_)
    unfold prohibitedChannel
    rw [hbe, hfe, Bool.true_and, Bool.true_and, Bool.or_eq_true]
    exact hrw

end Sys2Proof.Safety
end

section
/-! SUPPORT. The length rule over every instruction, and the fetch of code that lies at the PC
(20_memory.md R88, R110; 30_encoding.md R122). -/

namespace Sys2Proof.Laws

/-- The family CodeLength holds of every instruction. -/
theorem codeLength_encode : ∀ i, CodeLength.Statement i
  -- Format I
  | .nop => CodeLength.nop | .movReg _ _ => CodeLength.movReg _ _
  | .notReg _ _ => CodeLength.notReg _ _ | .divhReg _ _ => CodeLength.divhReg _ _
  | .switch _ => CodeLength.switch _ | .dbtrap => CodeLength.dbtrap
  | .jmpReg _ => CodeLength.jmpReg _ | .satsubr _ _ => CodeLength.satsubr _ _
  | .satsubReg _ _ => CodeLength.satsubReg _ _ | .sataddReg _ _ => CodeLength.sataddReg _ _
  | .mulhReg _ _ => CodeLength.mulhReg _ _ | .zxb _ => CodeLength.zxb _ | .sxb _ => CodeLength.sxb _
  | .zxh _ => CodeLength.zxh _ | .sxh _ => CodeLength.sxh _ | .orReg _ _ => CodeLength.orReg _ _
  | .xorReg _ _ => CodeLength.xorReg _ _ | .andReg _ _ => CodeLength.andReg _ _
  | .tst _ _ => CodeLength.tst _ _ | .subr _ _ => CodeLength.subr _ _
  | .sub _ _ => CodeLength.sub _ _ | .addReg _ _ => CodeLength.addReg _ _
  | .cmpReg _ _ => CodeLength.cmpReg _ _
  -- Format II
  | .movImm5 _ _ => CodeLength.movImm5 _ _ | .sataddImm5 _ _ => CodeLength.sataddImm5 _ _
  | .addImm5 _ _ => CodeLength.addImm5 _ _ | .cmpImm5 _ _ => CodeLength.cmpImm5 _ _
  | .callt _ => CodeLength.callt _ | .shrImm5 _ _ => CodeLength.shrImm5 _ _
  | .sarImm5 _ _ => CodeLength.sarImm5 _ _ | .shlImm5 _ _ => CodeLength.shlImm5 _ _
  | .mulhImm5 _ _ => CodeLength.mulhImm5 _ _
  -- Format III
  | .bcond _ _ => CodeLength.bcond _ _
  -- Format IV
  | .sldbu _ _ => CodeLength.sldbu _ _ | .sldhu _ _ => CodeLength.sldhu _ _
  | .sldb _ _ => CodeLength.sldb _ _ | .sstb _ _ => CodeLength.sstb _ _
  | .sldh _ _ => CodeLength.sldh _ _ | .ssth _ _ => CodeLength.ssth _ _
  | .sldw _ _ => CodeLength.sldw _ _ | .sstw _ _ => CodeLength.sstw _ _
  -- Format V
  | .jarl22 _ _ => CodeLength.jarl22 _ _ | .jr22 _ => CodeLength.jr22 _
  -- Format VI
  | .addi _ _ _ => CodeLength.addi _ _ _ | .movea _ _ _ => CodeLength.movea _ _ _
  | .movImm32 _ _ => CodeLength.movImm32 _ _ | .movhi _ _ _ => CodeLength.movhi _ _ _
  | .satsubi _ _ _ => CodeLength.satsubi _ _ _ | .ori _ _ _ => CodeLength.ori _ _ _
  | .xori _ _ _ => CodeLength.xori _ _ _ | .andi _ _ _ => CodeLength.andi _ _ _
  | .mulhi _ _ _ => CodeLength.mulhi _ _ _ | .jmpDisp32 _ _ => CodeLength.jmpDisp32 _ _
  | .jr32 _ => CodeLength.jr32 _ | .jarl32 _ _ => CodeLength.jarl32 _ _
  -- Format VII
  | .ldb _ _ _ => CodeLength.ldb _ _ _ | .ldh _ _ _ => CodeLength.ldh _ _ _
  | .ldw _ _ _ => CodeLength.ldw _ _ _ | .stb _ _ _ => CodeLength.stb _ _ _
  | .sth _ _ _ => CodeLength.sth _ _ _ | .stw _ _ _ => CodeLength.stw _ _ _
  | .ldbu _ _ _ => CodeLength.ldbu _ _ _ | .ldhu _ _ _ => CodeLength.ldhu _ _ _
  -- Format VIII
  | .set1Imm _ _ _ => CodeLength.set1Imm _ _ _ | .not1Imm _ _ _ => CodeLength.not1Imm _ _ _
  | .clr1Imm _ _ _ => CodeLength.clr1Imm _ _ _ | .tst1Imm _ _ _ => CodeLength.tst1Imm _ _ _
  -- Format IX
  | .setf _ _ => CodeLength.setf _ _ | .ldsr _ _ => CodeLength.ldsr _ _
  | .stsr _ _ => CodeLength.stsr _ _ | .shrReg _ _ => CodeLength.shrReg _ _
  | .sarReg _ _ => CodeLength.sarReg _ _ | .shlReg _ _ => CodeLength.shlReg _ _
  | .set1Reg _ _ => CodeLength.set1Reg _ _ | .not1Reg _ _ => CodeLength.not1Reg _ _
  | .clr1Reg _ _ => CodeLength.clr1Reg _ _ | .tst1Reg _ _ => CodeLength.tst1Reg _ _
  | .sasf _ _ => CodeLength.sasf _ _ | .sch0r _ _ => CodeLength.sch0r _ _
  | .sch1r _ _ => CodeLength.sch1r _ _ | .sch0l _ _ => CodeLength.sch0l _ _
  | .sch1l _ _ => CodeLength.sch1l _ _
  -- Format X
  | .trap _ => CodeLength.trap _ | .halt => CodeLength.halt | .reti => CodeLength.reti
  | .ctret => CodeLength.ctret | .dbret => CodeLength.dbret | .di => CodeLength.di
  | .ei => CodeLength.ei
  -- Format XI
  | .shr3 _ _ _ => CodeLength.shr3 _ _ _ | .sar3 _ _ _ => CodeLength.sar3 _ _ _
  | .shl3 _ _ _ => CodeLength.shl3 _ _ _ | .mul _ _ _ => CodeLength.mul _ _ _
  | .mulu _ _ _ => CodeLength.mulu _ _ _ | .divh3 _ _ _ => CodeLength.divh3 _ _ _
  | .divhu _ _ _ => CodeLength.divhu _ _ _ | .div _ _ _ => CodeLength.div _ _ _
  | .divu _ _ _ => CodeLength.divu _ _ _ | .cmov _ _ _ _ => CodeLength.cmov _ _ _ _
  | .sbf _ _ _ _ => CodeLength.sbf _ _ _ _ | .satsub3 _ _ _ => CodeLength.satsub3 _ _ _
  | .adf _ _ _ _ => CodeLength.adf _ _ _ _ | .satadd3 _ _ _ => CodeLength.satadd3 _ _ _
  | .mac _ _ _ _ => CodeLength.mac _ _ _ _ | .macu _ _ _ _ => CodeLength.macu _ _ _ _
  -- Format XII
  | .mulImm9 _ _ _ => CodeLength.mulImm9 _ _ _ | .muluImm9 _ _ _ => CodeLength.muluImm9 _ _ _
  | .cmovImm5 _ _ _ _ => CodeLength.cmovImm5 _ _ _ _ | .bsw _ _ => CodeLength.bsw _ _
  | .bsh _ _ => CodeLength.bsh _ _ | .hsw _ _ => CodeLength.hsw _ _ | .hsh _ _ => CodeLength.hsh _ _
  -- Format XIII
  | .dispose _ _ => CodeLength.dispose _ _ | .disposeJmp _ _ _ => CodeLength.disposeJmp _ _ _
  | .prepare _ _ => CodeLength.prepare _ _ | .prepareSp _ _ => CodeLength.prepareSp _ _
  | .prepareImm16 _ _ _ => CodeLength.prepareImm16 _ _ _
  | .prepareImm16Hi _ _ _ => CodeLength.prepareImm16Hi _ _ _
  | .prepareImm32 _ _ _ => CodeLength.prepareImm32 _ _ _

/-- A code of one halfword is two bytes long. -/
theorem codeLength_of_oneHalfword {h0 : Half} (h : oneHalfword h0 = true) (h1 : Half) :
    codeLength h0 h1 = 2 := if_pos h

/-- Every other code has a second halfword. -/
theorem four_le_codeLength {h0 : Half} (h : oneHalfword h0 = false) (h1 : Half) :
    4 ≤ codeLength h0 h1 := by
  unfold codeLength
  rw [if_neg (by simp [h])]
  split_ifs
  · exact le_rfl
  · decide
  · split <;> decide
  · exact le_rfl

/-- A halfword is its two bytes, the higher address first (20_memory.md R88). -/
theorem halfBytes_join (h : Half) : (h.extractLsb' 8 8 ++ h.extractLsb' 0 8 : Half) = h :=
  extract_glue 8 8 rfl h

theorem halfBytes_flatMap_length (hs : List Half) :
    (hs.flatMap halfBytes).length = 2 * hs.length := by
  induction hs with
  | nil => rfl
  | cons h hs ih =>
    rw [List.flatMap_cons, List.length_append, ih, List.length_cons, Nat.mul_add, Nat.add_comm]
    rfl

/-- The bytes of the `k`-th halfword stand at `2 * k` and the next place. -/
theorem halfBytes_flatMap_getD (hs : List Half) (k : Nat) (hk : k < hs.length) :
    (hs.flatMap halfBytes).getD (2 * k) 0#8 = hs[k].extractLsb' 0 8
      ∧ (hs.flatMap halfBytes).getD (2 * k + 1) 0#8 = hs[k].extractLsb' 8 8 := by
  induction hs generalizing k with
  | nil => cases hk
  | cons h hs ih =>
    cases k with
    | zero => exact ⟨rfl, rfl⟩
    | succ k => exact ih k (Nat.lt_of_succ_lt_succ hk)

end Sys2Proof.Laws

namespace Sys2Proof.Safety

open Sys2Proof.Machine Sys2Proof.Laws

section
variable {s : State}

/-- A halfword from the PC on starts at an even byte of the code. -/
theorem codeAddr_even (s : State) (k : Nat) : s.codeAddr (2 * k) = s.pcAfter (2 * k) := by
  unfold State.codeAddr
  rw [Nat.mul_div_cancel_left k two_pos, Nat.mul_mod_right]
  exact BitVec.add_zero _

/-- Its second byte is the next address: a halfword address is even, so only it wraps. -/
theorem codeAddr_odd (s : State) (k : Nat) : s.codeAddr (2 * k + 1) = s.pcAfter (2 * k) + 1 := by
  unfold State.codeAddr
  rw [show (2 * k + 1) / 2 = k by omega, show (2 * k + 1) % 2 = 1 by omega]
  rfl

/-- A halfword access is mapped when both its bytes are. -/
theorem mapped_half {a : Word} (h0 : (s.kindAt a).isSome) (h1 : (s.kindAt (a + 1)).isSome) :
    s.mapped a .half = true := by
  simpa [State.mapped, byteAddrs, AccessSize.bytes, List.range_succ] using And.intro h0 h1

/-- RAM or ROM stands at `a`, and `b` is the byte there. -/
def HoldsCodeByte (s : State) (a : Word) (b : Byte) : Prop :=
  (s.kindAt a = some .ram ∨ s.kindAt a = some .rom) ∧ Memory.read s.mem a.toNat = b

theorem HoldsCodeByte.mapped {a : Word} {b : Byte} (h : HoldsCodeByte s a b) :
    (s.kindAt a).isSome := by
  obtain ⟨hk | hk, _⟩ := h <;> simp [hk]

theorem HoldsCodeByte.fetchByte {a : Word} {b : Byte} (h : HoldsCodeByte s a b) :
    s.fetchByte a = b := by
  obtain ⟨hk | hk, hb⟩ := h <;> simp [State.fetchByte, hk, hb]

/-- The fetch of a halfword joins the two bytes that lie there, little endian. -/
theorem fetchHalf_of_bytes {k : Nat} {h : Half}
    (hlow : HoldsCodeByte s (s.codeAddr (2 * k)) (h.extractLsb' 0 8))
    (hhigh : HoldsCodeByte s (s.codeAddr (2 * k + 1)) (h.extractLsb' 8 8)) :
    s.fetchHalf k = .ok h := by
  rw [codeAddr_even] at hlow
  rw [codeAddr_odd] at hhigh
  unfold State.fetchHalf
  dsimp only
  rw [if_pos (mapped_half hlow.mapped hhigh.mapped), hlow.fetchByte, hhigh.fetchByte,
    halfBytes_join]

/-- Where an instruction's bytes lie at the PC, each of its halfwords is fetched. -/
theorem fetchHalf_of_codeAt {i : Instr} (h : CodeAt s i) {k : Nat} (hk : k < (encode i).length) :
    s.fetchHalf k = .ok (encode i)[k] := by
  have hlen : (encodeBytes i).length = 2 * (encode i).length := halfBytes_flatMap_length _
  obtain ⟨hlow, hhigh⟩ := halfBytes_flatMap_getD (encode i) k hk
  refine fetchHalf_of_bytes ?_ ?_
  · rw [← hlow]
    exact h (2 * k) (by omega)
  · rw [← hhigh]
    exact h (2 * k + 1) (by omega)

/-- A run of halfwords is fetched when each of them is. -/
theorem fetchHalves_of_each {hs : List Half} {k : Nat}
    (h : ∀ j (hj : j < hs.length), s.fetchHalf (k + j) = .ok hs[j]) :
    s.fetchHalves k hs.length = .ok hs := by
  induction hs generalizing k with
  | nil => rfl
  | cons x xs ih =>
    have hx : s.fetchHalf k = .ok x := h 0 (Nat.succ_pos _)
    have hxs : s.fetchHalves (k + 1) xs.length = .ok xs := ih fun j hj => by
      rw [Nat.add_right_comm]
      exact h (j + 1) (Nat.succ_lt_succ hj)
    simp only [List.length_cons, State.fetchHalves, hx, hxs]

/-- The fetch answers a code whose halfwords lie at the PC when the length rule finds its length in
its first two. -/
theorem fetch_of_each {code : List Half}
    (hlen : codeLength (code.getD 0 0#16) (code.getD 1 0#16) = 2 * code.length)
    (h : ∀ k (hk : k < code.length), s.fetchHalf k = .ok code[k]) : s.fetch = .ok code := by
  match code with
  | [] => cases hlen
  | h0 :: rest =>
    have hh0 : s.fetchHalf 0 = .ok h0 := h 0 (Nat.succ_pos _)
    rw [State.fetch, hh0]
    dsimp only
    cases hone : oneHalfword h0 with
    | true =>
      rw [List.getD_cons_zero, codeLength_of_oneHalfword hone, List.length_cons] at hlen
      rw [if_pos rfl, List.length_eq_zero_iff.mp (by omega : rest.length = 0)]
    | false =>
      match rest with
      | [] => exact absurd (hlen ▸ four_le_codeLength hone _) (by simp)
      | h1 :: hs =>
        have hh1 : s.fetchHalf 1 = .ok h1 := h 1 (by simp)
        have hrest : codeLength h0 h1 / 2 - 2 = hs.length := by
          simp only [List.getD_cons_zero, List.getD_cons_succ, List.length_cons] at hlen
          omega
        have hhs : s.fetchHalves 2 hs.length = .ok hs := fetchHalves_of_each fun j hj => by
          rw [Nat.add_comm]
          exact h (j + 2) (by simpa using hj)
        simp only [hh1, hrest, hhs, Bool.false_eq_true, if_false]

end

/-- Settles O7: every halfword of the placed code is fetched, and the length rule stops the fetch at
its end. -/
theorem fetchOfPlacedCode : Obligations.FetchOfPlacedCode := by
  unfold Obligations.FetchOfPlacedCode
  intro s i hwf hcode
  obtain ⟨hlen, hrule⟩ := codeLength_encode i hwf
  exact fetch_of_each (hrule.trans hlen.symm) fun _ hk => fetchHalf_of_codeAt hcode hk

end Sys2Proof.Safety
end

section
/-! SUPPORT. What no instruction but the stores, SET1, CLR1, NOT1 and PREPARE writes: memory and the
record of device writes (20_memory.md R95, R97). -/

namespace Sys2Proof.Safety

open Sys2Proof.Machine

/-- The memory and the record of device writes of `t` are those of `s`. -/
structure KeepsMemory (s t : State) : Prop where
  mem : t.mem = s.mem
  deviceOut : t.deviceOut = s.deviceOut

section
variable {s t : State}

theorem Plain.keepsMemory (h : Plain false s t) : KeepsMemory s t := by
  obtain ⟨hmem, hout⟩ := h.mem rfl
  exact ⟨hmem, hout⟩

theorem enter_keepsMemory (s : State) (e : Entry) : KeepsMemory s (s.enter e) :=
  ⟨s.enter_mem e, s.enter_deviceOut e⟩

/-- A mark put in DIR afterwards, as every cause of a break does. -/
theorem withDir_keepsMemory (h : KeepsMemory s t) (dir : Word) :
    KeepsMemory s { t with dir := dir } := ⟨h.mem, h.deviceOut⟩

theorem returnFrom_keepsMemory (s : State) (bank : SaveBank) : KeepsMemory s (s.returnFrom bank) :=
  ⟨s.returnFrom_mem bank, s.returnFrom_deviceOut bank⟩

theorem writeSysreg_keepsMemory {r : SysReg} {v : Word} (h : s.writeSysreg r v = .ok t) :
    KeepsMemory s t :=
  ⟨by rw [writeSysreg_rest h], by rw [writeSysreg_rest h]⟩

/-- An instruction that R95 does not list as a writer keeps memory and the record. -/
theorem exec_keepsMemory {i : Instr} (h : exec i s = .next t) (hw : writesMemory i = false) :
    KeepsMemory s t := by
  cases exec_effect h with
  | plain hp =>
    rw [hw] at hp
    exact hp.keepsMemory
  | misalign | alignError => exact withDir_keepsMemory (enter_keepsMemory s _) _
  | callt => exact ⟨by simp, by simp⟩
  | halt => exact ⟨s.advance_mem 4, s.advance_deviceOut 4⟩
  | ldsr reg2 regID r u _ hu =>
    obtain ⟨hmem, hout⟩ := writeSysreg_keepsMemory hu
    exact ⟨hmem, hout⟩
  | trap => exact enter_keepsMemory s _
  | reti | ctret => exact returnFrom_keepsMemory s _
  | dbret => exact withDir_keepsMemory (returnFrom_keepsMemory s _) _
  | dbtrap =>
    split
    · exact withDir_keepsMemory (enter_keepsMemory s _) _
    · exact enter_keepsMemory s _

end

/-- Settles O17: whatever else an instruction does, one that R95 does not list keeps the cells of
memory themselves, so every address reads as before. -/
theorem memoryWriters : Obligations.MemoryWriters := by
  unfold Obligations.MemoryWriters
  intro i s t h hw
  obtain ⟨hmem, hout⟩ := exec_keepsMemory h hw
  exact ⟨fun a => by rw [hmem], hout⟩

end Sys2Proof.Safety
end

section
/-! SUPPORT. The fields of a code put together again, the other way round than Laws/Encoding.lean: what
the decoder reads from a code is what the encoder writes into it (30_encoding.md R121 to R137). -/

namespace Sys2Proof.Laws

/-! ## Fields of a halfword -/

/-- Every halfword is its three fields (R121). -/
theorem exists_fields (h : Half) : ∃ a b d, h = joinFields a b d := by
  refine ⟨hi5 h, mid6 h, lo5 h, ?_⟩
  have hhigh : hi5 h ++ mid6 h = h.extractLsb' 5 11 := by
    ext j hj
    simp only [hi5, mid6, BitVec.getElem_append, BitVec.getElem_extractLsb']
    split
    all_goals congr 1
    all_goals omega
  rw [joinFields, hhigh]
  exact (extract_glue 5 11 rfl h).symm

theorem joinFields_inj {a d : BitVec 5} {b e : BitVec 6} {c f : BitVec 5} :
    joinFields a b c = joinFields d e f ↔ a = d ∧ b = e ∧ c = f := by
  refine ⟨fun h => ⟨?_, ?_, ?_⟩, fun ⟨ha, hb, hc⟩ => by rw [ha, hb, hc]⟩
  · simpa using congrArg hi5 h
  · simpa using congrArg mid6 h
  · simpa using congrArg lo5 h

theorem joinFields_and (a d : BitVec 5) (b e : BitVec 6) (c f : BitVec 5) :
    joinFields a b c &&& joinFields d e f = joinFields (a &&& d) (b &&& e) (c &&& f) := by
  have hhigh : (a ++ b) &&& (d ++ e) = (a &&& d) ++ (b &&& e) := BitVec.and_append
  rw [joinFields, joinFields, joinFields, ← hhigh]
  exact BitVec.and_append

theorem joinFields_bit0 (a : BitVec 5) (b : BitVec 6) (c : BitVec 5) :
    (joinFields a b c).getLsbD 0 = c.getLsbD 0 := by
  simp only [joinFields, BitVec.getLsbD_append]
  rfl

/-! ## Parts of a field -/

/-- A field is the literal that one of the decoder's rows compares it with. -/
theorem eq_ofNat_of_toNat {w k : Nat} {m : BitVec w} (h : m.toNat = k) : m = BitVec.ofNat w k := by
  rw [← h, BitVec.ofNat_toNat, BitVec.setWidth_eq]

/-- A field whose high part is `a` is `a` over a low part. -/
theorem exists_append {k n : Nat} {m : BitVec (n + k)} {a : BitVec n}
    (ha : m.extractLsb' k n = a) : ∃ x : BitVec k, m = a ++ x :=
  ⟨m.extractLsb' 0 k, by rw [← ha]; exact (extract_glue k n rfl m).symm⟩

/-- The middle part of three. -/
theorem extract_append_mid {m n k : Nat} (a : BitVec m) (b : BitVec n) (c : BitVec k) :
    (a ++ b ++ c).extractLsb' k n = b := by
  rw [BitVec.extractLsb'_append_eq_of_le (le_refl k), Nat.sub_self, extract_append_low]

/-- The highest part of three. -/
theorem extract_append_top {m n k : Nat} (a : BitVec m) (b : BitVec n) (c : BitVec k) :
    (a ++ b ++ c).extractLsb' (n + k) m = a := by
  rw [BitVec.extractLsb'_append_eq_of_le (Nat.le_add_left k n), Nat.add_sub_cancel,
    extract_append_high]

/-- A one-bit part whose bit is 1. -/
theorem extract_bit_one {w k : Nat} {d : BitVec w} (h : d.getLsbD k = true) :
    d.extractLsb' k 1 = 1#1 := by
  ext j hj
  obtain rfl : j = 0 := by omega
  simpa using h

/-- A one-bit part whose bit is 0. -/
theorem extract_bit_zero {w k : Nat} {d : BitVec w} (h : ¬ d.getLsbD k = true) :
    d.extractLsb' k 1 = 0#1 := by
  ext j hj
  obtain rfl : j = 0 := by omega
  simpa using h

theorem append_inj {m n : Nat} {a c : BitVec m} {b d : BitVec n} :
    a ++ b = c ++ d ↔ a = c ∧ b = d := by
  refine ⟨fun h => ⟨?_, ?_⟩, fun ⟨ha, hb⟩ => by rw [ha, hb]⟩
  · rw [← extract_append_high a b, h, extract_append_high]
  · rw [← extract_append_low a b, h, extract_append_low]

@[simp] theorem encodeOp5_append (r2 o : BitVec 5) (x : BitVec 1) (r1 : BitVec 5) :
    encodeOp5 r2 o (x ++ r1) = joinFields r2 (o ++ x) r1 := by
  rw [encodeOp5, x6_high, x6_low]

@[simp] theorem encodeShort_append (r2 : BitVec 5) (o : BitVec 4) (y : BitVec 2) (r1 : BitVec 5) :
    encodeShort r2 o (y ++ r1) = joinFields r2 (o ++ y) r1 := by
  rw [encodeShort, extract_append_high, extract_append_low]

/-! ## Conditions -/

theorem code_ofCode (k : BitVec 4) : (Cond.ofCode k).code = k := by
  revert k
  decide

/-- The last five bits of CMOV, SBF and ADF: the condition over a 0 (R134). -/
theorem cond_glue {l : BitVec 5} (h : ¬ l.getLsbD 0 = true) :
    (Cond.ofCode (l.extractLsb' 1 4)).code ++ 0#1 = l := by
  rw [code_ofCode]
  revert l
  decide

/-- The 7-bit field of BCOND: three bits of the displacement over the condition (R126). -/
theorem bcond_glue (y : BitVec 2) (r1 : BitVec 5) :
    (y ++ r1 : BitVec 7).extractLsb' 4 3 ++ (Cond.ofCode (r1.extractLsb' 0 4)).code = y ++ r1 := by
  have hlow : (y ++ r1 : BitVec 7).extractLsb' 0 4 = r1.extractLsb' 0 4 :=
    BitVec.extractLsb'_append_eq_of_add_le (by decide)
  rw [code_ofCode, ← hlow]
  exact extract_glue 4 3 rfl (y ++ r1)

/-- A 5-bit field is its bit 4 over its low four bits. -/
theorem bit4_glue {r : BitVec 5} {b : BitVec 1} (h : r.extractLsb' 4 1 = b) :
    b ++ r.extractLsb' 0 4 = r := by
  rw [← h]
  exact extract_glue 4 1 rfl r

/-! ## Displacements and immediates -/

theorem notR0_of_ne {r : Reg} (h : r ≠ 0#5) : notR0 r = true := bne_iff_ne.2 h

theorem evenDisp_of_not {w : Nat} {d : BitVec w} (h : ¬ d.getLsbD 0 = true) :
    evenDisp d = true := by
  simpa [evenDisp] using h

/-- Whether a displacement is even is said by its lowest part. -/
theorem evenDisp_append {n w : Nat} (a : BitVec n) {d : BitVec (w + 1)} (h : evenDisp d = true) :
    evenDisp (a ++ d) = true := by
  rw [evenDisp, BitVec.getLsbD_append, if_pos (Nat.succ_pos w)]
  exact h

theorem evenDisp_dropBit0 (h : Half) : evenDisp (dropBit0 h) = true := by
  simp [evenDisp, dropBit0]

theorem wordDisp_append {w : Nat} (a : BitVec w) : wordDisp (a ++ 0#2) = true := by
  simp only [wordDisp, BitVec.getLsbD_append]
  rfl

/-- A halfword with bit 0 set is a displacement that agrees with it above, with bit 0 set (R130). -/
theorem or_one_eq_of_agree {d h : Half} (h0 : h.getLsbD 0 = true)
    (hd : ∀ j < 15, d.getLsbD (j + 1) = h.getLsbD (j + 1)) : d ||| 1#16 = h := by
  apply BitVec.eq_of_getLsbD_eq
  intro j hj
  rw [BitVec.getLsbD_or, BitVec.getLsbD_one]
  cases j with
  | zero => simp [h0]
  | succ j => simp [hd j (by omega)]

theorem dropBit0_or_one {h : Half} (h0 : h.getLsbD 0 = true) : dropBit0 h ||| 1#16 = h := by
  refine or_one_eq_of_agree h0 fun j hj => ?_
  have hmask : ∀ j < 15, (0xFFFE#16).getLsbD (j + 1) = true := by decide
  rw [dropBit0, BitVec.getLsbD_and, hmask j hj, Bool.and_true]

/-- LD.BU: the displacement's bit 0 stands in the first halfword (R130). -/
theorem ldbu_or_one {h : Half} (h0 : h.getLsbD 0 = true) (x : BitVec 1) :
    (h.extractLsb' 1 15 ++ x : Half) ||| 1#16 = h := by
  refine or_one_eq_of_agree h0 fun j hj => ?_
  rw [BitVec.getLsbD_append, if_neg (by omega), BitVec.getLsbD_extractLsb', Nat.add_sub_cancel,
    decide_eq_true hj, Bool.true_and, Nat.add_comm]

/-- SLD.W and SST.W: bit 0 of the 7-bit field tells them apart (R127). -/
theorem word_glue {r1 : BitVec 5} {b : BitVec 1} (y : BitVec 2) (h : r1.extractLsb' 0 1 = b) :
    (y ++ r1 : BitVec 7).extractLsb' 1 6 ++ b = y ++ r1 := by
  have hbit : (y ++ r1 : BitVec 7).extractLsb' 0 1 = r1.extractLsb' 0 1 :=
    BitVec.extractLsb'_append_eq_of_add_le (by decide)
  rw [← h, ← hbit]
  exact extract_glue 1 6 rfl (y ++ r1)

/-- The last five bits of MUL and MULU with an imm9 (R135). -/
theorem imm9_glue {l : BitVec 5} (h : ¬ l.getLsbD 0 = true) :
    l.extractLsb' 2 3 ++ (if l.getLsbD 1 then 0b10#2 else 0b00#2) = l := by
  revert l
  decide

/-- The three parts of an imm9 (R135). -/
theorem imm9_parts (x : BitVec 1) (a : BitVec 3) (r1 : BitVec 5) :
    (x ++ a ++ r1 : BitVec 9).extractLsb' 8 1 = x
      ∧ (x ++ a ++ r1 : BitVec 9).extractLsb' 5 3 = a
      ∧ (x ++ a ++ r1 : BitVec 9).extractLsb' 0 5 = r1 :=
  ⟨extract_append_top x a r1, extract_append_mid x a r1, extract_append_low (x ++ a) r1⟩

/-! ## PREPARE and DISPOSE -/

/-- Bits 5:0 of the first halfword are imm5 over bit 0 of the list (R136). -/
theorem stackImm5_glue (o : BitVec 5) (x : BitVec 1) (r1 : BitVec 5) :
    (stackImm5 (o ++ x) r1 ++ r1.extractLsb' 0 1 : BitVec 6) = x ++ r1 := by
  rw [stackImm5, op5_low]
  revert x r1
  decide

theorem encodeStack_fields (o : BitVec 5) (x : BitVec 1) (r1 : BitVec 5) (h1 : Half) :
    encodeStack o (stackImm5 (o ++ x) r1) (stackList r1 h1) = joinFields 0#5 (o ++ x) r1 := by
  have hlow : (stackList r1 h1).extractLsb' 0 1 = r1.extractLsb' 0 1 := extract_append_low _ _
  rw [encodeStack, hlow, stackImm5_glue, encodeOp5_append]

theorem encodeStackList_fields (r1 : BitVec 5) (h1 : Half) :
    encodeStackList (stackList r1 h1) (lo5 h1) = h1 := by
  have hhigh : (stackList r1 h1).extractLsb' 1 11 = h1.extractLsb' 5 11 := extract_append_high _ _
  rw [encodeStackList, hhigh]
  exact extract_glue 5 11 rfl h1

end Sys2Proof.Laws
end

section
/-! SUPPORT. What each part of the decoder answers, said once: an instruction whose encoding is the code
it read, illegalCode for the code of R145, or another error (30_encoding.md R121 to R146). -/

namespace Sys2Proof.Laws

/-- A code that starts with the illegal instruction code: bits 10:5 all 1, bit 16 = 0 and bit 26 = 1
(R145). -/
def IllegalCode (code : List Half) : Prop :=
  ∃ h0 h1 rest, code = h0 :: h1 :: rest ∧ (h1 ++ h0) &&& 0x040107E0#32 = 0x040007E0#32

/-- What the decoder's answer says of the code. -/
inductive Answers (code : List Half) : Decoded → Prop where
  | instr {i rest} (wf : WellFormed i = true) (eq : code = encode i ++ rest) :
    Answers code (.ok (i, rest))
  | illegal (h : IllegalCode code) : Answers code (.error .illegalCode)
  | undefined : Answers code (.error .undefinedCode)
  | truncated : Answers code (.error .truncated)

/-- What the answer of a part of the decoder that reads the whole code says of it. -/
inductive Reads (code : List Half) : Except DecodeError Instr → Prop where
  | instr {i} (wf : WellFormed i = true) (eq : encode i = code) : Reads code (.ok i)
  | illegal (h : IllegalCode code) : Reads code (.error .illegalCode)
  | undefined : Reads code (.error .undefinedCode)

section
variable {code : List Half} {c : Prop} [Decidable c]

theorem Answers.ite {a b : Decoded} (ha : c → Answers code a) (hb : ¬ c → Answers code b) :
    Answers code (if c then a else b) := by
  split
  next hc => exact ha hc
  next hc => exact hb hc

theorem Reads.ite {a b : Except DecodeError Instr} (ha : c → Reads code a)
    (hb : ¬ c → Reads code b) : Reads code (if c then a else b) := by
  split
  next hc => exact ha hc
  next hc => exact hb hc

theorem IllegalCode.append (h : IllegalCode code) (t : List Half) : IllegalCode (code ++ t) := by
  obtain ⟨h0, h1, rest, rfl, hmask⟩ := h
  exact ⟨h0, h1, rest ++ t, rfl, hmask⟩

end

/-- The bits that R145 fixes, in the fields of the two halfwords. -/
theorem illegalWord_iff (r2 r1 w l : BitVec 5) (m sub : BitVec 6) :
    (joinFields w sub l ++ joinFields r2 m r1) &&& 0x040107E0#32 = 0x040007E0#32
      ↔ m = 63#6 ∧ l.getLsbD 0 = false ∧ sub.getLsbD 5 = true := by
  have hmask : 0x040107E0#32 = joinFields 0 32 1 ++ joinFields 0 63 0 := by decide
  have hvalue : 0x040007E0#32 = joinFields 0 32 0 ++ joinFields 0 63 0 := by decide
  have hand :
      (joinFields w sub l ++ joinFields r2 m r1) &&& (joinFields 0 32 1 ++ joinFields 0 63 0)
        = (joinFields w sub l &&& joinFields 0 32 1) ++ (joinFields r2 m r1 &&& joinFields 0 63 0) :=
    BitVec.and_append
  have hzero : ∀ x : BitVec 5, x &&& 0 = 0 := by decide
  have hm : ∀ m : BitVec 6, m &&& 63 = 63 ↔ m = 63#6 := by decide
  have hl : ∀ l : BitVec 5, l &&& 1 = 0 ↔ l.getLsbD 0 = false := by decide
  have hsub : ∀ sub : BitVec 6, sub &&& 32 = 32 ↔ sub.getLsbD 5 = true := by decide
  rw [hmask, hvalue, hand, append_inj]
  simp only [joinFields_and, joinFields_inj, hzero, hm, hl, hsub, true_and, and_true]
  exact ⟨fun ⟨⟨hs, hl⟩, hm⟩ => ⟨hm, hl, hs⟩, fun ⟨hm, hl, hs⟩ => ⟨⟨hs, hl⟩, hm⟩⟩

/-! ## A second and a third halfword -/

/-- What is read from two halfwords answers for every code that starts with them. -/
theorem withSecond_answers {h0 : Half} {f : Half → Except DecodeError Instr}
    (h : ∀ h1, Reads [h0, h1] (f h1)) (t : List Half) : Answers (h0 :: t) (withSecond t f) := by
  cases t with
  | nil => exact .truncated
  | cons h1 t =>
    have hread := h h1
    unfold withSecond
    dsimp only
    generalize f h1 = answer at hread
    cases hread with
    | instr wf eq => exact .instr wf (by rw [eq]; rfl)
    | illegal h => exact .illegal (h.append t)
    | undefined => exact .undefined

/-- An instruction whose second and third halfword are one 32-bit operand, the low half first (R129). -/
theorem withThird_answers {h0 : Half} {ok : Half → Bool} {f : BitVec 32 → Instr}
    (hwf : ∀ h2 h1 : Half, ok h1 = true → WellFormed (f (h2 ++ h1)) = true)
    (hcode : ∀ v, encode (f v) = [h0, v.extractLsb' 0 16, v.extractLsb' 16 16]) (t : List Half) :
    Answers (h0 :: t) (withThird t ok f) := by
  match t with
  | [] => exact .truncated
  | h1 :: t =>
    refine .ite (fun hok => ?_) fun _ => .undefined
    match t with
    | [] => exact .truncated
    | h2 :: t =>
      refine .instr (hwf h2 h1 hok) ?_
      rw [hcode, extract_append_low, extract_append_high]
      rfl

/-- Bit 16 = 0 makes a 32-bit displacement even (R129). -/
theorem evenDisp_of_bit0Clear (h2 h1 : Half) (h : bit0Clear h1 = true) :
    evenDisp (h2 ++ h1 : BitVec 32) = true := evenDisp_append h2 h

/-! ## Expansion 1 -/

/-- The rows selected by the whole sub-opcode (R134, R135, R141). -/
theorem decodeExpansion_row_reads (r2 r1 w : BitVec 5) {l : BitVec 5} {sub : BitVec 6}
    (hl : ¬ l.getLsbD 0 = true) (hsub : ¬ sub.getLsbD 5 = true)
    (hop : ¬ sub.extractLsb' 1 5 = 0b01001#5) :
    Reads [joinFields r2 63#6 r1, joinFields w sub l]
      (decodeExpansion r2 r1 (joinFields w sub l)) := by
  simp only [decodeExpansion, hi5_join, mid6_join, lo5_join]
  rw [if_neg hl, if_neg hsub, if_neg hop]
  split
  all_goals rename_i hrow
  case h_24 => exact .undefined
  all_goals obtain rfl := eq_ofNat_of_toNat hrow
  -- SETF, SASF: the condition under a 0 in bit 4.
  case h_1 | h_12 =>
    refine .ite (fun ⟨hw, hl, h4⟩ => .instr rfl ?_) fun _ => .undefined
    rw [encode, code_ofCode, bit4_glue (extract_bit_zero (Bool.eq_false_iff.1 h4)), hw, hl]
    rfl
  -- LDSR, STSR, TRAP, HALT: every other field is fixed.
  case h_2 | h_3 | h_8 | h_9 =>
    exact .ite (fun h => .instr rfl (by simp only [h]; rfl)) fun _ => .undefined
  -- SHR, SAR, SHL with two and three registers.
  case h_4 | h_5 | h_6 =>
    exact .ite (fun hl => .instr rfl (by rw [hl]; rfl)) fun _ =>
      .ite (fun ⟨hw, hl⟩ => .instr rfl (by rw [hw, hl]; rfl)) fun _ => .undefined
  -- Bit manipulation, swaps, bit search: the last five bits select.
  case h_7 | h_18 | h_19 =>
    refine .ite (fun h => ?_) fun _ => .undefined
    subst h
    split
    case h_5 => exact .undefined
    all_goals
      rename_i hlast
      exact .instr rfl (by rw [eq_ofNat_of_toNat hlast]; rfl)
  -- RETI, CTRET, DBRET.
  case h_10 =>
    refine .ite (fun h => ?_) fun _ => .undefined
    obtain ⟨rfl, rfl, rfl⟩ := h
    split
    case h_4 => exact .undefined
    all_goals
      rename_i hlast
      exact .instr rfl (by rw [eq_ofNat_of_toNat hlast]; rfl)
  -- DI, EI: reg2 selects.
  case h_11 =>
    refine .ite (fun h => ?_) fun _ => .undefined
    obtain ⟨rfl, rfl, rfl⟩ := h
    exact .ite (fun h2 => .instr rfl (by rw [h2]; rfl)) fun _ =>
      .ite (fun h2 => .instr rfl (by rw [h2]; rfl)) fun _ => .undefined
  -- MUL, MULU, DIVH, DIVHU, DIV, DIVU.
  case h_13 | h_14 | h_15 =>
    exact .ite (fun hl => .instr rfl (by rw [hl]; rfl)) fun _ =>
      .ite (fun hl => .instr rfl (by rw [hl]; rfl)) fun _ => .undefined
  -- CMOV.
  case h_16 | h_17 => exact .instr rfl (by rw [encode, cond_glue hl]; rfl)
  -- SBF, ADF: the condition SA is SATSUB, SATADD.
  case h_20 | h_21 =>
    refine .ite (fun hsat => .instr rfl (by rw [hsat]; rfl)) fun hsat => .instr ?_ ?_
    · refine decide_eq_true fun hsa => hsat ?_
      rw [← cond_glue hl, (code_append_eq_sat _).2 hsa]
    · rw [encode, cond_glue hl]
      rfl
  -- MAC, MACU: reg4 is even.
  case h_22 | h_23 => exact .instr (evenDisp_of_not hl) rfl

theorem decodeExpansion_reads (r2 r1 : BitVec 5) (h1 : Half) :
    Reads [joinFields r2 63#6 r1, h1] (decodeExpansion r2 r1 h1) := by
  obtain ⟨w, sub, l, rfl⟩ := exists_fields h1
  have hrow := decodeExpansion_row_reads r2 r1 w (l := l) (sub := sub)
  simp only [decodeExpansion, hi5_join, mid6_join, lo5_join] at hrow ⊢
  by_cases hl : l.getLsbD 0 = true
  · rw [if_pos hl]
    refine .ite (fun _ => .undefined) fun hr2 => .instr ?_ ?_
    · rw [WellFormed, evenDisp_dropBit0, notR0_of_ne hr2]
      rfl
    · rw [encode, dropBit0_or_one (by rw [joinFields_bit0, hl])]
  by_cases hsub : sub.getLsbD 5 = true
  · rw [if_neg hl, if_pos hsub]
    exact .illegal ⟨_, _, [], rfl, (illegalWord_iff ..).2 ⟨rfl, Bool.eq_false_iff.2 hl, hsub⟩⟩
  by_cases hop : sub.extractLsb' 1 5 = 0b01001#5
  · rw [if_neg hl, if_neg hsub, if_pos hop]
    obtain ⟨x, rfl⟩ := exists_append (k := 1) (n := 5) hop
    have hlast := imm9_glue hl
    obtain ⟨htop, hmid, hlow⟩ := imm9_parts x (l.extractLsb' 2 3) r1
    rw [op5_low]
    refine .ite (fun h1 => .instr rfl ?_) fun h1 => .instr rfl ?_
    · rw [if_pos h1] at hlast
      rw [encode, htop, hmid, hlow, hlast]
      rfl
    · rw [if_neg h1] at hlast
      rw [encode, htop, hmid, hlow, hlast]
      rfl
  exact hrow hl hsub hop

/-! ## Rows by opcode -/

/-- Format VIII (R131). -/
theorem decodeBitOp_reads (r2 r1 : BitVec 5) (h1 : Half) :
    Reads [joinFields r2 62#6 r1, h1] (decodeBitOp r2 r1 h1) := by
  have hglue {k : Nat} (h : (r2.extractLsb' 3 2).toNat = k) :
      BitVec.ofNat 2 k ++ r2.extractLsb' 0 3 = r2 := by
    rw [← eq_ofNat_of_toNat h]
    exact extract_glue 3 2 rfl r2
  unfold decodeBitOp
  dsimp only
  split
  case h_1 | h_2 | h_3 =>
    rename_i h
    exact .instr rfl (by rw [encode, hglue h])
  case h_4 ne0 ne1 ne2 =>
    have hthree : ∀ a : BitVec 2, a.toNat ≠ 0 → a.toNat ≠ 1 → a.toNat ≠ 2 → a.toNat = 3 := by
      decide
    exact .instr rfl (by rw [encode, hglue (hthree _ ne0 ne1 ne2)])

section
variable {r2 r1 : BitVec 5} {m : BitVec 6}

/-- The rows selected by the whole opcode (R140), where neither CALLT nor DISPOSE stands. -/
theorem decodeByOpcode_answers (hcallt : ¬ (r2 = 0#5 ∧ m.extractLsb' 1 5 = 0b01000#5))
    (hdispose : ¬ (r2 = 0#5 ∧ m.extractLsb' 1 5 = 0b11001#5)) (t : List Half) :
    Answers (joinFields r2 m r1 :: t) (decodeByOpcode r2 m r1 t) := by
  unfold decodeByOpcode
  split
  all_goals rename_i hrow
  case h_39 => exact .undefined
  all_goals obtain rfl := eq_ofNat_of_toNat hrow
  -- NOP is MOV r0, r0.
  case h_1 =>
    refine .ite (fun ⟨h1, h2⟩ => .instr rfl (by rw [h1, h2]; rfl)) fun h => .instr ?_ rfl
    simpa only [WellFormed, Bool.not_eq_true', Bool.and_eq_false_iff, beq_eq_false_iff_ne,
      not_and_or] using h
  -- One halfword, every field an operand.
  case h_2 | h_9 | h_10 | h_11 | h_12 | h_13 | h_14 | h_15 | h_16 => exact .instr rfl rfl
  case h_19 | h_20 | h_21 | h_22 | h_23 => exact .instr rfl rfl
  -- DBTRAP, SWITCH, DIVH.
  case h_3 =>
    refine .ite (fun h1 => .ite (fun h2 => .instr rfl (by rw [h1, h2]; rfl)) fun _ => .undefined)
      fun h1 => .ite (fun h2 => .instr (notR0_of_ne h1) (by rw [h2]; rfl)) fun h2 => .instr ?_ rfl
    rw [WellFormed, notR0_of_ne h1, notR0_of_ne h2]
    rfl
  -- JMP, SLD.HU, SLD.BU.
  case h_4 =>
    refine .ite (fun h2 => .instr rfl (by rw [h2]; rfl)) fun h2 => .ite (fun h4 => .instr ?_ ?_)
      fun h4 => .instr (notR0_of_ne h2) ?_
    · rw [WellFormed, evenDisp_append _ rfl, notR0_of_ne h2]
      rfl
    · rw [encode, extract_append_high, bit4_glue (extract_bit_one h4)]
      rfl
    · rw [encode, bit4_glue (extract_bit_zero h4)]
      rfl
  -- ZXB, SXB, ZXH, SXH stand where reg2 is r0.
  case h_5 | h_6 | h_7 | h_8 =>
    exact .ite (fun h2 => .instr rfl (by rw [h2]; rfl)) fun h2 => .instr (notR0_of_ne h2) rfl
  -- MOV imm5, SATADD imm5: with r0 it is CALLT.
  case h_17 | h_18 => exact .instr (notR0_of_ne fun h2 => hcallt ⟨h2, rfl⟩) rfl
  -- JR disp32, JARL disp32, MULH imm5.
  case h_24 =>
    refine .ite (fun h2 => ?_) fun h2 => .instr (notR0_of_ne h2) rfl
    subst h2
    refine .ite (fun h1 => ?_) fun h1 => withThird_answers (fun a b h => ?_) (fun _ => rfl) t
    · subst h1
      exact withThird_answers evenDisp_of_bit0Clear (fun _ => rfl) t
    · rw [WellFormed, evenDisp_of_bit0Clear a b h, notR0_of_ne h1]
      rfl
  -- Two halfwords, every field an operand.
  case h_25 | h_29 | h_30 | h_31 | h_33 | h_35 =>
    exact withSecond_answers (fun _ => .instr rfl rfl) t
  -- MOV imm32, MOVEA.
  case h_26 =>
    refine .ite (fun h2 => ?_) fun h2 => withSecond_answers (fun _ => ?_) t
    · subst h2
      exact withThird_answers (fun _ _ _ => rfl) (fun _ => rfl) t
    · exact .instr (notR0_of_ne h2) rfl
  -- MOVHI, SATSUBI: with r0 it is DISPOSE.
  case h_27 | h_28 =>
    refine withSecond_answers (fun _ => ?_) t
    exact .instr (notR0_of_ne fun h2 => hdispose ⟨h2, rfl⟩) rfl
  -- JMP disp32, MULHI.
  case h_32 =>
    refine .ite (fun h2 => ?_) fun h2 => withSecond_answers (fun _ => ?_) t
    · subst h2
      exact withThird_answers evenDisp_of_bit0Clear (fun _ => rfl) t
    · exact .instr (notR0_of_ne h2) rfl
  -- LD.W, LD.H and ST.W, ST.H: bit 0 of the second halfword selects.
  case h_34 | h_36 =>
    refine withSecond_answers (fun h1 => .ite (fun h => ?_) fun h => ?_) t
    · exact .instr (evenDisp_dropBit0 h1) (by rw [encode, dropBit0_or_one h])
    · exact .instr (evenDisp_of_not h) rfl
  case h_37 => exact withSecond_answers (decodeBitOp_reads r2 r1) t
  case h_38 => exact withSecond_answers (decodeExpansion_reads r2 r1) t

/-- Formats III and IV (R126, R127). -/
theorem decodeShort_reads {i : Instr} (h : decodeShort r2 m r1 = some i) :
    Reads [joinFields r2 m r1] (.ok i) := by
  obtain ⟨y, hm⟩ := exists_append (k := 2) (n := 4) (m := m) rfl
  unfold decodeShort at h
  dsimp only at h
  split at h
  case h_7 => cases h
  all_goals
    rename_i hop
    rw [eq_ofNat_of_toNat hop] at hm
    subst hm
    rw [op4_low] at h
  case h_1 | h_2 =>
    cases h
    exact .instr rfl (by rw [encode, encodeShort_append])
  case h_3 | h_4 =>
    cases h
    exact .instr (evenDisp_append _ rfl) (by rw [encode, extract_append_high, encodeShort_append])
  case h_5 =>
    split at h
    all_goals
      rename_i h0
      cases h
      refine .instr (wordDisp_append _) ?_
    · rw [encode, extract_append_high, word_glue y (extract_bit_one h0), encodeShort_append]
    · rw [encode, extract_append_high, word_glue y (extract_bit_zero h0), encodeShort_append]
  case h_6 =>
    cases h
    refine .instr (evenDisp_append _ rfl) ?_
    generalize hd : (y ++ r1 : BitVec 7).extractLsb' 4 3 = d
    have htop : (r2 ++ d ++ 0#1 : BitVec 9).extractLsb' 4 5 = r2 := extract_append_top r2 d 0#1
    have hmid : (r2 ++ d ++ 0#1 : BitVec 9).extractLsb' 1 3 = d := extract_append_mid r2 d 0#1
    rw [encode, htop, hmid, ← hd, bcond_glue, encodeShort_append]

end

/-! ## PREPARE, DISPOSE and Format V -/

/-- DISPOSE in its two forms (R136). -/
theorem decodeDispose_reads (x : BitVec 1) (r1 : BitVec 5) (h1 : Half) :
    Reads [joinFields 0#5 (0b11001#5 ++ x) r1, h1] (decodeDispose (0b11001#5 ++ x) r1 h1) := by
  have hstack := encodeStack_fields 0b11001#5 x r1 h1
  have hlist := encodeStackList_fields r1 h1
  refine .ite (fun h => .instr rfl ?_) fun h => .instr (notR0_of_ne h) ?_
  · rw [h] at hlist
    rw [encode, hstack, hlist]
  · rw [encode, hstack, hlist]

/-- PREPARE in its five forms (R136). -/
theorem decodePrepare_answers (x : BitVec 1) (r1 : BitVec 5) (h1 : Half) (t : List Half) :
    Answers (joinFields 0#5 (0b11110#5 ++ x) r1 :: h1 :: t)
      (decodePrepare (0b11110#5 ++ x) r1 (h1 :: t)) := by
  have hstack := encodeStack_fields 0b11110#5 x r1 h1
  have hlist := encodeStackList_fields r1 h1
  unfold decodePrepare
  dsimp only
  split
  case h_6 => exact .undefined
  all_goals
    rename_i hlast
    rw [eq_ofNat_of_toNat hlast] at hlist
  case h_1 | h_2 => exact .instr rfl (by rw [encode, hstack, hlist]; rfl)
  case h_3 | h_4 =>
    match t with
    | [] => exact .truncated
    | h2 :: t => exact .instr rfl (by rw [encode, hstack, hlist]; rfl)
  case h_5 =>
    match t with
    | [] | [_] => exact .truncated
    | h2 :: h3 :: t =>
      refine .instr rfl ?_
      rw [encode, hstack, hlist, extract_append_high, extract_append_low]
      rfl

/-- op6 = 11110x: JARL and JR with disp22, LD.BU and PREPARE (R128, R130, R136). -/
theorem decodeFormatV_answers (r2 : BitVec 5) (x : BitVec 1) (r1 : BitVec 5) (t : List Half) :
    Answers (joinFields r2 (0b11110#5 ++ x) r1 :: t) (decodeFormatV r2 (0b11110#5 ++ x) r1 t) := by
  cases t with
  | nil => exact .truncated
  | cons h1 t =>
    unfold decodeFormatV
    dsimp only
    rw [op5_low]
    refine .ite (fun h0 => .ite (fun h2 => ?_) fun h2 => ?_) fun h0 => ?_
    · subst h2
      exact decodePrepare_answers x r1 h1 t
    · refine .instr (notR0_of_ne h2) ?_
      rw [encode, extract_append_low, encodeOp5_append, ldbu_or_one h0]
      rfl
    · have heven : evenDisp (x ++ r1 ++ h1) = true :=
        evenDisp_append (x ++ r1) (evenDisp_of_not h0)
      have hhigh : (x ++ r1 ++ h1).extractLsb' 16 6 = x ++ r1 := extract_append_high _ _
      refine .ite (fun h2 => .instr heven ?_) fun h2 => .instr ?_ ?_
      · rw [encode, hhigh, encodeOp5_append, extract_append_low, h2]
        rfl
      · rw [WellFormed, heven, notR0_of_ne h2]
        rfl
      · rw [encode, hhigh, encodeOp5_append, extract_append_low]
        rfl

/-! ## The decoder -/

/-- What the decoder answers, in the order in which it looks. -/
theorem decode_answers (code : List Half) : Answers code (decode code) := by
  cases code with
  | nil => exact .truncated
  | cons h0 t =>
    obtain ⟨r2, m, r1, rfl⟩ := exists_fields h0
    simp only [decode, hi5_join, mid6_join, lo5_join]
    split
    next i hi =>
      cases decodeShort_reads hi with
      | instr wf eq => exact .instr wf (by rw [eq]; rfl)
    next =>
      refine .ite (fun hop => ?_) fun _ => .ite (fun hdispose => ?_) fun hdispose =>
        .ite (fun hcallt => ?_) fun hcallt => decodeByOpcode_answers hcallt hdispose t
      · obtain ⟨x, rfl⟩ := exists_append (k := 1) (n := 5) hop
        exact decodeFormatV_answers r2 x r1 t
      · obtain ⟨rfl, hop⟩ := hdispose
        obtain ⟨x, rfl⟩ := exists_append (k := 1) (n := 5) hop
        exact withSecond_answers (decodeDispose_reads x r1) t
      · obtain ⟨rfl, hop⟩ := hcallt
        obtain ⟨x, rfl⟩ := exists_append (k := 1) (n := 5) hop
        rw [op5_low]
        exact .instr rfl (by rw [encode, encodeOp5_append]; rfl)

/-- Expansion 1 is read from the second halfword (R141). -/
theorem decode_expansion (r2 r1 : BitVec 5) (t : List Half) :
    decode (joinFields r2 63#6 r1 :: t) = withSecond t (decodeExpansion r2 r1) := by
  have hshort : decodeShort r2 63#6 r1 = none := rfl
  simp only [decode, hi5_join, mid6_join, lo5_join, hshort]
  rw [if_neg (by decide), if_neg fun h => absurd h.2 (by decide),
    if_neg fun h => absurd h.2 (by decide)]
  rfl

/-- R145 in the fields of the second halfword: bit 16 = 0 and bit 26 = 1. -/
theorem decodeExpansion_illegal (r2 r1 w : BitVec 5) {l : BitVec 5} {sub : BitVec 6}
    (hl : l.getLsbD 0 = false) (hsub : sub.getLsbD 5 = true) :
    decodeExpansion r2 r1 (joinFields w sub l) = .error .illegalCode := by
  simp only [decodeExpansion, mid6_join, lo5_join]
  rw [if_neg (Bool.eq_false_iff.1 hl), if_pos hsub]

theorem decode_illegalCode {code : List Half} (h : IllegalCode code) :
    decode code = .error .illegalCode := by
  obtain ⟨h0, h1, rest, rfl, hmask⟩ := h
  obtain ⟨r2, m, r1, rfl⟩ := exists_fields h0
  obtain ⟨w, sub, l, rfl⟩ := exists_fields h1
  obtain ⟨rfl, hl, hsub⟩ := (illegalWord_iff ..).1 hmask
  rw [decode_expansion, withSecond, decodeExpansion_illegal r2 r1 w hl hsub]

end Sys2Proof.Laws
end

section
/-! SUPPORT. The statements about decoding and encoding, from the families of Laws/PerInstr.lean and
from what the decoder answers (30_encoding.md R121 to R150). -/

namespace Sys2Proof.Laws

/-- The family RoundTrip holds of every instruction. -/
theorem roundTrip_encode : ∀ i, RoundTrip.Statement i
  -- Format I
  | .nop => RoundTrip.nop | .movReg _ _ => RoundTrip.movReg _ _
  | .notReg _ _ => RoundTrip.notReg _ _ | .divhReg _ _ => RoundTrip.divhReg _ _
  | .switch _ => RoundTrip.switch _ | .dbtrap => RoundTrip.dbtrap
  | .jmpReg _ => RoundTrip.jmpReg _ | .satsubr _ _ => RoundTrip.satsubr _ _
  | .satsubReg _ _ => RoundTrip.satsubReg _ _ | .sataddReg _ _ => RoundTrip.sataddReg _ _
  | .mulhReg _ _ => RoundTrip.mulhReg _ _ | .zxb _ => RoundTrip.zxb _ | .sxb _ => RoundTrip.sxb _
  | .zxh _ => RoundTrip.zxh _ | .sxh _ => RoundTrip.sxh _ | .orReg _ _ => RoundTrip.orReg _ _
  | .xorReg _ _ => RoundTrip.xorReg _ _ | .andReg _ _ => RoundTrip.andReg _ _
  | .tst _ _ => RoundTrip.tst _ _ | .subr _ _ => RoundTrip.subr _ _
  | .sub _ _ => RoundTrip.sub _ _ | .addReg _ _ => RoundTrip.addReg _ _
  | .cmpReg _ _ => RoundTrip.cmpReg _ _
  -- Format II
  | .movImm5 _ _ => RoundTrip.movImm5 _ _ | .sataddImm5 _ _ => RoundTrip.sataddImm5 _ _
  | .addImm5 _ _ => RoundTrip.addImm5 _ _ | .cmpImm5 _ _ => RoundTrip.cmpImm5 _ _
  | .callt _ => RoundTrip.callt _ | .shrImm5 _ _ => RoundTrip.shrImm5 _ _
  | .sarImm5 _ _ => RoundTrip.sarImm5 _ _ | .shlImm5 _ _ => RoundTrip.shlImm5 _ _
  | .mulhImm5 _ _ => RoundTrip.mulhImm5 _ _
  -- Format III
  | .bcond _ _ => RoundTrip.bcond _ _
  -- Format IV
  | .sldbu _ _ => RoundTrip.sldbu _ _ | .sldhu _ _ => RoundTrip.sldhu _ _
  | .sldb _ _ => RoundTrip.sldb _ _ | .sstb _ _ => RoundTrip.sstb _ _
  | .sldh _ _ => RoundTrip.sldh _ _ | .ssth _ _ => RoundTrip.ssth _ _
  | .sldw _ _ => RoundTrip.sldw _ _ | .sstw _ _ => RoundTrip.sstw _ _
  -- Format V
  | .jarl22 _ _ => RoundTrip.jarl22 _ _ | .jr22 _ => RoundTrip.jr22 _
  -- Format VI
  | .addi _ _ _ => RoundTrip.addi _ _ _ | .movea _ _ _ => RoundTrip.movea _ _ _
  | .movImm32 _ _ => RoundTrip.movImm32 _ _ | .movhi _ _ _ => RoundTrip.movhi _ _ _
  | .satsubi _ _ _ => RoundTrip.satsubi _ _ _ | .ori _ _ _ => RoundTrip.ori _ _ _
  | .xori _ _ _ => RoundTrip.xori _ _ _ | .andi _ _ _ => RoundTrip.andi _ _ _
  | .mulhi _ _ _ => RoundTrip.mulhi _ _ _ | .jmpDisp32 _ _ => RoundTrip.jmpDisp32 _ _
  | .jr32 _ => RoundTrip.jr32 _ | .jarl32 _ _ => RoundTrip.jarl32 _ _
  -- Format VII
  | .ldb _ _ _ => RoundTrip.ldb _ _ _ | .ldh _ _ _ => RoundTrip.ldh _ _ _
  | .ldw _ _ _ => RoundTrip.ldw _ _ _ | .stb _ _ _ => RoundTrip.stb _ _ _
  | .sth _ _ _ => RoundTrip.sth _ _ _ | .stw _ _ _ => RoundTrip.stw _ _ _
  | .ldbu _ _ _ => RoundTrip.ldbu _ _ _ | .ldhu _ _ _ => RoundTrip.ldhu _ _ _
  -- Format VIII
  | .set1Imm _ _ _ => RoundTrip.set1Imm _ _ _ | .not1Imm _ _ _ => RoundTrip.not1Imm _ _ _
  | .clr1Imm _ _ _ => RoundTrip.clr1Imm _ _ _ | .tst1Imm _ _ _ => RoundTrip.tst1Imm _ _ _
  -- Format IX
  | .setf _ _ => RoundTrip.setf _ _ | .ldsr _ _ => RoundTrip.ldsr _ _
  | .stsr _ _ => RoundTrip.stsr _ _ | .shrReg _ _ => RoundTrip.shrReg _ _
  | .sarReg _ _ => RoundTrip.sarReg _ _ | .shlReg _ _ => RoundTrip.shlReg _ _
  | .set1Reg _ _ => RoundTrip.set1Reg _ _ | .not1Reg _ _ => RoundTrip.not1Reg _ _
  | .clr1Reg _ _ => RoundTrip.clr1Reg _ _ | .tst1Reg _ _ => RoundTrip.tst1Reg _ _
  | .sasf _ _ => RoundTrip.sasf _ _ | .sch0r _ _ => RoundTrip.sch0r _ _
  | .sch1r _ _ => RoundTrip.sch1r _ _ | .sch0l _ _ => RoundTrip.sch0l _ _
  | .sch1l _ _ => RoundTrip.sch1l _ _
  -- Format X
  | .trap _ => RoundTrip.trap _ | .halt => RoundTrip.halt | .reti => RoundTrip.reti
  | .ctret => RoundTrip.ctret | .dbret => RoundTrip.dbret | .di => RoundTrip.di
  | .ei => RoundTrip.ei
  -- Format XI
  | .shr3 _ _ _ => RoundTrip.shr3 _ _ _ | .sar3 _ _ _ => RoundTrip.sar3 _ _ _
  | .shl3 _ _ _ => RoundTrip.shl3 _ _ _ | .mul _ _ _ => RoundTrip.mul _ _ _
  | .mulu _ _ _ => RoundTrip.mulu _ _ _ | .divh3 _ _ _ => RoundTrip.divh3 _ _ _
  | .divhu _ _ _ => RoundTrip.divhu _ _ _ | .div _ _ _ => RoundTrip.div _ _ _
  | .divu _ _ _ => RoundTrip.divu _ _ _ | .cmov _ _ _ _ => RoundTrip.cmov _ _ _ _
  | .sbf _ _ _ _ => RoundTrip.sbf _ _ _ _ | .satsub3 _ _ _ => RoundTrip.satsub3 _ _ _
  | .adf _ _ _ _ => RoundTrip.adf _ _ _ _ | .satadd3 _ _ _ => RoundTrip.satadd3 _ _ _
  | .mac _ _ _ _ => RoundTrip.mac _ _ _ _ | .macu _ _ _ _ => RoundTrip.macu _ _ _ _
  -- Format XII
  | .mulImm9 _ _ _ => RoundTrip.mulImm9 _ _ _ | .muluImm9 _ _ _ => RoundTrip.muluImm9 _ _ _
  | .cmovImm5 _ _ _ _ => RoundTrip.cmovImm5 _ _ _ _ | .bsw _ _ => RoundTrip.bsw _ _
  | .bsh _ _ => RoundTrip.bsh _ _ | .hsw _ _ => RoundTrip.hsw _ _ | .hsh _ _ => RoundTrip.hsh _ _
  -- Format XIII
  | .dispose _ _ => RoundTrip.dispose _ _ | .disposeJmp _ _ _ => RoundTrip.disposeJmp _ _ _
  | .prepare _ _ => RoundTrip.prepare _ _ | .prepareSp _ _ => RoundTrip.prepareSp _ _
  | .prepareImm16 _ _ _ => RoundTrip.prepareImm16 _ _ _
  | .prepareImm16Hi _ _ _ => RoundTrip.prepareImm16Hi _ _ _
  | .prepareImm32 _ _ _ => RoundTrip.prepareImm32 _ _ _

/-- Settles O1: the family RoundTrip, one lemma per constructor. -/
theorem decodeOfEncode : Obligations.DecodeOfEncode := roundTrip_encode

/-- Settles O2: an answer with an instruction is the first case of what the decoder answers. -/
theorem encodeOfDecode : Obligations.EncodeOfDecode := by
  unfold Obligations.EncodeOfDecode
  intro code rest i h
  have hanswer := decode_answers code
  rw [h] at hanswer
  cases hanswer with
  | instr wf eq => exact ⟨wf, eq⟩

/-- Settles O3: the family CodeLength, one lemma per constructor. -/
theorem codeLengthOfEncode : Obligations.CodeLengthOfEncode := codeLength_encode

/-- Settles O4: no part of the decoder but Expansion 1 answers illegalCode, and it does so on the bits
of R145. -/
theorem illegalCodeIff : Obligations.IllegalCodeIff := by
  unfold Obligations.IllegalCodeIff
  refine fun code => ⟨fun h => ?_, decode_illegalCode⟩
  have hanswer := decode_answers code
  rw [h] at hanswer
  cases hanswer with
  | illegal h => exact h

/-- Settles O5: each word by evaluation. -/
theorem decodedWords : Obligations.DecodedWords :=
  ⟨rfl, rfl, rfl, rfl, rfl, rfl, rfl, rfl, rfl⟩

end Sys2Proof.Laws
end

section
/-! SUPPORT. A step on a code that is no instruction: the exception trap of the illegal code, the fault
of an undefined one (30_encoding.md R145, R146; 60_exceptions.md R426). -/

namespace Sys2Proof.Safety

open Sys2Proof.Machine

section
variable {s : State} {code : List Half}

theorem runInstruction_illegal (hf : Fetched s code) (hd : decode code = .error .illegalCode) :
    s.runInstruction
      = .next ((afterFetch s code).finishInstruction (afterFetch s code).exceptionTrap) := by
  obtain ⟨hfetch, hset, hhit⟩ := hf
  simp only [State.runInstruction, hfetch, State.runCode, hset, hhit, hd, Bool.false_eq_true,
    if_false]
  rfl

theorem runInstruction_undefined (hf : Fetched s code) (hd : decode code = .error .undefinedCode) :
    s.runInstruction = .fault .undefinedInstruction := by
  obtain ⟨hfetch, hset, hhit⟩ := hf
  simp only [State.runInstruction, hfetch, State.runCode, hset, hhit, hd, Bool.false_eq_true,
    if_false]

/-- The exception trap enters debug mode, so no single-step break comes due (R426, R429). -/
theorem exceptionTrap_userMode (s : State) : s.exceptionTrap.userMode = false := by
  rw [State.exceptionTrap, State.userMode, State.enter_dir, debugEntry]
  dsimp only
  rw [if_pos rfl, putBit_getLsbD _ _ _ _ (by decide), if_pos rfl]
  rfl

/-- An address reduced as a PC is saved as it is (10_state.md R25, R36). -/
theorem pcAfter_saved (s : State) (n : Nat) : s.pcAfter n &&& 0x1FFFFFFF#32 = s.pcAfter n := by
  rw [State.pcAfter, reducePc, BitVec.and_assoc]
  rfl

end

/-- Settles O52: an illegal code runs the exception trap, to which the step adds its own fields only;
an undefined one is the fault. -/
theorem codesWithoutInstruction : Obligations.CodesWithoutInstruction := by
  unfold Obligations.CodesWithoutInstruction
  intro s code hr hf
  rw [ready_step hr]
  refine ⟨fun hd => ?_, fun hd => by rw [runInstruction_undefined hf hd]⟩
  rw [runInstruction_illegal hf hd]
  obtain ⟨_, _, hawake⟩ := hr
  refine ⟨_, rfl, ?_, ?_⟩
  · have hfetched : (afterFetch s code).halted = false := hawake
    simp [State.exceptionTrap, hfetched]
  · have hsaved : (afterFetch s code).pcAfter 4 = (s.pc + 4#32) &&& 0x1FFFFFFE#32 := rfl
    rw [← hsaved, ← pcAfter_saved]
    refine debugEntered_enter _ _ _ false ?_
    simp only [State.finishInstruction, exceptionTrap_userMode, Bool.and_false]
    rfl

end Sys2Proof.Safety
end

section
/-! SUPPORT. The loads and stores: the value a load puts in its register, and what either leaves where no
misaligned access exception is due (40_load_store.md R170 to R190). -/

namespace Sys2Proof.Safety

open Sys2Proof.Machine

/-! ## Loads -/

/-- The extension of a loaded value, by the sign or by zero (40_load_store.md R175 to R178). -/
def extendedLoad : Bool → AccessSize → Word → Word
  | true => signedLoad
  | false => unsignedLoad

/-- The bits of the access stay, and those above it repeat the sign or are 0. -/
theorem extendedLoad_getLsbD (signed : Bool) (size : AccessSize) (v : Word) (k : Nat) (hk : k < 32) :
    (extendedLoad signed size v).getLsbD k =
      if k < 8 * size.bytes then v.getLsbD k else signed && v.getLsbD (8 * size.bytes - 1) := by
  cases size with
  | byte | half =>
    cases signed with
    | true =>
      simp [extendedLoad, signedLoad, sext, AccessSize.bytes, hk, BitVec.getElem_signExtend,
        BitVec.msb_eq_getLsbD_last]
    | false => simp [extendedLoad, unsignedLoad, zext, AccessSize.bytes, hk]
  | word =>
    have hin : k < 8 * AccessSize.word.bytes := hk
    rw [if_pos hin]
    cases signed <;> rfl

/-- A value read and extended is the one a load is to put in its register. -/
theorem extendedLoad_valueAt (s : State) (a : Word) (size : AccessSize) (signed : Bool) (k : Nat)
    (hk : k < 32) :
    (extendedLoad signed size (s.valueAt a size)).getLsbD k = loadBit s a size.bytes signed k := by
  have hsize : 0 < size.bytes ∧ size.bytes ≤ 4 := by cases size <;> decide
  rw [extendedLoad_getLsbD signed size _ k hk, valueAt_bit s a size k hk,
    valueAt_bit s a size _ (by omega : 8 * size.bytes - 1 < 32),
    show (8 * size.bytes - 1) / 8 = size.bytes - 1 by omega,
    show (8 * size.bytes - 1) % 8 = 7 by omega, loadBit]
  by_cases hin : k < 8 * size.bytes
  · simp [hin]
  · simp [hin, hsize.1]

section
variable {s : State} {i : Instr} {a : Word} {size : AccessSize} {reg2 : Reg} {signed : Bool}

/-- A load completes with the extended value at the aligned address. -/
theorem loads_of_load (hexec : exec i s = s.load a size (extendedLoad signed size) reg2 i.length)
    (hmis : s.misalignDetected a size = false) (hread : Readable s (aligned s size a) size) :
    Loads s i reg2 (aligned s size a) size.bytes signed := by
  have hval : s.memRead a size = .ok (s.valueAt (aligned s size a) size) :=
    State.readAt_eq_ok.2 ⟨hread, rfl⟩
  refine ⟨_, extendedLoad_valueAt s (aligned s size a) size signed, runs_value ?_⟩
  rw [hexec, State.load, hmis, hval]
  rfl

/-- A load of a byte has no alignment step. -/
theorem loads_byte_of_load
    (hexec : exec i s = s.load a .byte (extendedLoad signed .byte) reg2 i.length)
    (hread : Readable s a .byte) : Loads s i reg2 a 1 signed := by
  have h := loads_of_load hexec (misalignDetected_byte s a)
  rw [aligned_byte] at h
  exact h hread

/-! ## Stores -/

/-- Going on to the next instruction changes the PC alone. -/
theorem Frame.advance {t : State} {dsts : List Reg} {flags : List Nat} {bytes : List Word}
    (h : Frame s t dsts flags bytes) (n : Nat) : Frame s (t.advance n) dsts flags bytes where
  regs := h.regs
  psw := h.psw
  memory := h.memory
  output := h.output
  others := congrArg (fun u : State => { u with pc := t.pcAfter n }) h.others

/-- The record keeps the data on the bus lanes of the access (60_exceptions.md R465). -/
theorem stored_deviceOut {v : Word} (h : s.touchesDevice a size = true) :
    (s.stored a size v).deviceOut
      = s.deviceOut ++ [{ addr := a, size := size, value := v &&& dataLanes size }] := by
  rw [State.stored, if_pos h]
  cases size <;> rfl

/-- A store completes with the low bytes of reg2 at the aligned address. -/
theorem stores_of_store (hexec : exec i s = s.store a size reg2 i.length)
    (hmis : s.misalignDetected a size = false) (hwrite : Writable s (aligned s size a) size) :
    Stores s i (aligned s size a) size (s.reg reg2) [] := by
  obtain ⟨hmap, hram⟩ := hwrite
  have hmem : s.memWrite a size (s.reg reg2) = .ok (s.stored (aligned s size a) size (s.reg reg2)) :=
    State.writeAt_eq_ok.2 ⟨hmap, hram, rfl⟩
  refine ⟨(s.stored (aligned s size a) size (s.reg reg2)).advance i.length, ?_,
    stored_holds s _ size _, by simp, rfl, stored_deviceOut, ?_⟩
  · rw [hexec, State.store, hmis, hmem]
    rfl
  · rw [bytesAt_fst]
    exact (stored_frame s _ size _).advance _

/-- A store of a byte has no alignment step. -/
theorem stores_byte_of_store (hexec : exec i s = s.store a .byte reg2 i.length)
    (hwrite : Writable s a .byte) : Stores s i a .byte (s.reg reg2) [] := by
  have h := stores_of_store hexec (misalignDetected_byte s a)
  rw [aligned_byte] at h
  exact h hwrite

end

/-- Settles O36: each of the ten is the one load, at its address, size and extension. -/
theorem loadResult : Obligations.LoadResult := by
  unfold Obligations.LoadResult
  intro s reg1 reg2
  exact
    ⟨fun _ hread => ⟨loads_byte_of_load rfl hread, loads_byte_of_load rfl hread⟩,
      fun _ hmis hread => ⟨loads_of_load rfl hmis hread, loads_of_load rfl hmis hread⟩,
      fun _ => loads_of_load rfl,
      fun _ => loads_byte_of_load rfl,
      fun _ => loads_byte_of_load rfl,
      fun _ => loads_of_load rfl,
      fun _ => loads_of_load rfl,
      fun _ => loads_of_load rfl⟩

/-- Settles O37: each of the six is the one store, at its address and size. -/
theorem storeResult : Obligations.StoreResult := by
  unfold Obligations.StoreResult
  intro s reg1 reg2
  exact
    ⟨fun _ => stores_byte_of_store rfl,
      fun _ => stores_of_store rfl,
      fun _ => stores_of_store rfl,
      fun _ => stores_byte_of_store rfl,
      fun _ => stores_of_store rfl,
      fun _ => stores_of_store rfl⟩

end Sys2Proof.Safety
end

section
/-! SUPPORT. The products, exact in twice the width of their factors, and the accumulated sums modulo 2^64
(41_multiply_mac.md R200 to R211). -/

namespace Sys2Proof.Safety

open Sys2Proof.Machine

/-! ## Exact products -/

/-- A signed product needs no more than twice the width of its factors. -/
theorem toInt_ofInt_toInt_mul_toInt {w : Nat} (hw : 0 < w) (a b : BitVec w) :
    (BitVec.ofInt (w * 2) (a.toInt * b.toInt)).toInt = a.toInt * b.toInt := by
  have hlow : -2 ^ (w * 2 - 2) ≤ a.toInt * b.toInt := BitVec.le_toInt_mul_toInt
  have hhigh : a.toInt * b.toInt ≤ 2 ^ (w * 2 - 2) := BitVec.toInt_mul_toInt_le
  have hroom : (2 : Int) ^ (w * 2 - 2) < 2 ^ (w * 2 - 1) :=
    pow_lt_pow_right₀ (by norm_num) (by omega)
  exact BitVec.toInt_ofInt_eq_self (by omega) (by linarith) (by linarith)

/-- The signed product of two words is exact (R201). -/
theorem mulSigned_toInt (a b : Word) : (mulSigned a b).toInt = a.toInt * b.toInt :=
  toInt_ofInt_toInt_mul_toInt (by decide) a b

/-- The product of two signed halfwords is exact (R205). -/
theorem mulHalf_toInt (a b : BitVec 16) : (mulHalf a b).toInt = a.toInt * b.toInt :=
  toInt_ofInt_toInt_mul_toInt (by decide) a b

/-- The unsigned product of two words is exact (R203). -/
theorem mulUnsigned_toNat (a b : Word) : (mulUnsigned a b).toNat = a.toNat * b.toNat := by
  have hfits : a.toNat * b.toNat < 2 ^ 32 * 2 ^ 32 := Nat.mul_lt_mul'' a.isLt b.isLt
  exact Nat.mod_eq_of_lt hfits

/-- A sign-extended immediate keeps its value (30_encoding.md R138). -/
theorem sext_toInt {w : Nat} (v : BitVec w) (hw : w ≤ 32) : (sext v).toInt = v.toInt :=
  BitVec.toInt_signExtend_of_le hw

/-- A zero-extended immediate keeps its value (30_encoding.md R138). -/
theorem zext_toNat {w : Nat} (v : BitVec w) (hw : w ≤ 32) : (zext v).toNat = v.toNat :=
  BitVec.toNat_setWidth_of_le hw

/-- The low halfword of a register is the register cut to 16 bits. -/
theorem lowHalf_eq_setWidth (s : State) (r : Reg) : s.lowHalf r = (s.reg r).setWidth 16 :=
  (BitVec.setWidth_eq_extractLsb' (by decide)).symm

/-! ## MUL and MULU -/

/-- The prohibited combination in words (R201 (d), R203). -/
theorem prohibitedMul_iff {reg1 reg2 reg3 : Reg} :
    prohibitedMul reg1 reg2 reg3 = true ↔ reg1 = reg3 ∧ reg1 ≠ reg2 ∧ reg1 ≠ 0#5 ∧ reg3 ≠ 0#5 := by
  simp [prohibitedMul, and_assoc]

/-- Settles O29: each of the four is one exact product stored in the pair. -/
theorem productResult : Obligations.ProductResult := by
  unfold Obligations.ProductResult
  intro s reg2 reg3
  refine ⟨fun reg1 h => ?mul, fun reg1 h => ?mulu, fun imm9 => ?mulImm9, fun imm9 => ?muluImm9⟩
  case mul => exact ⟨_, mulSigned_toInt _ _, runs_pair rfl (if_neg (mt prohibitedMul_iff.1 h))⟩
  case mulu => exact ⟨_, mulUnsigned_toNat _ _, runs_pair rfl (if_neg (mt prohibitedMul_iff.1 h))⟩
  case mulImm9 =>
    refine ⟨mulSigned (s.reg reg2) (sext imm9), ?_, runs_pair rfl rfl⟩
    rw [mulSigned_toInt, sext_toInt imm9 (by decide)]
  case muluImm9 =>
    refine ⟨mulUnsigned (s.reg reg2) (zext imm9), ?_, runs_pair rfl rfl⟩
    rw [mulUnsigned_toNat, zext_toNat imm9 (by decide)]

/-! ## MULH and MULHI -/

/-- Settles O30: each of the three is one exact product of the low halfword of a register. -/
theorem halfwordProduct : Obligations.HalfwordProduct := by
  unfold Obligations.HalfwordProduct
  intro s reg2
  refine ⟨fun reg1 => ?mulhReg, fun imm5 => ?mulhImm5, fun imm16 reg1 => ?mulhi⟩
  case mulhReg =>
    refine ⟨mulHalf (s.lowHalf reg2) (s.lowHalf reg1), ?_, runs_value rfl⟩
    rw [mulHalf_toInt, lowHalf_eq_setWidth, lowHalf_eq_setWidth]
  case mulhImm5 =>
    refine ⟨mulHalf (s.lowHalf reg2) (imm5.signExtend 16), ?_, runs_value rfl⟩
    rw [mulHalf_toInt, lowHalf_eq_setWidth, BitVec.toInt_signExtend_of_le (by decide)]
  case mulhi =>
    refine ⟨mulHalf (s.lowHalf reg1) imm16, ?_, runs_value rfl⟩
    rw [mulHalf_toInt, lowHalf_eq_setWidth]

/-! ## MAC and MACU -/

/-- Adding the pattern of an integer adds the integer modulo 2^w. -/
theorem toNat_ofInt_add {w : Nat} (n : Int) (c : BitVec w) :
    ((BitVec.ofInt w n + c).toNat : Int) = (n + (c.toNat : Int)) % ((2 ^ w : Nat) : Int) := by
  have hc : c = BitVec.ofInt w (c.toNat : Int) := by simp [BitVec.ofInt_natCast]
  have hne : ((2 ^ w : Nat) : Int) ≠ 0 := by positivity
  calc ((BitVec.ofInt w n + c).toNat : Int)
      = ((BitVec.ofInt w (n + (c.toNat : Int))).toNat : Int) := by rw [BitVec.ofInt_add, ← hc]
    _ = (n + (c.toNat : Int)) % ((2 ^ w : Nat) : Int) := by
        rw [BitVec.toNat_ofInt, Int.toNat_of_nonneg (Int.emod_nonneg _ hne)]

/-- For an even reg3 the sum is product plus accumulator modulo 2^64 (R210, R211). -/
theorem macResult_even {reg3 : Reg} (heven : reg3.getLsbD 0 = false) (s : State) (n : Int) :
    ((s.macResult (BitVec.ofInt 64 n) reg3).toNat : Int)
      = (n + ((s.reg (reg3 + 1) ++ s.reg reg3).toNat : Int)) % 18446744073709551616 := by
  rw [State.macResult, heven]
  exact toNat_ofInt_add n (s.accumulator reg3)

/-- The unsigned product is the pattern of the product as an integer. -/
theorem mulUnsigned_eq_ofInt (a b : Word) :
    mulUnsigned a b = BitVec.ofInt 64 ((a.toNat * b.toNat : Nat) : Int) :=
  (BitVec.ofInt_natCast 64 _).symm

/-- Settles O31: both store the one sum, of the signed and of the unsigned product. -/
theorem multiplyAccumulate : Obligations.MultiplyAccumulate := by
  unfold Obligations.MultiplyAccumulate
  intro s reg1 reg2 reg3 reg4
  refine ⟨?mac, ?macu⟩
  case mac => exact ⟨_, fun heven => macResult_even heven s _, runs_pair rfl rfl⟩
  case macu =>
    refine ⟨s.macResult (mulUnsigned (s.reg reg2) (s.reg reg1)) reg3, fun heven => ?_,
      runs_pair rfl rfl⟩
    rw [mulUnsigned_eq_ofInt]
    exact macResult_even heven s _

end Sys2Proof.Safety
end

section
/-! SUPPORT. The additions, subtractions, comparisons and moves: one lemma for each common end of these
instructions, and the flags of R215 in exact integers (42_arithmetic.md). -/

namespace Sys2Proof.Safety

open Sys2Proof.Machine

/-! ## The flags of a sum (R215) -/

/-- The bits of PSW that `withSum` writes. -/
def sumFlags (r : Sum) : List (Nat × Bool) :=
  [(Psw.cy, r.cy), (Psw.ov, r.ov), (Psw.s, r.value.getLsbD 31), (Psw.z, r.value == 0#32)]

/-- `withSum` puts these bits in PSW. -/
theorem withSum_eq_putFlags (s : State) (r : Sum) :
    s.withSum r
      = { s with psw := putFlags s.psw r.cy r.ov (r.value.getLsbD 31) (r.value == 0#32) } := by
  rw [← msb_eq_bit31]; rfl

/-- AddFlags in exact integers: a carry out of 32 bits, a signed sum out of range. -/
theorem sumFlags_addFlags (a b : Word) (c : Bool) :
    sumFlags (addFlags a b c)
      = flagsOf (4294967296 ≤ a.toNat + b.toNat + c.toNat)
          (OutOfRange (a.toInt + b.toInt + c.toNat)) (a + b + BitVec.ofNat 32 c.toNat) := by
  rw [sumFlags, addFlags, overflows_eq]; rfl

/-- SubFlags in exact integers: a borrow, a signed difference out of range. -/
theorem sumFlags_subFlags (a b : Word) (c : Bool) :
    sumFlags (subFlags a b c)
      = flagsOf (a.toNat < b.toNat + c.toNat) (OutOfRange (a.toInt - b.toInt - c.toNat))
          (a - b - BitVec.ofNat 32 c.toNat) := by
  rw [sumFlags, subFlags, overflows_eq]; rfl

/-! ## The common ends -/

section
variable {s : State} {i : Instr} {dst : Reg} {a b : Word}

/-- An instruction that ends in `storeSum` puts the sum in its register and these flags in PSW. -/
theorem runs_storeSum {r : Sum} (he : exec i s = .next (s.storeSum dst r i.length)) :
    Runs s i [(dst, r.value)] (sumFlags r) :=
  runs_flags (by rw [he, State.storeSum, withSum_eq_putFlags])

/-- A comparison puts these flags in PSW and writes no register. -/
theorem runs_withSum {r : Sum} (he : exec i s = .next ((s.withSum r).advance i.length)) :
    Runs s i [] (sumFlags r) :=
  runs_flags_only (by rw [he, withSum_eq_putFlags])

/-- Storing `addFlags` is the addition. -/
theorem adds_of_storeSum (c : Bool)
    (he : exec i s = .next (s.storeSum dst (addFlags a b c) i.length)) :
    Adds s i dst a b c.toNat := by
  rw [Adds, ← sumFlags_addFlags]
  exact runs_storeSum he

/-- Storing `subFlags` is the subtraction. -/
theorem subtracts_of_storeSum (c : Bool)
    (he : exec i s = .next (s.storeSum dst (subFlags a b c) i.length)) :
    Subtracts s i [dst] a b c.toNat := by
  rw [Subtracts, ← sumFlags_subFlags]
  exact runs_storeSum he

/-- Setting the flags of `subFlags` alone is the comparison. -/
theorem subtracts_of_withSum (c : Bool)
    (he : exec i s = .next ((s.withSum (subFlags a b c)).advance i.length)) :
    Subtracts s i [] a b c.toNat := by
  rw [Subtracts, ← sumFlags_subFlags]
  exact runs_withSum he

end

/-! ## The statements -/

/-- Settles O18: each of the four stores one `addFlags`, ADF's with the condition of the old PSW as its
third operand. -/
theorem additionResult : Obligations.AdditionResult := by
  unfold Obligations.AdditionResult
  intro s
  refine ⟨fun reg1 reg2 => ?addReg, fun imm5 reg2 => ?addImm5, fun imm16 reg1 reg2 => ?addi,
    fun cond reg1 reg2 reg3 => ?adf⟩
  case addReg => exact adds_of_storeSum false rfl
  case addImm5 => exact adds_of_storeSum false rfl
  case addi => exact adds_of_storeSum false rfl
  case adf => exact adds_of_storeSum (s.cond cond) rfl

/-- Settles O19: SUB, SUBR and SBF store one `subFlags`, SBF's with the condition of the old PSW as its
third operand; both forms of CMP set its flags alone. -/
theorem subtractionResult : Obligations.SubtractionResult := by
  unfold Obligations.SubtractionResult
  intro s
  refine ⟨fun reg1 reg2 => ?sub, fun reg1 reg2 => ?subr, fun cond reg1 reg2 reg3 => ?sbf,
    fun reg1 reg2 => ?cmpReg, fun imm5 reg2 => ?cmpImm5⟩
  case sub => exact subtracts_of_storeSum false rfl
  case subr => exact subtracts_of_storeSum false rfl
  case sbf => exact subtracts_of_storeSum (s.cond cond) rfl
  case cmpReg => exact subtracts_of_withSum false rfl
  case cmpImm5 => exact subtracts_of_withSum false rfl

/-- Settles O20: each of the five writes one value to one register and goes on. -/
theorem moveResult : Obligations.MoveResult := by
  unfold Obligations.MoveResult
  intro s
  refine ⟨fun reg1 reg2 => ?movReg, fun imm5 reg2 => ?movImm5, fun imm32 reg1 => ?movImm32,
    fun imm16 reg1 reg2 => ?movea, fun imm16 reg1 reg2 => ?movhi⟩
  case movReg => exact runs_value rfl
  case movImm5 => exact runs_value rfl
  case movImm32 => exact runs_value rfl
  case movea => exact runs_value rfl
  case movhi => exact runs_value rfl

end Sys2Proof.Safety
end

section
/-! SUPPORT. The saturated operations: the bits of PSW that a saturation writes, and one lemma for each
of the two common ends of these instructions (43_saturate.md R240, R241). -/

namespace Sys2Proof.Safety

open Sys2Proof.Machine

/-! ## PSW after a saturation (R241) -/

/-- A saturation changes PSW alone. -/
theorem withSaturation_eq_psw (s : State) (r : Sum) (v : Word) :
    s.withSaturation r v = { s with psw := (s.withSaturation r v).psw } := by
  unfold State.withSaturation; split <;> rfl

/-- PSW is that of the four flags, but for SAT, which an overflow sets. -/
theorem withSaturation_psw_getLsbD (s : State) (r : Sum) (v : Word) (k : Nat) :
    (s.withSaturation r v).psw.getLsbD k =
      if k = Psw.sat then s.psw.getLsbD Psw.sat || r.ov
      else (putFlags s.psw r.cy r.ov (v.getLsbD 31) (v == 0#32)).getLsbD k := by
  have hsat : ∀ cy ov sg z, (putFlags s.psw cy ov sg z).getLsbD Psw.sat = s.psw.getLsbD Psw.sat :=
    fun cy ov sg z => (putFlags_mem s.psw cy ov sg z).2 _ (by decide)
  unfold State.withSaturation State.withFlags
  rw [msb_eq_bit31]
  cases r.ov with
  | true => simp [putBit_getLsbD _ _ _ _ (show Psw.sat < 32 by decide)]
  | false =>
    by_cases hk : k = Psw.sat
    · subst hk
      simpa using hsat _ _ _ _
    · simp [hk]

/-- The bits of PSW that `withSaturation` writes. -/
def saturationFlags (s : State) (r : Sum) (v : Word) : List (Nat × Bool) :=
  [(Psw.sat, s.psw.getLsbD Psw.sat || r.ov), (Psw.cy, r.cy), (Psw.ov, r.ov),
    (Psw.s, v.getLsbD 31), (Psw.z, v == 0#32)]

/-- `withSaturation` puts these bits in PSW and leaves the others. -/
theorem saturationFlags_mem (s : State) (r : Sum) (v : Word) :
    (∀ p ∈ saturationFlags s r v, (s.withSaturation r v).psw.getLsbD p.1 = p.2)
      ∧ ∀ k, k ∉ (saturationFlags s r v).map Prod.fst →
        (s.withSaturation r v).psw.getLsbD k = s.psw.getLsbD k := by
  obtain ⟨hput, hkeep⟩ := putFlags_mem s.psw r.cy r.ov (v.getLsbD 31) (v == 0#32)
  constructor
  · intro p hp
    rw [withSaturation_psw_getLsbD]
    rcases List.mem_cons.1 hp with rfl | hflag
    · rw [if_pos rfl]
    · have hne : p.1 ≠ Psw.sat := by
        have : ∀ n ∈ [Psw.cy, Psw.ov, Psw.s, Psw.z], n ≠ Psw.sat := by decide
        exact this _ (List.mem_map_of_mem (f := Prod.fst) hflag)
      rw [if_neg hne, hput p hflag]
  · intro k hk
    obtain ⟨hsat, hflags⟩ := not_or.1 (List.mem_cons.not.1 hk)
    rw [withSaturation_psw_getLsbD, if_neg hsat, hkeep k hflags]

/-! ## The common ends (R240) -/

section
variable {s : State} {i : Instr} {dst : Reg} {a b v : Word}

/-- An instruction that ends in a saturation puts `v` in its register and these flags in PSW. -/
theorem runs_withSaturation {r : Sum}
    (he : exec i s = .next (((s.withSaturation r v).setReg dst v).advance i.length)) :
    Runs s i [(dst, v)] (saturationFlags s r v) := by
  obtain ⟨hput, hkeep⟩ := saturationFlags_mem s r v
  refine completes_reg (psw := (s.withSaturation r v).psw) ?_ (reducePc_pcAfter _ _) hput hkeep
  rw [he, advance_eq_setPc, State.setReg_pcAfter, State.withSaturation_pcAfter,
    ← withSaturation_eq_psw]

/-- `saturatedAdd` is the saturation of the exact sum, with the carry of the 32-bit addition. -/
theorem saturates_of_saturatedAdd (he : exec i s = .next (s.saturatedAdd a b dst i.length)) :
    Saturates s i dst (a.toInt + b.toInt) (4294967296 ≤ a.toNat + b.toNat) := by
  have hov : (addFlags a b false).ov = decide (OutOfRange (a.toInt + b.toInt)) := by
    simp [addFlags, overflows_eq]
  rw [State.saturatedAdd, saturated_eq_clamp] at he
  have h := runs_withSaturation he
  rw [saturationFlags, hov] at h
  exact h

/-- `saturatedSub` is the saturation of the exact difference, with the borrow of the 32-bit
subtraction. -/
theorem saturates_of_saturatedSub (he : exec i s = .next (s.saturatedSub a b dst i.length)) :
    Saturates s i dst (a.toInt - b.toInt) (a.toNat < b.toNat) := by
  have hov : (subFlags a b false).ov = decide (OutOfRange (a.toInt - b.toInt)) := by
    simp [subFlags, overflows_eq]
  rw [State.saturatedSub, saturated_eq_clamp] at he
  have h := runs_withSaturation he
  rw [saturationFlags, hov] at h
  exact h

end

/-! ## The statement -/

/-- Settles O21: the seven forms end in `saturatedAdd` or `saturatedSub`; an immediate is exact under
its sign extension. -/
theorem saturatedResult : Obligations.SaturatedResult := by
  unfold Obligations.SaturatedResult
  intro s
  refine ⟨fun reg1 reg2 => ?sataddReg, fun imm5 reg2 => ?sataddImm5,
    fun reg1 reg2 reg3 => ?satadd3, fun reg1 reg2 => ?satsubReg, fun reg1 reg2 reg3 => ?satsub3,
    fun imm16 reg1 reg2 => ?satsubi, fun reg1 reg2 => ?satsubr⟩
  case sataddReg => exact saturates_of_saturatedAdd rfl
  case sataddImm5 =>
    rw [← sext_toInt imm5 (by decide)]
    exact saturates_of_saturatedAdd rfl
  case satadd3 => exact saturates_of_saturatedAdd rfl
  case satsubReg => exact saturates_of_saturatedSub rfl
  case satsub3 => exact saturates_of_saturatedSub rfl
  case satsubi =>
    rw [← sext_toInt imm16 (by decide)]
    exact saturates_of_saturatedSub rfl
  case satsubr => exact saturates_of_saturatedSub rfl

end Sys2Proof.Safety
end

section
/-! SUPPORT. The logical operations: the three flags they write, and one lemma for each of the two common
ends of these instructions (44_logical.md R255). -/

namespace Sys2Proof.Safety

open Sys2Proof.Machine

/-! ## PSW after a logical operation (R255) -/

/-- `withFlagsNoCy` puts the bits of `flagsNoCy` in PSW and leaves the others, CY and SAT among them. -/
theorem flagsNoCy_mem (s : State) (ov : Bool) (r : Word) :
    (∀ p ∈ flagsNoCy ov r, (s.withFlagsNoCy ov r).psw.getLsbD p.1 = p.2)
      ∧ ∀ k, k ∉ (flagsNoCy ov r).map Prod.fst →
        (s.withFlagsNoCy ov r).psw.getLsbD k = s.psw.getLsbD k := by
  rw [State.withFlagsNoCy_psw, msb_eq_bit31]
  exact putFlagsNoCy_mem s.psw ov (r.getLsbD 31) (r == 0#32)

/-! ## The common ends -/

section
variable {s : State} {i : Instr} {dst : Reg} {r : Word}

/-- An instruction that ends in `storeLogic` puts the result in its register, with OV = 0 and S and Z of
that result, also when the register is r0. -/
theorem runs_storeLogic (he : exec i s = .next (s.storeLogic dst r i.length)) :
    Runs s i [(dst, r)] (flagsNoCy false r) := by
  obtain ⟨hput, hkeep⟩ := flagsNoCy_mem s false r
  refine completes_reg (psw := (s.withFlagsNoCy false r).psw) ?_ (reducePc_pcAfter _ _) hput hkeep
  rw [he, State.storeLogic, advance_eq_setPc, State.setReg_pcAfter, State.withFlagsNoCy_pcAfter]
  rfl

/-- A test sets the same flags and writes no register. -/
theorem runs_withFlagsNoCy {ov : Bool}
    (he : exec i s = .next ((s.withFlagsNoCy ov r).advance i.length)) :
    Runs s i [] (flagsNoCy ov r) := by
  obtain ⟨hput, hkeep⟩ := flagsNoCy_mem s ov r
  exact completes_psw (psw := (s.withFlagsNoCy ov r).psw) he hput hkeep

end

/-! ## The statement -/

/-- Settles O22: seven of the forms end in `storeLogic` of the bitwise result, TST sets the flags of AND
alone. -/
theorem logicalResult : Obligations.LogicalResult := by
  unfold Obligations.LogicalResult
  intro s
  refine ⟨fun reg1 reg2 => ?andReg, fun reg1 reg2 => ?orReg, fun reg1 reg2 => ?xorReg,
    fun reg1 reg2 => ?notReg, fun reg1 reg2 => ?tst, fun imm16 reg1 reg2 => ?andi,
    fun imm16 reg1 reg2 => ?ori, fun imm16 reg1 reg2 => ?xori⟩
  case andReg => exact runs_storeLogic rfl
  case orReg => exact runs_storeLogic rfl
  case xorReg => exact runs_storeLogic rfl
  case notReg => exact runs_storeLogic rfl
  case tst => exact runs_withFlagsNoCy rfl
  case andi => exact runs_storeLogic rfl
  case ori => exact runs_storeLogic rfl
  case xori => exact runs_storeLogic rfl

end Sys2Proof.Safety
end

section
/-! SUPPORT. Data manipulation and bit search: one lemma for each common end of these instructions, the
bits of a shift, and the place a bit search answers (45_data_manipulation.md R270 to R304). -/

namespace Sys2Proof.Safety

open Sys2Proof.Machine

section
variable {s : State} {i : Instr} {dst : Reg}

/-! ## Swaps (R270 to R274) -/

/-- An instruction that ends in `storeSwap` puts the result in its register, with OV = 0, S of that result
and the two zero tests it was given. -/
theorem runs_storeSwap {cy z : Bool} {r : Word} {cyTest zTest : Prop} [Decidable cyTest]
    [Decidable zTest] (hl : i.length = 4) (he : exec i s = .next (s.storeSwap dst cy z r))
    (hcy : cy = true ↔ cyTest) (hz : z = true ↔ zTest) :
    Runs s i [(dst, r)]
      [(Psw.cy, decide cyTest), (Psw.ov, false), (Psw.s, r.getLsbD 31), (Psw.z, decide zTest)] := by
  obtain rfl : cy = decide cyTest := Bool.eq_iff_iff.2 (hcy.trans decide_eq_true_iff.symm)
  obtain rfl : z = decide zTest := Bool.eq_iff_iff.2 (hz.trans decide_eq_true_iff.symm)
  rw [← msb_eq_bit31]
  refine runs_flags ?_
  rw [he, hl]
  rfl

/-- One more zero test in front of a test of the other parts of a word. -/
theorem zeroTest_or {n : Nat} {a : BitVec n} {b : Bool} {p : Prop} (h : b = true ↔ p) :
    (a == 0#n || b) = true ↔ a = 0#n ∨ p :=
  (Bool.or_eq_true_iff ..).trans (or_congr beq_iff_eq h)

/-! ## Extensions (R290 to R294) -/

/-- Zero extension of the low `n` bits keeps these bits and clears the others. -/
theorem zext_low_eq_and (x : Word) {n : Nat} (hn : n ≤ 32) :
    zext (x.extractLsb' 0 n) = x &&& BitVec.ofNat 32 (2 ^ n - 1) := by
  have hmask : 2 ^ n - 1 < 2 ^ 32 := by
    have := Nat.pow_le_pow_right (show 0 < 2 by decide) hn
    have := Nat.two_pow_pos n
    omega
  apply BitVec.eq_of_toNat_eq
  rw [zext_toNat _ hn, BitVec.extractLsb'_toNat, BitVec.toNat_and, BitVec.toNat_ofNat,
    Nat.mod_eq_of_lt hmask, Nat.and_two_pow_sub_one_eq_mod, Nat.shiftRight_zero]

/-! ## Conditional data (R277) -/

/-- The bit SASF shifts in is added to twice the word. -/
theorem shiftLeft_one_or_bit (x : Word) (c : Prop) [Decidable c] :
    (x <<< 1) ||| (if c then 1#32 else 0#32) = x + x + (if c then 1#32 else 0#32) := by
  have hdouble : x <<< 1 = x + x := by
    rw [BitVec.shiftLeft_eq_mul_twoPow, ← BitVec.mul_two]
    rfl
  have hdisjoint : (x <<< 1) &&& (if c then 1#32 else 0#32) = 0#32 := by
    split
    · exact word_ext fun k _ => by by_cases hk : k = 0 <;> simp [hk]
    · exact BitVec.and_zero
  rw [← BitVec.add_eq_or_of_and_eq_zero _ _ hdisjoint, hdouble]

/-! ## Shifts (R280) -/

/-- An instruction that ends in `storeShift` of a value with these bits. -/
theorem shifts_of_storeShift {r : Shifted} {bit : Nat → Bool}
    (he : exec i s = .next (s.storeShift dst r i.length))
    (hbit : ∀ k < 32, r.value.getLsbD k = bit k) : Shifts s i dst bit r.cy := by
  refine ⟨r.value, hbit, ?_⟩
  rw [← msb_eq_bit31]
  exact runs_flags he

/-- An arithmetic right shift by `n` fills the upper `n` bits with the sign. -/
theorem shifts_of_shiftSar {x : Word} {n : Nat}
    (he : exec i s = .next (s.storeShift dst (shiftSar x n) i.length)) :
    Shifts s i dst (fun k => if k + n < 32 then x.getLsbD (k + n) else x.getLsbD 31)
      (decide (0 < n) && x.getLsbD (n - 1)) :=
  shifts_of_storeShift he fun k hk => by
    have hin : ¬ 32 ≤ k := by omega
    simp only [shiftSar, BitVec.getLsbD_sshiftRight, msb_eq_bit31, Nat.add_comm n k, hin,
      decide_false, Bool.not_false, Bool.true_and]

/-- A logical right shift by `n` fills the upper `n` bits with 0. -/
theorem shifts_of_shiftShr {x : Word} {n : Nat}
    (he : exec i s = .next (s.storeShift dst (shiftShr x n) i.length)) :
    Shifts s i dst (fun k => x.getLsbD (k + n)) (decide (0 < n) && x.getLsbD (n - 1)) :=
  shifts_of_storeShift he fun k _ => by
    simp [shiftShr, Nat.add_comm n k]

/-- A logical left shift by `n` fills the lower `n` bits with 0. -/
theorem shifts_of_shiftShl {x : Word} {n : Nat}
    (he : exec i s = .next (s.storeShift dst (shiftShl x n) i.length)) :
    Shifts s i dst (fun k => decide (n ≤ k) && x.getLsbD (k - n))
      (decide (0 < n) && x.getLsbD (32 - n)) :=
  shifts_of_storeShift he fun k hk => by
    simp only [shiftShl, BitVec.getLsbD_shiftLeft, hk, decide_true, Bool.true_and, ← decide_not,
      Nat.not_lt]

/-! ## Bit search (R300) -/

/-- `firstMatch` answers the first of `fuel` places from `k` on that matches, 0 if none does. -/
theorem firstMatch_cases (hit : Nat → Bool) (fuel k : Nat) :
    (firstMatch hit fuel k = 0 ∧ ∀ j, k ≤ j → j < k + fuel → hit j = false)
      ∨ (k ≤ firstMatch hit fuel k ∧ firstMatch hit fuel k < k + fuel
        ∧ hit (firstMatch hit fuel k) = true
        ∧ ∀ j, k ≤ j → j < firstMatch hit fuel k → hit j = false) := by
  induction fuel generalizing k with
  | zero => exact .inl ⟨rfl, fun j hkj hj => by omega⟩
  | succ fuel ih =>
    cases hk : hit k with
    | true =>
      have heq : firstMatch hit (fuel + 1) k = k := by simp [firstMatch, hk]
      rw [heq]
      exact .inr ⟨le_rfl, by omega, hk, fun j hkj hj => by omega⟩
    | false =>
      have heq : firstMatch hit (fuel + 1) k = firstMatch hit fuel (k + 1) := by
        simp [firstMatch, hk]
      have miss (j : Nat) (hkj : k ≤ j) (h : k + 1 ≤ j → hit j = false) : hit j = false := by
        rcases hkj.eq_or_lt with rfl | hlt
        · exact hk
        · exact h hlt
      rw [heq]
      obtain ⟨hzero, hnone⟩ | ⟨hlo, hhi, hhit, hfirst⟩ := ih (k + 1)
      · exact .inl ⟨hzero, fun j hkj hj => miss j hkj fun h => hnone j h (by omega)⟩
      · exact .inr ⟨by omega, by omega, hhit, fun j hkj hj => miss j hkj fun h => hfirst j h hj⟩

/-- Searching the 32 places of a word finds the first hit. -/
theorem firstHit_firstMatch (hit : Nat → Bool) : FirstHit hit (firstMatch hit 32 1) := by
  obtain ⟨hzero, hnone⟩ | ⟨hlo, hhi, hhit, hfirst⟩ := firstMatch_cases hit 32 1
  · exact .inl ⟨hzero, fun j h1 h32 => hnone j h1 (by omega)⟩
  · exact .inr ⟨hlo, by omega, hhit, hfirst⟩

/-- An instruction that ends in `storeSearch` of the first match puts its place in the register, with the
flags of the reading of CY the platform has. -/
theorem searches_of_storeSearch {hit hit' : Nat → Bool} (hl : i.length = 4)
    (he : exec i s = .next (s.storeSearch dst (firstMatch hit 32 1)))
    (hhit : ∀ k, hit k = hit' k) :
    Searches s i dst hit' := by
  obtain rfl : hit = hit' := funext hhit
  have hruns : Runs s i [(dst, BitVec.ofNat 32 (firstMatch hit 32 1))]
      [(Psw.cy, searchCy s.platform.schCyMode (firstMatch hit 32 1)), (Psw.ov, false),
        (Psw.s, false), (Psw.z, firstMatch hit 32 1 == 0)] := by
    refine runs_flags ?_
    rw [he, hl]
    rfl
  refine ⟨firstMatch hit 32 1, firstHit_firstMatch hit, ?_⟩
  cases hmode : s.platform.schCyMode with
  | found => simpa [searchCy, hmode, Bool.beq_eq_decide_eq, bne] using hruns
  | foundAtLastPosition => simpa [searchCy, hmode, Bool.beq_eq_decide_eq] using hruns

end

/-! ## The statements -/

/-- Settles O27: each form stores the extended low byte or halfword; the zero extensions are masks. -/
theorem extensionResult : Obligations.ExtensionResult := by
  unfold Obligations.ExtensionResult
  intro s reg1
  refine ⟨?sxb, ?sxh, ?zxb, ?zxh⟩
  case sxb =>
    rw [BitVec.setWidth_eq_extractLsb' (by decide)]
    exact runs_value rfl
  case sxh =>
    rw [BitVec.setWidth_eq_extractLsb' (by decide)]
    exact runs_value rfl
  case zxb =>
    change Runs s _ [(reg1, s.reg reg1 &&& BitVec.ofNat 32 (2 ^ 8 - 1))] []
    rw [← zext_low_eq_and _ (by decide)]
    exact runs_value rfl
  case zxh =>
    change Runs s _ [(reg1, s.reg reg1 &&& BitVec.ofNat 32 (2 ^ 16 - 1))] []
    rw [← zext_low_eq_and _ (by decide)]
    exact runs_value rfl

/-- Settles O25: every form stores the selected value; SASF's shifted word is twice reg2. -/
theorem conditionalResult : Obligations.ConditionalResult := by
  unfold Obligations.ConditionalResult
  intro s cond one
  refine ⟨fun reg1 reg2 reg3 => ?cmov, fun imm5 reg2 reg3 => ?cmovImm5, fun reg2 => ?sasf,
    fun reg2 => ?setf⟩
  case cmov => exact runs_value rfl
  case cmovImm5 => exact runs_value rfl
  case sasf =>
    rw [← shiftLeft_one_or_bit]
    exact runs_value rfl
  case setf => exact runs_value rfl

/-- Settles O23: each form stores its rearrangement; its zero tests look at the bytes or halfwords of the
result. -/
theorem swapResult : Obligations.SwapResult := by
  unfold Obligations.SwapResult
  intro s reg2 reg3 x bsh bsw hsw
  refine ⟨?bsh, ?bsw, ?hsh, ?hsw⟩
  case bsh =>
    exact runs_storeSwap (r := swapBytesHalf x) rfl rfl (zeroTest_or beq_iff_eq) beq_iff_eq
  case bsw =>
    refine runs_storeSwap (r := swapBytesWord x) rfl rfl ?_ beq_iff_eq
    simp only [Bool.or_assoc]
    exact zeroTest_or (zeroTest_or (zeroTest_or beq_iff_eq))
  case hsh => exact runs_storeSwap (r := x) rfl rfl beq_iff_eq beq_iff_eq
  case hsw =>
    exact runs_storeSwap (r := swapHalves x) rfl rfl (zeroTest_or beq_iff_eq) beq_iff_eq

/-- Settles O26: the nine forms end in one of the three shifts, by a count from a register or an
immediate. -/
theorem shiftResult : Obligations.ShiftResult := by
  unfold Obligations.ShiftResult
  intro s sar shr shl outR outL count
  refine ⟨fun reg1 reg2 => ?sarReg, fun imm5 reg2 => ?sarImm5, fun reg1 reg2 reg3 => ?sar3,
    fun reg1 reg2 => ?shrReg, fun imm5 reg2 => ?shrImm5, fun reg1 reg2 reg3 => ?shr3,
    fun reg1 reg2 => ?shlReg, fun imm5 reg2 => ?shlImm5, fun reg1 reg2 reg3 => ?shl3⟩
  case sarReg => exact shifts_of_shiftSar rfl
  case sarImm5 => exact shifts_of_shiftSar rfl
  case sar3 => exact shifts_of_shiftSar rfl
  case shrReg => exact shifts_of_shiftShr rfl
  case shrImm5 => exact shifts_of_shiftShr rfl
  case shr3 => exact shifts_of_shiftShr rfl
  case shlReg => exact shifts_of_shiftShl rfl
  case shlImm5 => exact shifts_of_shiftShl rfl
  case shl3 => exact shifts_of_shiftShl rfl

/-- Settles O28: the four forms store the first match, from the left or from the right, of a 0 or a 1. -/
theorem searchResult : Obligations.SearchResult := by
  unfold Obligations.SearchResult
  intro s reg2 reg3
  refine ⟨?sch0l, ?sch0r, ?sch1l, ?sch1r⟩
  case sch0l => exact searches_of_storeSearch rfl rfl (fun _ => beq_false _)
  case sch0r => exact searches_of_storeSearch rfl rfl (fun _ => beq_false _)
  case sch1l => exact searches_of_storeSearch rfl rfl (fun _ => beq_true _)
  case sch1r => exact searches_of_storeSearch rfl rfl (fun _ => beq_true _)

end Sys2Proof.Safety
end

section
/-! SUPPORT. The divisions: what the two division operations answer, the exact integers of their quotient
and remainder, and one lemma for each of the two common ends of these instructions (46_divide.md R310 to
R318). -/

namespace Sys2Proof.Safety

open Sys2Proof.Machine

/-! ## The division operations -/

/-- The overflowing pair of R312 is the one the library's signed division rules leave out. -/
theorem ne_intMin_or_ne_neg_one {a b : Word} (hpair : ¬(a = 0x80000000#32 ∧ b = 0xFFFFFFFF#32)) :
    a ≠ BitVec.intMin 32 ∨ b ≠ -1#32 :=
  not_and_or.1 hpair

/-- Outside R311 and R312 a signed division answers the truncated quotient and its remainder. -/
theorem divideSigned_eq_sdiv_srem {a b : Word} (tick : Nat) (hb : b ≠ 0#32)
    (hpair : ¬(a = 0x80000000#32 ∧ b = 0xFFFFFFFF#32)) :
    divideSigned tick a b = quotientOf (a.sdiv b) (a.srem b) false := by
  rw [divideSigned, if_neg hb, if_neg hpair, ← BitVec.toInt_srem, BitVec.ofInt_toInt,
    ← BitVec.toInt_sdiv_of_ne_or_ne a b (ne_intMin_or_ne_neg_one hpair), BitVec.ofInt_toInt]

/-- The overflowing pair of R312. -/
theorem divideSigned_overflow (tick : Nat) :
    divideSigned tick 0x80000000#32 0xFFFFFFFF#32 = quotientOf 0x80000000#32 0#32 true := rfl

/-- A signed division by zero (R311). -/
theorem divideSigned_zero (tick : Nat) (a : Word) : divideSigned tick a 0#32 = divideByZero tick :=
  rfl

/-- An unsigned division by a divisor that is not 0. -/
theorem divideUnsigned_eq_div_mod {a b : Word} (tick : Nat) (hb : b ≠ 0#32) :
    divideUnsigned tick a b = quotientOf (a / b) (a % b) false := by
  rw [divideUnsigned, if_neg hb, ← BitVec.udiv_def, ← BitVec.umod_def]

/-- An unsigned division by zero (R311). -/
theorem divideUnsigned_zero (tick : Nat) (a : Word) :
    divideUnsigned tick a 0#32 = divideByZero tick := rfl

/-! ## Quotient and remainder in exact integers (R310) -/

/-- A signed quotient and remainder that do not overflow are those of a division truncated toward zero. -/
theorem truncatedDivision_sdiv_srem {a b : Word} (hb : b ≠ 0#32)
    (hpair : ¬(a = 0x80000000#32 ∧ b = 0xFFFFFFFF#32)) :
    TruncatedDivision a b (a.sdiv b) (a.srem b) := by
  refine ⟨?sum, ?smaller, ?sign⟩
  case sum =>
    rw [BitVec.toInt_sdiv_of_ne_or_ne a b (ne_intMin_or_ne_neg_one hpair), BitVec.toInt_srem,
      Int.tdiv_mul_add_tmod]
  case smaller =>
    have hpos : 0 < b.toInt.natAbs := Int.natAbs_pos.2 (BitVec.toInt_ne.2 hb)
    rw [BitVec.toInt_srem, Int.natAbs_tmod]
    exact Nat.mod_lt _ hpos
  case sign =>
    by_cases hrem : a.srem b = 0#32
    · exact .inl hrem
    · exact .inr (by simp [BitVec.msb_srem, hrem])

/-- An unsigned quotient and remainder give the dividend back, with a remainder below the divisor. -/
theorem toNat_div_mod {a b : Word} (hb : b ≠ 0#32) :
    a.toNat = (a / b).toNat * b.toNat + (a % b).toNat ∧ (a % b).toNat < b.toNat := by
  have hpos : 0 < b.toNat := Nat.pos_of_ne_zero (BitVec.toNat_ne.1 hb)
  rw [BitVec.toNat_udiv, BitVec.toNat_umod]
  exact ⟨(Nat.div_add_mod' _ _).symm, Nat.mod_lt _ hpos⟩

/-! ## The common ends -/

/-- `i` leaves `results` of the quotient and remainder of `d`, with the OV, S and Z of `d`; CY and SAT stay. -/
def LeavesQuotient (s : State) (i : Instr) (results : Word → Word → List (Reg × Word))
    (d : Machine.Quotient) : Prop :=
  Runs s i (results d.quot d.rem) [(Psw.ov, d.ov), (Psw.s, d.sg), (Psw.z, d.z)]

section
variable {s : State} {i : Instr} {results : Word → Word → List (Reg × Word)} {tick : Nat}
  {a b : Word}

/-- A three-operand division leaves the quotient in reg2, then the remainder in reg3. -/
theorem leavesQuotient_storeDivision {reg2 reg3 : Reg} {d : Machine.Quotient} (hl : i.length = 4)
    (he : exec i s = .next (s.storeDivision reg2 reg3 d)) :
    LeavesQuotient s i (quotRem reg2 reg3) d :=
  runs_division hl he

/-- The two-operand DIVH stores the quotient and drops the remainder (R315). -/
theorem leavesQuotient_setReg {reg2 : Reg} {d : Machine.Quotient}
    (he : exec i s = .next (((s.withQuotient d).setReg reg2 d.quot).advance i.length)) :
    LeavesQuotient s i (fun q _ => [(reg2, q)]) d := by
  obtain ⟨hput, hkeep⟩ := putFlagsNoCy_mem s.psw d.ov d.sg d.z
  refine completes_reg (psw := (s.withQuotient d).psw) ?_ (reducePc_pcAfter _ _) hput hkeep
  rw [he, advance_eq_setPc, State.setReg_pcAfter]
  rfl

/-- A quotient that sets S and Z itself is left with the flags of R310. -/
theorem LeavesQuotient.runs_quotientOf {q rem : Word} {ov : Bool}
    (h : LeavesQuotient s i results (quotientOf q rem ov)) :
    Runs s i (results q rem) (flagsNoCy ov q) := by
  rw [flagsNoCy, ← msb_eq_bit31]
  exact h

/-- An instruction that leaves a signed quotient for a divisor that is not 0. -/
theorem LeavesQuotient.dividesSigned (h : LeavesQuotient s i results (divideSigned tick a b))
    (hb : b ≠ 0#32) : DividesSigned s i a b results := by
  unfold DividesSigned
  split
  case isTrue hpair =>
    obtain ⟨rfl, rfl⟩ := hpair
    rw [divideSigned_overflow] at h
    exact h.runs_quotientOf
  case isFalse hpair =>
    rw [divideSigned_eq_sdiv_srem tick hb hpair] at h
    exact ⟨_, _, truncatedDivision_sdiv_srem hb hpair, h.runs_quotientOf⟩

/-- An instruction that leaves an unsigned quotient for a divisor that is not 0. -/
theorem LeavesQuotient.dividesUnsigned (h : LeavesQuotient s i results (divideUnsigned tick a b))
    (hb : b ≠ 0#32) : DividesUnsigned s i a b results := by
  rw [divideUnsigned_eq_div_mod tick hb] at h
  obtain ⟨hsum, hsmaller⟩ := toNat_div_mod (a := a) hb
  exact ⟨_, _, hsum, hsmaller, h.runs_quotientOf⟩

/-- An instruction that leaves the free values of R311. -/
theorem LeavesQuotient.dividesByZero (h : LeavesQuotient s i results (divideByZero tick)) :
    DividesByZero s i results :=
  ⟨_, _, _, _, h⟩

/-- A signed division leaves them for a divisor of 0. -/
theorem LeavesQuotient.signed_dividesByZero
    (h : LeavesQuotient s i results (divideSigned tick a b)) (hb : b = 0#32) :
    DividesByZero s i results := by
  rw [hb, divideSigned_zero] at h
  exact h.dividesByZero

/-- An unsigned division leaves them for a divisor of 0. -/
theorem LeavesQuotient.unsigned_dividesByZero
    (h : LeavesQuotient s i results (divideUnsigned tick a b)) (hb : b = 0#32) :
    DividesByZero s i results := by
  rw [hb, divideUnsigned_zero] at h
  exact h.dividesByZero

end

/-! ## What each instruction leaves -/

section
variable (s : State) (reg1 reg2 reg3 : Reg)

/-- The divisor of DIV is reg1 (R314). -/
theorem div_leavesQuotient : LeavesQuotient s (.div reg1 reg2 reg3) (quotRem reg2 reg3)
    (divideSigned s.tick (s.reg reg2) (s.reg reg1)) :=
  leavesQuotient_storeDivision rfl rfl

/-- The divisor of DIVU is reg1, read without sign (R318). -/
theorem divu_leavesQuotient : LeavesQuotient s (.divu reg1 reg2 reg3) (quotRem reg2 reg3)
    (divideUnsigned s.tick (s.reg reg2) (s.reg reg1)) :=
  leavesQuotient_storeDivision rfl rfl

/-- The divisor of DIVH is the low halfword of reg1 with its sign (R316). -/
theorem divh3_leavesQuotient : LeavesQuotient s (.divh3 reg1 reg2 reg3) (quotRem reg2 reg3)
    (divideSigned s.tick (s.reg reg2) (((s.reg reg1).setWidth 16).signExtend 32)) := by
  rw [← lowHalf_eq_setWidth]
  exact leavesQuotient_storeDivision rfl rfl

/-- The divisor of DIVHU is the low halfword of reg1 without sign (R317). -/
theorem divhu_leavesQuotient : LeavesQuotient s (.divhu reg1 reg2 reg3) (quotRem reg2 reg3)
    (divideUnsigned s.tick (s.reg reg2) (((s.reg reg1).setWidth 16).setWidth 32)) := by
  rw [← lowHalf_eq_setWidth]
  exact leavesQuotient_storeDivision rfl rfl

/-- The two-operand DIVH has the same divisor (R315). -/
theorem divhReg_leavesQuotient : LeavesQuotient s (.divhReg reg1 reg2) (fun q _ => [(reg2, q)])
    (divideSigned s.tick (s.reg reg2) (((s.reg reg1).setWidth 16).signExtend 32)) := by
  rw [← lowHalf_eq_setWidth]
  exact leavesQuotient_setReg rfl

end

/-! ## The statements -/

/-- Settles O32: each of the three leaves `divideSigned` of the dividend and its divisor. -/
theorem signedDivision : Obligations.SignedDivision := by
  unfold Obligations.SignedDivision
  intro s reg1 reg2 reg3 a b h
  exact ⟨(div_leavesQuotient s reg1 reg2 reg3).dividesSigned,
    (divh3_leavesQuotient s reg1 reg2 reg3).dividesSigned,
    (divhReg_leavesQuotient s reg1 reg2).dividesSigned⟩

/-- Settles O33: both leave `divideUnsigned` of the dividend and their divisor. -/
theorem unsignedDivision : Obligations.UnsignedDivision := by
  unfold Obligations.UnsignedDivision
  intro s reg1 reg2 reg3 a b h
  exact ⟨(divu_leavesQuotient s reg1 reg2 reg3).dividesUnsigned,
    (divhu_leavesQuotient s reg1 reg2 reg3).dividesUnsigned⟩

/-- Settles O34: with a divisor of 0 each of the five leaves the free values of `divideByZero`; a zero
halfword extends to a zero word, with and without sign. -/
theorem divisionByZero : Obligations.DivisionByZero := by
  unfold Obligations.DivisionByZero
  intro s reg1 reg2 reg3 h
  have hsext (hz : h = 0#16) : h.signExtend 32 = 0#32 := by rw [hz]; rfl
  have hzext (hz : h = 0#16) : h.setWidth 32 = 0#32 := by rw [hz]; rfl
  refine ⟨?div, ?divu, fun hz => ?divh3, fun hz => ?divhu, fun hz => ?divhReg⟩
  case div => exact (div_leavesQuotient s reg1 reg2 reg3).signed_dividesByZero
  case divu => exact (divu_leavesQuotient s reg1 reg2 reg3).unsigned_dividesByZero
  case divh3 => exact (divh3_leavesQuotient s reg1 reg2 reg3).signed_dividesByZero (hsext hz)
  case divhu => exact (divhu_leavesQuotient s reg1 reg2 reg3).unsigned_dividesByZero (hzext hz)
  case divhReg => exact (divhReg_leavesQuotient s reg1 reg2).signed_dividesByZero (hsext hz)

end Sys2Proof.Safety
end

section
/-! SUPPORT. The entries to debug mode and the one way back: every cause of an entry ends at the
handler, and DBRET alone leaves debug mode (60_exceptions.md R405, R426 to R428, R441, R463). -/

namespace Sys2Proof.Safety

open Sys2Proof.Machine

/-! ## Entries to debug mode -/

/-- The machine stands at the start of the debug handler, with the bits of PSW that every entry
sets. -/
structure AtDebugHandler (t : State) : Prop where
  mode : t.userMode = false
  pc : t.pc = 0x00000060#32
  set : ∀ k ∈ [Psw.np, Psw.ep, Psw.id], t.psw.getLsbD k = true

section
variable {s t : State} {i : Instr}

theorem DebugEntered.atHandler {dbpc : Word} {marks : List Nat} (h : DebugEntered s t dbpc marks) :
    AtDebugHandler t := by
  refine ⟨?_, h.pc, h.set⟩
  rw [State.userMode, h.marked Dir.dm (by simp)]
  rfl

theorem debugBreak_entered (s : State) (dbpc : Word) :
    DebugEntered s (s.debugBreak dbpc) (dbpc &&& 0x1FFFFFFF#32) [] :=
  debugEntered_enter s _ dbpc true rfl

theorem exceptionTrap_entered (s : State) :
    DebugEntered s s.exceptionTrap (s.pcAfter 4 &&& 0x1FFFFFFF#32) [] :=
  debugEntered_enter s _ (s.pcAfter 4) false rfl

/-- The state DBTRAP leaves (49_special_debug.md R386). -/
theorem dbtrap_exec (s : State) :
    exec .dbtrap s = .next (if s.dir.getLsbD Dir.ext then
        { s.enter (debugEntry (s.pcAfter 2) false) with
          dir := putBit (s.enter (debugEntry (s.pcAfter 2) false)).dir Dir.stt true }
      else s.enter (debugEntry (s.pcAfter 2) false)) := rfl

/-- DBTRAP enters debug mode, with STT set while DIR.EXT = 1. -/
theorem dbtrap_entered (h : exec .dbtrap s = .next t) :
    DebugEntered s t (s.pcAfter 2) (if s.dir.getLsbD Dir.ext = true then [Dir.stt] else []) := by
  have hentry := debugEntered_enter s _ (s.pcAfter 2) false rfl
  rw [pcAfter_saved] at hentry
  rw [dbtrap_exec] at h
  cases h
  split
  · exact debugEntered_mark (by decide) hentry rfl
  · exact hentry

/-- A mark put in DIR, the sequential progress and the fields of the step are not looked at. -/
theorem AtDebugHandler.congr {u : State} (h : AtDebugHandler t) (hmode : u.userMode = t.userMode)
    (hpc : u.pc = t.pc) (hpsw : u.psw = t.psw) : AtDebugHandler u :=
  ⟨hmode.trans h.mode, hpc.trans h.pc, fun k hk => by rw [hpsw]; exact h.set k hk⟩

/-- A break of a breakpoint channel marks DIR after the entry of R428. -/
theorem channelBreak_atHandler (s : State) (w : Watch) (dbpc : Word) :
    AtDebugHandler (s.channelBreak w dbpc) := by
  have hentry := (debugBreak_entered (s.keepProgress w) dbpc).atHandler
  exact ⟨channelBreak_userMode s w dbpc, hentry.pc, hentry.set⟩

/-! ## What a step does to the mode -/

/-- What happens to the mode from `s` to `t`, where `returns` says that a return from debug mode was
run. -/
inductive ModeMove (returns : Prop) (s t : State) : Prop where
  | kept : t.userMode = s.userMode → ModeMove returns s t
  | entered : AtDebugHandler t → ModeMove returns s t
  | returned : returns → t.userMode = true → ModeMove returns s t

/-- LDSR to DIR writes DM in neither mode (49_special_debug.md R365). -/
theorem writeDir_userMode (s : State) (v : Word) : (s.writeDir v).userMode = s.userMode := by
  unfold State.writeDir
  split
  · show (!(mergeBits 0x00400000#32 s.dir v).getLsbD Dir.dm) = _
    rw [mergeBits_getLsbD, if_neg (by decide)]
    rfl
  · show (!(debugWriteDir s.dir v).getLsbD Dir.dm) = _
    rw [debugWriteDir_getLsbD _ _ _ (by decide)]
    rfl

/-- No LDSR changes the mode. -/
theorem writeSysreg_userMode {r : SysReg} {v : Word} (h : s.writeSysreg r v = .ok t) :
    t.userMode = s.userMode := by
  cases r with
  | ecr => cases h
  | dir => cases h; exact writeDir_userMode s v
  | bpc =>
    rw [State.writeSysreg] at h
    split at h
    · cases h; rfl
    · cases h
  | _ => cases h; rfl

/-- An instruction keeps the mode, enters debug mode, or is DBRET. -/
theorem exec_modeMove (h : exec i s = .next t) : ModeMove (i = .dbret) s t := by
  cases exec_effect h with
  | plain hp => exact .kept (by rw [State.userMode, hp.rest]; rfl)
  | misalign => exact .entered (misalignBreak_entered s).atHandler
  | alignError => exact .entered (alignErrorBreak_entered s).atHandler
  | callt => exact .kept (by simp [State.userMode])
  | halt | trap | reti | ctret => exact .kept rfl
  | ldsr reg2 regID r u _ hu =>
    exact .kept ((State.advance_userMode u 4).trans (writeSysreg_userMode hu))
  | dbret =>
    refine .returned rfl ?_
    show (!(putBit s.dir Dir.dm false).getLsbD Dir.dm) = true
    rw [putBit_getLsbD _ _ _ _ (by decide)]
    rfl
  | dbtrap => exact .entered (dbtrap_entered h).atHandler

/-- The breakpoints and the single-step arming after an instruction enter debug mode or keep the
mode. -/
theorem ModeMove.finish {returns : Prop} {u : State} (h : ModeMove returns s t)
    (es : List BusEvent) : ModeMove returns s (u.finishInstruction (t.afterAccesses es)) := by
  unfold State.afterAccesses
  dsimp only
  split
  · exact .entered ((channelBreak_atHandler t _ t.pc).congr rfl rfl rfl)
  · cases h with
    | kept hmode => exact .kept hmode
    | entered hat => exact .entered (hat.congr rfl rfl rfl)
    | returned hret hmode => exact .returned hret hmode

/-- The code at the PC of `s` is a DBRET. -/
def FetchesDbret (s : State) : Prop :=
  ∃ code rest, s.fetch = .ok code ∧ decode code = .ok (.dbret, rest)

/-- Whatever a step did, it kept the mode, entered debug mode, or ran a DBRET. -/
theorem Ran.modeMove (h : Ran s t) : ModeMove (FetchesDbret s) s t := by
  cases h with
  | single => exact .entered ((debugBreak_entered s s.pc).atHandler.congr rfl rfl rfl)
  | accept r =>
    match r with
    | .nmi .nmi0 | .nmi .nmi1 | .nmi .nmi2 | .int _ => exact .kept rfl
  | wait => exact .kept rfl
  | fetchBreak code => exact .entered (channelBreak_atHandler _ _ _)
  | illegal code =>
    exact .entered ((exceptionTrap_entered (afterFetch s code)).atHandler.congr rfl rfl rfl)
  | instr code rest i u _ hfetch hdecode hu =>
    refine ModeMove.finish ?_ _
    cases exec_modeMove hu with
    | kept hmode => exact .kept hmode
    | entered hat => exact .entered hat
    | returned hret hmode => exact .returned ⟨code, rest, hfetch, hret ▸ hdecode⟩ hmode

end

/-- Settles O13: a step that ends in debug mode and started in user mode entered at the handler. -/
theorem debugModeEntry : Obligations.DebugModeEntry := by
  unfold Obligations.DebugModeEntry
  intro s t h huser hdebug
  obtain ⟨u, rfl, hu⟩ := step_ran h
  have hdebug : u.userMode = false := hdebug
  cases hu.modeMove with
  | kept hmode => simp [huser, hdebug] at hmode
  | entered hat =>
    exact ⟨hat.pc, hat.set _ (by simp), hat.set _ (by simp), hat.set _ (by simp)⟩
  | returned _ hmode => simp [hdebug] at hmode

/-- Settles O14: of what a step can do to the mode, only DBRET ends in user mode from debug mode. -/
theorem debugModeExit : Obligations.DebugModeExit := by
  unfold Obligations.DebugModeExit
  intro s t h hdebug huser
  obtain ⟨u, rfl, hu⟩ := step_ran h
  have huser : u.userMode = true := huser
  cases hu.modeMove with
  | kept hmode => simp [huser, hdebug] at hmode
  | entered hat => simp [hat.mode] at huser
  | returned hret _ => exact hret

/-- Settles O51: the entry of DBTRAP, in whichever mode it runs, halted or not. -/
theorem debugTrapEntry : Obligations.DebugTrapEntry := by
  unfold Obligations.DebugTrapEntry
  intro s
  refine ⟨_, dbtrap_exec s, ?_, dbtrap_entered (dbtrap_exec s)⟩
  split
  · simp [debugEntry]
  · simp [debugEntry]

/-! ## Alignment breaks -/

section
variable {s : State} {i : Instr}

/-- A debug break ends HALT mode. -/
theorem misalignBreak_halted (s : State) : s.misalignBreak.halted = false := by
  simp [State.misalignBreak, State.debugBreak_eq]

theorem alignErrorBreak_halted (s : State) : s.alignErrorBreak.halted = false := by
  simp [State.alignErrorBreak, State.debugBreak_eq]

/-- `i` only takes the debug break of R463 that marks bit `mark` of DIR. -/
def BreaksForAlignment (s : State) (i : Instr) (mark : Nat) : Prop :=
  ∃ t, exec i s = .next t ∧ t.halted = false
    ∧ DebugEntered s t (s.pc &&& 0x1FFFFFFF#32) [mark]

theorem breaks_of_misalignBreak (h : exec i s = .next s.misalignBreak) :
    BreaksForAlignment s i Dir.mt :=
  ⟨_, h, misalignBreak_halted s, misalignBreak_entered s⟩

theorem breaks_of_alignErrorBreak (h : exec i s = .next s.alignErrorBreak) :
    BreaksForAlignment s i Dir.alignErr :=
  ⟨_, h, alignErrorBreak_halted s, alignErrorBreak_entered s⟩

/-- `i` is a load or a store of `size` at `a`. -/
inductive Accesses (s : State) (i : Instr) (a : Word) (size : AccessSize) : Prop where
  | load {ext reg2 len} : exec i s = s.load a size ext reg2 len → Accesses s i a size
  | store {reg2 len} : exec i s = s.store a size reg2 len → Accesses s i a size

/-- A load or a store at a misaligned address breaks instead. -/
theorem Accesses.breaks {a : Word} {size : AccessSize} (h : Accesses s i a size)
    (huser : s.userMode = true) (hmae : s.dir.getLsbD Dir.mae = true)
    (hmis : misaligned size a = true) : BreaksForAlignment s i Dir.mt := by
  have hdet : s.misalignDetected a size = true := by
    simp [State.misalignDetected, huser, hmae, hmis]
  apply breaks_of_misalignBreak
  cases h with
  | load he => rw [he, State.load, if_pos hdet]
  | store he => rw [he, State.store, if_pos hdet]

/-- `i` is a form of PREPARE or DISPOSE. -/
inductive MovesFrame (s : State) (i : Instr) : Prop where
  | prepare {l n f} : exec i s = s.prepareWith l n f → MovesFrame s i
  | dispose {n l f} : exec i s = s.disposeWith n l f → MovesFrame s i

/-- PREPARE and DISPOSE with a misaligned sp break instead. -/
theorem MovesFrame.breaks (h : MovesFrame s i) (hdet : s.alignErrorDetected = true) :
    BreaksForAlignment s i Dir.alignErr := by
  apply breaks_of_alignErrorBreak
  cases h with
  | prepare he => rw [he, State.prepareWith, if_pos hdet]
  | dispose he => rw [he, State.disposeWith, if_pos hdet]

/-- A word address is misaligned when it is no multiple of 4 (20_memory.md R89). -/
theorem misaligned_word {a : Word} (h : a.toNat % 4 ≠ 0) : misaligned .word a = true := by
  have h0 : a.getLsbD 0 = decide (a.toNat % 2 = 1) := by
    rw [BitVec.getLsbD, Nat.testBit_zero]
  have h1 : a.getLsbD 1 = decide (a.toNat / 2 % 2 = 1) := by
    rw [BitVec.getLsbD, Nat.testBit_succ, Nat.testBit_zero]
  simp only [misaligned, h0, h1, Bool.or_eq_true, decide_eq_true_eq]
  omega

end

/-- Settles O38: each access is a load or a store, and each stack form a PREPARE or a DISPOSE, at an
address that its check finds misaligned. -/
theorem alignmentBreaks : Obligations.AlignmentBreaks := by
  unfold Obligations.AlignmentBreaks
  intro s huser
  refine ⟨fun hmae i a h => ?accesses, fun haee hsp i l n r v w hi => ?frames⟩
  case accesses =>
    obtain ⟨hform, hodd⟩ | ⟨hform, hmod⟩ := h
    · refine Accesses.breaks (size := .half) ?_ huser hmae hodd
      obtain ⟨d, r1, r2, hi, rfl⟩ | ⟨d, r2, hi, rfl⟩ | ⟨d, r2, rfl, rfl⟩ := hform
      · simp only [List.mem_cons, List.not_mem_nil, or_false] at hi
        obtain rfl | rfl | rfl := hi
        · exact .load rfl
        · exact .load rfl
        · exact .store rfl
      · simp only [List.mem_cons, List.not_mem_nil, or_false] at hi
        obtain rfl | rfl := hi
        · exact .load rfl
        · exact .store rfl
      · exact .load rfl
    · refine Accesses.breaks ?_ huser hmae (misaligned_word hmod)
      obtain ⟨d, r1, r2, hi, rfl⟩ | ⟨d, r2, hi, rfl⟩ := hform
      · simp only [List.mem_cons, List.not_mem_nil, or_false] at hi
        obtain rfl | rfl := hi
        · exact .load rfl
        · exact .store rfl
      · simp only [List.mem_cons, List.not_mem_nil, or_false] at hi
        obtain rfl | rfl := hi
        · exact .load rfl
        · exact .store rfl
  case frames =>
    have hdet : s.alignErrorDetected = true := by
      simp [State.alignErrorDetected, huser, haee, misaligned_word hsp]
    refine MovesFrame.breaks ?_ hdet
    simp only [List.mem_cons, List.not_mem_nil, or_false] at hi
    obtain rfl | rfl | rfl | rfl | rfl | rfl | rfl := hi
    · exact .prepare rfl
    · exact .prepare rfl
    · exact .prepare rfl
    · exact .prepare rfl
    · exact .prepare rfl
    · exact .dispose rfl
    · exact .dispose rfl

end Sys2Proof.Safety
end


section
/-! SUPPORT. The boundary of a step: the entry sequences of TRAP, the maskable interrupt and the
NMIs, which request is accepted, HALT mode, single-step, and the instruction at the PC
(60_exceptions.md R411 to R429, R450). -/

namespace Sys2Proof.Safety

open Sys2Proof.Machine

/-! ## PSW after an entry sequence -/

section
variable {s t : State} {e : Entry}

/-- PSW after an entry sequence, at every bit. -/
theorem enter_psw_getLsbD (s : State) (e : Entry) (k : Nat) :
    (s.enter e).psw.getLsbD k =
      if e.transferSb = true ∧ k = Psw.ss then
        ((s.psw.getLsbD Psw.sb || e.setBits.getLsbD Psw.sb) && !e.clearBits.getLsbD Psw.sb)
          && s.dir.getLsbD Dir.sse
      else (s.psw.getLsbD k || e.setBits.getLsbD k) && !e.clearBits.getLsbD k := by
  rw [State.enter_psw]
  by_cases hk : k < 32
  · exact enteredPsw_getLsbD _ _ _ _ hk
  · have hss : k ≠ Psw.ss := by show k ≠ 11; omega
    have hout : ∀ x : Word, x.getLsbD k = false := fun x => BitVec.getLsbD_of_ge _ _ (by omega)
    simp [hout, hss]

/-- A word whose bits below 32 are those of a list has no others. -/
theorem getLsbD_of_bits {w : Word} {bits : List Nat} (h : ∀ k < 32, w.getLsbD k = decide (k ∈ bits))
    (hlt : ∀ k ∈ bits, k < 32) (k : Nat) : w.getLsbD k = decide (k ∈ bits) := by
  by_cases hk : k < 32
  · exact h k hk
  · have hout : k ∉ bits := fun hin => hk (hlt k hin)
    simp [hout, BitVec.getLsbD_of_ge _ _ (by omega : 32 ≤ k)]

/-- PSW after the entry of an interrupt: the bits `marks` are set, EP is cleared, SS takes SB while
SSE allows it, the others stay (60_exceptions.md R420, R422). -/
structure InterruptPsw (s t : State) (marks : List Nat) : Prop where
  set : ∀ k ∈ marks, t.psw.getLsbD k = true
  ep : t.psw.getLsbD Psw.ep = false
  ss : t.psw.getLsbD Psw.ss = (s.psw.getLsbD Psw.sb && s.dir.getLsbD Dir.sse)
  kept : ∀ k, k ∉ marks → k ≠ Psw.ep → k ≠ Psw.ss → t.psw.getLsbD k = s.psw.getLsbD k

/-- An entry sequence that sets `marks`, clears EP and transfers SB leaves PSW so. -/
theorem interruptPsw_enter {marks : List Nat} (htransfer : e.transferSb = true)
    (hset : ∀ k < 32, e.setBits.getLsbD k = decide (k ∈ marks))
    (hclear : e.clearBits = Psw.epBit)
    (hmarks : ∀ k ∈ marks, k < 32 ∧ k ≠ Psw.ep ∧ k ≠ Psw.ss ∧ k ≠ Psw.sb) :
    InterruptPsw s (s.enter e) marks := by
  have hset' := getLsbD_of_bits hset fun k hk => (hmarks k hk).1
  have hclear' : ∀ k, e.clearBits.getLsbD k = decide (k = Psw.ep) := by
    intro k
    have h := getLsbD_of_bits (w := e.clearBits) (bits := [Psw.ep])
      (by rw [hclear]; decide) (by decide) k
    simpa using h
  refine ⟨fun k hk => ?_, ?_, ?_, fun k hk hep hss => ?_⟩
  · obtain ⟨_, hep, hss, _⟩ := hmarks k hk
    rw [enter_psw_getLsbD, if_neg (fun h => hss h.2), hset', hclear']
    simp [hk, hep]
  · rw [enter_psw_getLsbD, if_neg (by simp), hclear']
    simp
  · have hsb : Psw.sb ∉ marks := fun h => (hmarks _ h).2.2.2 rfl
    rw [enter_psw_getLsbD, if_pos ⟨htransfer, rfl⟩, hset', hclear']
    simp [hsb]
  · rw [enter_psw_getLsbD, if_neg (fun h => hss h.2), hset', hclear']
    simp [hk, hep]

end

/-! ## TRAP -/

/-- The vector's upper half takes the second handler. -/
theorem trapVector_high (vector : BitVec 5) :
    vector.getLsbD 4 = !decide (vector.toNat ≤ 0x0F) := by
  revert vector; decide

/-- Settles O50: the entry of R424, whose code is in EICC and whose PSW bits are EP and ID. -/
theorem trapEntry : Obligations.TrapEntry := by
  unfold Obligations.TrapEntry
  intro s vector
  refine ⟨s.enter (Machine.trapEntry (s.pcAfter 4) vector), rfl, ?eipc, rfl, ?eicc, ?fecc, ?psw,
    ?pc, ?frame⟩
  case eipc => exact pcAfter_saved s 4
  case eicc =>
    have hcode : ((0x0040#16 + vector.setWidth 16 : BitVec 16)).toNat = 0x40 + vector.toNat := by
      have hlt := vector.isLt
      rw [BitVec.toNat_add, BitVec.toNat_setWidth]
      simp only [BitVec.toNat_ofNat]
      omega
    show ((s.ecr.extractLsb' 16 16 ++ (0x0040#16 + vector.setWidth 16)).setWidth 16).toNat = _
    rw [BitVec.setWidth_eq_extractLsb' (by decide), Laws.extract_append_low, hcode]
  case fecc =>
    show (s.ecr.extractLsb' 16 16 ++ (0x0040#16 + vector.setWidth 16)).extractLsb' 16 16 = _
    exact Laws.extract_append_high _ _
  case psw =>
    intro k
    have hset := getLsbD_of_bits (w := Psw.epBit ||| Psw.idBit) (bits := [Psw.ep, Psw.id])
      (by decide) (by decide) k
    rw [enter_psw_getLsbD, Machine.trapEntry]
    simp only [hset]
    simp [Bool.or_comm, Bool.beq_eq_decide_eq]
  case pc =>
    show reducePc (if vector.getLsbD 4 = true then _ else _) = _
    rw [trapVector_high]
    by_cases h : vector.toNat ≤ 0x0F
    · simp [h, reducePc]
    · simp [h, reducePc]
  case frame => simp [State.enter, Machine.trapEntry, State.save]

/-! ## Accepted requests -/

/-- Settles O53: the entry of R420 at the boundary, then the fields of the step. -/
theorem interruptEntry : Obligations.InterruptEntry := by
  unfold Obligations.InterruptEntry
  intro s code hdue hchosen
  obtain ⟨hset, hep, hss, hkept⟩ :=
    interruptPsw_enter (s := s) (e := intEntry s.pc code) (marks := [Psw.id]) rfl
      (by dsimp only [intEntry]; decide) rfl (by decide)
  refine ⟨_, accept_step hdue hchosen, rfl, rfl, rfl, hset _ (by simp), hep, hss, fun k hk => ?psw,
    rfl, ?halted, ?intReq, rfl⟩
  case psw =>
    simp only [List.mem_cons, List.not_mem_nil, or_false, not_or] at hk
    obtain ⟨hid, hep', hss'⟩ := hk
    exact hkept k (by simpa using hid) hep' hss'
  case halted => simp [State.accept, State.requestEntry, intEntry]
  case intReq => simp [State.accept, State.removeRequest]

/-- The handler of an NMI is its code, an address that needs no reduction (60_exceptions.md R400).
-/
theorem nmiHandler_reduced (line : NmiLine) :
    reducePc (zext line.code) = line.code.setWidth 32 := by
  cases line <;> decide

/-- Settles O54: the entry of R422 at the boundary with the code of the line, then the fields of the
step. -/
theorem nmiEntry : Obligations.NmiEntry := by
  unfold Obligations.NmiEntry
  intro s line hdue hchosen
  obtain ⟨hset, hep, hss, hkept⟩ :=
    interruptPsw_enter (s := s) (e := Machine.nmiEntry s.pc line) (marks := [Psw.np, Psw.id]) rfl
      (by dsimp only [Machine.nmiEntry]; decide) rfl (by decide)
  have hkept' : ∀ k, k ∉ [Psw.np, Psw.id, Psw.ep, Psw.ss] →
      (s.enter (Machine.nmiEntry s.pc line)).psw.getLsbD k = s.psw.getLsbD k := by
    intro k hk
    simp only [List.mem_cons, List.not_mem_nil, or_false, not_or] at hk
    obtain ⟨hnp, hid, hep', hss'⟩ := hk
    exact hkept k (by simp [hnp, hid]) hep' hss'
  have hnp := hset Psw.np (by simp)
  have hid := hset Psw.id (by simp)
  have hpc := nmiHandler_reduced line
  cases line with
  | nmi0 | nmi1 | nmi2 =>
    refine ⟨_, accept_step hdue hchosen, rfl, rfl, rfl, hnp, hid, hep, hss, hkept', hpc, ?_, ?_, ?_,
      ?_, rfl⟩
    all_goals simp [State.accept, State.removeRequest, State.requestEntry, Machine.nmiEntry]

/-- The maskable request is the one presented. -/
theorem mem_intList (s : State) (r : Request) :
    r ∈ s.intList ↔ ∃ code, s.intReq = some code ∧ r = .int code := by
  unfold State.intList
  cases s.intReq with
  | none => simp
  | some code => simp

/-- The requests R411 allows, and none after reset. -/
theorem mem_acceptable (s : State) (r : Request) : r ∈ s.acceptable ↔ s.afterReset = false
    ∧ (s.nmi2 = true ∧ r = .nmi .nmi2
      ∨ s.psw.getLsbD Psw.np = false
        ∧ (s.nmi0 = true ∧ r = .nmi .nmi0 ∨ s.nmi1 = true ∧ r = .nmi .nmi1
          ∨ s.psw.getLsbD Psw.id = false ∧ ∃ code, s.intReq = some code ∧ r = .int code)) := by
  simp only [State.acceptable, List.mem_ite_nil_left, List.mem_append, List.mem_ite_nil_right,
    List.mem_singleton, mem_intList, Bool.not_eq_true, or_assoc]

/-- Settles O55: the list of acceptable requests, member by member; a choice is a place in that
list. -/
theorem acceptableRequests : Obligations.AcceptableRequests := by
  unfold Obligations.AcceptableRequests
  intro s
  simp only [mem_acceptable]
  refine ⟨fun r hr => ?chosen, fun code => ?int, ?nmi0, ?nmi1, ?nmi2⟩
  case chosen =>
    rw [← mem_acceptable]
    unfold State.chosen at hr
    split at hr
    · cases hr
    · rename_i hlist
      rw [hlist]
      exact List.mem_of_getElem? hr
  case int => simp [and_comm, and_assoc, and_left_comm]
  case nmi0 => simp [and_comm]
  case nmi1 => simp [and_comm]
  case nmi2 => simp

/-! ## HALT mode -/

/-- A step of a halted machine at which nothing is due. -/
theorem wait_step {s : State} (hdue : s.stepDue = false) (hchosen : s.chosen = none)
    (hhalted : s.halted = true) : step s = .next s.wait.nextTick := by
  unfold step State.stepOnce State.boundary
  rw [hdue, if_neg (by simp), hchosen, hhalted]
  rfl

/-- A blocked request, as R450 lists them. -/
theorem blockedRequest_iff (s : State) : s.blockedRequest = true ↔
    s.intReq ≠ none ∧ (s.psw.getLsbD Psw.id = true ∨ s.psw.getLsbD Psw.np = true)
      ∨ (s.nmi0 = true ∨ s.nmi1 = true) ∧ s.psw.getLsbD Psw.np = true := by
  simp only [State.blockedRequest, Bool.or_eq_true, Bool.and_eq_true, Option.isSome_iff_ne_none]

/-- Settles O56: the step is the wait of HALT mode, which writes the HALT bit alone. -/
theorem haltWaits : Obligations.HaltWaits := by
  unfold Obligations.HaltWaits
  intro s hdue hchosen hhalted
  refine ⟨_, wait_step hdue hchosen hhalted, ?_, rfl⟩
  rw [← blockedRequest_iff, ← Bool.and_eq_true]
  show (!(_ && _)) = false ↔ _
  rw [Bool.not_eq_false']

/-! ## Single-step -/

/-- A step at which a single-step break is due. -/
theorem singleStep_step {s : State} (hdue : s.stepDue = true) :
    step s = .next s.singleStepBreak.nextTick := by
  unfold step State.stepOnce State.boundary
  rw [if_pos hdue]

/-- The single-step break comes due at the end of an instruction (60_exceptions.md R429). -/
theorem finishInstruction_stepDue_iff (s t : State) :
    (s.finishInstruction t).stepDue = true ↔
      s.psw.getLsbD Psw.ss = true ∧ s.userMode = true ∧ t.userMode = true := by
  rw [← and_assoc, ← Bool.and_eq_true, ← Bool.and_eq_true]
  rfl

/-- What a ready step leaves due. -/
theorem Ran.stepDue_iff {s t : State} (h : Ran s t) (hready : Ready s) :
    t.stepDue = true ↔
      s.psw.getLsbD Psw.ss = true ∧ s.userMode = true ∧ t.userMode = true := by
  obtain ⟨hdue, hchosen, hawake⟩ := hready
  cases h with
  | single h1 => simp [hdue] at h1
  | accept r _ h2 => simp [hchosen] at h2
  | wait _ h2 => simp [hawake] at h2
  | fetchBreak code =>
    have hmode := (channelBreak_atHandler (s.recordFb (s.watch [s.fetchEvent code]))
      (s.watch [s.fetchEvent code]) s.pc).mode
    have hkept : (s.fetchBreak (s.watch [s.fetchEvent code])).stepDue = s.stepDue := rfl
    rw [hkept, hdue, State.fetchBreak, hmode]
    simp
  | illegal | instr => exact finishInstruction_stepDue_iff _ _

/-- Settles O57: a break that is due is the debug break at the PC; one comes due at the end of an
instruction only. -/
theorem singleStep : Obligations.SingleStep := by
  unfold Obligations.SingleStep
  refine ⟨fun s hdue => ?_, fun s t hready h => ?_⟩
  · refine ⟨_, singleStep_step hdue, ?_, debugEntered_enter _ _ s.pc true rfl⟩
    show (s.debugBreak s.pc).halted = false
    rw [State.debugBreak_eq]
  · obtain ⟨u, rfl, hu⟩ := step_ran h
    exact hu.stepDue_iff hready

/-! ## The instruction at the PC -/

/-- Where no breakpoint stops the code, the instruction it decodes to runs (60_exceptions.md R415).
-/
theorem runInstruction_decoded {s : State} {code rest : List Half} {i : Instr} (hf : Fetched s code)
    (hd : decode code = .ok (i, rest)) : s.runInstruction = (afterFetch s code).runDecoded i := by
  obtain ⟨hfetch, hset, hhit⟩ := hf
  simp only [State.runInstruction, hfetch, State.runCode, hset, hhit, hd, Bool.false_eq_true,
    if_false]
  rfl

/-- Settles O6: a ready step whose code decodes is `runDecoded` and the count. -/
theorem stepRunsDecoded : Obligations.StepRunsDecoded := by
  unfold Obligations.StepRunsDecoded
  intro s code rest i hready hf hd
  rw [ready_step hready, runInstruction_decoded hf hd, State.runDecoded]
  cases exec i (afterFetch s code) with
  | next | fault | refused => rfl

/-! ## The environment -/

/-- Settles O10: a request is no register, and a system reset keeps the one thing that the state of
the reset does not say, the canonical form of memory. -/
theorem environmentKeepsInv : Obligations.EnvironmentKeepsInv := by
  unfold Obligations.EnvironmentKeepsInv
  intro s e hi
  cases e with
  | requestNmi line =>
    cases line with
    | nmi0 | nmi1 | nmi2 => exact { hi with }
  | presentInt code => exact { hi with }
  | systemReset =>
    have hreset : Inv State.reset := resetHasInv
    exact { hreset with mem := hi.mem }

end Sys2Proof.Safety
end


section
/-! SUPPORT. The branches, the table jumps, the returns, interrupt control, and LDSR and STSR: what
each leaves, by the one operation it ends in (47_branch.md, 49_special_debug.md R360 to R369, R385).
-/

namespace Sys2Proof.Safety

open Sys2Proof.Machine

section
variable {s t : State} {i : Instr}

/-! ## Branches -/

/-- A jump that also saves an address. -/
theorem completes_link {dst : Reg} {link v : Word}
    (he : exec i s = .next ((s.setReg dst link).setPc v)) :
    Completes s i (reducePc v) [(dst, link)] [] := by
  refine completes_reg (psw := s.psw) ?_ (reducePc_reducePc v) (by simp) (by simp)
  rw [he]
  simp [State.setPc]

/-- Bcond jumps when its condition holds, and goes on when it does not. -/
theorem completes_bcond (s : State) (cond : Cond) (disp9 : BitVec 9) :
    Completes s (.bcond cond disp9)
      (if condHolds s.psw cond = true then reducePc (s.pc + disp9.signExtend 32)
        else s.pcAfter 2) [] [] := by
  have he : exec (.bcond cond disp9) s
      = .next (if condHolds s.psw cond then s.setPc (s.pc + disp9.signExtend 32)
        else s.advance 2) := rfl
  by_cases hc : condHolds s.psw cond = true
  · rw [if_pos hc] at he ⊢
    exact completes_jump he
  · rw [if_neg hc] at he ⊢
    rw [← reducePc_pcAfter]
    rw [advance_eq_setPc] at he
    exact completes_jump he

end

/-- Settles O35: a branch is a jump, JARL a jump that saves the next address. -/
theorem branchTarget : Obligations.BranchTarget := by
  unfold Obligations.BranchTarget
  intro s
  refine ⟨fun cond disp9 => ?bcond, fun disp22 reg2 => ?jarl22, fun disp32 reg1 => ?jarl32,
    fun reg1 => ?jmpReg, fun disp32 reg1 => ?jmpDisp32, fun disp22 => ?jr22, fun disp32 => ?jr32⟩
  case bcond => exact completes_bcond s cond disp9
  case jarl22 => exact completes_link rfl
  case jarl32 => exact completes_link rfl
  case jmpReg => exact completes_jump rfl
  case jmpDisp32 => exact completes_jump rfl
  case jr22 => exact completes_jump rfl
  case jr32 => exact completes_jump rfl

/-! ## Table jumps -/

section
variable {s : State}

/-- The halfword a table read finds, where its address is in the map. -/
theorem memRead_half {a : Word} (h : Readable s (aligned s .half a) .half) :
    s.memRead a .half
      = .ok (zext (s.byteAt (aligned s .half a + 1#32) ++ s.byteAt (aligned s .half a))) :=
  State.readAt_eq_ok.2 ⟨h, rfl⟩

/-- A shift left by one bit is a doubling. -/
theorem shiftLeft_one_eq_add (x : Word) : x <<< 1 = x + x := by
  apply BitVec.eq_of_toNat_eq
  rw [BitVec.toNat_shiftLeft, BitVec.toNat_add, Nat.shiftLeft_eq, pow_one, mul_two]

/-- The table entry of CALLT (49_special_debug.md R360). -/
theorem calltAddr_eq (s : State) (imm6 : BitVec 6) :
    s.calltAddr imm6 = s.ctbp + BitVec.ofNat 32 (2 * imm6.toNat) := by
  have hlt := imm6.isLt
  rw [State.calltAddr, shiftLeft_one_eq_add]
  congr 1
  apply BitVec.eq_of_toNat_eq
  simp only [zext, BitVec.toNat_add, BitVec.toNat_setWidth, BitVec.toNat_ofNat]
  omega

/-- The table entry of SWITCH (49_special_debug.md R369). -/
theorem switchAddr_eq (s : State) (reg1 : Reg) :
    s.switchAddr reg1 = s.pc + 2#32 + (s.reg reg1 + s.reg reg1) := by
  rw [State.switchAddr, shiftLeft_one_eq_add]
  rfl

/-- The halfword read is the low one of its zero extension. -/
theorem extract_zext_half (h : BitVec 16) : (zext h).extractLsb' 0 16 = h := by
  rw [← BitVec.setWidth_eq_extractLsb' (by decide), zext,
    BitVec.setWidth_setWidth_of_le _ (by decide), BitVec.setWidth_eq]

end

/-- Settles O42: both read a halfword of their table and jump, CALLT after it saved the next
address. -/
theorem tableJumps : Obligations.TableJumps := by
  unfold Obligations.TableJumps
  intro s entry
  refine ⟨fun imm6 => ?callt, fun reg1 => ?switch⟩
  case callt =>
    intro a hread
    have he : exec (.callt imm6) s
        = .next ((s.save .ct (s.pcAfter 2)).setPc (s.ctbp + (entry a).setWidth 32)) := by
      show execCallt imm6 s = _
      rw [execCallt, calltAddr_eq, memRead_half hread]
      rfl
    exact ⟨_, he, pcAfter_saved s 2, rfl, rfl, rfl⟩
  case switch =>
    intro a hread
    rw [← shiftLeft_one_eq_add]
    refine completes_jump ?_
    show execSwitch reg1 s = _
    rw [execSwitch, switchAddr_eq, memRead_half hread]
    dsimp only
    rw [extract_zext_half]
    rfl

/-! ## Returns -/

/-- An instruction that returns through a pair. -/
theorem returnsTo_returnFrom {s : State} {i : Instr} (bank : SaveBank)
    (he : exec i s = .next (s.returnFrom bank)) :
    ReturnsTo s i (s.savedPc bank) (s.savedPsw bank) :=
  ⟨_, he, rfl, legalPsw_getLsbD s.dir (s.savedPsw bank), rfl⟩

/-- RETI returns through the pair that EP and NP select (49_special_debug.md R368). -/
theorem returnsTo_reti (s : State) :
    ReturnsTo s .reti (s.savedPc (retiBank s.psw)) (s.savedPsw (retiBank s.psw)) :=
  returnsTo_returnFrom _ rfl

/-- Settles O43: RETI returns through the pair of its case, CTRET and DBRET through their own; DBRET
then clears DM. -/
theorem returnResult : Obligations.ReturnResult := by
  unfold Obligations.ReturnResult
  intro s
  have hreti := returnsTo_reti s
  refine ⟨fun hep => ?exception, fun hep hnp => ?nmi, fun hep hnp => ?interrupt, ?ctret, ?dbret⟩
  case exception =>
    rw [retiBank, if_pos hep] at hreti
    exact hreti
  case nmi =>
    rw [retiBank, if_neg (by simp [hep]), if_pos hnp] at hreti
    exact hreti
  case interrupt =>
    rw [retiBank, if_neg (by simp [hep]), if_neg (by simp [hnp])] at hreti
    exact hreti
  case ctret => exact returnsTo_returnFrom .ct rfl
  case dbret =>
    have hdm : ∀ k, (putBit s.dir Dir.dm false).getLsbD k
        = if k = Dir.dm then false else s.dir.getLsbD k :=
      fun k => putBit_getLsbD s.dir Dir.dm false k (by decide)
    refine ⟨_, rfl, rfl, legalPsw_getLsbD s.dir s.dbpsw, ?_, fun k hk => ?_, rfl⟩
    · show (!(putBit s.dir Dir.dm false).getLsbD Dir.dm) = true
      rw [hdm, if_pos rfl]
      rfl
    · exact (hdm k).trans (if_neg hk)

/-! ## Interrupt control -/

/-- DI and EI write ID alone. -/
theorem runs_putId {s : State} {i : Instr} {v : Bool}
    (he : exec i s = .next (({ s with psw := putBit s.psw Psw.id v } : State).advance i.length)) :
    Runs s i [] [(Psw.id, v)] := by
  have hbit : ∀ k, (putBit s.psw Psw.id v).getLsbD k = if k = Psw.id then v else s.psw.getLsbD k :=
    fun k => putBit_getLsbD s.psw Psw.id v k (by decide)
  refine completes_psw (psw := putBit s.psw Psw.id v) he (fun p hp => ?_) (fun k hk => ?_)
  · obtain rfl : p = (Psw.id, v) := by simpa using hp
    rw [hbit, if_pos rfl]
  · rw [hbit, if_neg (by simpa using hk)]

/-- Settles O44: NOP goes on, DI and EI write ID, HALT goes on halted. -/
theorem interruptControl : Obligations.InterruptControl := by
  unfold Obligations.InterruptControl
  intro s
  refine ⟨?nop, runs_putId rfl, runs_putId rfl, _, rfl, rfl, rfl, rfl⟩
  case nop => exact completes_psw (psw := s.psw) rfl (by simp) (by simp)

/-! ## LDSR -/

section
variable {s t : State}

/-- LDSR writes its register and goes on. -/
theorem ldsr_next {regID : BitVec 5} {r : SysReg} {reg2 : Reg} (hr : SysReg.ofId regID = some r)
    (hw : s.writeSysreg r (s.reg reg2) = .ok t) :
    exec (.ldsr reg2 regID) s = .next (t.advance 4) := by
  show execLdsr reg2 regID s = _
  unfold execLdsr
  rw [hr]
  dsimp only
  rw [hw]

/-- BPCn after an LDSR with no must-be-zero bit set: FB bits are only cleared (10_state.md R54;
49_special_debug.md R365). -/
theorem writtenBpc_getLsbD (old : Word) {v : Word} (h : v &&& bpcMustBeZero = 0#32) (k : Nat) :
    (writtenBpc old v).getLsbD k
      = (v.getLsbD k && (!(24 ≤ k && k ≤ 26) || old.getLsbD k)) := by
  have hmasks : ∀ k < 32, if (24 ≤ k && k ≤ 26) = true then
        (0x07000000#32).getLsbD k = true ∧ (0x00FF8F9F#32).getLsbD k = false
      else (0x07000000#32).getLsbD k = false
        ∧ (0x00FF8F9F#32).getLsbD k = !bpcMustBeZero.getLsbD k := by decide
  by_cases hk : k < 32
  · have hzero : (v.getLsbD k && bpcMustBeZero.getLsbD k) = false := by
      rw [← BitVec.getLsbD_and, h, BitVec.getLsbD_zero]
    have hm := hmasks k hk
    simp only [writtenBpc, BitVec.getLsbD_or, BitVec.getLsbD_and]
    split at hm
    · rename_i hfb
      obtain ⟨h1, h2⟩ := hm
      rw [h1, h2, hfb, Bool.and_true, Bool.and_false, Bool.or_false, Bool.not_true, Bool.false_or,
        Bool.and_comm]
    · rename_i hfb
      obtain ⟨h1, h2⟩ := hm
      rw [h1, h2, Bool.eq_false_of_not_eq_true hfb]
      cases hv : v.getLsbD k with
      | false => simp
      | true => simp [hv] at hzero; simp [hzero]
  · have hout : ∀ x : Word, x.getLsbD k = false := fun x => BitVec.getLsbD_of_ge _ _ (by omega)
    simp [hout]

/-- The write of BPCn that is not prohibited. -/
theorem writeSysreg_bpc {v : Word} (h : v &&& bpcMustBeZero = 0#32) :
    s.writeSysreg .bpc v
      = .ok (s.setChannel { s.channel with bpc := writtenBpc s.channel.bpc v }) := by
  unfold State.writeSysreg
  exact if_pos h

end

/-- Settles O46: LDSR is one write, which keeps of reg2 what the register has. -/
theorem ldsrResult : Obligations.LdsrResult := by
  unfold Obligations.LdsrResult
  intro s reg2
  refine ⟨ldsr_next (r := .eipc) rfl rfl, ldsr_next (r := .eipsw) rfl rfl,
    ldsr_next (r := .fepc) rfl rfl, ldsr_next (r := .fepsw) rfl rfl, ?psw,
    ldsr_next (r := .ctpc) rfl rfl, ldsr_next (r := .ctpsw) rfl rfl,
    ldsr_next (r := .dbpc) rfl rfl, ldsr_next (r := .dbpsw) rfl rfl,
    ldsr_next (r := .ctbp) rfl rfl, fun hzero => ?bpc, ldsr_next (r := .asid) rfl rfl,
    ldsr_next (r := .bpav) rfl rfl, ldsr_next (r := .bpam) rfl rfl,
    ldsr_next (r := .bpdv) rfl rfl, ldsr_next (r := .bpdm) rfl rfl⟩
  case psw => exact ⟨_, legalPsw_getLsbD s.dir _, ldsr_next (r := .psw) rfl rfl⟩
  case bpc =>
    exact ⟨_, writtenBpc_getLsbD _ hzero, ldsr_next (r := .bpc) rfl (writeSysreg_bpc hzero)⟩

/-! ## LDSR to DIR -/

section
variable {s : State} (v : Word)

theorem writeDir_user (h : s.userMode = true) :
    s.writeDir v = { s with dir := mergeBits 0x00400000#32 s.dir v } := if_pos h

theorem writeDir_debug (h : s.userMode = false) :
    s.writeDir v =
      { s with
        dir := debugWriteDir s.dir v
        psw := if (debugWriteDir s.dir v).getLsbD Dir.sse then s.psw else putBit s.psw Psw.ss false
        seq0 := s.seq0 && (debugWriteDir s.dir v).getLsbD Dir.sq0
        seq1 := s.seq1 && (debugWriteDir s.dir v).getLsbD Dir.sq1 } :=
  if_neg (by simp [h])

/-- An LDSR to DIR changes DIR and what DIR gates. -/
theorem writeDir_rest : s.writeDir v =
    { s with
      dir := (s.writeDir v).dir, psw := (s.writeDir v).psw
      seq0 := (s.writeDir v).seq0, seq1 := (s.writeDir v).seq1 } := by
  cases h : s.userMode with
  | true => rw [writeDir_user v h]
  | false => rw [writeDir_debug v h]

/-- CSL is the one bit an LDSR to DIR writes in user mode. -/
theorem userWriteDir_getLsbD (old : Word) (k : Nat) :
    (mergeBits 0x00400000#32 old v).getLsbD k = if k = 22 then v.getLsbD k else old.getLsbD k := by
  have hbit := getLsbD_of_bits (w := 0x00400000#32) (bits := [22]) (by decide) (by decide) k
  rw [mergeBits_getLsbD, hbit]
  simp

/-- SS is kept only with the new SSE (10_state.md R53 (d)). -/
theorem clearedSs_getLsbD (psw : Word) (sse : Bool) (k : Nat) :
    (if sse then psw else putBit psw Psw.ss false).getLsbD k
      = if k = Psw.ss then psw.getLsbD k && sse else psw.getLsbD k := by
  cases sse with
  | true => simp
  | false =>
    rw [if_neg (by simp), putBit_getLsbD _ _ _ _ (by decide), Bool.and_false]

end

/-- Settles O47: in user mode CSL alone, in debug mode `debugWriteDir` and what it gates. -/
theorem ldsrDir : Obligations.LdsrDir := by
  unfold Obligations.LdsrDir
  intro s reg2 v
  refine ⟨_, ldsr_next (r := .dir) (t := s.writeDir v) rfl rfl, ?pc, ?rest, fun huser => ?user,
    fun hdebug => ?debug⟩
  case pc =>
    rw [writeDir_rest]
    rfl
  case rest =>
    rw [writeDir_rest]
    rfl
  case user =>
    rw [writeDir_user v huser]
    have hbit := userWriteDir_getLsbD v s.dir
    refine ⟨?_, fun k hk => ?_, rfl, rfl, rfl⟩
    · exact (hbit 22).trans (if_pos rfl)
    · exact (hbit k).trans (if_neg hk)
  case debug =>
    rw [writeDir_debug v hdebug]
    have hbit := debugWriteDir_getLsbD s.dir v
    have hsse : (debugWriteDir s.dir v).getLsbD Dir.sse = v.getLsbD 8 := by
      rw [hbit _ (by decide), if_pos (by decide)]
    have hgated : ∀ k ∈ [12, 13, 14, 28, 29, 30], k < 32 ∧ k ∉ [6, 7, 8, 9, 10, 22] := by decide
    have hbt : ∀ k ∈ [4, 5, 20, 21],
        k < 32 ∧ k ∉ [6, 7, 8, 9, 10, 22] ∧ k ∉ [12, 13, 14, 28, 29, 30] := by decide
    have hcause : ∀ k ∈ [1, 2, 16], k < 32 ∧ k ∉ [6, 7, 8, 9, 10, 22]
        ∧ k ∉ [12, 13, 14, 28, 29, 30] ∧ k ∉ [4, 5, 20, 21] := by decide
    have hother : ∀ k ∈ [0, 3, 11, 15, 17, 18, 19, 23, 24, 25, 26, 27, 31],
        k < 32 ∧ k ∉ [6, 7, 8, 9, 10, 22] ∧ k ∉ [12, 13, 14, 28, 29, 30] ∧ k ∉ [4, 5, 20, 21]
          ∧ k ∉ [1, 2, 16] := by decide
    refine ⟨fun k hk => ?_, fun k hk => ?_, fun k hk => ?_, fun k hk => ?_, fun k hk => ?_,
      fun k hk => ?_, ?_, rfl, rfl⟩
    · have hlt : ∀ k ∈ [6, 7, 8, 9, 10, 22], k < 32 := by decide
      exact (hbit k (hlt k hk)).trans (if_pos hk)
    · obtain ⟨hlt, h1⟩ := hgated k hk
      refine (hbit k hlt).trans ?_
      rw [if_neg h1, if_pos hk]
    · obtain ⟨hlt, h1, h2⟩ := hbt k hk
      refine (hbit k hlt).trans ?_
      rw [if_neg h1, if_neg h2, if_pos hk]
    · obtain ⟨hlt, h1, h2, h3⟩ := hcause k hk
      refine (hbit k hlt).trans ?_
      rw [if_neg h1, if_neg h2, if_neg h3, if_pos hk]
    · obtain ⟨hlt, h1, h2, h3, h4⟩ := hother k hk
      refine (hbit k hlt).trans ?_
      rw [if_neg h1, if_neg h2, if_neg h3, if_neg h4]
    · exact (clearedSs_getLsbD _ _ k).trans (if_neg hk)
    · rw [← hsse]
      exact (clearedSs_getLsbD _ _ 11).trans (if_pos rfl)

/-! ## STSR -/

/-- STSR puts what it reads in its register. -/
theorem runs_stsr {s : State} {regID : BitVec 5} (r : SysReg) (hr : SysReg.ofId regID = some r)
    (reg2 : Reg) : Runs s (.stsr regID reg2) [(reg2, s.readSysreg r)] [] := by
  refine runs_value ?_
  show execStsr regID reg2 s = _
  unfold execStsr
  rw [hr]
  rfl

/-- A read of DIR answers the bits that are defined in the current mode (10_state.md R50). -/
theorem readDir_getLsbD (s : State) {k : Nat} (h : if s.userMode = true then k ∈ [0, 3, 22]
      else k ∉ [15, 17, 18, 19, 23, 24, 25, 26, 27, 31]) :
    s.readDir.getLsbD k = s.dir.getLsbD k := by
  rw [State.readDir, mergeBits_getLsbD]
  split at h
  · rename_i huser
    have hmask : ∀ k ∈ [0, 3, 22], (~~~dirKnownUser).getLsbD k = false := by decide
    rw [if_pos huser, hmask k h]
    simp
  · rename_i hdebug
    have hmask := getLsbD_of_bits (w := dirUnknownDebug)
      (bits := [15, 17, 18, 19, 23, 24, 25, 26, 27, 31]) (by decide) (by decide) k
    rw [if_neg hdebug, hmask, decide_eq_false h]
    simp

/-- Settles O48: STSR of each number is a read of the register R34 gives it. -/
theorem stsrResult : Obligations.StsrResult := by
  unfold Obligations.StsrResult
  intro s reg2
  refine ⟨?_, s.readDir, fun k => readDir_getLsbD s, runs_stsr .dir rfl reg2⟩
  simp only [List.forall_mem_cons]
  exact ⟨runs_stsr .eipc rfl _, runs_stsr .eipsw rfl _, runs_stsr .fepc rfl _,
    runs_stsr .fepsw rfl _, runs_stsr .ecr rfl _, runs_stsr .psw rfl _, runs_stsr .ctpc rfl _,
    runs_stsr .ctpsw rfl _, runs_stsr .dbpc rfl _, runs_stsr .dbpsw rfl _, runs_stsr .ctbp rfl _,
    runs_stsr .bpc rfl _, runs_stsr .asid rfl _, runs_stsr .bpav rfl _, runs_stsr .bpam rfl _,
    runs_stsr .bpdv rfl _, runs_stsr .bpdm rfl _, fun _ h => absurd h List.not_mem_nil⟩

end Sys2Proof.Safety
end


section
/-! SUPPORT. The bit manipulation instructions, PREPARE and DISPOSE, each by the one operation its
forms share (48_bit_manipulation.md R345, 49_special_debug.md R375 to R380). -/

namespace Sys2Proof.Safety

open Sys2Proof.Machine

/-! ## Bit manipulation -/

/-- What a bit manipulation makes of its bit. -/
def newBit (op : BitOp) (bit : Bool) : Bool :=
  match op with
  | .set => true
  | .clear => false
  | .invert => !bit
  | .test => bit

/-- A byte keeps its bits as a word. -/
theorem zext_byte_getLsbD (b : Byte) {k : Nat} (hk : k < 8) :
    (zext b : Word).getLsbD k = b.getLsbD k := by
  rw [zext, BitVec.getLsbD_setWidth, decide_eq_true (by omega : k < 32), Bool.true_and]

/-- The byte written back: its bit as the operation says, the others as read (R345). -/
theorem bitResult_getLsbD (op : BitOp) (b : Byte) {n k : Nat} (hn : n < 8) (hk : k < 8) :
    (bitResult op (zext b) n).getLsbD k
      = if k = n then newBit op (b.getLsbD n) else b.getLsbD k := by
  have hbit := one_shiftLeft_getLsbD n k (by omega)
  have hlt : k < 32 := by omega
  cases op with
  | set =>
    rw [bitResult, BitVec.getLsbD_or, hbit, zext_byte_getLsbD b hk]
    by_cases h : k = n <;> simp [h, newBit]
  | clear =>
    rw [bitResult, BitVec.getLsbD_and, BitVec.getLsbD_not, hbit, zext_byte_getLsbD b hk]
    by_cases h : k = n <;> simp [h, newBit, hlt]
  | invert =>
    rw [bitResult, BitVec.getLsbD_xor, hbit, zext_byte_getLsbD b hk]
    by_cases h : k = n <;> simp [h, newBit]
  | test =>
    rw [bitResult, zext_byte_getLsbD b hk]
    by_cases h : k = n <;> simp [h, newBit]

section
variable {s : State} {i : Instr} {a : Word} {n : Nat}

/-- The byte that a bit manipulation reads. -/
theorem memRead_byte (h : Readable s a .byte) : s.memRead a .byte = .ok (zext (s.byteAt a)) := by
  have haligned : alignAddr s.platform.misalignEnabled .byte a = a := aligned_byte s a
  rw [State.memRead, haligned]
  exact State.readAt_eq_ok.2 ⟨h, rfl⟩

/-- The byte that it writes. -/
theorem memWrite_byte (h : Writable s a .byte) (v : Word) :
    s.memWrite a .byte v = .ok (s.stored a .byte v) := by
  have haligned : alignAddr s.platform.misalignEnabled .byte a = a := aligned_byte s a
  obtain ⟨hmap, hram⟩ := h
  rw [State.memWrite, haligned]
  exact State.writeAt_eq_ok.2 ⟨hmap, hram, rfl⟩

/-- Z is the one flag that `withZ` writes. -/
theorem withZ_mem (s : State) (z : Bool) :
    (∀ p ∈ [(Psw.z, z)], (s.withZ z).psw.getLsbD p.1 = p.2)
      ∧ ∀ k, k ∉ [Psw.z] → (s.withZ z).psw.getLsbD k = s.psw.getLsbD k := by
  have hbit : ∀ k, (s.withZ z).psw.getLsbD k = if k = Psw.z then z else s.psw.getLsbD k :=
    fun k => putBit_getLsbD s.psw Psw.z z k (by decide)
  constructor
  · intro p hp
    obtain rfl : p = (Psw.z, z) := by simpa using hp
    rw [hbit, if_pos rfl]
  · intro k hk
    rw [hbit, if_neg (by simpa using hk)]

/-- TST1 sets Z to the complement of the bit and goes on. -/
theorem runs_testBit (hl : i.length = 4) (he : exec i s = s.bitManip .test a n) (hn : n < 8)
    (hread : Readable s a .byte) : Runs s i [] [(Psw.z, !(s.byteAt a).getLsbD n)] := by
  obtain ⟨hput, hkeep⟩ := withZ_mem s (!(s.byteAt a).getLsbD n)
  refine completes_psw (psw := (s.withZ (!(s.byteAt a).getLsbD n)).psw) ?_ hput hkeep
  rw [he, State.bitManip, memRead_byte hread, hl]
  dsimp only
  rw [zext_byte_getLsbD _ hn]
  rfl

/-- A flag that was changed before a frame. -/
theorem Frame.after_withZ {t : State} {z : Bool} {bytes : List Word}
    (h : Frame (s.withZ z) t [] [] bytes) : Frame s t [] [Psw.z] bytes where
  regs := h.regs
  psw := fun k hk => (h.psw k List.not_mem_nil).trans ((withZ_mem s z).2 k hk)
  memory := h.memory
  output := h.output
  others := h.others

/-- SET1, CLR1 and NOT1 also store the byte with its new bit. -/
theorem stores_of_bitManip {op : BitOp} (hop : op ≠ .test) (hl : i.length = 4)
    (he : exec i s = s.bitManip op a n) (hn : n < 8) (hwrite : Writable s a .byte) :
    Stores s i a .byte (bitResult op (zext (s.byteAt a)) n) [(Psw.z, !(s.byteAt a).getLsbD n)] := by
  let z := !(s.byteAt a).getLsbD n
  let v := bitResult op (zext (s.byteAt a)) n
  have hmem : (s.withZ z).memWrite a .byte v = .ok ((s.withZ z).stored a .byte v) :=
    memWrite_byte (s := s.withZ z) hwrite v
  refine ⟨((s.withZ z).stored a .byte v).advance i.length, ?_, stored_holds (s.withZ z) a .byte v,
    (withZ_mem s z).1, rfl, stored_deviceOut (s := s.withZ z), ?_⟩
  · rw [he, State.bitManip, memRead_byte hwrite.1, hl]
    dsimp only
    rw [zext_byte_getLsbD _ hn]
    cases op with
    | test => exact absurd rfl hop
    | set | clear | invert =>
      dsimp only
      rw [hmem]
  · rw [bytesAt_fst]
    exact (stored_frame (s.withZ z) a .byte v).after_withZ.advance _

/-- The same with the byte given bit by bit. -/
theorem exists_stores_of_bitManip {op : BitOp} (hop : op ≠ .test) (hl : i.length = 4)
    (he : exec i s = s.bitManip op a n) (hn : n < 8) (hwrite : Writable s a .byte) :
    ∃ v : Word, (∀ k < 8, v.getLsbD k
        = if k = n then newBit op ((s.byteAt a).getLsbD n) else (s.byteAt a).getLsbD k)
      ∧ Stores s i a .byte v [(Psw.z, !(s.byteAt a).getLsbD n)] :=
  ⟨_, fun _ hk => bitResult_getLsbD op _ hn hk, stores_of_bitManip hop hl he hn hwrite⟩

end

/-- Settles O39: each form is the one operation on its bit, whose number is below 8. -/
theorem bitManipulation : Obligations.BitManipulation := by
  unfold Obligations.BitManipulation
  intro s writes tests
  have hreg : ∀ r, (s.reg r).toNat % 8 < 8 := fun r => Nat.mod_lt _ (by decide)
  refine ⟨fun bit3 disp reg1 => ⟨?set, ?clear, ?invert, ?test⟩,
    fun reg2 reg1 => ⟨?setReg, ?clearReg, ?invertReg, ?testReg⟩⟩
  case set => exact exists_stores_of_bitManip (op := .set) (by decide) rfl rfl bit3.isLt
  case clear => exact exists_stores_of_bitManip (op := .clear) (by decide) rfl rfl bit3.isLt
  case invert => exact exists_stores_of_bitManip (op := .invert) (by decide) rfl rfl bit3.isLt
  case test => exact runs_testBit rfl rfl bit3.isLt
  case setReg => exact exists_stores_of_bitManip (op := .set) (by decide) rfl rfl (hreg reg2)
  case clearReg => exact exists_stores_of_bitManip (op := .clear) (by decide) rfl rfl (hreg reg2)
  case invertReg => exact exists_stores_of_bitManip (op := .invert) (by decide) rfl rfl (hreg reg2)
  case testReg => exact runs_testBit rfl rfl (hreg reg2)

/-! ## PREPARE -/

section
variable {s u : State} {list12 : List12}

/-- What the stores and the sp updates of PREPARE leave, before the end its form asks for. -/
structure FramePushed (s u : State) (list12 : List12) (sp : Word) : Prop where
  sp : u.reg Reg.sp = sp
  regs : ∀ r, r ≠ Reg.sp → u.reg r = s.reg r
  holds : Holds u (savedBytes s list12)
  memory : ∀ x : Nat, x ∉ ((savedBytes s list12).map Prod.fst).map BitVec.toNat →
    Memory.read u.mem x = Memory.read s.mem x
  out : u.deviceOut = s.deviceOut ++ savedWrites s list12
  rest : u = { s with gpr := u.gpr, mem := u.mem, deviceOut := u.deviceOut }

/-- A byte that PREPARE saves is one of a register of the list, at its place in the slot. -/
theorem mem_savedBytes {p : Word × Byte} : p ∈ savedBytes s list12 ↔
    ∃ q ∈ (listRegs list12).zipIdx, ∃ j < 4,
      (saveSlot s q.2 + BitVec.ofNat 32 j, (s.reg q.1).extractLsb' (8 * j) 8) = p := by
  simp only [savedBytes, List.mem_flatMap, bytesAt, AccessSize.bytes, List.mem_map, List.mem_range]

/-- The pushed registers stand in the saved bytes. -/
theorem Pushed.holds (h : Pushed s u (listRegs list12)) : Holds u (savedBytes s list12) := by
  intro p hp hdev
  obtain ⟨q, hq, j, hj, rfl⟩ := mem_savedBytes.1 hp
  have hkind : ∀ x, u.kindAt x = s.kindAt x := fun x => by rw [State.kindAt, h.rest]; rfl
  rw [hkind] at hdev
  exact h.same q hq j hj hdev

/-- Pushing leaves every byte that is not saved. -/
theorem Pushed.memory (h : Pushed s u (listRegs list12)) {x : Nat}
    (hx : x ∉ ((savedBytes s list12).map Prod.fst).map BitVec.toNat) :
    Memory.read u.mem x = Memory.read s.mem x := by
  refine h.other x fun k hk j hj hne => hx ?_
  rw [List.map_map, List.mem_map]
  exact ⟨_, mem_savedBytes.2 ⟨((listRegs list12)[k], k), List.mk_mem_zipIdx_iff_getElem?.2
    (List.getElem?_eq_getElem hk), j, hj, rfl⟩, hne.symm⟩

/-- sp after the pushes and the frame (R375). -/
theorem sub_frameBytes (sp : Word) (len : Nat) (imm5 : BitVec 5) :
    sp - BitVec.ofNat 32 (4 * len) - frameBytes imm5
      = sp - BitVec.ofNat 32 (4 * len + 4 * imm5.toNat) := by
  rw [frameBytes_eq, BitVec.sub_sub, BitVec.ofNat_add]

/-- Where every slot can be written, PREPARE saves its registers. -/
theorem pushFrame_ok (imm5 : BitVec 5)
    (hw : ∀ k < (listRegs list12).length, Writable s (saveSlot s k) .word) :
    ∃ u, s.pushFrame list12 imm5 = .ok u ∧ FramePushed s u list12
      (s.reg Reg.sp - BitVec.ofNat 32 (4 * (listRegs list12).length + 4 * imm5.toNat)) := by
  obtain ⟨t, ht, hp⟩ := pushRegs_ok _ s (listRegs_len list12) (listRegs_sp list12) hw
  refine ⟨t.setReg Reg.sp (t.reg Reg.sp - frameBytes imm5), ?_, ?sp, fun r hr => ?regs, hp.holds,
    fun x hx => hp.memory hx, hp.out, ?rest⟩
  · rw [State.pushFrame, ht]
  case sp =>
    rw [State.reg_setReg_same, if_neg (by decide), hp.sp, sub_frameBytes]
  case regs => exact (State.reg_setReg_ne t hr _).trans (hp.regs r hr)
  case rest => rw [hp.rest]; rfl

/-- No device byte in the slots, no device write. -/
theorem savedWrites_eq_nil
    (h : ∀ a ∈ (savedBytes s list12).map Prod.fst, s.kindAt a ≠ some .device) :
    savedWrites s list12 = [] := by
  rw [savedWrites, List.map_eq_nil_iff, List.filter_eq_nil_iff]
  intro q hq htouch
  rw [State.touchesDevice, byteAddrs, List.any_map, List.any_eq_true] at htouch
  obtain ⟨j, hj, hdev⟩ := htouch
  refine h (saveSlot s q.2 + BitVec.ofNat 32 j) ?_ (by simpa using hdev)
  exact List.mem_map.2 ⟨_, mem_savedBytes.2 ⟨q, hq, j, List.mem_range.1 hj, rfl⟩, rfl⟩

variable {i : Instr} {imm5 : BitVec 5} {finish : State → State}

/-- The end of a form of PREPARE: it leaves `eps` in their registers and goes on at `pc`. -/
structure FrameEnded (u w : State) (eps : List (Reg × Word)) (pc : Word) : Prop where
  got : ∀ p ∈ eps, w.reg p.1 = p.2
  kept : ∀ r, r ∉ eps.map Prod.fst → w.reg r = u.reg r
  pc : w.pc = pc
  rest : w = { u with gpr := w.gpr, pc := w.pc }

/-- What the pushes and the end of a form change together. -/
theorem FramePushed.frame {sp pc : Word} {w : State} {eps : List (Reg × Word)}
    (h : FramePushed s u list12 sp) (hend : FrameEnded u w eps pc) :
    Frame s w (Reg.sp :: eps.map Prod.fst) [] ((savedBytes s list12).map Prod.fst) := by
  refine ⟨fun r hr => ?regs, fun k _ => ?psw, fun x hx => ?memory, fun hdev => ?output, ?others⟩
  case regs =>
    obtain ⟨hne, heps⟩ := not_or.1 (List.mem_cons.not.1 hr)
    rw [hend.kept r heps, h.regs r hne]
  case psw => rw [hend.rest, h.rest]
  case memory =>
    rw [hend.rest]
    exact h.memory x hx
  case output =>
    rw [hend.rest]
    exact h.out.trans (by rw [savedWrites_eq_nil hdev, List.append_nil])
  case others => rw [hend.rest, h.rest]

/-- A PREPARE with the end of its form. -/
theorem prepares_of_prepareWith {eps : List (Reg × Word)}
    (he : exec i s = s.prepareWith list12 imm5 finish) (hok : s.alignErrorDetected = false)
    (hw : ∀ k < (listRegs list12).length, Writable s (saveSlot s k) .word)
    (hfinish : ∀ u, u.reg Reg.sp
        = s.reg Reg.sp - BitVec.ofNat 32 (4 * (listRegs list12).length + 4 * imm5.toNat) →
      FrameEnded u (finish u) eps (u.pcAfter i.length))
    (hsp : Reg.sp ∉ eps.map Prod.fst) :
    Prepares s i list12 eps
      (s.reg Reg.sp - BitVec.ofNat 32 (4 * (listRegs list12).length + 4 * imm5.toNat)) := by
  obtain ⟨u, hu, hpushed⟩ := pushFrame_ok imm5 hw
  have hend := hfinish u hpushed.sp
  have hpc : u.pc = s.pc := by rw [hpushed.rest]
  refine ⟨finish u, ?_, ?_, ?_, hend.got, ?_, ?_, hpushed.frame hend⟩
  · rw [he, State.prepareWith, hok, if_neg (by simp), hu]
  · rw [hend.rest]
    exact hpushed.holds
  · rw [hend.kept _ hsp, hpushed.sp]
  · rw [hend.pc, State.pcAfter, State.pcAfter, hpc]
  · rw [hend.rest]
    exact hpushed.out

/-- PREPARE without a write of ep. -/
theorem prepares_of_advance (he : exec i s = s.prepareWith list12 imm5 fun u => u.advance i.length)
    (hok : s.alignErrorDetected = false)
    (hw : ∀ k < (listRegs list12).length, Writable s (saveSlot s k) .word) :
    Prepares s i list12 []
      (s.reg Reg.sp - BitVec.ofNat 32 (4 * (listRegs list12).length + 4 * imm5.toNat)) :=
  prepares_of_prepareWith he hok hw (fun _ _ => ⟨by simp, fun _ _ => rfl, rfl, rfl⟩) (by simp)

/-- PREPARE that leaves `v` in ep. -/
theorem prepares_of_setEp {value : State → Word} {v : Word}
    (he : exec i s
      = s.prepareWith list12 imm5 fun u => (u.setReg Reg.ep (value u)).advance i.length)
    (hvalue : ∀ u, u.reg Reg.sp
        = s.reg Reg.sp - BitVec.ofNat 32 (4 * (listRegs list12).length + 4 * imm5.toNat) →
      value u = v)
    (hok : s.alignErrorDetected = false)
    (hw : ∀ k < (listRegs list12).length, Writable s (saveSlot s k) .word) :
    Prepares s i list12 [(Reg.ep, v)]
      (s.reg Reg.sp - BitVec.ofNat 32 (4 * (listRegs list12).length + 4 * imm5.toNat)) := by
  refine prepares_of_prepareWith he hok hw (fun u hsp => ⟨fun p hp => ?_, fun r hr => ?_, ?_, rfl⟩)
    (by simp; decide)
  · obtain rfl : p = (Reg.ep, v) := by simpa using hp
    rw [State.advance_reg, State.reg_setReg_same, if_neg (by decide), hvalue u hsp]
  · exact State.reg_setReg_ne u (by simpa using hr) _
  · rw [State.advance_pc, State.setReg_pcAfter]

end

/-- Settles O40: the five forms save the same frame, and differ in ep and in their length. -/
theorem prepareResult : Obligations.PrepareResult := by
  unfold Obligations.PrepareResult
  intro s list12 imm5 hok hw sp
  refine ⟨?plain, ?sp, fun imm16 => ?imm16, fun imm16 => ?imm16Hi, fun imm32 => ?imm32⟩
  case plain => exact prepares_of_advance rfl hok hw
  case sp => exact prepares_of_setEp (value := fun u => u.reg Reg.sp) rfl (fun _ h => h) hok hw
  case imm16 => exact prepares_of_setEp (value := fun _ => sext imm16) rfl (fun _ _ => rfl) hok hw
  case imm16Hi =>
    exact prepares_of_setEp (value := fun _ => immHigh imm16) rfl (fun _ _ => rfl) hok hw
  case imm32 => exact prepares_of_setEp (value := fun _ => imm32) rfl (fun _ _ => rfl) hok hw

/-! ## DISPOSE -/

section
variable {s u : State} {imm5 : BitVec 5} {list12 : List12} {i : Instr}

/-- What the sp update and the loads of DISPOSE leave, before the end its form asks for. -/
structure FramePopped (s u : State) (imm5 : BitVec 5) (list12 : List12) : Prop where
  got : ∀ p ∈ loadedRegs s imm5 list12, u.reg p.1 = p.2
  kept : ∀ r, r ∉ (loadedRegs s imm5 list12).map Prod.fst → u.reg r = s.reg r
  rest : u = { s with gpr := u.gpr }

/-- The slots of DISPOSE are the pops above sp and the frame. -/
theorem popSlot_frame (sp : Word) (imm5 : BitVec 5) (k : Nat) :
    popSlot (sp + frameBytes imm5) k
      = stackAddr (sp + BitVec.ofNat 32 (4 * imm5.toNat + 4 * k)) := by
  rw [popSlot, frameBytes_eq, BitVec.add_assoc, BitVec.ofNat_add]

/-- The registers that DISPOSE leaves other words in: sp and those of the list. -/
theorem mem_loadedRegs_fst (r : Reg) :
    r ∈ (loadedRegs s imm5 list12).map Prod.fst ↔ r = Reg.sp ∨ r ∈ listRegs list12 := by
  have hfst : (listRegs list12).reverse.zipIdx.map (fun p => p.1) = (listRegs list12).reverse :=
    List.zipIdx_map_fst _ _
  simp only [loadedRegs, List.map_cons, List.map_map, Function.comp_def, List.mem_cons, hfst,
    List.mem_reverse]

/-- Where every slot can be read, DISPOSE loads its registers. -/
theorem popFrame_ok
    (hr : ∀ k < (listRegs list12).length, Readable s (loadSlot s imm5 k) .word) :
    ∃ u, s.popFrame imm5 list12 = .ok u ∧ FramePopped s u imm5 list12 := by
  let s' := s.setReg Reg.sp (s.reg Reg.sp + frameBytes imm5)
  have hsp : s'.reg Reg.sp = s.reg Reg.sp + frameBytes imm5 := by
    rw [State.reg_setReg_same, if_neg (by decide)]
  have hslot : ∀ k, popSlot (s'.reg Reg.sp) k = loadSlot s imm5 k := fun k => by
    rw [hsp, popSlot_frame]
    rfl
  obtain ⟨u, hu, hpopped⟩ := popRegs_ok (listRegs list12).reverse s'
    (List.nodup_reverse.2 (listRegs_nodup list12))
    (fun h => listRegs_sp list12 (List.mem_reverse.1 h))
    (fun h => listRegs_zero list12 (List.mem_reverse.1 h))
    (fun k hk => by
      rw [hslot]
      exact hr k (by simpa using hk))
  refine ⟨u, hu, fun p hp => ?got, fun r hne => ?kept, ?rest⟩
  case got =>
    rcases List.mem_cons.1 hp with rfl | hload
    · rw [hpopped.sp, hsp, frameBytes_eq, List.length_reverse, BitVec.add_assoc, BitVec.ofNat_add]
    · obtain ⟨q, hq, rfl⟩ := List.mem_map.1 hload
      rw [hpopped.got q hq, hslot]
      rfl
  case kept =>
    obtain ⟨hsp', hlist⟩ := not_or.1 ((mem_loadedRegs_fst r).not.1 hne)
    rw [hpopped.regs r hsp' (fun h => hlist (List.mem_reverse.1 h))]
    exact State.reg_setReg_ne s hsp' _
  case rest => rw [hpopped.rest]; rfl

/-- The registers that DISPOSE writes are not r0. -/
theorem loadedRegs_ne_zero {p : Reg × Word} (hp : p ∈ loadedRegs s imm5 list12) : p.1 ≠ 0#5 := by
  rcases (mem_loadedRegs_fst p.1).1 (List.mem_map_of_mem hp) with h | h
  · rw [h]
    decide
  · exact fun h0 => listRegs_zero list12 (h0 ▸ h)

/-- A DISPOSE that goes on at `v` once its registers are loaded. -/
theorem completes_of_framePopped (h : FramePopped s u imm5 list12) {v : Word}
    (he : exec i s = .next (u.setPc v)) :
    Completes s i (reducePc v) (loadedRegs s imm5 list12) [] := by
  refine ⟨_, he, fun p hp => ?got, by simp, rfl, h.kept, fun k _ => ?psw, fun x _ => ?memory,
    fun _ => ?output, ?others⟩
  case got =>
    rw [if_neg (loadedRegs_ne_zero hp)]
    exact h.got p hp
  all_goals
    rw [h.rest]
    rfl

/-- DISPOSE ends where its form says, where no alignment error is due. -/
theorem exec_of_disposeWith {finish : State → State}
    (he : exec i s = s.disposeWith imm5 list12 finish) (hok : s.alignErrorDetected = false)
    (hu : s.popFrame imm5 list12 = .ok u) : exec i s = .next (finish u) := by
  rw [he, State.disposeWith, hok, if_neg (by simp), hu]

end

/-- Settles O41: both forms load the same frame; the jump reads its register after that. -/
theorem disposeResult : Obligations.DisposeResult := by
  unfold Obligations.DisposeResult
  intro s imm5 list12 hok hr
  obtain ⟨u, hu, hpopped⟩ := popFrame_ok hr
  refine ⟨?goOn, fun reg1 => ?jump⟩
  case goOn =>
    have he : exec (.dispose imm5 list12) s = .next (u.setPc (s.pcAfter 4)) := by
      have h := exec_of_disposeWith (i := .dispose imm5 list12) rfl hok hu
      rw [h, advance_eq_setPc, State.pcAfter, hpopped.rest]
      rfl
    have h := completes_of_framePopped hpopped he
    rw [reducePc_pcAfter] at h
    exact h
  case jump =>
    refine ⟨u.reg reg1, fun p hp hreg => hreg ▸ hpopped.got p hp, hpopped.kept reg1, ?_⟩
    exact completes_of_framePopped hpopped
      (exec_of_disposeWith (finish := fun u => u.setPc (u.reg reg1)) rfl hok hu)

end Sys2Proof.Safety
end


section
/-! SUPPORT. The breakpoint channels: what one bus event does in a pair, which channels the events
of an instruction make break, and what a break leaves (60_exceptions.md R460 to R464). -/

namespace Sys2Proof.Safety

open Sys2Proof.Machine

/-! ## One event in a pair (R462) -/

/-- The first channel breaks outside sequential mode, in range mode with the second. -/
theorem pairOutcome_first_iff (sq re seq evA evB beA beB : Bool) :
    (pairOutcome sq re seq evA evB beA beB).first = true
      ↔ evA = true ∧ beA = true ∧ sq = false ∧ (re = true → evB = true) := by
  match sq, re with
  | false, false => simp [pairOutcome]
  | true, false => simp [pairOutcome]
  | false, true => simp [pairOutcome, and_comm, and_assoc]
  | true, true => simp [pairOutcome]

/-- The second channel breaks, in sequential mode with the progress, in range mode with the first.
-/
theorem pairOutcome_second_iff (sq re seq evA evB beA beB : Bool) :
    (pairOutcome sq re seq evA evB beA beB).second = true
      ↔ evB = true ∧ beB = true ∧ (sq = true → re = false ∧ seq = true)
        ∧ (re = true → evA = true) := by
  match sq, re with
  | false, false => simp [pairOutcome]
  | true, false => simp [pairOutcome, and_assoc]
  | false, true => simp [pairOutcome, and_comm (a := evA = true), and_assoc]
  | true, true => simp [pairOutcome]

/-- The progress in sequential mode: set by the first channel, cleared by a break of the second. -/
theorem pairOutcome_seq_iff (seq evA evB beA beB : Bool) :
    (pairOutcome true false seq evA evB beA beB).seq = true
      ↔ evA = true ∨ seq = true ∧ ¬(pairOutcome true false seq evA evB beA beB).second = true := by
  revert seq evA evB beA beB
  decide

/-- No progress outside sequential mode. -/
theorem pairOutcome_seq_off (re seq evA evB beA beB : Bool) :
    (pairOutcome false re seq evA evB beA beB).seq = false := by
  cases re <;> rfl

section
variable {s : State} {w : Watch} {e : BusEvent} {n : Fin 4}

/-- What `e` does in the pair of the channels `a` and `b`. -/
def pairAt (s : State) (w : Watch) (e : BusEvent) (a b : Fin 4) : PairOutcome :=
  pairOutcome (s.dir.getLsbD (sqBit a)) (s.dir.getLsbD (reBit a))
    (progressOf (s.keepProgress w) a)
    (s.channelEvent s.channels[a.val] e) (s.channelEvent s.channels[b.val] e)
    (s.channels[a.val].bpc.getLsbD Bpc.be) (s.channels[b.val].bpc.getLsbD Bpc.be)

/-- What `e` does in the pair of channel `n`. -/
def pairOf (s : State) (w : Watch) (e : BusEvent) : Fin 4 → PairOutcome
  | 0 | 1 => pairAt s w e 0 1
  | 2 | 3 => pairAt s w e 2 3

/-- Channel `n` broke in its pair. -/
def brokeIn (p : PairOutcome) : Fin 4 → Bool
  | 0 | 2 => p.first
  | 1 | 3 => p.second

/-- A channel that takes part sees the event in its pair. -/
theorem observe_of_takesPart (h : TakesPart s n) :
    hitOf (s.observe w e) n = (hitOf w n || brokeIn (pairOf s w e n) n)
      ∧ progressOf (s.keepProgress (s.observe w e)) n = (pairOf s w e n).seq := by
  obtain ⟨huser, hmodelled, hext⟩ := h
  have hactive : s.breakpointsActive = true := by simp [State.breakpointsActive, huser, hmodelled]
  unfold State.observe
  dsimp only
  rw [if_pos hactive]
  match n with
  | 0 | 1 => split <;> exact ⟨rfl, rfl⟩
  | 2 | 3 =>
    rw [if_pos (hext (by decide))]
    exact ⟨rfl, rfl⟩

/-- A channel that takes no part does not see it. -/
theorem observe_of_not_takesPart (h : ¬TakesPart s n) :
    hitOf (s.observe w e) n = hitOf w n
      ∧ progressOf (s.keepProgress (s.observe w e)) n = progressOf (s.keepProgress w) n := by
  unfold State.observe
  dsimp only
  split
  · rename_i hactive
    obtain ⟨huser, hmodelled⟩ := Bool.and_eq_true_iff.1 hactive
    have hext : 2 ≤ n.val ∧ ¬s.dir.getLsbD Dir.ext = true := by
      by_contra hc
      exact h ⟨huser, hmodelled, fun h2 => by_contra fun hx => hc ⟨h2, hx⟩⟩
    obtain ⟨h2, hext⟩ := hext
    rw [if_neg hext]
    match n with
    | 0 | 1 => exact absurd h2 (by decide)
    | 2 | 3 => exact ⟨rfl, rfl⟩
  · exact ⟨rfl, rfl⟩

/-- A break in the pair is as BreaksOn says. -/
theorem brokeIn_pairOf_iff (h : TakesPart s n) :
    brokeIn (pairOf s w e n) n = true ↔ BreaksOn (s.keepProgress w) e n := by
  have hpart : TakesPart (s.keepProgress w) n := h
  simp only [BreaksOn, hpart, true_and]
  match n with
  | 0 | 2 =>
    refine (pairOutcome_first_iff _ _ _ _ _ _ _).trans (and_congr_right' (and_congr_right'
      (and_congr_left' ?_)))
    simp
  | 1 | 3 =>
    refine (pairOutcome_second_iff _ _ _ _ _ _ _).trans (and_congr_right' (and_congr_right'
      (and_congr_left' ?_)))
    simp
    rfl

/-- One more event makes exactly the channels of BreaksOn break. -/
theorem hitOf_observe_iff :
    hitOf (s.observe w e) n = true
      ↔ hitOf w n = true ∨ BreaksOn (s.keepProgress w) e n := by
  by_cases h : TakesPart s n
  · rw [(observe_of_takesPart h).1, Bool.or_eq_true, brokeIn_pairOf_iff h]
  · have hnot : ¬BreaksOn (s.keepProgress w) e n := fun hb => h hb.1
    rw [(observe_of_not_takesPart h).1, or_iff_left hnot]

/-- A second channel sees its own event after that of its partner. -/
theorem pairOf_second (hn : n = 1 ∨ n = 3) : pairOf s w e n =
    pairOutcome (s.dir.getLsbD (sqBit n)) (s.dir.getLsbD (reBit n))
      (progressOf (s.keepProgress w) n)
      (s.channelEvent s.channels[(partner n).val] e) (s.channelEvent s.channels[n.val] e)
      (s.channels[(partner n).val].bpc.getLsbD Bpc.be) (s.channels[n.val].bpc.getLsbD Bpc.be) := by
  obtain rfl | rfl := hn
  · rfl
  · rfl

theorem brokeIn_second (hn : n = 1 ∨ n = 3) (p : PairOutcome) : brokeIn p n = p.second := by
  obtain rfl | rfl := hn
  · rfl
  · rfl

/-- What one more event makes of the progress of the pair whose second channel is `n`. -/
theorem progressLeft_observe (hn : n = 1 ∨ n = 3) :
    ProgressLeft (s.keepProgress w) (s.keepProgress (s.observe w e)) e n := by
  refine ⟨fun hpart hsq hre => ?sequential, fun hpart hsq => ?off, fun hpart hsq hre => ?both,
    fun hpart => (observe_of_not_takesPart hpart).2⟩
  all_goals
    have hpart : TakesPart s n := hpart
    have hsq : s.dir.getLsbD (sqBit n) = _ := hsq
    rw [(observe_of_takesPart hpart).2]
  case sequential =>
    have hre : s.dir.getLsbD (reBit n) = false := hre
    rw [← brokeIn_pairOf_iff hpart, brokeIn_second hn, pairOf_second hn, hsq, hre]
    exact pairOutcome_seq_iff _ _ _ _ _
  case off =>
    rw [pairOf_second hn, hsq]
    exact pairOutcome_seq_off _ _ _ _ _ _
  case both =>
    have hre : s.dir.getLsbD (reBit n) = true := hre
    rw [pairOf_second hn, hsq, hre]
    rfl

/-- An event that breaks a channel whatever the progress breaks it among the events of an
instruction. -/
theorem hitOf_watch_of_mem {es : List BusEvent} (he : e ∈ es)
    (hbreak : ∀ w, BreaksOn (s.keepProgress w) e n) : hitOf (s.watch es) n = true := by
  induction es using List.reverseRecOn with
  | nil => cases he
  | append_singleton es x ih =>
    rw [watch_append, hitOf_observe_iff]
    rcases List.mem_append.1 he with hin | hlast
    · exact .inl (ih hin)
    · rw [List.mem_singleton.1 hlast] at hbreak
      exact .inr (hbreak _)

/-- Outside the pair modes an event of a channel with BE set breaks it, whatever the progress. -/
theorem breaksOn_of_event (hpart : TakesPart s n) (hsq : s.dir.getLsbD (sqBit n) = false)
    (hre : s.dir.getLsbD (reBit n) = false) (hbe : s.channels[n.val].bpc.getLsbD Bpc.be = true)
    (hevent : EventOf s e n) (w : Watch) : BreaksOn (s.keepProgress w) e n :=
  ⟨hpart, hevent, hbe, fun h => absurd (hsq.symm.trans h) (by decide),
    fun h => absurd (hre.symm.trans h) (by decide)⟩

/-! ## What a break leaves (R428, R464) -/

/-- A state that a channel break leaves but for the channels and the fields of the step. -/
theorem brokeInto_of_channelBreak {t : State}
    (h : t = { s.channelBreak w s.pc with
      channels := t.channels, stepDue := t.stepDue, afterReset := t.afterReset
      tick := t.tick, choice := t.choice }) : BrokeInto s t w := by
  have hentry := debugBreak_entered (s.keepProgress w) s.pc
  have hdir : t.dir = (s.channelBreak w s.pc).dir := by rw [h]
  have hpsw : t.psw = ((s.keepProgress w).debugBreak s.pc).psw := by rw [h]; rfl
  refine ⟨?dbpc, ?dbpsw, fun k hk => ?set, fun k hk => ?psw, fun k => ?dir, ?pc, ?halted, ?progress,
    ?others⟩
  case set =>
    rw [hpsw]
    exact hentry.set k hk
  case psw =>
    rw [hpsw]
    exact hentry.psw k hk
  case dir =>
    rw [hdir]
    exact channelBreak_dir s w s.pc k
  case pc =>
    rw [h]
    exact hentry.pc
  case halted => rw [h, State.channelBreak, State.debugBreak_eq]
  case progress =>
    rw [h]
    exact ⟨rfl, rfl⟩
  case dbpc | dbpsw | others =>
    rw [h]
    rfl

/-- A channel break leaves the registers and memory. -/
theorem BrokeInto.reg {t : State} (h : BrokeInto s t w) (r : Reg) : t.reg r = s.reg r :=
  State.reg_congr (by rw [h.others]) r

theorem BrokeInto.mem {t : State} (h : BrokeInto s t w) : t.mem = s.mem := by rw [h.others]

theorem BrokeInto.userMode {t : State} (h : BrokeInto s t w) : t.userMode = false := by
  rw [State.userMode, (h.dir Dir.dm).2 (.inl rfl)]
  rfl

/-- BTn of a channel that broke is set unless INI is. -/
theorem BrokeInto.marked {t : State} (h : BrokeInto s t w) (hhit : hitOf w n = true)
    (hini : s.dir.getLsbD Dir.ini = false) : t.dir.getLsbD (btBit n) = true :=
  (h.dir _).2 (.inr (.inr ⟨hini, n, rfl, hhit⟩))

/-- A recorded FB is a listed one (10_state.md R54). -/
theorem withFb_fb (ch : BreakChannel) (k : Fin 4) :
    (ch.withFb k).bpc.extractLsb' 24 3 ∈ [0b000#3, 0b010#3, 0b100#3, 0b001#3] := by
  have hmask : ∀ j < 3, (0x07000000#32).getLsbD (24 + j) = true := by decide
  have hext : (ch.withFb k).bpc.extractLsb' 24 3 = (fbValue k).extractLsb' 24 3 := by
    apply BitVec.eq_of_getLsbD_eq
    intro j hj
    show ((mergeBits 0x07000000#32 ch.bpc (fbValue k)).extractLsb' 24 3).getLsbD j = _
    rw [BitVec.getLsbD_extractLsb', BitVec.getLsbD_extractLsb', mergeBits_getLsbD,
      if_pos (hmask j hj)]
  have hlisted : ∀ k, (fbValue k).extractLsb' 24 3 ∈ [0b000#3, 0b010#3, 0b100#3, 0b001#3] := by
    decide
  rw [hext]
  exact hlisted k

/-! ## Breaks of a fetch -/

/-- A ready step whose fetch breaks a channel does not run the instruction. -/
theorem fetchBreak_step {code : List Half} (hready : Ready s) (hfetch : s.fetch = .ok code)
    (hset : s.prohibitedSetting = false) (hhit : (s.watch [s.fetchEvent code]).hit = true) :
    step s = .next (s.fetchBreak (s.watch [s.fetchEvent code])).nextTick := by
  rw [ready_step hready, State.runInstruction, hfetch]
  dsimp only
  rw [State.runCode, hset, if_neg (by simp), if_pos hhit]

/-- What such a step leaves. -/
theorem fetchBreak_brokeInto (s : State) (w : Watch) :
    BrokeInto s (s.fetchBreak w).nextTick w :=
  brokeInto_of_channelBreak rfl

/-- The channels after it: a listed FB in those that broke. -/
theorem fetchBreak_channel (s : State) (w : Watch) (n : Fin 4) :
    (hitOf w n = false → (s.fetchBreak w).nextTick.channels[n.val] = s.channels[n.val])
      ∧ (hitOf w n = true →
        (s.fetchBreak w).nextTick.channels[n.val].bpc.extractLsb' 24 3
            ∈ [0b000#3, 0b010#3, 0b100#3, 0b001#3]
          ∧ (∀ k, ¬(24 ≤ k ∧ k ≤ 26) →
            (s.fetchBreak w).nextTick.channels[n.val].bpc.getLsbD k
              = s.channels[n.val].bpc.getLsbD k)
          ∧ (s.fetchBreak w).nextTick.channels[n.val]
            = { s.channels[n.val] with bpc := (s.fetchBreak w).nextTick.channels[n.val].bpc }) := by
  have hch : (s.fetchBreak w).nextTick.channels[n.val]
      = if hitOf w n = true then (s.channels[n.val]).withFb (Config.fetchBreakFb s.tick n.val)
        else s.channels[n.val] := recordFb_channel s w n
  rw [hch]
  refine ⟨fun hmiss => if_neg (by simp [hmiss]), fun hhit => ?_⟩
  rw [if_pos hhit]
  exact ⟨withFb_fb _ _, withFb_getLsbD _ _, rfl⟩

/-! ## Breaks of accesses -/

/-- What an instruction leaves whose accesses break a channel, or break none. -/
theorem runDecoded_breaks {t : State} {i : Instr} (hexec : exec i s = .next t) :
    let w := t.watch (s.accesses i)
    ∃ u, s.runDecoded i = .next u ∧ u.afterReset = false
      ∧ ((∃ n, hitOf w n = true) → BrokeInto t u w ∧ u.stepDue = false ∧ u.channels = t.channels
        ∧ u.tick = t.tick ∧ u.choice = t.choice)
      ∧ ((∀ n, hitOf w n = false) →
        u = { t with
          seq0 := w.seq0, seq1 := w.seq1, stepDue := u.stepDue, afterReset := false }) := by
  intro w
  have hrun : s.runDecoded i = .next (s.finishInstruction (t.afterAccesses (s.accesses i))) := by
    rw [State.runDecoded, hexec]
  refine ⟨_, hrun, rfl, fun hhit => ?broke, fun hmiss => ?missed⟩
  case broke =>
    have hafter : t.afterAccesses (s.accesses i) = t.channelBreak w t.pc :=
      if_pos ((hit_iff w).2 hhit)
    rw [hafter]
    refine ⟨brokeInto_of_channelBreak rfl, ?_, rfl, rfl, rfl⟩
    show (_ && (t.channelBreak w t.pc).userMode) = false
    rw [channelBreak_userMode, Bool.and_false]
  case missed =>
    have hnone : ¬w.hit = true := by
      rw [hit_iff]
      rintro ⟨n, hn⟩
      simp [hmiss n] at hn
    have hafter : t.afterAccesses (s.accesses i) = t.keepProgress w := if_neg hnone
    rw [hafter]
    rfl

end

/-! ## The statements -/

/-- Settles O60: one more event by `hitOf_observe_iff` and `progressLeft_observe`, a step by whether
the events of its fetch, and then those of its accesses, break a channel. -/
theorem breakModes : Obligations.BreakModes := by
  unfold Obligations.BreakModes
  refine ⟨fun s n => ?start, fun s es e => ?event, fun s code hready hfetch hset => ?fetch,
    fun s t i => runDecoded_breaks⟩
  case start =>
    match n with
    | 0 | 1 | 2 | 3 => exact ⟨rfl, rfl⟩
  case event =>
    intro before after
    have hafter : after = s.keepProgress (s.observe (s.watch es) e) := by
      rw [← watch_append]
    rw [watch_append, hafter]
    exact ⟨fun n => hitOf_observe_iff, progressLeft_observe (.inl rfl),
      progressLeft_observe (.inr rfl)⟩
  case fetch =>
    intro w
    refine ⟨fun hhit => ?broke, fun hmiss => ⟨hfetch, hset, ?missed⟩⟩
    case broke =>
      exact ⟨_, fetchBreak_step hready hfetch hset ((hit_iff w).2 hhit), fetchBreak_brokeInto s w,
        hready.1, rfl, rfl, fetchBreak_channel s w⟩
    case missed =>
      rw [Bool.eq_false_iff, Ne, hit_iff]
      rintro ⟨n, hn⟩
      exact absurd ((hmiss n).symm.trans hn) (by decide)

/-- Settles O59: an event of a channel breaks it outside the pair modes, and the instruction then
ends in the break. -/
theorem accessBreak : Obligations.AccessBreak := by
  unfold Obligations.AccessBreak
  intro s t i e n hexec he hpart hsq hre hbe hevent
  have hhit := hitOf_watch_of_mem he (breaksOn_of_event hpart hsq hre hbe hevent)
  obtain ⟨u, hrun, _, hbroke, _⟩ := runDecoded_breaks hexec
  obtain ⟨hinto, hdue, _⟩ := hbroke ⟨n, hhit⟩
  exact ⟨u, hrun, hinto.dbpc, hinto.dbpsw, hinto.pc, hinto.userMode, hinto.halted, hdue,
    hinto.marked hhit, hinto.reg, fun a => by rw [hinto.mem]⟩

/-- A channel set to an execution address (60_exceptions.md R461, Table 9-1). -/
theorem eventOf_fetch {s : State} {code : List Half} {n : Fin 4}
    (hctl : s.channels[n.val].bpc &&& 0x0000818F#32 = 0x0000008C#32)
    (hpam : s.channels[n.val].bpam = 0#32) (hpav : s.channels[n.val].bpav = s.pc) :
    s.channels[n.val].bpc.getLsbD Bpc.be = true ∧ EventOf s (s.fetchEvent code) n := by
  have hbit : ∀ k < 32, (0x0000818F#32).getLsbD k = true →
      s.channels[n.val].bpc.getLsbD k = (0x0000008C#32).getLsbD k := by
    intro k hk hmask
    rw [← hctl, BitVec.getLsbD_and, hmask, Bool.and_true]
  have hre : s.channels[n.val].bpc.getLsbD Bpc.re = false := hbit _ (by decide) (by decide)
  have hwe : s.channels[n.val].bpc.getLsbD Bpc.we = false := hbit _ (by decide) (by decide)
  have hfe : s.channels[n.val].bpc.getLsbD Bpc.fe = true := hbit _ (by decide) (by decide)
  have hmd : s.channels[n.val].bpc.getLsbD Bpc.md = true := hbit _ (by decide) (by decide)
  have hva : s.channels[n.val].bpc.getLsbD Bpc.va = false := hbit _ (by decide) (by decide)
  have hie : s.channels[n.val].bpc.getLsbD Bpc.ie = false := hbit _ (by decide) (by decide)
  refine ⟨hbit Bpc.be (by decide) (by decide), ?_⟩
  have hkind : kindSelected s.channels[n.val] .fetch = true := by
    rw [kindSelected, hfe, hre, hwe]
    rfl
  have haddr : addrMatches s.channels[n.val] s.pc = true := by
    rw [addrMatches, hpav, hpam, hva, BitVec.xor_self]
    decide
  have hasid : asidMatches s.channels[n.val] s.asid = true := by
    rw [asidMatches, hie]
    rfl
  have hdata : ∀ d, dataMatches s.channels[n.val] d = true := by
    intro d
    rw [dataMatches, hmd, Bool.true_or]
  show (kindSelected _ .fetch && addrMatches _ s.pc && typeMatches _ .fetch .half
    && asidMatches _ _ && dataMatches _ _) = true
  rw [hkind, haddr, hasid, hdata]
  rfl

/-- Settles O58: the fetch at the address is an event of the channel, which breaks it outside the
pair modes, and the step then ends in the break. -/
theorem executionBreak : Obligations.ExecutionBreak := by
  unfold Obligations.ExecutionBreak
  intro s code n hready hfetch hset hpart hsq hre hctl hpam hpav
  obtain ⟨hbe, hevent⟩ := eventOf_fetch (code := code) hctl hpam hpav
  have hhit := hitOf_watch_of_mem (List.mem_singleton_self _)
    (breaksOn_of_event hpart hsq hre hbe hevent)
  have hinto := fetchBreak_brokeInto s (s.watch [s.fetchEvent code])
  exact ⟨_, fetchBreak_step hready hfetch hset ((hit_iff _).2 ⟨n, hhit⟩), hinto.dbpc, hinto.dbpsw,
    hinto.pc, hinto.userMode, hinto.halted, hinto.marked hhit, hinto.reg,
    fun a => by rw [hinto.mem]⟩

end Sys2Proof.Safety
end
